-- ==== Sys2Proof/Word.lean ====
section
/-! DEFINITION. The word types of the T24: the widths the spec gives to bytes, track positions, distances, times and
item tags (00 section 4, 10 Table 10-2). Arithmetic on them is in Machine/Ops.lean. -/

namespace Sys2Proof

/-- A byte of the host link. -/
abbrev Byte := BitVec 8

/-- A track position: 32 bits, wrapping (R7). -/
abbrev Pos := BitVec 32

/-- A distance in counts, in the 32 bits a message gives it (Table 10-2). -/
abbrev Dist := BitVec 32

/-- A value of the 48-bit microsecond time base (R11). -/
abbrev Time := BitVec 48

/-- An item tag, 1 to 65535 (R36). -/
abbrev Tag := BitVec 16

end Sys2Proof
end

