-- ==== Sys2Proof/Config.lean ====
section
/-! DEFINITION. What the part fixes once (capacities, codes and widths of pulses the spec states) and the one free
value of the model, the order the spec leaves open. -/

namespace Sys2Proof.Config

/-- The free choice of an order the spec leaves open (targets of different owners reached by one count, receivers of
one edge): the k-th choice is this number, taken modulo the number of candidates. It has no body, so nothing can be
proved about which candidate comes first (log 11, log 12). -/
opaque freeChoice : Nat → Nat

/-- R30: the track holds at most 64 items. -/
def trackCapacity : Nat := 64
/-- R143: the reply queue holds up to 8 reply frames. -/
def replyCapacity : Nat := 8
/-- R144: the notice queue holds at most 32 notices. -/
def noticeCapacity : Nat := 32
/-- R148: a NOTICE burst is at most four frames. -/
def noticeBurst : Nat := 4
/-- R148: a DUMP burst is looked at when its 7th frame completes. -/
def dumpLook : Nat := 7
/-- R148: the limit of a DUMP burst while REPLY or NOTICE is ready. -/
def dumpBurstShort : Nat := 8
/-- R148: the limit of a DUMP burst when neither was ready at the look. -/
def dumpBurstLong : Nat := 16
/-- R63: READ_STATION reports at most 28 open windows. -/
def reportedWindows : Nat := 28
/-- R57: the greatest offset, in counts. -/
def maxOffset : Nat := 4000000
/-- R52: the greatest MAX_LENGTH, in counts. -/
def maxMaxLength : Nat := 1000000
/-- R57: the least pulse length, in microseconds. -/
def minPulse : Nat := 50
/-- R157: span failures in a row that end a teach. -/
def teachFailures : Nat := 3

/-- R150: the vendor code. -/
def vendorCode : Byte := 0x62
/-- R150: the part code. -/
def partCode : BitVec 16 := 0x0124
/-- R150: the silicon revision. -/
def revision : Byte := 1

/-- Table 7-5: the SYNC filter, in microseconds. -/
def syncFilter : Time := 20
/-- Table 7-5: the LINE-STOP filter, in microseconds. -/
def lineStopFilter : Time := 100
/-- Table 7-5: the E-STOP filter, in microseconds. -/
def estopFilter : Time := 2000
/-- R119: the width of a SYNC drive, in microseconds. -/
def syncPulse : Time := 100

/-- R138: the gap timer runs 16 character times, 160 bit times. -/
def gapBits : Nat := 160
/-- R136: the idle count is 64 character times, 640 bit times. -/
def idleBits : Nat := 640
/-- Table 0-8: the link rate of each rate code, in bits per second. -/
def baud (rate : BitVec 2) : Nat :=
  match rate.toNat with
  | 0 => 115200
  | 1 => 460800
  | 2 => 921600
  | _ => 1500000

/-- Table 10-3: the request kinds. -/
def requestKinds : List Byte :=
  [0x01, 0x02, 0x03, 0x04, 0x08, 0x09, 0x0C, 0x0D, 0x0E, 0x0F, 0x10, 0x11, 0x12, 0x13, 0x14, 0x15, 0x16, 0x18] ++
  [0x19, 0x1A, 0x1B, 0x20, 0x21, 0x22, 0x24, 0x25, 0x26, 0x27, 0x28, 0x29, 0x2A, 0x2B, 0x2C, 0x2E, 0x2F]

end Sys2Proof.Config
end

