-- ==== Sys2Proof/Syntax.lean ====
section
/-! DEFINITION. The commands of the T24: one constructor of Instr per row of spec/opcode_table.json, with the row's
operands. A request carries its TAG and its raw payload, since the length check (R141) is part of its meaning. -/

namespace Sys2Proof

/-- The two encoder channels (R1). -/
inductive EncChannel where
  | a
  | b
  deriving DecidableEq, Repr

/-- The three line inputs (R118). -/
inductive LinePin where
  | sync
  | lineStop
  | estop
  deriving DecidableEq, Repr

/-- The strap levels RATE1:0 and UNIT3:0 (R135). -/
structure Straps where
  rate : BitVec 2
  unitId : BitVec 4
  deriving DecidableEq, Repr

/-- The levels on the input pins and straps at the end of a reset (R1, R16, R118, R135). `true` is high. -/
structure PinLevels where
  encA : Bool
  encB : Bool
  sense : Vector Bool 8
  sync : Bool
  lineStop : Bool
  estopN : Bool
  straps : Straps
  deriving DecidableEq, Repr

/-- The commands, in the order of the table. -/
inductive Instr where
  | identify (tag : Byte) (payload : List Byte)
  | status (tag : Byte) (payload : List Byte)
  | reset (tag : Byte) (payload : List Byte)
  | setNotices (tag : Byte) (payload : List Byte)
  | setEncoder (tag : Byte) (payload : List Byte)
  | readPosition (tag : Byte) (payload : List Byte)
  | setInput (tag : Byte) (payload : List Byte)
  | readInput (tag : Byte) (payload : List Byte)
  | armProbe (tag : Byte) (payload : List Byte)
  | disarmProbe (tag : Byte) (payload : List Byte)
  | setZone (tag : Byte) (payload : List Byte)
  | readItem (tag : Byte) (payload : List Byte)
  | dumpTrack (tag : Byte) (payload : List Byte)
  | removeItem (tag : Byte) (payload : List Byte)
  | loadStations (tag : Byte) (payload : List Byte)
  | setStationMode (tag : Byte) (payload : List Byte)
  | readStation (tag : Byte) (payload : List Byte)
  | loadClass (tag : Byte) (payload : List Byte)
  | setSource (tag : Byte) (payload : List Byte)
  | verdict (tag : Byte) (payload : List Byte)
  | classify (tag : Byte) (payload : List Byte)
  | setOutput (tag : Byte) (payload : List Byte)
  | pulseOutput (tag : Byte) (payload : List Byte)
  | readOutputs (tag : Byte) (payload : List Byte)
  /-- START; its payload is the form SYNC, or one that is neither form (log 4). -/
  | startSync (tag : Byte) (payload : List Byte)
  /-- START; its payload is the form LOCAL, or one that is neither form (log 4). -/
  | startLocal (tag : Byte) (payload : List Byte)
  | syncPulse (tag : Byte) (payload : List Byte)
  | stopLine (tag : Byte) (payload : List Byte)
  | hold (tag : Byte) (payload : List Byte)
  | resume (tag : Byte) (payload : List Byte)
  | stop (tag : Byte) (payload : List Byte)
  | estop (tag : Byte) (payload : List Byte)
  | clear (tag : Byte) (payload : List Byte)
  | setLine (tag : Byte) (payload : List Byte)
  | teach (tag : Byte) (payload : List Byte)
  | teachAbort (tag : Byte) (payload : List Byte)
  | requestOfUnknownKind (kind tag : Byte) (payload : List Byte)
  /-- A byte on RXD, judged by its stop bit: `good` when the stop bit was sampled high (R135). -/
  | receiveByte (byte : Byte) (good : Bool)
  | gapTimerExpiry
  | settlingIdleExpiry
  | arbiterGrant
  /-- A frame has been sent in full; the straps are read only when it is the reply to RESET (R135, R151). -/
  | frameSent (straps : Straps)
  | nrst (pins : PinLevels)
  | powerUp (pins : PinLevels)
  /-- An acceptance moment of the encoder, at which the named channels change together (R1). -/
  | encoderAcceptance (chanA chanB : Bool)
  | inputAcceptance (input : Fin 8)
  | lineInputAcceptance (line : LinePin)
  | outputOnEnd (output : Fin 8)
  | outputRecoverEnd (output : Fin 8)
  | syncDriveEnd
  | lineStopDriveEnd
  | encoderRawChange (chan : EncChannel) (level : Bool)
  | inputRawChange (input : Fin 8) (level : Bool)
  /-- The level the line takes apart from this unit's own drive (log 13). -/
  | lineRawChange (line : LinePin) (level : Bool)
  | timeBaseTick
  deriving DecidableEq, Repr

end Sys2Proof
end

