-- ==== Sys2Proof/WellFormed.lean ====
section
/-! DEFINITION. Which commands can be sent: a payload fits its frame (Table 10-1), the two START rows do not carry
each other's form (R121), an unknown kind is no request kind (R141), an acceptance moment changes a channel (R1). -/

namespace Sys2Proof

/-- Table 10-1: a payload has 0 to 248 bytes. -/
def payloadFits (payload : List Byte) : Bool := payload.length ≤ 248

/-- A command the outside world can send. -/
def Instr.wf (i : Instr) : Bool :=
  match i with
  | .identify _ p => payloadFits p
  | .status _ p => payloadFits p
  | .reset _ p => payloadFits p
  | .setNotices _ p => payloadFits p
  | .setEncoder _ p => payloadFits p
  | .readPosition _ p => payloadFits p
  | .setInput _ p => payloadFits p
  | .readInput _ p => payloadFits p
  | .armProbe _ p => payloadFits p
  | .disarmProbe _ p => payloadFits p
  | .setZone _ p => payloadFits p
  | .readItem _ p => payloadFits p
  | .dumpTrack _ p => payloadFits p
  | .removeItem _ p => payloadFits p
  | .loadStations _ p => payloadFits p
  | .setStationMode _ p => payloadFits p
  | .readStation _ p => payloadFits p
  | .loadClass _ p => payloadFits p
  | .setSource _ p => payloadFits p
  | .verdict _ p => payloadFits p
  | .classify _ p => payloadFits p
  | .setOutput _ p => payloadFits p
  | .pulseOutput _ p => payloadFits p
  | .readOutputs _ p => payloadFits p
  | .startSync _ p => payloadFits p && p != [1]
  | .startLocal _ p => payloadFits p && p != [0]
  | .syncPulse _ p => payloadFits p
  | .stopLine _ p => payloadFits p
  | .hold _ p => payloadFits p
  | .resume _ p => payloadFits p
  | .stop _ p => payloadFits p
  | .estop _ p => payloadFits p
  | .clear _ p => payloadFits p
  | .setLine _ p => payloadFits p
  | .teach _ p => payloadFits p
  | .teachAbort _ p => payloadFits p
  | .requestOfUnknownKind k _ p => payloadFits p && !(Config.requestKinds.contains k)
  | .receiveByte _ _ => true
  | .gapTimerExpiry => true
  | .settlingIdleExpiry => true
  | .arbiterGrant => true
  | .frameSent _ => true
  | .nrst _ => true
  | .powerUp _ => true
  | .encoderAcceptance a b => a || b
  | .inputAcceptance _ => true
  | .lineInputAcceptance _ => true
  | .outputOnEnd _ => true
  | .outputRecoverEnd _ => true
  | .syncDriveEnd => true
  | .lineStopDriveEnd => true
  | .encoderRawChange _ _ => true
  | .inputRawChange _ _ => true
  | .lineRawChange _ _ => true
  | .timeBaseTick => true

end Sys2Proof
end

