-- ==== Sys2Proof/Machine/State.lean ====
section
/-! DEFINITION. The state of the T24: every piece of state the spec names, nested by the nine blocks of Table 0-1, with
the queue of waiting commands; and State.reset, the machine right after reset. Cross-references to log entries are to
notes/assumptions/. -/

namespace Sys2Proof.Machine

/-! ## POS (Chapter 1) -/

/-- Table 1-1. -/
inductive EncMode where
  | quadX1
  | quadX2
  | quadX4
  | upDown
  deriving DecidableEq, Repr

/-- Table 1-4: the encoder filter, 0.1 µs or 0.5 µs. -/
inductive EncFilter where
  | ns100
  | ns500
  deriving DecidableEq, Repr

/-- An encoder channel: the level on its pin and its accepted level. A wait is in progress while they differ (R1). -/
structure Channel where
  raw : Bool
  accepted : Bool
  deriving DecidableEq, Repr

/-- The Position Unit (Table 1-5). -/
structure PosUnit where
  mode : EncMode
  invert : Bool
  enable : Bool
  filter : EncFilter
  chanA : Channel
  chanB : Channel
  refA : Bool
  refB : Bool
  position : Pos
  highWater : Pos
  encErrors : BitVec 16
  timeBase : Time
  deriving DecidableEq, Repr

/-! ## INP (Chapter 2) -/

/-- Table 2-2. -/
inductive Role where
  | unused
  | entry
  | check
  | verdict
  | general
  deriving DecidableEq, Repr

/-- Table 2-1. -/
inductive InputFilter where
  | off
  | us20
  | us250
  | ms2
  | ms8
  deriving DecidableEq, Repr

/-- R17: the two kinds of edge. -/
inductive EdgeKind where
  | leading
  | trailing
  deriving DecidableEq, Repr

/-- Table 2-5. -/
inductive ProbeState where
  | disarmed
  | armedOnce
  | armedEvery
  | spent
  deriving DecidableEq, Repr

/-- Table 2-5. -/
inductive EdgeSel where
  | leading
  | trailing
  | both
  deriving DecidableEq, Repr

/-- R25: the last capture of a probe. -/
structure Capture where
  edge : EdgeKind
  position : Pos
  time : Time
  deriving DecidableEq, Repr

/-- R25: a probe record. -/
structure Probe where
  state : ProbeState
  sel : EdgeSel
  count : BitVec 8
  last : Option Capture
  deriving DecidableEq, Repr

/-- A sense input (Table 2-8). `wait` is the time at which the wait in progress runs out (R15). -/
structure Input where
  role : Role
  activeLow : Bool
  filter : InputFilter
  raw : Bool
  accepted : Bool
  wait : Option Time
  probe : Probe
  deriving DecidableEq, Repr

/-- The Input Unit. -/
structure InpUnit where
  inputs : Vector Input 8
  deriving DecidableEq, Repr

/-! ## Classes, sources and verdicts (Chapter 5) -/

/-- The decided dispositions, in rising severity (00 section 4.6). UNDECIDED is the absence of a decision. -/
inductive Disposition where
  | accept
  | rework
  | reject
  deriving DecidableEq, Repr

/-- R82: a class record. -/
structure ClassRec where
  members : BitVec 8
  required : BitVec 4
  fallback : Disposition
  codeMap : Vector Disposition 16
  deriving DecidableEq, Repr

/-- R85: a source record; a MESSAGE record has no further field. -/
inductive SourceRec where
  | message
  | line (input : Fin 8) (trigger : Fin 8) (window : BitVec 16) (pulseCode noPulseCode : Fin 16)
  deriving DecidableEq, Repr

/-- R96: an open line verdict window. -/
structure LineWindow where
  tag : Tag
  closePos : Pos
  edgeSeen : Bool
  deriving DecidableEq, Repr

/-- A verdict source with its open windows. -/
structure Source where
  record : SourceRec
  windows : List LineWindow
  deriving DecidableEq, Repr

/-- The Verdict Unit (Table 5-11). -/
structure VrdUnit where
  classes : Vector ClassRec 16
  sources : Vector Source 4
  deriving DecidableEq, Repr

/-- Table 5-1: a slot's state, with the code it holds in SET and LATE. -/
inductive SlotState where
  | pending
  | set (code : Fin 16)
  | late (code : Fin 16)
  | timedOut
  deriving DecidableEq, Repr

/-- R87: a verdict slot. -/
structure Slot where
  source : Fin 4
  state : SlotState
  deriving DecidableEq, Repr

/-- Table 5-2. -/
inductive Reason where
  | complete
  | deadline
  | noneRequired
  | atExit
  deriving DecidableEq, Repr

/-- R89: what a decision writes into an item. -/
structure Decision where
  disposition : Disposition
  reason : Reason
  time : Time
  deriving DecidableEq, Repr

/-! ## TRK (Chapter 3) -/

/-- Table 4-5. -/
inductive StationOutcome where
  | pending
  | fired
  | firedLate
  | wouldFire
  | notTarget
  | suppressed
  | refused
  | disabled
  | notServed
  | confirmed
  | missed
  deriving DecidableEq, Repr

/-- A station's entry in an item's outcome list. -/
structure OutcomeEntry where
  station : Fin 8
  outcome : StationOutcome
  deriving DecidableEq, Repr

/-- Table 3-2. -/
structure ItemFlags where
  overlength : Bool
  anchored : Bool
  anchorRefused : Bool
  missing : Bool
  reclassified : Bool
  lateVerdict : Bool
  unserved : Bool
  deriving DecidableEq, Repr

/-- Table 3-5, and IN_TRACK. -/
inductive ExitReason where
  | inTrack
  | endOfTrack
  | short
  | dropped
  | removed
  | flushed
  deriving DecidableEq, Repr

/-- Table 3-1: an item record. `decision = none` is UNDECIDED. -/
structure Item where
  tag : Tag
  cls : Fin 16
  snapshot : ClassRec
  entryPos : Pos
  correction : Int
  entryTime : Time
  length : Option Dist
  deadline : Option Pos
  slots : List Slot
  decision : Option Decision
  outcomes : List OutcomeEntry
  flags : ItemFlags
  exit : ExitReason
  deriving DecidableEq, Repr

/-- Table 3-3. -/
inductive EntryUnit where
  | clear
  | measuring (tag : Tag) (lead : Pos)
  | untracked
  deriving DecidableEq, Repr

/-- Table 3-6. -/
structure ZoneParams where
  minLength : BitVec 16
  maxLength : BitVec 32
  trackEnd : BitVec 32
  decisionLead : BitVec 16
  reverseLimit : BitVec 16
  defaultClass : Fin 16
  deriving DecidableEq, Repr

/-- R55: the dump snapshot. -/
structure Snapshot where
  records : List Item
  position : Pos
  time : Time
  deriving DecidableEq, Repr

/-- The Track Store, with its Entry Unit. The track is oldest first (R30). -/
structure TrkUnit where
  track : List Item
  nextTag : Tag
  entry : EntryUnit
  params : ZoneParams
  snapshot : Snapshot
  deriving DecidableEq, Repr

/-! ## STN (Chapter 4) -/

/-- Table 4-1. -/
inductive StationKind where
  | none
  | eject
  | mark
  | trigger
  | check
  deriving DecidableEq, Repr

/-- Table 4-2. -/
inductive StationMode where
  | disabled
  | observe
  | active
  deriving DecidableEq, Repr

/-- Table 4-3: the missing policy. -/
inductive MissingPolicy where
  | note
  | drop
  | fault
  deriving DecidableEq, Repr

/-- Table 4-3: a station record. A target of 0 is `none`. -/
structure StationRec where
  kind : StationKind
  mode : StationMode
  offset : BitVec 32
  output : Option (Fin 8)
  pulse : BitVec 16
  target : Option Disposition
  sense : Fin 8
  tolerance : BitVec 16
  policy : MissingPolicy
  anchor : Bool
  deriving DecidableEq, Repr

/-- R70: an open checkpoint window. -/
structure CheckWindow where
  tag : Tag
  closePos : Pos
  confirmed : Bool
  mode : StationMode
  deriving DecidableEq, Repr

/-- A station: its record, the cursor of an EJECT, MARK or TRIGGER station (R64), and the opening cursor and open
windows of a CHECK station (R70). -/
structure Station where
  record : StationRec
  cursor : Option Tag
  opening : Option Tag
  windows : List CheckWindow
  deriving DecidableEq, Repr

/-- The Station Unit (Table 4-12). -/
structure StnUnit where
  stations : Vector Station 8
  deriving DecidableEq, Repr

/-! ## OUT (Chapter 6) -/

/-- R107: the owner of a pulse. -/
inductive Owner where
  | station (station : Fin 8) (tag : Tag)
  | test
  deriving DecidableEq, Repr

/-- Table 6-1. -/
inductive Collision where
  | refuse
  | extend
  deriving DecidableEq, Repr

/-- R107: an output's state; OFF has no end time and owner none. -/
inductive OutState where
  | off
  | on (endTime : Time) (owner : Owner)
  | recover (endTime : Time) (owner : Owner)
  deriving DecidableEq, Repr

/-- Table 6-3. -/
inductive RefusalReason where
  | busy
  | recovering
  deriving DecidableEq, Repr

/-- An action output (Table 6-9). -/
structure Output where
  activeLow : Bool
  collision : Collision
  gap : BitVec 16
  state : OutState
  deriving DecidableEq, Repr

/-- The Output Unit. -/
structure OutUnit where
  outputs : Vector Output 8
  deriving DecidableEq, Repr

/-! ## ZON (Chapter 7) -/

/-- Table 7-1. -/
inductive ZoneState where
  | config
  | armed
  | tracking
  | hold
  | fault
  | estop
  deriving DecidableEq, Repr

/-- Table 7-7. -/
inductive FaultCause where
  | encoder
  | reverse
  | trackFull
  | entryBlocked
  | missing
  deriving DecidableEq, Repr

/-- Table 7-4. -/
inductive ZoneCause where
  | reset
  | request
  | sync
  | lineStop
  | input
  | fault (cause : FaultCause)
  deriving DecidableEq, Repr

/-- R116: a set of fault causes, with no cause twice. -/
structure CauseSet where
  encoder : Bool
  reverse : Bool
  trackFull : Bool
  entryBlocked : Bool
  missing : Bool
  deriving DecidableEq, Repr

/-- Table 7-6. -/
inductive HoldPolicy where
  | safe
  | runOut
  deriving DecidableEq, Repr

/-- A line input (R118): the level the line takes apart from this unit's own drive, the accepted level, and the time
at which a wait in progress runs out. -/
structure LineIn where
  ext : Bool
  accepted : Bool
  wait : Option Time
  deriving DecidableEq, Repr

/-- The Zone Controller (Table 7-14). A drive is DRIVING while its end time is present (R119). -/
structure ZonUnit where
  zone : ZoneState
  firstCause : Option FaultCause
  causes : CauseSet
  stopIn : Bool
  stopOut : Bool
  syncIn : Bool
  holdPolicy : HoldPolicy
  stopWidth : BitVec 8
  syncDrive : Option Time
  lineStopDrive : Option Time
  sync : LineIn
  lineStop : LineIn
  estopN : LineIn
  deriving DecidableEq, Repr

/-! ## TCH (Chapter 9) -/

/-- R153: what a running teach holds. -/
structure TeachRun where
  target : Fin 8
  wanted : Nat
  span : Dist
  spread : BitVec 16
  apply : Bool
  station : Fin 8
  samples : List Dist
  failures : Nat
  deriving DecidableEq, Repr

/-- R153. -/
inductive TeachState where
  | idle
  | waitEntry (run : TeachRun)
  | waitTarget (run : TeachRun) (start spanPos : Pos)
  deriving DecidableEq, Repr

/-- R158. -/
inductive TeachResult where
  | done
  | failed
  | spreadExceeded
  | applyRefused
  | aborted
  deriving DecidableEq, Repr

/-- R156. -/
inductive SampleOutcome where
  | taken
  | overlapped
  | span
  deriving DecidableEq, Repr

/-- R158: the statistics of the samples held. -/
structure TeachStats where
  mean : Dist
  least : Dist
  greatest : Dist
  deriving DecidableEq, Repr

/-- The Teach Unit. -/
structure TchUnit where
  state : TeachState
  deriving DecidableEq, Repr

/-! ## LNK (Chapter 8) -/

/-- Table 10-5. -/
inductive Status where
  | ok
  | partly
  | unknownRequest
  | badLength
  | badValue
  | wrongState
  | busy
  | conflict
  | causePresent
  | unknownItem
  | notRequired
  | alreadySet
  | late
  | decided
  deriving DecidableEq, Repr

/-- R35, R72, R98: the origin of a STRAY notice. -/
inductive StrayOrigin where
  | entry
  | station (station : Fin 8)
  | source (source : Fin 4)
  deriving DecidableEq, Repr

/-- Table 10-4: the notice kinds that have settings. -/
inductive NoticeKind where
  | zoneState
  | fault
  | entry
  | decision
  | itemDone
  | missing
  | stray
  | fireRefused
  | probe
  | teachSample
  | teachResult
  deriving DecidableEq, Repr

/-- The notices with their fields (Table 10-12). -/
inductive Notice where
  | zoneState (time : Time) (old new : ZoneState) (cause : ZoneCause) (position : Pos)
  | fault (time : Time) (cause : FaultCause) (primary : Bool) (causes : CauseSet) (position : Pos)
  | entry (time : Time) (tag : Tag) (cls : Fin 16) (position : Pos)
  | decision (time : Time) (tag : Tag) (disposition : Disposition) (reason : Reason) (position : Pos)
  | itemDone (time : Time) (position : Pos) (item : Item)
  | missing (time : Time) (station : Fin 8) (tag : Tag) (expected : Pos) (mode : StationMode)
  | stray (time : Time) (origin : StrayOrigin) (position : Pos)
  | fireRefused (time : Time) (station : Fin 8) (tag : Tag) (output : Fin 8) (reason : RefusalReason)
  | probe (time : Time) (input : Fin 8) (edge : EdgeKind) (position : Pos) (count : BitVec 8) (state : ProbeState)
  | teachSample (time : Time) (outcome : SampleOutcome) (start : Pos) (distance : Option Dist) (held failures : Nat)
  | teachResult (time : Time) (result : TeachResult) (held : Nat) (stats : Option TeachStats) (station : Fin 8)
      (applied : Bool) (validation : Option Status)
  deriving DecidableEq, Repr

/-- A notice in the queue, with the level it was offered at (R144). -/
structure QueuedNotice where
  level : Fin 4
  notice : Notice
  deriving DecidableEq, Repr

/-- R146: the setting of one notice kind. -/
structure NoticeSetting where
  enabled : Bool
  level : Fin 4
  deriving DecidableEq, Repr

/-- A frame before its envelope (R161): kind, tag and payload. -/
structure Frame where
  kind : Byte
  tag : Byte
  payload : List Byte
  deriving DecidableEq, Repr

/-- What the completion of a frame brings about: nothing, the readiness of the dump stream (R149), a device reset
(R151), the next record of the dump, or the end of the dump. -/
inductive FrameMark where
  | plain
  | dumpReply
  | resetReply
  | dumpItem
  | dumpEnd
  deriving DecidableEq, Repr

/-- A reply in the reply queue. -/
structure Reply where
  frame : Frame
  mark : FrameMark
  deriving DecidableEq, Repr

/-- The receiver (R136, R137): SETTLING with the start of its idle count and the bit times it still needs, HUNT, HEADER
with the start of its gap timer, BODY with LEN, the bytes received and the start of its gap timer. -/
inductive Receiver where
  | settling (since : Time) (bits : Nat)
  | hunt
  | header (gapFrom : Time)
  | body (len : Byte) (got : List Byte) (gapFrom : Time)
  deriving DecidableEq, Repr

/-- R147: the sources of the transmitter. -/
inductive TxSource where
  | reply
  | notice
  | dump
  deriving DecidableEq, Repr

/-- R148: a burst: its source, the frames of it that have completed, its limit, and the frame in transmission. -/
structure Burst where
  source : TxSource
  completed : Nat
  limit : Nat
  frame : Frame
  mark : FrameMark
  deriving DecidableEq, Repr

/-- The transmitter. -/
inductive Transmitter where
  | idle
  | sending (burst : Burst)
  deriving DecidableEq, Repr

/-- R149: the active dump stream: the tag of its request, the index of the next record to send, and whether its
DUMP_TRACK reply has been sent in full. -/
structure DumpStream where
  tag : Byte
  next : Nat
  ready : Bool
  deriving DecidableEq, Repr

/-- The Link Interface. -/
structure LnkUnit where
  rateCode : BitVec 2
  unitId : BitVec 4
  receiver : Receiver
  frameErrors : BitVec 16
  gapDiscards : BitVec 16
  rxDropped : BitVec 16
  replies : List Reply
  notices : List QueuedNotice
  lostCount : BitVec 16
  settings : Vector NoticeSetting 11
  tx : Transmitter
  dump : Option DumpStream
  resetPending : Bool
  deriving DecidableEq, Repr

/-! ## The whole machine -/

/-- The state of the T24. `choice` numbers the free choices of order (the model's own, log 11); `pending` is the queue
of waiting commands, first in first out. -/
structure State where
  pos : PosUnit
  inp : InpUnit
  trk : TrkUnit
  stn : StnUnit
  vrd : VrdUnit
  out : OutUnit
  zon : ZonUnit
  tch : TchUnit
  lnk : LnkUnit
  choice : Nat
  pending : List Instr
  deriving DecidableEq, Repr

/-- Nothing the spec describes stops the part, so there is no fault (log 28): a fault cause of R127 is a next state. -/
inductive Fault where
  deriving DecidableEq, Repr

/-- Why a command has no answer. -/
inductive Refusal where
  /-- Raised by exec's arms for a command that has no meaning yet; no arm raises it. Safe. -/
  | notModelled (mnemonic : String)
  deriving DecidableEq, Repr

/-! ## Reset values -/

/-- Table 4-12: a station record after device reset. -/
def StationRec.none : StationRec :=
  { kind := .none, mode := .disabled, offset := 0, output := Option.none, pulse := 0, target := Option.none, sense := 0
    tolerance := 0, policy := .note, anchor := false }

/-- R82: a class record after device reset. -/
def ClassRec.atReset : ClassRec :=
  { members := 0, required := 0, fallback := .accept, codeMap := (Vector.replicate 16 .reject).set 0 .accept }

/-- Table 2-8: a probe after device reset. -/
def Probe.atReset : Probe := { state := .disarmed, sel := .leading, count := 0, last := none }

/-- Table 2-8: an input after device reset, its raw level being `level` (R16). -/
def Input.atReset (level : Bool) : Input :=
  { role := .unused, activeLow := false, filter := .us250, raw := level, accepted := level, wait := none
    probe := .atReset }

/-- R118: a line input after device reset. -/
def LineIn.atReset (level : Bool) : LineIn := { ext := level, accepted := level, wait := none }

/-- R116: the empty cause set. -/
def CauseSet.empty : CauseSet :=
  { encoder := false, reverse := false, trackFull := false, entryBlocked := false, missing := false }

/-- Table 8-1, in the order of the kind codes. -/
def noticeSettingsAtReset : Vector NoticeSetting 11 :=
  #v[⟨true, 3⟩, ⟨true, 3⟩, ⟨true, 1⟩, ⟨false, 0⟩, ⟨true, 2⟩, ⟨true, 2⟩, ⟨true, 2⟩, ⟨true, 2⟩, ⟨true, 1⟩, ⟨false, 0⟩,
    ⟨true, 2⟩]

/-- R116: the zone state after device reset, by the level of ESTOP_N. -/
def zoneAtReset (estopN : Bool) : ZoneState := if estopN then .config else .estop

/-- R152: the machine at the end of a device reset at which the pins have the levels `p`, every block at the reset
values of its chapter and the ZONE_STATE notice with cause RESET offered (R117). -/
def State.atReset (p : PinLevels) : State :=
  { pos :=
      { mode := .quadX4, invert := false, enable := true, filter := .ns100, chanA := ⟨p.encA, p.encA⟩
        chanB := ⟨p.encB, p.encB⟩, refA := p.encA, refB := p.encB, position := 0, highWater := 0, encErrors := 0
        timeBase := 0 }
    inp := { inputs := Vector.ofFn fun i => Input.atReset p.sense[i] }
    trk :=
      { track := [], nextTag := 1, entry := .clear
        params :=
          { minLength := 10, maxLength := 10000, trackEnd := 100000, decisionLead := 0, reverseLimit := 100
            defaultClass := 0 }
        snapshot := ⟨[], 0, 0⟩ }
    stn := { stations := Vector.replicate 8 ⟨.none, none, none, []⟩ }
    vrd := { classes := Vector.replicate 16 .atReset, sources := Vector.replicate 4 ⟨.message, []⟩ }
    out := { outputs := Vector.replicate 8 ⟨false, .refuse, 0, .off⟩ }
    zon :=
      { zone := zoneAtReset p.estopN, firstCause := none, causes := .empty, stopIn := true, stopOut := true
        syncIn := true, holdPolicy := .safe, stopWidth := 20, syncDrive := none, lineStopDrive := none
        sync := .atReset p.sync, lineStop := .atReset p.lineStop, estopN := .atReset p.estopN }
    tch := { state := .idle }
    lnk :=
      { rateCode := p.straps.rate, unitId := p.straps.unitId, receiver := .settling 0 Config.idleBits, frameErrors := 0
        gapDiscards := 0, rxDropped := 0, replies := []
        notices := [⟨3, .zoneState 0 .config (zoneAtReset p.estopN) .reset 0⟩], lostCount := 0
        settings := noticeSettingsAtReset, tx := .idle, dump := none, resetPending := false }
    choice := 0
    pending := [] }

/-- DESIGN CHOICE (log 14): the pin and strap levels at State.reset; the spec gives none. Open-drain lines and ESTOP_N
high, everything else low. -/
def quietPins : PinLevels :=
  { encA := false, encB := false, sense := Vector.replicate 8 false, sync := true, lineStop := true, estopN := true
    straps := ⟨0, 0⟩ }

/-- The machine right after reset. -/
def State.reset : State := State.atReset quietPins

end Sys2Proof.Machine
end

