-- ==== Sys2Proof/Machine/Flags.lean ====
section
/-! DEFINITION. The flag, set and counter computations of the spec: saturating counters, item flags and presence bits
as bytes, cause sets, the order of severity, membership masks. -/

namespace Sys2Proof.Machine

/-- A 16-bit counter that stays at 65535 (R6, R140, R145). -/
def satInc (n : BitVec 16) : BitVec 16 := if n = 65535#16 then n else n + 1

/-- R27: the capture count stays at 255. -/
def satInc8 (n : BitVec 8) : BitVec 8 := if n = 255#8 then n else n + 1

/-- A flag as a byte (R162). -/
def flagByte (b : Bool) : Byte := if b then 1 else 0

/-- A bit of a byte, at weight `w`. -/
def bitAt (b : Bool) (w : Byte) : Byte := if b then w else 0

/-- Table 3-2: no flag set. -/
def ItemFlags.none : ItemFlags :=
  { overlength := false, anchored := false, anchorRefused := false, missing := false, reclassified := false
    lateVerdict := false, unserved := false }

/-- Table 10-8: the flags byte, with the length-present bit. -/
def ItemFlags.byte (f : ItemFlags) (lengthPresent : Bool) : Byte :=
  bitAt f.overlength 1 ||| bitAt f.anchored 2 ||| bitAt f.anchorRefused 4 ||| bitAt f.missing 8
    ||| bitAt f.reclassified 16 ||| bitAt f.lateVerdict 32 ||| bitAt f.unserved 64 ||| bitAt lengthPresent 128

/-- R127: the set with a cause added. -/
def CauseSet.add (s : CauseSet) (c : FaultCause) : CauseSet :=
  match c with
  | .encoder => { s with encoder := true }
  | .reverse => { s with reverse := true }
  | .trackFull => { s with trackFull := true }
  | .entryBlocked => { s with entryBlocked := true }
  | .missing => { s with missing := true }

/-- R127: the set of one cause. -/
def CauseSet.single (c : FaultCause) : CauseSet := CauseSet.empty.add c

/-- R162: fault causes use bit (code − 5). -/
def CauseSet.byte (s : CauseSet) : Byte :=
  bitAt s.encoder 1 ||| bitAt s.reverse 2 ||| bitAt s.trackFull 4 ||| bitAt s.entryBlocked 8 ||| bitAt s.missing 16

/-- 00 section 4.6: the severity order. -/
def Disposition.severity (d : Disposition) : Nat :=
  match d with
  | .accept => 1
  | .rework => 2
  | .reject => 3

/-- The more severe of two dispositions (00 section 4.6). -/
def Disposition.worse (d e : Disposition) : Disposition := if d.severity < e.severity then e else d

/-- The most severe of a list of dispositions; ACCEPT, the least severe, for an empty list. -/
def mostSevere (ds : List Disposition) : Disposition := ds.foldl Disposition.worse .accept

/-- R82: a station is a member of a class. -/
def ClassRec.hasMember (c : ClassRec) (i : Fin 8) : Bool := c.members.getLsbD i.val

/-- R82: a source is required by a class. -/
def ClassRec.requires (c : ClassRec) (v : Fin 4) : Bool := c.required.getLsbD v.val

/-- R56: a station is defined when its kind is other than NONE. -/
def StationRec.defined (r : StationRec) : Bool := r.kind ≠ .none

/-- R64: the kinds that act through an output. -/
def StationKind.fires (k : StationKind) : Bool := k = .eject || k = .mark || k = .trigger

/-- The kinds that act on a disposition, and that a deadline is computed from (R38). -/
def StationKind.sorts (k : StationKind) : Bool := k = .eject || k = .mark

/-- R35, R65, R90: the zone states in which items are tracked and acted on. -/
def ZoneState.tracks (z : ZoneState) : Bool := z = .tracking || z = .hold || z = .fault

end Sys2Proof.Machine
end

