-- ==== Sys2Proof/Machine/Ops.lean ====
section
/-! DEFINITION. The shared operations: serial order of positions and times, updates by block, the free choice of an
order, notices (R144, R145), replies (R141, R143), filter waits and shared lines (R15, R118, R119), changes of zone
state and fault causes (R117, R127), fire claims (R108). -/

namespace Sys2Proof.Machine

/-! ## Serial order -/

/-- R7: position `p` is ahead of position `q`. -/
def ahead (p q : Pos) : Bool := 1 ≤ (p - q).toNat && (p - q).toNat < 2 ^ 31

/-- 00 section 4.2: the serial distance from `q` to `p`, 0 when `p` is not ahead of `q`. -/
def serialDist (q p : Pos) : Dist := if ahead p q then p - q else 0

/-- R107: times are compared by their serial difference modulo 2^48. -/
def aheadTime (t u : Time) : Bool := 1 ≤ (t - u).toNat && (t - u).toNat < 2 ^ 47

/-- R11: an end time is reached, the time base being `now`. -/
def timeReached (t now : Time) : Bool := !aheadTime t now

/-! ## Updates by block -/

/-- Change one entry of a table. -/
def modAt {α : Type} {n : Nat} (v : Vector α n) (i : Fin n) (f : α → α) : Vector α n := v.set i.val (f v[i]) i.isLt

/-- Change every entry of a table, with its index. -/
def mapAll {α : Type} {n : Nat} (v : Vector α n) (f : Fin n → α → α) : Vector α n := Vector.ofFn fun i => f i v[i]

def State.modPos (f : PosUnit → PosUnit) (s : State) : State := { s with pos := f s.pos }
def State.modInp (f : InpUnit → InpUnit) (s : State) : State := { s with inp := f s.inp }
def State.modTrk (f : TrkUnit → TrkUnit) (s : State) : State := { s with trk := f s.trk }
def State.modStn (f : StnUnit → StnUnit) (s : State) : State := { s with stn := f s.stn }
def State.modVrd (f : VrdUnit → VrdUnit) (s : State) : State := { s with vrd := f s.vrd }
def State.modOut (f : OutUnit → OutUnit) (s : State) : State := { s with out := f s.out }
def State.modZon (f : ZonUnit → ZonUnit) (s : State) : State := { s with zon := f s.zon }
def State.modTch (f : TchUnit → TchUnit) (s : State) : State := { s with tch := f s.tch }
def State.modLnk (f : LnkUnit → LnkUnit) (s : State) : State := { s with lnk := f s.lnk }
/-- The next free choice of an order (log 11). -/
def State.nextChoice (s : State) : State := { s with choice := s.choice + 1 }

/-- Change one sense input. -/
def State.modInput (i : Fin 8) (f : Input → Input) (s : State) : State :=
  s.modInp fun u => { u with inputs := modAt u.inputs i f }

/-- Change one station. -/
def State.modStation (i : Fin 8) (f : Station → Station) (s : State) : State :=
  s.modStn fun u => { u with stations := modAt u.stations i f }

/-- Change one verdict source. -/
def State.modSource (v : Fin 4) (f : Source → Source) (s : State) : State :=
  s.modVrd fun u => { u with sources := modAt u.sources v f }

/-- Change one action output. -/
def State.modOutput (o : Fin 8) (f : Output → Output) (s : State) : State :=
  s.modOut fun u => { u with outputs := modAt u.outputs o f }

/-- The time base (R12). -/
def State.now (s : State) : Time := s.pos.timeBase

/-- The track position (R12). -/
def State.here (s : State) : Pos := s.pos.position

/-! ## The free choice of an order (log 11, log 12) -/

/-- The candidate a free choice picks out of two or more. -/
def freePick {α : Type} (s : State) (a : α) (rest : List α) : Nat := Config.freeChoice s.choice % (a :: rest).length

/-- Handle every element of a list, in an order the spec leaves open. -/
def inFreeOrder {α : Type} (f : α → State → State) : Nat → List α → State → State
  | 0, _, s => s
  | _ + 1, [], s => s
  | _ + 1, [a], s => f a s
  | k + 1, a :: b :: rest, s =>
    let i := freePick s a (b :: rest)
    inFreeOrder f k ((a :: b :: rest).eraseIdx i) (f ((a :: b :: rest).getD i a) s.nextChoice)

/-! ## Notices -/

/-- Table 10-4: the kind of a notice. -/
def Notice.kind (n : Notice) : NoticeKind :=
  match n with
  | .zoneState _ _ _ _ _ => .zoneState
  | .fault _ _ _ _ _ => .fault
  | .entry _ _ _ _ => .entry
  | .decision _ _ _ _ _ => .decision
  | .itemDone _ _ _ => .itemDone
  | .missing _ _ _ _ _ => .missing
  | .stray _ _ _ => .stray
  | .fireRefused _ _ _ _ _ => .fireRefused
  | .probe _ _ _ _ _ _ => .probe
  | .teachSample _ _ _ _ _ _ => .teachSample
  | .teachResult _ _ _ _ _ _ _ => .teachResult

/-- The place of a notice kind in the settings: its code less 0x40 (Table 8-1). -/
def NoticeKind.index (k : NoticeKind) : Fin 11 :=
  match k with
  | .zoneState => 0
  | .fault => 1
  | .entry => 2
  | .decision => 3
  | .itemDone => 4
  | .missing => 5
  | .stray => 6
  | .fireRefused => 7
  | .probe => 8
  | .teachSample => 9
  | .teachResult => 10

/-- R144: a notice enters at the end of its level. -/
def insertNotice (q : QueuedNotice) : List QueuedNotice → List QueuedNotice
  | [] => [q]
  | x :: xs => if x.level < q.level then q :: x :: xs else x :: insertNotice q xs

/-- R144, R145: a notice offered to the queue: it enters, enters in place of the newest notice of the lowest level, or
is lost. -/
def LnkUnit.enqueue (q : QueuedNotice) (l : LnkUnit) : LnkUnit :=
  if l.notices.length < Config.noticeCapacity then { l with notices := insertNotice q l.notices }
  else
    match l.notices.getLast? with
    | none => { l with lostCount := satInc l.lostCount }
    | some w =>
      if w.level < q.level then
        { l with notices := insertNotice q l.notices.dropLast, lostCount := satInc l.lostCount }
      else { l with lostCount := satInc l.lostCount }

/-- R144: a block offers a notice; one of a disabled kind is not offered. -/
def offer (n : Notice) (s : State) : State :=
  let setting := s.lnk.settings[n.kind.index]
  if setting.enabled then s.modLnk (LnkUnit.enqueue ⟨setting.level, n⟩) else s

/-! ## Replies -/

/-- Table 10-5. -/
def Status.code (st : Status) : Byte :=
  match st with
  | .ok => 0x00
  | .partly => 0x01
  | .unknownRequest => 0x10
  | .badLength => 0x11
  | .badValue => 0x12
  | .wrongState => 0x13
  | .busy => 0x14
  | .conflict => 0x15
  | .causePresent => 0x16
  | .unknownItem => 0x20
  | .notRequired => 0x21
  | .alreadySet => 0x22
  | .late => 0x23
  | .decided => 0x24

/-- A reply enters the reply queue (R141, R143). -/
def pushReply (r : Reply) (s : State) : State := s.modLnk fun l => { l with replies := l.replies ++ [r] }

/-- R141: the reply to the request of kind `kind` and tag `tag`: KIND + 0x80, its TAG, the status and the fields. -/
def replyFrame (kind tag : Byte) (st : Status) (fields : List Byte) : Frame := ⟨kind + 0x80, tag, st.code :: fields⟩

/-- Build and queue a reply whose completion brings nothing about. -/
def answer (kind tag : Byte) (st : Status) (fields : List Byte) (s : State) : State :=
  pushReply ⟨replyFrame kind tag st fields, .plain⟩ s

/-- R139 (from its second check) and R151: a frame that has passed its CRC check. While a RESET awaits the end of its
reply it is discarded, uncounted; with 8 replies queued it is discarded and counted; otherwise the request is taken. -/
def takeFrame (request : State → State) (s : State) : State :=
  if s.lnk.resetPending then s
  else if s.lnk.replies.length < Config.replyCapacity then request s
  else s.modLnk fun l => { l with rxDropped := satInc l.rxDropped }

/-! ## Filter waits and the shared lines -/

/-- R15: the wait after a change of raw level from `old` to `new`: none when the new level is the accepted one, else a
wait that runs out one filter time from now. An unchanged raw level leaves the wait as it is. -/
def rewait (filter now : Time) (accepted old new : Bool) (wait : Option Time) : Option Time :=
  if old = new then wait else if new = accepted then none else some (now + filter)

/-- R15: a wait that has run out. -/
def waitOver (wait : Option Time) (now : Time) : Bool :=
  match wait with
  | none => false
  | some t => timeReached t now

/-- 07 section 7.2: a line is low while any unit drives it. -/
def ZonUnit.syncRaw (z : ZonUnit) : Bool := z.sync.ext && z.syncDrive.isNone
def ZonUnit.lineStopRaw (z : ZonUnit) : Bool := z.lineStop.ext && z.lineStopDrive.isNone
def ZonUnit.estopRaw (z : ZonUnit) : Bool := z.estopN.ext

/-- Set the rest-of-line level and the drive of SYNC, its filter seeing the change of raw level (R118, R119). -/
def ZonUnit.setSync (ext : Bool) (drive : Option Time) (now : Time) (z : ZonUnit) : ZonUnit :=
  { z with
    syncDrive := drive
    sync := { z.sync with
      ext := ext
      wait := rewait Config.syncFilter now z.sync.accepted z.syncRaw (ext && drive.isNone) z.sync.wait } }

/-- The same for LINE-STOP. -/
def ZonUnit.setLineStop (ext : Bool) (drive : Option Time) (now : Time) (z : ZonUnit) : ZonUnit :=
  { z with
    lineStopDrive := drive
    lineStop := { z.lineStop with
      ext := ext
      wait := rewait Config.lineStopFilter now z.lineStop.accepted z.lineStopRaw (ext && drive.isNone)
        z.lineStop.wait } }

/-- The same for ESTOP_N, which no unit drives. -/
def ZonUnit.setEstop (ext : Bool) (now : Time) (z : ZonUnit) : ZonUnit :=
  { z with
    estopN := { z.estopN with
      ext := ext, wait := rewait Config.estopFilter now z.estopN.accepted z.estopRaw ext z.estopN.wait } }

/-- R125: start or restart the LINE-STOP drive for the stop pulse width (in milliseconds). -/
def driveLineStop (s : State) : State :=
  s.modZon fun z =>
    z.setLineStop z.lineStop.ext (some (s.now + BitVec.ofNat 48 (z.stopWidth.toNat * 1000))) s.now

/-! ## The zone state and fault causes -/

/-- R117: a change of zone state, with its ZONE_STATE notice. -/
def enterZone (new : ZoneState) (cause : ZoneCause) (s : State) : State :=
  offer (.zoneState s.now s.zon.zone new cause s.here) (s.modZon fun z => { z with zone := new })

/-- R127: an entry to FAULT. -/
def enterFault (c : FaultCause) (s : State) : State :=
  let s1 := s.modZon fun z => { z with firstCause := some c, causes := .single c }
  let s2 := offer (.fault s.now c true (.single c) s.here) (enterZone .fault (.fault c) s1)
  if s.zon.stopOut then driveLineStop s2 else s2

/-- R127: a cause taken in FAULT. -/
def joinFault (c : FaultCause) (s : State) : State :=
  let s1 := s.modZon fun z => { z with causes := z.causes.add c }
  offer (.fault s.now c false s1.zon.causes s.here) s1

/-- R127: ZON takes a fault cause; causes are reported only in TRACKING, HOLD and FAULT. -/
def faultCause (c : FaultCause) (s : State) : State :=
  match s.zon.zone with
  | .tracking => enterFault c s
  | .hold => enterFault c s
  | .fault => joinFault c s
  | .config => s
  | .armed => s
  | .estop => s

/-! ## Fire claims -/

/-- R108: OUT's answer to a claim of length `len` by `owner` at time `now`: the output after it, and the refusal
reason when the claim is refused. -/
def Output.claim (o : Output) (len : BitVec 16) (owner : Owner) (now : Time) : Output × Option RefusalReason :=
  let t := now + len.setWidth 48
  match o.state with
  | .off => ({ o with state := .on t owner }, none)
  | .on e _ =>
    match o.collision with
    | .extend => ({ o with state := .on (if aheadTime e t then e else t) owner }, none)
    | .refuse => (o, some .busy)
  | .recover _ _ => (o, some .recovering)

/-- R108: a claim on output `o`. -/
def claimOutput (o : Fin 8) (len : BitVec 16) (owner : Owner) (s : State) : State × Option RefusalReason :=
  let answer := (s.out.outputs[o]).claim len owner s.now
  (s.modOutput o fun _ => answer.1, answer.2)

/-! ## Items -/

/-- The item of the track with a tag. -/
def State.findItem (s : State) (tag : Tag) : Option Item := s.trk.track.find? fun it => it.tag = tag

/-- Change the item with a tag. -/
def State.modItem (tag : Tag) (f : Item → Item) (s : State) : State :=
  s.modTrk fun t => { t with track := t.track.map fun it => if it.tag = tag then f it else it }

/-- 03 section 3.1: the tag of the next newer item. -/
def newerThan (tag : Tag) : List Item → Option Tag
  | [] => none
  | x :: xs => if x.tag = tag then xs.head?.map Item.tag else newerThan tag xs

/-- 03 section 3.1: the next older item. -/
def olderThan (tag : Tag) : List Item → Option Item
  | [] => none
  | x :: xs =>
    match xs with
    | [] => none
    | y :: _ => if y.tag = tag then some x else olderThan tag xs

/-- 03 section 3.1: the next newer item. -/
def nextNewer (tag : Tag) : List Item → Option Item
  | [] => none
  | x :: xs => if x.tag = tag then xs.head? else nextNewer tag xs

/-- The entry that an item holds for a station (R37). -/
def Item.outcomeAt (it : Item) (i : Fin 8) : Option StationOutcome :=
  (it.outcomes.find? fun e => e.station = i).map OutcomeEntry.outcome

/-- R66: a station writes an outcome only into an entry that holds PENDING. -/
def Item.record (it : Item) (i : Fin 8) (o : StationOutcome) : Item :=
  { it with
    outcomes := it.outcomes.map fun e =>
      if e.station = i ∧ e.outcome = .pending then { e with outcome := o } else e }

/-- R56: the fire position of an item at an offset. -/
def Item.firePos (it : Item) (offset : BitVec 32) : Pos := it.entryPos + offset

/-- R56: a CHECK station's opening position for an item. -/
def Item.openPos (it : Item) (r : StationRec) : Pos := it.entryPos + r.offset - r.tolerance.setWidth 32

/-- R48: the retirement position. -/
def Item.retirePos (it : Item) (p : ZoneParams) : Pos := it.entryPos + p.trackEnd

end Sys2Proof.Machine
end

