-- ==== Sys2Proof/Machine/Operands.lean ====
section
/-! DEFINITION. Reading the operands of requests (R162, R163, Tables 10-2, 10-9 to 10-11): fields by position, codes of
enumerations, the station, class, source and zone records, with their value checks (R52, R57, R84, R86) and the
validation of stations and sources against the configuration (R58, R86). -/

namespace Sys2Proof.Machine

/-! ## Fields -/

/-- The byte of a payload at a place; 0 where the payload has none. -/
def byteAt (p : List Byte) (i : Nat) : Byte := p.getD i 0

/-- A little-endian 16-bit field (R162). -/
def u16 (p : List Byte) (i : Nat) : BitVec 16 := byteAt p (i + 1) ++ byteAt p i

/-- A little-endian 32-bit field (R162). -/
def u32 (p : List Byte) (i : Nat) : BitVec 32 := u16 p (i + 2) ++ u16 p i

/-- An index or code below `n`. -/
def asFin (n : Nat) (b : Byte) : Option (Fin n) := if h : b.toNat < n then some ⟨b.toNat, h⟩ else none

/-- A flag, 0 or 1 (R163). -/
def asFlag (b : Byte) : Option Bool := match b.toNat with | 0 => some false | 1 => some true | _ => none

/-- Table 1-1. -/
def EncMode.ofByte (b : Byte) : Option EncMode :=
  match b.toNat with | 0 => some .quadX1 | 1 => some .quadX2 | 2 => some .quadX4 | 3 => some .upDown | _ => none

/-- Table 1-4. -/
def EncFilter.ofByte (b : Byte) : Option EncFilter :=
  match b.toNat with | 0 => some .ns100 | 1 => some .ns500 | _ => none

/-- Table 2-2. -/
def Role.ofByte (b : Byte) : Option Role :=
  match b.toNat with
  | 0 => some .unused | 1 => some .entry | 2 => some .check | 3 => some .verdict | 4 => some .general | _ => none

/-- Table 2-1. -/
def InputFilter.ofByte (b : Byte) : Option InputFilter :=
  match b.toNat with
  | 0 => some .off | 1 => some .us20 | 2 => some .us250 | 3 => some .ms2 | 4 => some .ms8 | _ => none

/-- Table 2-5: the mode of ARM_PROBE, as the state it arms to. -/
def ProbeState.ofMode (b : Byte) : Option ProbeState :=
  match b.toNat with | 0 => some .armedOnce | 1 => some .armedEvery | _ => none

/-- Table 2-5. -/
def EdgeSel.ofByte (b : Byte) : Option EdgeSel :=
  match b.toNat with | 0 => some .leading | 1 => some .trailing | 2 => some .both | _ => none

/-- Table 4-1. -/
def StationKind.ofByte (b : Byte) : Option StationKind :=
  match b.toNat with
  | 0 => some .none | 1 => some .eject | 2 => some .mark | 3 => some .trigger | 4 => some .check | _ => none

/-- Table 4-2. -/
def StationMode.ofByte (b : Byte) : Option StationMode :=
  match b.toNat with | 0 => some .disabled | 1 => some .observe | 2 => some .active | _ => none

/-- Table 4-3. -/
def MissingPolicy.ofByte (b : Byte) : Option MissingPolicy :=
  match b.toNat with | 0 => some .note | 1 => some .drop | 2 => some .fault | _ => none

/-- Table 0-4: a decided disposition. -/
def Disposition.ofCode (n : Nat) : Option Disposition :=
  match n with | 1 => some .accept | 2 => some .rework | 3 => some .reject | _ => none

/-- Table 6-1. -/
def Collision.ofByte (b : Byte) : Option Collision :=
  match b.toNat with | 0 => some .refuse | 1 => some .extend | _ => none

/-- Table 7-6. -/
def HoldPolicy.ofByte (b : Byte) : Option HoldPolicy :=
  match b.toNat with | 0 => some .safe | 1 => some .runOut | _ => none

/-- Table 2-1: the filter time, in microseconds. -/
def InputFilter.time (f : InputFilter) : Time :=
  match f with | .off => 1 | .us20 => 20 | .us250 => 250 | .ms2 => 2000 | .ms8 => 8000

/-- R146: a notice kind code, 0x40 to 0x4A, as a place in the settings. -/
def noticeIndex (b : Byte) : Option (Fin 11) := if 0x40 ≤ b.toNat then asFin 11 (b - 0x40) else none

/-! ## Station records -/

/-- R57: an offset of 1 to 4,000,000. -/
def offsetOk (offset : BitVec 32) : Bool := 1 ≤ offset.toNat && offset.toNat ≤ Config.maxOffset

/-- R57: the fields without meaning for a station that acts through an output are zero. -/
def StationRec.noCheckFields (r : StationRec) : Bool :=
  r.sense = 0 && r.tolerance = 0 && r.policy = .note && !r.anchor

/-- R57: the value check of a station record, over the fields Table 4-3 gives it. -/
def StationRec.valueOk (r : StationRec) : Bool :=
  match r.kind with
  | .none => r = .none
  | .eject | .mark =>
    offsetOk r.offset && r.output.isSome && Config.minPulse ≤ r.pulse.toNat
      && (r.target = some .rework || r.target = some .reject) && r.noCheckFields
  | .trigger =>
    offsetOk r.offset && r.output.isSome && Config.minPulse ≤ r.pulse.toNat && r.target.isNone && r.noCheckFields
  | .check => offsetOk r.offset && r.output.isNone && r.pulse = 0 && r.target.isNone

/-- Table 10-9: the output field, 0xFF for none. -/
def outputOfByte (b : Byte) : Option (Option (Fin 8)) := if b = 0xFF then some none else (asFin 8 b).map some

/-- R57: the target field, 0 for none. -/
def targetOfByte (b : Byte) : Option (Option Disposition) :=
  if b = 0 then some none else (Disposition.ofCode b.toNat).map some

/-- Table 10-9, R57: the station record at a place of a payload; none where it fails the value check. -/
def stationOfBytes (p : List Byte) (i : Nat) : Option (Fin 8 × StationRec) := do
  let index ← asFin 8 (byteAt p i)
  let kind ← StationKind.ofByte (byteAt p (i + 1))
  let mode ← StationMode.ofByte (byteAt p (i + 2))
  let output ← outputOfByte (byteAt p (i + 3))
  let target ← targetOfByte (byteAt p (i + 10))
  let sense ← asFin 8 (byteAt p (i + 11))
  let policy ← MissingPolicy.ofByte (byteAt p (i + 14))
  let anchor ← asFlag (byteAt p (i + 15))
  let r : StationRec :=
    { kind, mode, offset := u32 p (i + 4), output, pulse := u16 p (i + 8), target, sense
      tolerance := u16 p (i + 12), policy, anchor }
  if r.valueOk then some (index, r) else none

/-- R58, conditions 1 to 3: a station record fits zone parameters. -/
def zoneFits (z : ZoneParams) (r : StationRec) : Bool :=
  let offset := r.offset.toNat
  let general := offset < z.trackEnd.toNat && z.minLength.toNat < offset
  match r.kind with
  | .none => true
  | .eject | .mark => general && z.decisionLead.toNat + z.minLength.toNat < offset
  | .trigger => general
  | .check =>
    general && offset + r.tolerance.toNat < z.trackEnd.toNat
      && 2 * r.tolerance.toNat + z.minLength.toNat < offset

/-- R58 condition 5, R86: a LINE source's window ends before TRACK_END. -/
def windowFits (z : ZoneParams) (offset : BitVec 32) (window : BitVec 16) : Bool :=
  offset.toNat + window.toNat < z.trackEnd.toNat

/-- R58, condition 5: a station record suits a source. -/
def suitsSource (z : ZoneParams) (i : Fin 8) (r : StationRec) (source : SourceRec) : Bool :=
  match source with
  | .message => true
  | .line _ trigger window _ _ => if trigger = i then r.kind = .trigger && windowFits z r.offset window else true

/-- R58: station validation of a record for index `i` against the configuration. -/
def stationValid (s : State) (i : Fin 8) (r : StationRec) : Bool :=
  zoneFits s.trk.params r
    && (r.kind ≠ .check || s.inp.inputs[r.sense].role = .check)
    && (List.finRange 4).all fun v => suitsSource s.trk.params i r s.vrd.sources[v].record

/-! ## Classes, sources and zone parameters -/

/-- Table 10-10: the entry of code `k` in a 32-bit code map. -/
def codeMapEntry (w : BitVec 32) (k : Nat) : Option Disposition := Disposition.ofCode ((w >>> (2 * k)).toNat % 4)

/-- Table 10-10, R84: a code map without an UNDECIDED entry. -/
def codeMapOf (w : BitVec 32) : Option (Vector Disposition 16) :=
  if (List.range 16).all fun k => (codeMapEntry w k).isSome then
    some (Vector.ofFn fun k => (codeMapEntry w k.val).getD .accept)
  else none

/-- Table 10-10, R84: a class record; none where it fails the value check. -/
def classOfBytes (p : List Byte) : Option (Fin 16 × ClassRec) := do
  let index ← asFin 16 (byteAt p 0)
  let required ← asFin 16 (byteAt p 2)
  let fallback ← Disposition.ofCode (byteAt p 3).toNat
  let codeMap ← codeMapOf (u32 p 4)
  some (index, { members := byteAt p 1, required := BitVec.ofFin required, fallback, codeMap })

/-- R86: the fields of a LINE record; none where one is out of range. -/
def lineOfBytes (p : List Byte) : Option SourceRec := do
  let input ← asFin 8 (byteAt p 2)
  let trigger ← asFin 8 (byteAt p 3)
  let pulse ← asFin 16 (byteAt p 6)
  let noPulse ← asFin 16 (byteAt p 7)
  if u16 p 4 = 0 then none else some (.line input trigger (u16 p 4) pulse noPulse)

/-- Table 10-11, R86: a source record; none where it fails the value check. -/
def sourceOfBytes (p : List Byte) : Option (Fin 4 × SourceRec) := do
  let index ← asFin 4 (byteAt p 0)
  let isLine ← asFlag (byteAt p 1)
  if isLine then (lineOfBytes p).map fun r => (index, r)
  else if (p.drop 2).all (· = 0) then some (index, .message) else none

/-- R86, check 4: a source record against the configuration. -/
def sourceValid (s : State) (r : SourceRec) : Bool :=
  match r with
  | .message => true
  | .line input trigger window _ _ =>
    s.inp.inputs[input].role = .verdict && s.stn.stations[trigger].record.kind = .trigger
      && windowFits s.trk.params s.stn.stations[trigger].record.offset window

/-- Table 3-6, R52: the six zone parameters; none where one is outside its range. -/
def zoneOfBytes (p : List Byte) : Option ZoneParams := do
  let defaultClass ← asFin 16 (byteAt p 14)
  let z : ZoneParams :=
    { minLength := u16 p 0, maxLength := u32 p 2, trackEnd := u32 p 6, decisionLead := u16 p 10
      reverseLimit := u16 p 12, defaultClass }
  if 1 ≤ z.minLength.toNat && z.minLength.toNat ≤ z.maxLength.toNat && z.maxLength.toNat ≤ Config.maxMaxLength
      && 1 ≤ z.trackEnd.toNat && z.trackEnd.toNat ≤ Config.maxOffset && 1 ≤ z.reverseLimit.toNat then some z
  else none

/-- R52, check 4: a LINE source remains valid under zone parameters. -/
def sourceFits (s : State) (z : ZoneParams) (r : SourceRec) : Bool :=
  match r with
  | .message => true
  | .line _ trigger window _ _ => windowFits z s.stn.stations[trigger].record.offset window

/-- R52, check 4: every defined station and every LINE source remains valid under zone parameters. -/
def zoneValid (s : State) (z : ZoneParams) : Bool :=
  ((List.finRange 8).all fun i => zoneFits z s.stn.stations[i].record)
    && (List.finRange 4).all fun v => sourceFits s z s.vrd.sources[v].record

end Sys2Proof.Machine
end

