-- ==== Sys2Proof/Machine/Codec.lean ====
section
/-! DEFINITION. What the T24 sends: the frame envelope and its CRC (R161), the codes of enumerations (R162, Tables
10-4 to 10-6), the central records (R164, Tables 10-7 to 10-11) and the notice and dump payloads (Table 10-12). -/

namespace Sys2Proof.Machine

/-! ## Frames -/

/-- R162: the `n` low bytes of a value, least significant first. -/
def le {w : Nat} (n : Nat) (v : BitVec w) : List Byte := (List.range n).map fun i => (v >>> (8 * i)).setWidth 8

/-- R161: one shift of the CRC register. -/
def crcShift (r : BitVec 16) : BitVec 16 := if r.msb then (r <<< 1) ^^^ 0x1021 else r <<< 1

/-- R161: one byte into the CRC register. -/
def crcByte (r : BitVec 16) (b : Byte) : BitVec 16 :=
  (List.range 8).foldl (fun r _ => crcShift r) (r ^^^ (b.setWidth 16 <<< 8))

/-- R161: the CRC of a list of bytes. -/
def crc (bytes : List Byte) : BitVec 16 := bytes.foldl crcByte 0xFFFF

/-- Table 10-1: the bytes the CRC covers: LEN, KIND, TAG and payload. -/
def Frame.body (f : Frame) : List Byte := BitVec.ofNat 8 (f.payload.length + 2) :: f.kind :: f.tag :: f.payload

/-- Table 10-1: the bytes of a frame on the wire. -/
def Frame.wire (f : Frame) : List Byte := 0xA5 :: f.body ++ le 2 (crc f.body)

/-! ## Codes -/

def EncMode.code (m : EncMode) : Byte := match m with | .quadX1 => 0 | .quadX2 => 1 | .quadX4 => 2 | .upDown => 3

def EncFilter.code (f : EncFilter) : Byte := match f with | .ns100 => 0 | .ns500 => 1

def Role.code (r : Role) : Byte :=
  match r with | .unused => 0 | .entry => 1 | .check => 2 | .verdict => 3 | .general => 4

def InputFilter.code (f : InputFilter) : Byte :=
  match f with | .off => 0 | .us20 => 1 | .us250 => 2 | .ms2 => 3 | .ms8 => 4

def ProbeState.code (p : ProbeState) : Byte :=
  match p with | .disarmed => 0 | .armedOnce => 1 | .armedEvery => 2 | .spent => 3

def EdgeSel.code (e : EdgeSel) : Byte := match e with | .leading => 0 | .trailing => 1 | .both => 2

def EdgeKind.code (e : EdgeKind) : Byte := match e with | .leading => 0 | .trailing => 1

def StationKind.code (k : StationKind) : Byte :=
  match k with | .none => 0 | .eject => 1 | .mark => 2 | .trigger => 3 | .check => 4

def StationMode.code (m : StationMode) : Byte := match m with | .disabled => 0 | .observe => 1 | .active => 2

def MissingPolicy.code (p : MissingPolicy) : Byte := match p with | .note => 0 | .drop => 1 | .fault => 2

def Disposition.code (d : Disposition) : Byte := match d with | .accept => 1 | .rework => 2 | .reject => 3

def Reason.code (r : Reason) : Byte :=
  match r with | .complete => 1 | .deadline => 2 | .noneRequired => 3 | .atExit => 4

def StationOutcome.code (o : StationOutcome) : Byte :=
  match o with
  | .pending => 0 | .fired => 1 | .firedLate => 2 | .wouldFire => 3 | .notTarget => 4 | .suppressed => 5
  | .refused => 6 | .disabled => 7 | .notServed => 8 | .confirmed => 9 | .missed => 10

def ExitReason.code (e : ExitReason) : Byte :=
  match e with
  | .inTrack => 0 | .endOfTrack => 1 | .short => 2 | .dropped => 3 | .removed => 4 | .flushed => 5

def Collision.code (c : Collision) : Byte := match c with | .refuse => 0 | .extend => 1

def RefusalReason.code (r : RefusalReason) : Byte := match r with | .busy => 1 | .recovering => 2

def ZoneState.code (z : ZoneState) : Byte :=
  match z with | .config => 0 | .armed => 1 | .tracking => 2 | .hold => 3 | .fault => 4 | .estop => 5

def FaultCause.code (c : FaultCause) : Byte :=
  match c with | .encoder => 5 | .reverse => 6 | .trackFull => 7 | .entryBlocked => 8 | .missing => 9

def ZoneCause.code (c : ZoneCause) : Byte :=
  match c with
  | .reset => 0 | .request => 1 | .sync => 2 | .lineStop => 3 | .input => 4 | .fault c => c.code

def HoldPolicy.code (h : HoldPolicy) : Byte := match h with | .safe => 0 | .runOut => 1

def TeachState.code (t : TeachState) : Byte :=
  match t with | .idle => 0 | .waitEntry _ => 1 | .waitTarget _ _ _ => 2

def TeachResult.code (r : TeachResult) : Byte :=
  match r with | .done => 0 | .failed => 1 | .spreadExceeded => 2 | .applyRefused => 3 | .aborted => 4

def SampleOutcome.code (o : SampleOutcome) : Byte := match o with | .taken => 0 | .overlapped => 1 | .span => 2

/-- R134: the Entry Unit state. -/
def EntryUnit.code (e : EntryUnit) : Byte := match e with | .clear => 0 | .measuring _ _ => 1 | .untracked => 2

/-- Table 10-4: the kind code of a notice. -/
def NoticeKind.code (k : NoticeKind) : Byte := 0x40 + BitVec.ofNat 8 k.index.val

/-- An index as a byte. -/
def idxByte {n : Nat} (i : Fin n) : Byte := BitVec.ofNat 8 i.val

/-- R162: an optional tag with its presence byte. -/
def optTag (t : Option Tag) : List Byte := flagByte t.isSome :: le 2 (t.getD 0)

/-! ## Central records -/

/-- R164: a slot's state and code in one byte. -/
def SlotState.byte (st : SlotState) : Byte :=
  match st with
  | .pending => 0x00
  | .set c => 0x10 ||| idxByte c
  | .late c => 0x20 ||| idxByte c
  | .timedOut => 0x30

/-- Table 10-7: the item record. -/
def Item.bytes (it : Item) : List Byte :=
  le 2 it.tag ++ [idxByte it.cls, it.flags.byte it.length.isSome] ++ le 4 it.entryPos
    ++ le 4 (BitVec.ofInt 32 it.correction) ++ le 6 it.entryTime ++ le 4 (it.length.getD 0)
    ++ [it.snapshot.members, it.snapshot.required.setWidth 8] ++ le 4 (it.deadline.getD 0)
    ++ [(it.decision.map fun d => d.disposition.code).getD 0, (it.decision.map fun d => d.reason.code).getD 0]
    ++ le 6 ((it.decision.map Decision.time).getD 0)
    ++ [it.exit.code, BitVec.ofNat 8 it.slots.length, BitVec.ofNat 8 it.outcomes.length, flagByte it.deadline.isSome]
    ++ it.slots.flatMap (fun sl => [idxByte sl.source, sl.state.byte])
    ++ it.outcomes.flatMap (fun e => [idxByte e.station, e.outcome.code])

/-- Table 10-9: the station record. -/
def stationBytes (i : Byte) (r : StationRec) : List Byte :=
  [i, r.kind.code, r.mode.code, (r.output.map idxByte).getD 0xFF] ++ le 4 r.offset ++ le 2 r.pulse
    ++ [(r.target.map Disposition.code).getD 0, idxByte r.sense] ++ le 2 r.tolerance
    ++ [r.policy.code, flagByte r.anchor]

/-- Table 10-10: the code map as a 32-bit value. -/
def codeMapWord (m : Vector Disposition 16) : BitVec 32 :=
  (List.finRange 16).foldl (fun (w : BitVec 32) (k : Fin 16) => w ||| (m[k].code.setWidth 32 <<< (2 * k.val))) 0

/-- Table 10-10: the class record. -/
def classBytes (i : Byte) (c : ClassRec) : List Byte :=
  [i, c.members, c.required.setWidth 8, c.fallback.code] ++ le 4 (codeMapWord c.codeMap)

/-- Table 10-11: the source record. -/
def sourceBytes (i : Byte) (r : SourceRec) : List Byte :=
  match r with
  | .message => [i, 0, 0, 0, 0, 0, 0, 0]
  | .line input trigger window pulse noPulse =>
    [i, 1, idxByte input, idxByte trigger] ++ le 2 window ++ [idxByte pulse, idxByte noPulse]

/-- R25, R162: the probe record: state, edge selection, count, and the last capture behind its presence byte. -/
def Probe.bytes (p : Probe) : List Byte :=
  [p.state.code, p.sel.code, p.count, flagByte p.last.isSome]
    ++ match p.last with
       | none => List.replicate 11 0
       | some c => c.edge.code :: le 4 c.position ++ le 6 c.time

/-- Table 3-6: the six zone parameters. -/
def ZoneParams.bytes (z : ZoneParams) : List Byte :=
  le 2 z.minLength ++ le 4 z.maxLength ++ le 4 z.trackEnd ++ le 2 z.decisionLead ++ le 2 z.reverseLimit
    ++ [idxByte z.defaultClass]

/-! ## Outputs as replies show them (R114) -/

/-- R114: the remaining time of an output: the serial difference of its end time less the time base, 0 in OFF and when
the end time is not ahead (log 25). -/
def OutState.remaining (o : OutState) (now : Time) : BitVec 16 :=
  match o with
  | .off => 0
  | .on e _ => if aheadTime e now then (e - now).setWidth 16 else 0
  | .recover e _ => if aheadTime e now then (e - now).setWidth 16 else 0

/-- R107: the owner of an output. -/
def OutState.owner (o : OutState) : Option Owner :=
  match o with | .off => none | .on _ w => some w | .recover _ w => some w

def OutState.code (o : OutState) : Byte := match o with | .off => 0 | .on _ _ => 1 | .recover _ _ => 2

/-- R114: owner kind, owner station index and owner tag. -/
def ownerBytes (w : Option Owner) : List Byte :=
  match w with
  | none => [0, 0, 0, 0]
  | some (.station i tag) => [1, idxByte i] ++ le 2 tag
  | some .test => [2, 0, 0, 0]

/-- R114: the fields of one output. -/
def Output.bytes (o : Output) (now : Time) : List Byte :=
  [o.state.code] ++ le 2 (o.state.remaining now) ++ ownerBytes o.state.owner

/-- R106: the pin level of an output. -/
def Output.pin (o : Output) : Bool :=
  match o.state with
  | .on _ _ => !o.activeLow
  | .off => o.activeLow
  | .recover _ _ => o.activeLow

/-! ## Notice and dump payloads (Table 10-12) -/

/-- Table 10-6: a STRAY origin: kind and index. -/
def StrayOrigin.bytes (o : StrayOrigin) : List Byte :=
  match o with | .entry => [0, 0] | .station i => [1, idxByte i] | .source v => [2, idxByte v]

/-- Table 10-12. -/
def Notice.payload (n : Notice) : List Byte :=
  match n with
  | .zoneState t old new cause p => le 6 t ++ [old.code, new.code, cause.code] ++ le 4 p
  | .fault t cause primary causes p => le 6 t ++ [cause.code, flagByte (!primary), causes.byte] ++ le 4 p
  | .entry t tag cls p => le 6 t ++ le 2 tag ++ [idxByte cls] ++ le 4 p
  | .decision t tag d r p => le 6 t ++ le 2 tag ++ [d.code, r.code] ++ le 4 p
  | .itemDone t p it => le 6 t ++ le 4 p ++ it.bytes
  | .missing t i tag p m => le 6 t ++ [idxByte i] ++ le 2 tag ++ le 4 p ++ [m.code]
  | .stray t o p => le 6 t ++ o.bytes ++ le 4 p
  | .fireRefused t i tag o r => le 6 t ++ [idxByte i] ++ le 2 tag ++ [idxByte o, r.code]
  | .probe t i e p c st => le 6 t ++ [idxByte i, e.code] ++ le 4 p ++ [c, st.code]
  | .teachSample t o start d held failures =>
    le 6 t ++ [o.code, flagByte d.isSome] ++ le 4 start ++ le 4 (d.getD 0)
      ++ [BitVec.ofNat 8 held, BitVec.ofNat 8 failures]
  | .teachResult t r held stats i applied validation =>
    let st := stats.getD ⟨0, 0, 0⟩
    le 6 t ++ [r.code, BitVec.ofNat 8 held, bitAt stats.isSome 1 ||| bitAt applied 2 ||| bitAt validation.isSome 4]
      ++ le 4 st.mean ++ le 4 st.least ++ le 4 st.greatest
      ++ [idxByte i, (validation.map Status.code).getD 0]

/-- R144: the frame of a notice. -/
def Notice.frame (n : Notice) : Frame := ⟨n.kind.code, 0, n.payload⟩

/-- R148: the NOTICES_LOST frame. -/
def noticesLostFrame (t : Time) (lost : BitVec 16) : Frame := ⟨0x4B, 0, le 6 t ++ le 2 lost⟩

/-- R149: a DUMP_ITEM frame. -/
def dumpItemFrame (tag : Byte) (index : Nat) (it : Item) : Frame := ⟨0x50, tag, BitVec.ofNat 8 index :: it.bytes⟩

/-- R149: the DUMP_END frame. -/
def dumpEndFrame (tag : Byte) (s : Snapshot) : Frame :=
  ⟨0x51, tag, BitVec.ofNat 8 s.records.length :: le 4 s.position ++ le 6 s.time⟩

end Sys2Proof.Machine
end

