-- ==== Sys2Proof/Machine/Items.lean ====
section
/-! DEFINITION. The operations on items that several blocks share: leaving the track (R46, R51), slots and decisions
(R87 to R91, R93, R94, R99), creation (R36 to R38), the Entry Unit (R33 to R42). -/

namespace Sys2Proof.Machine

/-! ## Leaving the track -/

/-- R46, R80: a station after an item has left, `next` being the next newer item. -/
def Station.itemLeft (tag : Tag) (next : Option Tag) (st : Station) : Station :=
  { st with
    cursor := if st.cursor = some tag then next else st.cursor
    opening := if st.opening = some tag then next else st.opening
    windows := st.windows.filter fun w => w.tag ≠ tag }

/-- R46, R96: a source after an item has left. -/
def Source.itemLeft (tag : Tag) (src : Source) : Source :=
  { src with windows := src.windows.filter fun w => w.tag ≠ tag }

/-- R42: the Entry Unit after an item has left. -/
def EntryUnit.itemLeft (tag : Tag) (e : EntryUnit) : EntryUnit :=
  match e with
  | .clear => .clear
  | .measuring t lead => if t = tag then .untracked else .measuring t lead
  | .untracked => .untracked

/-- R46: the blocks after the item with a tag has been taken out of the track. -/
def takeOut (tag : Tag) (s : State) : State :=
  let next := newerThan tag s.trk.track
  ((s.modTrk fun t =>
      { t with track := t.track.filter fun it => it.tag ≠ tag, entry := t.entry.itemLeft tag }).modStn fun u =>
      { u with stations := mapAll u.stations fun _ st => st.itemLeft tag next }).modVrd fun u =>
      { u with sources := mapAll u.sources fun _ src => src.itemLeft tag }

/-- R46, R47: an item leaves the track, with its ITEM_DONE notice. -/
def leave (tag : Tag) (reason : ExitReason) (s : State) : State :=
  match s.findItem tag with
  | none => s
  | some it => offer (.itemDone s.now s.here { it with exit := reason }) (takeOut tag s)

/-- R51: every item leaves FLUSHED, oldest first. -/
def flush (s : State) : State := (s.trk.track.map Item.tag).foldl (fun s tag => leave tag .flushed s) s

/-! ## Slots and decisions -/

/-- R88: the mapped disposition of a SET slot. -/
def Item.mapped (it : Item) (sl : Slot) : Option Disposition :=
  match sl.state with
  | .pending => none
  | .set code => some it.snapshot.codeMap[code]
  | .late _ => none
  | .timedOut => none

/-- R88, Table 5-2: the disposition a reason gives. -/
def Item.combine (it : Item) (r : Reason) : Disposition :=
  match r with
  | .complete => mostSevere (it.slots.filterMap it.mapped)
  | .deadline => mostSevere (it.snapshot.fallback :: it.slots.filterMap it.mapped)
  | .noneRequired => it.snapshot.fallback
  | .atExit => mostSevere (it.snapshot.fallback :: it.slots.filterMap it.mapped)

/-- R89: VRD decides an undecided item, with its DECISION notice; a decided item is left as it is. -/
def decideItem (tag : Tag) (r : Reason) (s : State) : State :=
  match s.findItem tag with
  | none => s
  | some it =>
    if it.decision.isSome then s
    else
      offer (.decision s.now tag (it.combine r) r s.here)
        (s.modItem tag fun it => { it with decision := some ⟨it.combine r, r, s.now⟩ })

/-- R90: a PENDING slot times out. -/
def Slot.timeOut (sl : Slot) : Slot :=
  match sl.state with
  | .pending => { sl with state := .timedOut }
  | .set _ => sl
  | .late _ => sl
  | .timedOut => sl

/-- R90, R91: the deadline is taken. -/
def takeDeadline (tag : Tag) (s : State) : State :=
  match s.findItem tag with
  | none => s
  | some it =>
    if it.decision.isSome then s
    else decideItem tag .deadline (s.modItem tag fun it => { it with slots := it.slots.map Slot.timeOut })

/-- The state of the slot an item holds for a source (R87). -/
def Item.slotAt (it : Item) (v : Fin 4) : Option SlotState := (it.slots.find? fun sl => sl.source = v).map Slot.state

/-- R93, R94: a code arrives at a slot. -/
def Slot.fill (code : Fin 16) (sl : Slot) : Slot :=
  match sl.state with
  | .pending => { sl with state := .set code }
  | .timedOut => { sl with state := .late code }
  | .set _ => sl
  | .late _ => sl

/-- R93, R94: a code arrives at an item's slot for a source; a slot that had timed out sets LATE_VERDICT. -/
def Item.fillSlot (v : Fin 4) (code : Fin 16) (it : Item) : Item :=
  { it with
    slots := it.slots.map fun sl => if sl.source = v then sl.fill code else sl
    flags := { it.flags with lateVerdict := it.flags.lateVerdict || it.slotAt v = some .timedOut } }

/-- A slot in state SET. -/
def Slot.isSet (sl : Slot) : Bool :=
  match sl.state with
  | .pending => false
  | .set _ => true
  | .late _ => false
  | .timedOut => false

/-- R88: every slot of the item is SET. -/
def Item.allSet (it : Item) : Bool := it.slots.all Slot.isSet

/-- R93, R94, R99: a verdict reaches an item's slot: PENDING becomes SET and may complete the item, TIMED_OUT becomes
LATE; a slot that holds a code keeps it (R87). -/
def fillVerdict (tag : Tag) (v : Fin 4) (code : Fin 16) (s : State) : State :=
  match s.findItem tag with
  | none => s
  | some it =>
    match it.slotAt v with
    | none => s
    | some (.set _) => s
    | some (.late _) => s
    | some .timedOut => s.modItem tag (Item.fillSlot v code)
    | some .pending =>
      let s1 := s.modItem tag (Item.fillSlot v code)
      if (it.fillSlot v code).allSet then decideItem tag .complete s1 else s1

/-! ## Creation -/

/-- R36: advancing from 65535 gives 1. -/
def advanceTag (t : Tag) : Tag := if t = 65535#16 then 1 else t + 1

/-- R36: the first tag from `t` on that no item of the track carries. -/
def freeTag (track : List Item) : Nat → Tag → Tag
  | 0, t => t
  | k + 1, t => if track.any fun it => it.tag = t then freeTag track k (advanceTag t) else t

/-- R38: the offsets of the defined EJECT and MARK stations of a class. -/
def sortOffsets (stations : Vector Station 8) (c : ClassRec) : List Nat :=
  (List.finRange 8).filterMap fun i =>
    if c.hasMember i && stations[i].record.kind.sorts then some stations[i].record.offset.toNat else none

/-- R38: the deadline position of an item at `entryPos` with class snapshot `c`. -/
def deadlineOf (s : State) (entryPos : Pos) (c : ClassRec) : Option Pos :=
  (sortOffsets s.stn.stations c).min?.map fun m =>
    entryPos + BitVec.ofNat 32 m - s.trk.params.decisionLead.setWidth 32

/-- R37: one PENDING slot for each required source, in ascending order. -/
def freshSlots (c : ClassRec) : List Slot :=
  ((List.finRange 4).filter fun v => c.requires v).map fun v => ⟨v, .pending⟩

/-- R37: one PENDING entry for each defined member station, in ascending order. -/
def freshOutcomes (stations : Vector Station 8) (c : ClassRec) : List OutcomeEntry :=
  ((List.finRange 8).filter fun i => c.hasMember i && stations[i].record.defined).map fun i => ⟨i, .pending⟩

/-- R37: the record of an item created now with a tag. -/
def newItem (s : State) (tag : Tag) : Item :=
  let c := s.vrd.classes[s.trk.params.defaultClass]
  { tag := tag, cls := s.trk.params.defaultClass, snapshot := c, entryPos := s.here, correction := 0
    entryTime := s.now, length := none, deadline := deadlineOf s s.here c, slots := freshSlots c, decision := none
    outcomes := freshOutcomes s.stn.stations c, flags := .none, exit := .inTrack }

/-- R37, R64, R70: a station whose cursor held no item takes the new item. -/
def Station.itemCreated (tag : Tag) (st : Station) : Station :=
  { st with
    cursor := if st.record.kind.fires && st.cursor.isNone then some tag else st.cursor
    opening := if st.record.kind = .check && st.opening.isNone then some tag else st.opening }

/-- R35 case 3, R36, R37: an item is created at the leading edge. -/
def createItem (s : State) : State :=
  let tag := freeTag s.trk.track (Config.trackCapacity + 1) s.trk.nextTag
  let it := newItem s tag
  let s1 := s.modTrk fun t =>
    { t with track := t.track ++ [it], nextTag := advanceTag tag, entry := .measuring tag s.here }
  let s2 := offer (.entry s.now tag it.cls s.here) s1
  let s3 := if it.snapshot.required = 0 then decideItem tag .noneRequired s2 else s2
  s3.modStn fun u => { u with stations := mapAll u.stations fun _ st => st.itemCreated tag }

/-! ## The Entry Unit -/

/-- Set the Entry Unit. -/
def setEntry (e : EntryUnit) (s : State) : State := s.modTrk fun t => { t with entry := e }

/-- R35: the tests of a leading edge while items are tracked. -/
def entryAttempt (s : State) : State :=
  if Config.trackCapacity ≤ s.trk.track.length then faultCause .trackFull (setEntry .untracked s)
  else
    match s.trk.track.getLast? with
    | none => createItem s
    | some newest =>
      if ahead s.here newest.entryPos then createItem s
      else offer (.stray s.now .entry s.here) (setEntry .untracked s)

/-- R33 to R35, Table 3-4: a leading edge of the ENTRY input; in MEASURING it does not arise (log 26). -/
def entryLeading (s : State) : State :=
  if s.zon.zone.tracks then
    match s.trk.entry with
    | .clear => entryAttempt s
    | .untracked => entryAttempt s
    | .measuring _ _ => s
  else setEntry .untracked s

/-- R39, R40: a trailing edge of the ENTRY input. -/
def entryTrailing (s : State) : State :=
  match s.trk.entry with
  | .clear => s
  | .untracked => setEntry .clear s
  | .measuring tag lead =>
    let len := serialDist lead s.here
    let s1 := (setEntry .clear s).modItem tag fun it => { it with length := some len }
    if len.toNat < s.trk.params.minLength.toNat then leave tag .short s1 else s1

/-- R41: the over-length position of the item being measured is reached. -/
def overlengthReach (s : State) : State :=
  match s.trk.entry with
  | .clear => s
  | .untracked => s
  | .measuring tag _ =>
    faultCause .entryBlocked (s.modItem tag fun it => { it with flags := { it.flags with overlength := true } })

/-- R17: the input is active. -/
def Input.active (x : Input) : Bool := x.accepted != x.activeLow

/-- R42: the Entry Unit as the ENTRY input's level sets it; CLEAR when no input has role ENTRY. -/
def entryByLevel (s : State) : EntryUnit :=
  if (List.finRange 8).any fun i => s.inp.inputs[i].role = .entry && s.inp.inputs[i].active then .untracked
  else .clear

/-- R21: some input has role ENTRY. -/
def hasEntry (s : State) : Bool := (List.finRange 8).any fun i => s.inp.inputs[i].role = .entry

/-- R48: an item retires: decided AT_EXIT if undecided, then out with reason END. -/
def retire (tag : Tag) (s : State) : State := leave tag .endOfTrack (decideItem tag .atExit s)

end Sys2Proof.Machine
end

