-- ==== Sys2Proof/Machine/Stations.lean ====
section
/-! DEFINITION. The work of stations and LINE sources on items: line verdict windows (R97 to R99), processing and fire
claims (R66 to R69), checkpoint openings, edges and closes (R70 to R78), corrections and late processing (R43 to R45,
R79). -/

namespace Sys2Proof.Machine

/-! ## Line verdict windows -/

/-- R99: the window of a source for an item closes; its result reaches the item's slot. -/
def closeLineWindow (v : Fin 4) (tag : Tag) (s : State) : State :=
  match s.vrd.sources[v].windows.find? fun w => w.tag = tag with
  | none => s
  | some w =>
    let s1 := s.modSource v fun src => { src with windows := src.windows.filter fun w => w.tag ≠ tag }
    match s.vrd.sources[v].record with
    | .message => s1
    | .line _ _ _ pulse noPulse => fillVerdict tag v (if w.edgeSeen then pulse else noPulse) s1

/-- R97: a source opens a window for an item that a station has triggered at a fire position; a window whose close
position is not ahead of the track position closes at once. -/
def openLineWindow (i : Fin 8) (tag : Tag) (fire : Pos) (s : State) (v : Fin 4) : State :=
  match s.vrd.sources[v].record with
  | .message => s
  | .line _ trigger window _ _ =>
    match s.findItem tag with
    | none => s
    | some it =>
      if trigger = i && it.snapshot.requires v then
        let closePos := fire + window.setWidth 32
        let s1 := s.modSource v fun src => { src with windows := src.windows ++ [⟨tag, closePos, false⟩] }
        if ahead closePos s.here then s1 else closeLineWindow v tag s1
      else s

/-- R69, R97: a trigger hands an item to VRD. -/
def openLineWindows (i : Fin 8) (tag : Tag) (fire : Pos) (s : State) : State :=
  (List.finRange 4).foldl (openLineWindow i tag fire) s

/-- R98: a leading edge at a LINE source. -/
def lineEdge (v : Fin 4) (s : State) : State :=
  if s.zon.zone.tracks then
    match s.vrd.sources[v].windows.find? fun w => !w.edgeSeen with
    | none => offer (.stray s.now (.source v) s.here) s
    | some w =>
      s.modSource v fun src =>
        { src with windows := src.windows.map fun x => if x.tag = w.tag then { x with edgeSeen := true } else x }
  else s

/-! ## Stations that fire -/

/-- Table 4-4: what a station does with a member item. -/
inductive FireChoice where
  | record (outcome : StationOutcome)
  | claim
  deriving DecidableEq, Repr

/-- R67, Table 4-4: the first condition that holds; `d` is the item's disposition, absent while UNDECIDED. -/
def fireChoice (r : StationRec) (d : Option Disposition) (z : ZoneState) (h : HoldPolicy) : FireChoice :=
  if r.mode = .disabled then .record .disabled
  else if r.kind.sorts && d ≠ r.target then .record .notTarget
  else if r.mode = .observe then .record .wouldFire
  else if z = .fault || (z = .hold && h = .safe) then .record .suppressed
  else .claim

/-- R68, R69: a station claims its output for an item and records the answer. -/
def fireStation (i : Fin 8) (it : Item) (late : Bool) (s : State) : State :=
  let r := s.stn.stations[i].record
  match r.output with
  | none => s
  | some o =>
    let a := claimOutput o r.pulse (.station i it.tag) s
    match a.2 with
    | some reason =>
      offer (.fireRefused s.now i it.tag o reason) (a.1.modItem it.tag fun x => x.record i .refused)
    | none =>
      let s1 := a.1.modItem it.tag fun x => x.record i (if late then .firedLate else .fired)
      if r.kind = .trigger then openLineWindows i it.tag (it.firePos r.offset) s1 else s1

/-- R66 step 3, R67: a station gives a member item its outcome. -/
def stationOutcome (i : Fin 8) (it : Item) (late : Bool) (s : State) : State :=
  match fireChoice s.stn.stations[i].record (it.decision.map Decision.disposition) s.zon.zone s.zon.holdPolicy with
  | .claim => fireStation i it late s
  | .record .suppressed =>
    s.modItem it.tag fun x =>
      { x.record i .suppressed with flags := { x.flags with unserved := true } }
  | .record o => s.modItem it.tag fun x => x.record i o

/-- R66 step 2: an EJECT or MARK station has the deadline of its item taken first. -/
def deadlineFirst (i : Fin 8) (tag : Tag) (s : State) : State :=
  if s.stn.stations[i].record.kind.sorts then takeDeadline tag s else s

/-- R64: the cursor advances past an item. -/
def advanceCursor (i : Fin 8) (tag : Tag) (s : State) : State :=
  s.modStation i fun st => { st with cursor := newerThan tag s.trk.track }

/-- R66: an EJECT, MARK or TRIGGER station processes its cursor item. -/
def processStation (i : Fin 8) (late : Bool) (s : State) : State :=
  match s.stn.stations[i].cursor with
  | none => s
  | some tag =>
    match s.findItem tag with
    | none => s
    | some it =>
      if it.snapshot.hasMember i then
        let s1 := deadlineFirst i tag s
        advanceCursor i tag (stationOutcome i ((s1.findItem tag).getD it) late s1)
      else advanceCursor i tag s

/-! ## Checkpoints -/

/-- R76: the missing policy of an ACTIVE-mode window that closed unconfirmed. -/
def missingPolicy (p : MissingPolicy) (tag : Tag) (s : State) : State :=
  match p with
  | .note => s
  | .drop => leave tag .dropped s
  | .fault => faultCause .missing s

/-- R75: a member item whose window closed unconfirmed is MISSED. -/
def missItem (i : Fin 8) (w : CheckWindow) (s : State) : State :=
  let r := s.stn.stations[i].record
  let s1 := s.modItem w.tag fun x => { x.record i .missed with flags := { x.flags with missing := true } }
  let s2 := offer (.missing s.now i w.tag (w.closePos - r.tolerance.setWidth 32) w.mode) s1
  if w.mode = .active then missingPolicy r.policy w.tag s2 else s2

/-- R75: the window of a CHECK station for an item closes. -/
def closeWindow (i : Fin 8) (tag : Tag) (s : State) : State :=
  match s.stn.stations[i].windows.find? fun w => w.tag = tag with
  | none => s
  | some w =>
    let s1 := s.modStation i fun st => { st with windows := st.windows.filter fun w => w.tag ≠ tag }
    match s.findItem tag with
    | none => s1
    | some it =>
      if it.snapshot.hasMember i && it.outcomeAt i = some .pending then
        if w.confirmed then s1.modItem tag fun x => x.record i .confirmed else missItem i w s1
      else s1

/-- R71: a CHECK station handles the opening of its opening cursor item, by its mode, and the opening cursor advances. -/
def openOne (i : Fin 8) (s : State) : State :=
  let st := s.stn.stations[i]
  match st.opening with
  | none => s
  | some tag =>
    match s.findItem tag with
    | none => s
    | some it =>
      let closePos := it.entryPos + st.record.offset + st.record.tolerance.setWidth 32
      let s1 :=
        if st.record.mode = .disabled then
          if it.snapshot.hasMember i then s.modItem tag fun x => x.record i .disabled else s
        else s.modStation i fun x => { x with windows := x.windows ++ [⟨tag, closePos, false, st.record.mode⟩] }
      s1.modStation i fun x => { x with opening := newerThan tag s.trk.track }

/-- R79: a window just opened late closes at once when its close position is not ahead of the track position. -/
def closeIfLate (i : Fin 8) (tag : Tag) (s : State) : State :=
  match s.stn.stations[i].windows.find? fun w => w.tag = tag with
  | none => s
  | some w => if ahead w.closePos s.here then s else closeWindow i tag s

/-- R71, R79: a CHECK station handles at once every opening that is already not ahead of the track position. -/
def lateOpen (i : Fin 8) : Nat → State → State
  | 0, s => s
  | k + 1, s =>
    match s.stn.stations[i].opening.bind s.findItem with
    | none => s
    | some it =>
      if ahead (it.openPos s.stn.stations[i].record) s.here then s
      else lateOpen i k (closeIfLate i it.tag (openOne i s))

/-- R71: the opening position of a CHECK station's opening cursor item is reached by a count. -/
def handleOpening (i : Fin 8) (s : State) : State := lateOpen i s.trk.track.length (openOne i s)

/-- R77: the windows of a CHECK station changed to DISABLED close, oldest first, with CONFIRMED or DISABLED. -/
def disableClose (i : Fin 8) (s : State) : State :=
  let s1 := s.stn.stations[i].windows.foldl
    (fun s w =>
      s.modItem w.tag fun x =>
        if x.snapshot.hasMember i then x.record i (if w.confirmed then .confirmed else .disabled) else x) s
  s1.modStation i fun st => { st with windows := [] }

/-! ## Corrections -/

/-- R43: a new corrected entry position stays strictly between the item's neighbours. -/
def betweenNeighbours (track : List Item) (tag : Tag) (e : Pos) : Bool :=
  ((olderThan tag track).all fun x => ahead e x.entryPos) && ((nextNewer tag track).all fun x => ahead x.entryPos e)

/-- R44: an applied correction moves the item. -/
def Item.correct (c : Int) (it : Item) : Item :=
  { it with
    entryPos := it.entryPos + BitVec.ofInt 32 c
    correction := it.correction + c
    deadline := it.deadline.map fun d => d + BitVec.ofInt 32 c
    flags := { it.flags with anchored := true } }

/-- R45 step 1, R91: a deadline that a correction has made reached is taken. -/
def settleDeadline (tag : Tag) (s : State) : State :=
  match (s.findItem tag).bind Item.deadline with
  | none => s
  | some d => if ahead d s.here then s else takeDeadline tag s

/-- R45 step 2, R79: a station acts at once on an item whose next position there has become reached. -/
def settleStation (tag : Tag) (s : State) (i : Fin 8) : State :=
  let st := s.stn.stations[i]
  match s.findItem tag with
  | none => s
  | some it =>
    match st.record.kind with
    | .none => s
    | .check =>
      if st.opening = some tag && !ahead (it.openPos st.record) s.here then lateOpen i s.trk.track.length s else s
    | .eject | .mark | .trigger =>
      if st.cursor = some tag && !ahead (it.firePos st.record.offset) s.here then processStation i true s else s

/-- R45 step 3: an item whose retirement position has become reached retires. -/
def settleRetirement (tag : Tag) (s : State) : State :=
  match s.findItem tag with
  | none => s
  | some it => if ahead (it.retirePos s.trk.params) s.here then s else retire tag s

/-- R45: after an applied correction: the deadline, the stations in ascending order, the retirement. -/
def settleCorrection (tag : Tag) (s : State) : State :=
  settleRetirement tag ((List.finRange 8).foldl (settleStation tag) (settleDeadline tag s))

/-- R43 to R45: a correction request for an item. -/
def requestCorrection (tag : Tag) (c : Int) (s : State) : State :=
  match s.findItem tag with
  | none => s
  | some it =>
    if betweenNeighbours s.trk.track tag (it.entryPos + BitVec.ofInt 32 c) then
      settleCorrection tag (s.modItem tag (Item.correct c))
    else s.modItem tag fun x => { x with flags := { x.flags with anchorRefused := true } }

/-- R73, R74: an edge confirms a window, records CONFIRMED for a member and may ask for a correction. -/
def confirmWindow (i : Fin 8) (w : CheckWindow) (s : State) : State :=
  let r := s.stn.stations[i].record
  let tol := r.tolerance.setWidth 32
  let s1 := s.modStation i fun st =>
    { st with windows := st.windows.map fun x => if x.tag = w.tag then { x with confirmed := true } else x }
  match s.findItem w.tag with
  | none => s1
  | some it =>
    if it.snapshot.hasMember i then
      let s2 := s1.modItem w.tag fun x => x.record i .confirmed
      if w.mode = .active && r.anchor && !ahead (w.closePos - tol - tol) s.here then
        requestCorrection w.tag (s.here - (w.closePos - tol)).toInt s2
      else s2
    else s1

/-- R72: a leading edge at a CHECK station. -/
def checkEdge (i : Fin 8) (s : State) : State :=
  if s.zon.zone.tracks && s.stn.stations[i].record.mode ≠ .disabled then
    match s.stn.stations[i].windows.find? fun w => !w.confirmed with
    | none => offer (.stray s.now (.station i) s.here) s
    | some w => confirmWindow i w s
  else s

end Sys2Proof.Machine
end

