-- ==== Sys2Proof/Machine/Teaching.lean ====
section
/-! DEFINITION. The Teach Unit: samples (R155 to R157), the result (R158) and the abort (R159). -/

namespace Sys2Proof.Machine

/-- Set the teach state. -/
def setTeach (t : TeachState) (s : State) : State := s.modTch fun u => { u with state := t }

/-- R158: the mean (rounded down), least and greatest of the samples held. -/
def TeachRun.stats (run : TeachRun) : Option TeachStats :=
  match run.samples.map BitVec.toNat with
  | [] => none
  | x :: xs =>
    some
      { mean := BitVec.ofNat 32 ((x :: xs).sum / (x :: xs).length)
        least := BitVec.ofNat 32 (xs.foldl Nat.min x)
        greatest := BitVec.ofNat 32 (xs.foldl Nat.max x) }

/-- R153, R158: a teach ends with a result; the unit is IDLE and the TEACH_RESULT notice is offered. -/
def endTeach (run : TeachRun) (r : TeachResult) (stats : Option TeachStats) (applied : Bool)
    (validation : Option Status) (s : State) : State :=
  offer (.teachResult s.now r run.samples.length stats run.station applied validation) (setTeach .idle s)

/-- R158 cases 3 and 4: the mean is written into the station's offset when the record passes both checks; a mean of 0
fails the value check, whatever the station's kind. -/
def applyTeach (run : TeachRun) (stats : TeachStats) (s : State) : State :=
  let r := { s.stn.stations[run.station].record with offset := stats.mean }
  if !offsetOk stats.mean || !r.valueOk then endTeach run .applyRefused (some stats) false (some .badValue) s
  else if !stationValid s run.station r then endTeach run .applyRefused (some stats) false (some .conflict) s
  else endTeach run .done (some stats) true none (s.modStation run.station fun st => { st with record := r })

/-- R158: the samples held have reached the count asked for. -/
def finishTeach (run : TeachRun) (s : State) : State :=
  match run.stats with
  | none => s
  | some stats =>
    if run.spread.toNat < (stats.greatest - stats.least).toNat then
      endTeach run .spreadExceeded (some stats) false none s
    else if run.apply then applyTeach run stats s
    else endTeach run .done (some stats) false none s

/-- R155: a leading edge of the ENTRY input. -/
def teachEntryEdge (s : State) : State :=
  match s.tch.state with
  | .idle => s
  | .waitEntry run => setTeach (.waitTarget run s.here (s.here + run.span)) s
  | .waitTarget run start _ =>
    offer (.teachSample s.now .overlapped start none run.samples.length run.failures)
      (setTeach (.waitTarget run s.here (s.here + run.span)) s)

/-- R156: a leading edge of the target input. -/
def teachTargetEdge (s : State) : State :=
  match s.tch.state with
  | .idle => s
  | .waitEntry _ => s
  | .waitTarget run start _ =>
    let d := serialDist start s.here
    let run1 := { run with samples := run.samples ++ [d], failures := 0 }
    let s1 := offer (.teachSample s.now .taken start (some d) run1.samples.length 0) (setTeach (.waitEntry run1) s)
    if run1.wanted ≤ run1.samples.length then finishTeach run1 s1 else s1

/-- R157: the span position is reached. -/
def teachSpanReach (s : State) : State :=
  match s.tch.state with
  | .idle => s
  | .waitEntry _ => s
  | .waitTarget run start _ =>
    let run1 := { run with failures := run.failures + 1 }
    let s1 :=
      offer (.teachSample s.now .span start none run1.samples.length run1.failures) (setTeach (.waitEntry run1) s)
    if Config.teachFailures ≤ run1.failures then endTeach run1 .failed none false none s1 else s1

/-- R153: what a running teach holds. -/
def TeachState.run (t : TeachState) : Option TeachRun :=
  match t with
  | .idle => none
  | .waitEntry run => some run
  | .waitTarget run _ _ => some run

/-- R159: a running teach is aborted. -/
def abortTeach (s : State) : State :=
  match s.tch.state.run with
  | none => s
  | some run => endTeach run .aborted none false none s

/-- R154: a TEACH payload; none where a field is out of range. -/
def teachOfBytes (p : List Byte) : Option TeachRun := do
  let target ← asFin 8 (byteAt p 0)
  let apply ← asFlag (byteAt p 8)
  let station ← asFin 8 (byteAt p 9)
  let wanted := (byteAt p 1).toNat
  let span := u32 p 2
  if 1 ≤ wanted && wanted ≤ 8 && offsetOk span && (apply || station = 0) then
    some { target, wanted, span, spread := u16 p 6, apply, station, samples := [], failures := 0 }
  else none

/-- R154, check 5: no ENTRY input, the target is the ENTRY input, or the station to apply to is of kind NONE. -/
def teachConflict (s : State) (run : TeachRun) : Bool :=
  !hasEntry s || s.inp.inputs[run.target].role = .entry
    || (run.apply && s.stn.stations[run.station].record.kind = .none)

/-- TEACH (R154). -/
def reqTeach (tag : Byte) (p : List Byte) (s : State) : State :=
  let reply (st : Status) (s : State) : State := answer 0x2E tag st [s.tch.state.code] s
  if p.length ≠ 10 then reply .badLength s
  else if s.zon.zone ≠ .config then reply .wrongState s
  else
    match teachOfBytes p with
    | none => reply .badValue s
    | some run =>
      if s.tch.state ≠ .idle then reply .busy s
      else if teachConflict s run then reply .conflict s
      else reply .ok (setTeach (.waitEntry run) s)

/-- TEACH_ABORT (R159). -/
def reqTeachAbort (tag : Byte) (p : List Byte) (s : State) : State :=
  let reply (st : Status) (s : State) : State := answer 0x2F tag st [s.tch.state.code] s
  if p ≠ [] then reply .badLength s
  else if s.tch.state = .idle then reply .wrongState s
  else reply .ok (abortTeach s)

/-- TEACH. -/
def execTeach (tag : Byte) (payload : List Byte) (s : State) : Host.Outcome State Fault Refusal :=
  .next (takeFrame (reqTeach tag payload) s)

/-- TEACH_ABORT. -/
def execTeachAbort (tag : Byte) (payload : List Byte) (s : State) : Host.Outcome State Fault Refusal :=
  .next (takeFrame (reqTeachAbort tag payload) s)

end Sys2Proof.Machine
end

