-- ==== Sys2Proof/Machine/Zone.lean ====
section
/-! DEFINITION. The Zone Controller: tracking start (R121 to R123), shared lines (R118 to R120, R124, R125), HOLD,
RESUME, STOP (R126 to R129), ESTOP and CLEAR (R130 to R132), STATUS (R134). -/

namespace Sys2Proof.Machine

/-- Abbreviation for the outcome of a command. -/
abbrev Answer := Host.Outcome State Fault Refusal

/-! ## Transitions -/

/-- R123: a tracking start. -/
def trackingStart (cause : ZoneCause) (s : State) : State :=
  let s1 := s.modPos fun p => { p with position := 0, highWater := 0 }
  let s2 := s1.modTrk fun t => { t with nextTag := 1, entry := entryByLevel s }
  let s3 := s2.modZon fun z => { z with firstCause := none, causes := .empty }
  enterZone .tracking cause s3

/-- R111: the emergency cut. -/
def emergencyCut (s : State) : State :=
  s.modOut fun u => { u with outputs := mapAll u.outputs fun _ o => { o with state := .off } }

/-- R131: every entry to ESTOP. -/
def enterEstop (cause : ZoneCause) (s : State) : State :=
  enterZone .estop cause (abortTeach (setEntry (entryByLevel s) (emergencyCut s)))

/-- R51, R129, R132: the flush and the change to CONFIG. -/
def flushToConfig (s : State) : State := enterZone .config .request (flush s)

/-! ## START, HOLD, RESUME, STOP -/

/-- R121, check 2: the zone states in which a START payload is accepted. -/
def startAllowed (form : Byte) (z : ZoneState) : Bool := z = .config || (z = .armed && form ≠ 0)

/-- START (R121). -/
def reqStart (tag : Byte) (p : List Byte) (s : State) : State :=
  let reply (st : Status) (s : State) : State := answer 0x24 tag st [s.zon.zone.code] s
  let form := byteAt p 0
  if p.length ≠ 1 then reply .badLength s
  else if !startAllowed form s.zon.zone then reply .wrongState s
  else if 1 < form.toNat then reply .badValue s
  else if s.zon.zone = .config && !hasEntry s then reply .conflict s
  else if form = 0 then reply .ok (enterZone .armed .request (abortTeach s))
  else reply .ok (trackingStart .request (abortTeach s))

/-- HOLD (R126). -/
def reqHold (tag : Byte) (p : List Byte) (s : State) : State :=
  let reply (st : Status) (s : State) : State := answer 0x27 tag st [s.zon.zone.code] s
  if p ≠ [] then reply .badLength s
  else if s.zon.zone ≠ .tracking then reply .wrongState s
  else reply .ok (enterZone .hold .request s)

/-- R10: the reverse distance. -/
def reverseDistance (p : PosUnit) : Nat := (serialDist p.position p.highWater).toNat

/-- Table 7-8: the causes of the set that are present. -/
def presentCauses (s : State) : CauseSet :=
  { encoder := false
    reverse := s.zon.causes.reverse && s.trk.params.reverseLimit.toNat < reverseDistance s.pos
    trackFull := s.zon.causes.trackFull && Config.trackCapacity ≤ s.trk.track.length
    entryBlocked :=
      s.zon.causes.entryBlocked &&
        match s.trk.entry with
        | .clear => false
        | .untracked => false
        | .measuring tag _ => ((s.findItem tag).map fun it => it.flags.overlength).getD false
    missing := false }

/-- R128: the line check fails. -/
def lineHeld (s : State) : Bool := s.zon.stopIn && !s.zon.lineStop.accepted

/-- RESUME (R128). -/
def reqResume (tag : Byte) (p : List Byte) (s : State) : State :=
  let reply (st : Status) (line : Bool) (causes : CauseSet) (s : State) : State :=
    answer 0x28 tag st [s.zon.zone.code, flagByte line, causes.byte] s
  let causes := if s.zon.zone = .fault then presentCauses s else .empty
  if p ≠ [] then reply .badLength false .empty s
  else if s.zon.zone ≠ .hold && s.zon.zone ≠ .fault then reply .wrongState false .empty s
  else if lineHeld s || causes ≠ .empty then reply .causePresent (lineHeld s) causes s
  else reply .ok false .empty (enterZone .tracking .request s)

/-- STOP (R129). That the flushed-item count is one byte is the model's choice (log 32). -/
def reqStop (tag : Byte) (p : List Byte) (s : State) : State :=
  let reply (st : Status) (n : Nat) (s : State) : State := answer 0x29 tag st [BitVec.ofNat 8 n, s.zon.zone.code] s
  if p ≠ [] then reply .badLength 0 s
  else
    match s.zon.zone with
    | .estop => reply .wrongState 0 s
    | .config => reply .ok 0 s
    | .armed | .tracking | .hold | .fault => reply .ok s.trk.track.length (flushToConfig s)

/-- ESTOP (R131). -/
def reqEstop (tag : Byte) (p : List Byte) (s : State) : State :=
  let reply (st : Status) (s : State) : State := answer 0x2A tag st [s.zon.zone.code] s
  if p ≠ [] then reply .badLength s
  else if s.zon.zone = .estop then reply .ok s
  else reply .ok (enterEstop .request s)

/-- CLEAR (R132). That the flushed-item count is one byte is the model's choice (log 32). -/
def reqClear (tag : Byte) (p : List Byte) (s : State) : State :=
  let reply (st : Status) (n : Nat) (s : State) : State := answer 0x2B tag st [BitVec.ofNat 8 n, s.zon.zone.code] s
  if p ≠ [] then reply .badLength 0 s
  else if s.zon.zone ≠ .estop then reply .wrongState 0 s
  else if !s.zon.estopN.accepted then reply .causePresent 0 s
  else reply .ok s.trk.track.length (flushToConfig s)

/-! ## The shared lines -/

/-- A drive state (Table 10-6). -/
def driveByte (d : Option Time) : Byte := flagByte d.isSome

/-- SYNC_PULSE (R124). -/
def reqSyncPulse (tag : Byte) (p : List Byte) (s : State) : State :=
  let reply (st : Status) (s : State) : State := answer 0x25 tag st [driveByte s.zon.syncDrive] s
  if p ≠ [] then reply .badLength s
  else if s.zon.zone = .estop then reply .wrongState s
  else if s.zon.syncDrive.isSome then reply .busy s
  else reply .ok (s.modZon fun z => z.setSync z.sync.ext (some (s.now + Config.syncPulse)) s.now)

/-- R125: the remaining time of the LINE-STOP drive, 0 when it is not driving or its end is not ahead (log 25). -/
def driveRemaining (d : Option Time) (now : Time) : BitVec 32 :=
  match d with
  | none => 0
  | some e => if aheadTime e now then (e - now).setWidth 32 else 0

/-- STOP_LINE (R125). -/
def reqStopLine (tag : Byte) (p : List Byte) (s : State) : State :=
  let reply (st : Status) (s : State) : State :=
    answer 0x26 tag st (driveByte s.zon.lineStopDrive :: le 4 (driveRemaining s.zon.lineStopDrive s.now)) s
  if p ≠ [] then reply .badLength s else reply .ok (driveLineStop s)

/-- R120: the five line settings, as a reply carries them. -/
def lineBytes (z : ZonUnit) : List Byte :=
  [flagByte z.stopIn, flagByte z.stopOut, flagByte z.syncIn, z.holdPolicy.code, z.stopWidth]

/-- R120: the full form of SET_LINE over the line settings; none where a field is out of range. -/
def lineOfPayload (p : List Byte) (z : ZonUnit) : Option ZonUnit := do
  let stopIn ← asFlag (byteAt p 0)
  let stopOut ← asFlag (byteAt p 1)
  let syncIn ← asFlag (byteAt p 2)
  let holdPolicy ← HoldPolicy.ofByte (byteAt p 3)
  let w := byteAt p 4
  if 1 ≤ w.toNat && w.toNat ≤ 250 then some { z with stopIn, stopOut, syncIn, holdPolicy, stopWidth := w } else none

/-- SET_LINE (R120). -/
def reqSetLine (tag : Byte) (p : List Byte) (s : State) : State :=
  let reply (st : Status) (s : State) : State := answer 0x2C tag st (lineBytes s.zon) s
  if p = [] then reply .ok s
  else if p.length ≠ 5 then reply .badLength s
  else
    match lineOfPayload p s.zon with
    | none => reply .badValue s
    | some z => reply .ok (s.modZon fun _ => z)

/-! ## STATUS -/

/-- Table 7-10, in the layout of log 20. That the track count is one byte is the model's choice (log 32). -/
def statusBytes (s : State) : List Byte :=
  let measured := match s.trk.entry with | .clear => none | .untracked => none | .measuring tag _ => some tag
  [s.zon.zone.code, flagByte s.zon.firstCause.isSome, (s.zon.firstCause.map FaultCause.code).getD 0, s.zon.causes.byte,
      BitVec.ofNat 8 s.trk.track.length]
    ++ le 4 s.here ++ le 6 s.now ++ [s.trk.entry.code] ++ optTag measured
    ++ [s.tch.state.code, flagByte s.lnk.dump.isSome, flagByte s.zon.sync.accepted, flagByte s.zon.lineStop.accepted,
      flagByte s.zon.estopN.accepted, driveByte s.zon.syncDrive, driveByte s.zon.lineStopDrive]
    ++ le 2 s.lnk.frameErrors ++ le 2 s.lnk.gapDiscards ++ le 2 s.lnk.rxDropped ++ le 2 s.pos.encErrors
    ++ le 2 s.lnk.lostCount

/-- R134: the clearing of the link counters and enc_errors. -/
def clearCounters (s : State) : State :=
  (s.modLnk fun l => { l with frameErrors := 0, gapDiscards := 0, rxDropped := 0 }).modPos fun p =>
    { p with encErrors := 0 }

/-- STATUS (R134). -/
def reqStatus (tag : Byte) (p : List Byte) (s : State) : State :=
  if p.length ≠ 1 then answer 0x02 tag .badLength [] s
  else
    match asFlag (byteAt p 0) with
    | none => answer 0x02 tag .badValue [] s
    | some doClear => answer 0x02 tag .ok (statusBytes s) (if doClear then clearCounters s else s)

/-! ## Line events -/

/-- R122: a falling edge on SYNC. -/
def syncFall (s : State) : State :=
  if s.zon.zone = .armed && s.zon.syncIn then trackingStart .sync s else s

/-- R126: a falling edge on LINE-STOP. -/
def lineStopFall (s : State) : State :=
  if s.zon.zone = .tracking && s.zon.stopIn then enterZone .hold .lineStop s else s

/-- R130: an assertion of E-STOP. -/
def estopAssert (s : State) : State := if s.zon.zone = .estop then s else enterEstop .input s

/-- R118: the wait of SYNC has run out: the raw level is accepted. -/
def acceptSync (s : State) : State :=
  let level := s.zon.syncRaw
  let s1 := s.modZon fun z => { z with sync := { z.sync with accepted := level, wait := none } }
  if s.zon.sync.accepted && !level then syncFall s1 else s1

/-- R118: the wait of LINE-STOP has run out. -/
def acceptLineStop (s : State) : State :=
  let level := s.zon.lineStopRaw
  let s1 := s.modZon fun z => { z with lineStop := { z.lineStop with accepted := level, wait := none } }
  if s.zon.lineStop.accepted && !level then lineStopFall s1 else s1

/-- R118: the wait of ESTOP_N has run out. -/
def acceptEstop (s : State) : State :=
  let level := s.zon.estopRaw
  let s1 := s.modZon fun z => { z with estopN := { z.estopN with accepted := level, wait := none } }
  if level then s1 else estopAssert s1

/-! ## Commands -/

/-- STATUS. -/
def execStatus (tag : Byte) (payload : List Byte) (s : State) : Answer := .next (takeFrame (reqStatus tag payload) s)

/-- START, form SYNC. -/
def execStartSync (tag : Byte) (payload : List Byte) (s : State) : Answer := .next (takeFrame (reqStart tag payload) s)

/-- START, form LOCAL. -/
def execStartLocal (tag : Byte) (payload : List Byte) (s : State) : Answer := .next (takeFrame (reqStart tag payload) s)

/-- SYNC_PULSE. -/
def execSyncPulse (tag : Byte) (payload : List Byte) (s : State) : Answer :=
  .next (takeFrame (reqSyncPulse tag payload) s)

/-- STOP_LINE. -/
def execStopLine (tag : Byte) (payload : List Byte) (s : State) : Answer :=
  .next (takeFrame (reqStopLine tag payload) s)

/-- HOLD. -/
def execHold (tag : Byte) (payload : List Byte) (s : State) : Answer := .next (takeFrame (reqHold tag payload) s)

/-- RESUME. -/
def execResume (tag : Byte) (payload : List Byte) (s : State) : Answer := .next (takeFrame (reqResume tag payload) s)

/-- STOP. -/
def execStop (tag : Byte) (payload : List Byte) (s : State) : Answer := .next (takeFrame (reqStop tag payload) s)

/-- ESTOP. -/
def execEstop (tag : Byte) (payload : List Byte) (s : State) : Answer := .next (takeFrame (reqEstop tag payload) s)

/-- CLEAR. -/
def execClear (tag : Byte) (payload : List Byte) (s : State) : Answer := .next (takeFrame (reqClear tag payload) s)

/-- SET_LINE. -/
def execSetLine (tag : Byte) (payload : List Byte) (s : State) : Answer := .next (takeFrame (reqSetLine tag payload) s)

/-- R118: a filtered change on a line input is accepted; no effect while no wait has run out (log 5). -/
def execLineInputAcceptance (line : LinePin) (s : State) : Answer :=
  match line with
  | .sync => .next (if waitOver s.zon.sync.wait s.now then acceptSync s else s)
  | .lineStop => .next (if waitOver s.zon.lineStop.wait s.now then acceptLineStop s else s)
  | .estop => .next (if waitOver s.zon.estopN.wait s.now then acceptEstop s else s)

/-- R118: the rest of a line changes its level; the filter sees a change of the raw level. -/
def execLineRawChange (line : LinePin) (level : Bool) (s : State) : Answer :=
  match line with
  | .sync => .next (s.modZon fun z => z.setSync level z.syncDrive s.now)
  | .lineStop => .next (s.modZon fun z => z.setLineStop level z.lineStopDrive s.now)
  | .estop => .next (s.modZon fun z => z.setEstop level s.now)

/-- R119: the end time of the SYNC drive is reached; no effect while it is not (log 5). -/
def execSyncDriveEnd (s : State) : Answer :=
  .next (if waitOver s.zon.syncDrive s.now then s.modZon fun z => z.setSync z.sync.ext none s.now else s)

/-- R119: the end time of the LINE-STOP drive is reached; no effect while it is not (log 5). -/
def execLineStopDriveEnd (s : State) : Answer :=
  .next (if waitOver s.zon.lineStopDrive s.now then s.modZon fun z => z.setLineStop z.lineStop.ext none s.now else s)

end Sys2Proof.Machine
end

