-- ==== Sys2Proof/Machine/Outputs.lean ====
section
/-! DEFINITION. The Output Unit: SET_OUTPUT, PULSE_OUTPUT, READ_OUTPUTS (R112 to R115) and the ends of pulses (R107). -/

namespace Sys2Proof.Machine

/-- R113: the settings of one output as a reply carries them; zero settings for an index out of range. -/
def outputSettings (b : Byte) (s : State) : List Byte :=
  b :: match asFin 8 b with
    | none => [0, 0, 0, 0]
    | some o =>
      let x := s.out.outputs[o]
      [flagByte x.activeLow, x.collision.code] ++ le 2 x.gap

/-- R113: the full form of SET_OUTPUT; none where a field is out of range. -/
def outputOfPayload (p : List Byte) : Option (Fin 8 × Bool × Collision × BitVec 16) := do
  let o ← asFin 8 (byteAt p 0)
  let activeLow ← asFlag (byteAt p 1)
  let collision ← Collision.ofByte (byteAt p 2)
  some (o, activeLow, collision, u16 p 3)

/-- SET_OUTPUT (R113, R115). -/
def reqSetOutput (tag : Byte) (p : List Byte) (s : State) : State :=
  let reply (st : Status) (s : State) : State := answer 0x20 tag st (outputSettings (byteAt p 0) s) s
  if p.length = 1 then reply (if (asFin 8 (byteAt p 0)).isSome then .ok else .badValue) s
  else if p.length ≠ 5 then reply .badLength s
  else if s.zon.zone ≠ .config then reply .wrongState s
  else
    match outputOfPayload p with
    | none => reply .badValue s
    | some (o, activeLow, collision, gap) =>
      reply .ok (s.modOutput o fun x => { x with activeLow := activeLow, collision := collision, gap := gap })

/-- PULSE_OUTPUT (R112). -/
def reqPulseOutput (tag : Byte) (p : List Byte) (s : State) : State :=
  let refuse (st : Status) : State := answer 0x21 tag st (byteAt p 0 :: List.replicate 8 0) s
  if p.length ≠ 3 then refuse .badLength
  else if s.zon.zone ≠ .config then refuse .wrongState
  else
    match asFin 8 (byteAt p 0) with
    | none => refuse .badValue
    | some o =>
      if (u16 p 1).toNat < Config.minPulse then refuse .badValue
      else
        let a := claimOutput o (u16 p 1) .test s
        let reason : Byte := (a.2.map RefusalReason.code).getD 0
        answer 0x21 tag (if a.2.isSome then .busy else .ok)
          ([byteAt p 0, reason] ++ a.1.out.outputs[o].bytes s.now) a.1

/-- READ_OUTPUTS (R114). -/
def reqReadOutputs (tag : Byte) (p : List Byte) (s : State) : State :=
  if p ≠ [] then answer 0x22 tag .badLength [] s
  else answer 0x22 tag .ok ((List.finRange 8).flatMap fun o => s.out.outputs[o].bytes s.now) s

/-- R107: the end of ON: RECOVER for the gap in force, or OFF when the gap is 0. -/
def Output.endOn (now : Time) (o : Output) : Output :=
  match o.state with
  | .off => o
  | .recover _ _ => o
  | .on e w =>
    if timeReached e now then
      { o with state := if o.gap = 0 then .off else .recover (e + o.gap.setWidth 48) w }
    else o

/-- R107: the end of RECOVER. -/
def Output.endRecover (now : Time) (o : Output) : Output :=
  match o.state with
  | .off => o
  | .on _ _ => o
  | .recover e _ => if timeReached e now then { o with state := .off } else o

/-- SET_OUTPUT. -/
def execSetOutput (tag : Byte) (payload : List Byte) (s : State) : Answer :=
  .next (takeFrame (reqSetOutput tag payload) s)

/-- PULSE_OUTPUT. -/
def execPulseOutput (tag : Byte) (payload : List Byte) (s : State) : Answer :=
  .next (takeFrame (reqPulseOutput tag payload) s)

/-- READ_OUTPUTS. -/
def execReadOutputs (tag : Byte) (payload : List Byte) (s : State) : Answer :=
  .next (takeFrame (reqReadOutputs tag payload) s)

/-- R107: the ON end time of an output is reached; no effect while it is not (log 5). -/
def execOutputOnEnd (output : Fin 8) (s : State) : Answer := .next (s.modOutput output (Output.endOn s.now))

/-- R107: the RECOVER end time of an output is reached; no effect while it is not (log 5). -/
def execOutputRecoverEnd (output : Fin 8) (s : State) : Answer := .next (s.modOutput output (Output.endRecover s.now))

end Sys2Proof.Machine
end

