-- ==== Sys2Proof/Machine/Position.lean ====
section
/-! DEFINITION. The Position Unit: decoding of the encoder (R2 to R6), counts and the targets they reach (R7 to R10),
SET_ENCODER and READ_POSITION (R13, R14), the time base (R11). -/

namespace Sys2Proof.Machine

/-! ## Decoding -/

/-- What an acceptance moment gives. -/
inductive RawCount where
  | zero
  | up
  | down
  | error
  deriving DecidableEq, Repr

/-- Table 1-2, column QUAD_X4, and R6: reference pair and new pair, A first. -/
def quadX4 (refA refB newA newB : Bool) : RawCount :=
  match refA, refB, newA, newB with
  | false, false, true, false => .up
  | true, false, true, true => .up
  | true, true, false, true => .up
  | false, true, false, false => .up
  | false, false, false, true => .down
  | false, true, true, true => .down
  | true, true, true, false => .down
  | true, false, false, false => .down
  | false, false, true, true => .error
  | true, true, false, false => .error
  | true, false, false, true => .error
  | false, true, true, false => .error
  | false, false, false, false => .zero
  | false, true, false, true => .zero
  | true, false, true, false => .zero
  | true, true, true, true => .zero

/-- Table 1-2, column QUAD_X2. -/
def quadX2 (refA refB newA newB : Bool) : RawCount :=
  match refA, refB, newA, newB with
  | false, false, true, false => .up
  | true, true, false, true => .up
  | false, true, true, true => .down
  | true, false, false, false => .down
  | false, false, true, true => .error
  | true, true, false, false => .error
  | true, false, false, true => .error
  | false, true, true, false => .error
  | _, _, _, _ => .zero

/-- Table 1-2, column QUAD_X1. -/
def quadX1 (refA refB newA newB : Bool) : RawCount :=
  match refA, refB, newA, newB with
  | false, false, true, false => .up
  | true, false, false, false => .down
  | false, false, true, true => .error
  | true, true, false, false => .error
  | true, false, false, true => .error
  | false, true, true, false => .error
  | _, _, _, _ => .zero

/-- R3: UP_DOWN looks only at rising edges. -/
def upDown (refA refB newA newB : Bool) : RawCount :=
  match !refA && newA, !refB && newB with
  | true, true => .error
  | true, false => .up
  | false, true => .down
  | false, false => .zero

/-- R2, R3: the raw count of an acceptance moment. -/
def rawCount (m : EncMode) (refA refB newA newB : Bool) : RawCount :=
  match m with
  | .quadX1 => quadX1 refA refB newA newB
  | .quadX2 => quadX2 refA refB newA newB
  | .quadX4 => quadX4 refA refB newA newB
  | .upDown => upDown refA refB newA newB

/-- R4: the direction-invert flag sets the sign of each count. -/
def RawCount.signed (invert : Bool) (c : RawCount) : RawCount :=
  match c with
  | .zero => .zero
  | .up => if invert then .down else .up
  | .down => if invert then .up else .down
  | .error => .error

/-! ## Targets reached by a forward count -/

/-- The targets of R8, by owner. -/
inductive Reach where
  | overlength
  | teachSpan
  | fire (station : Fin 8)
  | opening (station : Fin 8)
  | closing (station : Fin 8) (tag : Tag)
  | deadline (tag : Tag)
  | lineClose (source : Fin 4) (tag : Tag)
  | retirement (tag : Tag)
  deriving DecidableEq, Repr

/-- R41: the over-length target, while it stands at the track position. -/
def overlengthReached (s : State) : List Reach :=
  match s.trk.entry with
  | .clear => []
  | .untracked => []
  | .measuring tag lead =>
    match s.findItem tag with
    | none => []
    | some it => if lead + s.trk.params.maxLength = s.here ∧ !it.flags.overlength then [.overlength] else []

/-- R153: the span target, while it stands at the track position. -/
def spanReached (s : State) : List Reach :=
  match s.tch.state with
  | .idle => []
  | .waitEntry _ => []
  | .waitTarget _ _ spanPos => if spanPos = s.here then [.teachSpan] else []

/-- R64, R70: the targets of a station that stand at the track position. Within a CHECK station the opening comes
before the closes, and closes come in list order (R71, R75). -/
def stationReached (s : State) (i : Fin 8) : List Reach :=
  let st := s.stn.stations[i]
  match st.record.kind with
  | .none => []
  | .eject | .mark | .trigger =>
    match st.cursor.bind s.findItem with
    | none => []
    | some it => if it.firePos st.record.offset = s.here then [.fire i] else []
  | .check =>
    if ((st.opening.bind s.findItem).any fun it => it.openPos st.record = s.here) then [.opening i]
    else
      match st.windows.find? fun w => w.closePos = s.here with
      | none => []
      | some w => [.closing i w.tag]

/-- R96: the next window close of a source that stands at the track position. -/
def sourceReached (s : State) (v : Fin 4) : List Reach :=
  match s.vrd.sources[v].windows.find? fun w => w.closePos = s.here with
  | none => []
  | some w => [.lineClose v w.tag]

/-- R48, R90: the deadline and the retirement of an item, when they stand at the track position. -/
def itemReached (s : State) (it : Item) : List Reach :=
  (if it.deadline = some s.here ∧ it.decision.isNone then [.deadline it.tag] else [])
    ++ if it.retirePos s.trk.params = s.here then [.retirement it.tag] else []

/-- R8: the targets that stand at the track position and have not been acted on. In CONFIG and ARMED there are no items
and only a teach has a target; in ESTOP every reach is ignored (R65, R90, R99, R48). -/
def reached (s : State) : List Reach :=
  if s.zon.zone.tracks then
    overlengthReached s ++ (List.finRange 8).flatMap (stationReached s) ++ s.trk.track.flatMap (itemReached s)
      ++ (List.finRange 4).flatMap (sourceReached s)
  else spanReached s

/-- The owner of a target acts on its reach. -/
def handleReach (r : Reach) (s : State) : State :=
  match r with
  | .overlength => overlengthReach s
  | .teachSpan => teachSpanReach s
  | .fire i => processStation i false s
  | .opening i => handleOpening i s
  | .closing i tag => closeWindow i tag s
  | .deadline tag => takeDeadline tag s
  | .lineClose v tag => closeLineWindow v tag s
  | .retirement tag => retire tag s

/-- R8: the targets reached by one forward count are acted on one after another, in an order the spec leaves open
(log 11), until none is left. -/
def settleReaches : Nat → State → State
  | 0, s => s
  | k + 1, s =>
    match reached s with
    | [] => s
    | [r] => settleReaches k (handleReach r s)
    | r :: r' :: rest =>
      settleReaches k (handleReach ((r :: r' :: rest).getD (freePick s r (r' :: rest)) r) s.nextChoice)

/-- A bound on the targets one count can reach: for each item its deadline, its retirement, its over-length position
and, at each station, a fire position, an opening and a window opened at this count; the windows that are open; the
span. -/
def reachBound (s : State) : Nat :=
  2 + 32 * s.trk.track.length + ((List.finRange 8).map fun i => s.stn.stations[i].windows.length).sum
    + ((List.finRange 4).map fun v => s.vrd.sources[v].windows.length + s.trk.track.length).sum

/-! ## Counts -/

/-- R4, R7, R9: a forward count moves the position and the high-water position. -/
def PosUnit.forward (p : PosUnit) : PosUnit :=
  let q := p.position + 1
  { p with position := q, highWater := if ahead q p.highWater then q else p.highWater }

/-- R7, R8, R9: a forward count, with the targets it reaches. -/
def forwardCount (s : State) : State :=
  let s1 := s.modPos PosUnit.forward
  settleReaches (reachBound s1) s1

/-- R7, R10: a backward count, with the reverse crossing it may make. -/
def backwardCount (s : State) : State :=
  let s1 := s.modPos fun p => { p with position := p.position - 1 }
  let limit := s.trk.params.reverseLimit.toNat
  if reverseDistance s.pos = limit ∧ reverseDistance s1.pos = limit + 1 then faultCause .reverse s1 else s1

/-- R6: an encoder error. -/
def encoderError (s : State) : State :=
  faultCause .encoder (s.modPos fun p => { p with encErrors := satInc p.encErrors })

/-- R5, R6: the effect of a decoded acceptance moment. -/
def applyCount (c : RawCount) (s : State) : State :=
  match c with
  | .zero => s
  | .up => forwardCount s
  | .down => backwardCount s
  | .error => encoderError s

/-- R1: a channel takes its raw level as accepted when it takes part in the acceptance moment. -/
def Channel.accept (takesPart : Bool) (c : Channel) : Channel := if takesPart then { c with accepted := c.raw } else c

/-- R1, R5: an acceptance moment: the accepted levels change; with the enable flag set the change is decoded against the
reference pair and becomes the reference pair. -/
def acceptEncoder (chanA chanB : Bool) (s : State) : State :=
  let s1 := s.modPos fun p => { p with chanA := p.chanA.accept chanA, chanB := p.chanB.accept chanB }
  if s.pos.enable then
    let a := s1.pos.chanA.accepted
    let b := s1.pos.chanB.accepted
    let c := (rawCount s.pos.mode s.pos.refA s.pos.refB a b).signed s.pos.invert
    applyCount c (s1.modPos fun p => { p with refA := a, refB := b })
  else s1

/-! ## Requests -/

/-- R13: the four encoder settings as a reply carries them. -/
def encoderBytes (p : PosUnit) : List Byte := [p.mode.code, flagByte p.invert, flagByte p.enable, p.filter.code]

/-- R13: the full form of SET_ENCODER over the Position Unit, the reference pair retaken (R5); none where a field is out
of range. -/
def encoderOfPayload (p : List Byte) (u : PosUnit) : Option PosUnit := do
  let mode ← EncMode.ofByte (byteAt p 0)
  let invert ← asFlag (byteAt p 1)
  let enable ← asFlag (byteAt p 2)
  let filter ← EncFilter.ofByte (byteAt p 3)
  some { u with mode, invert, enable, filter, refA := u.chanA.accepted, refB := u.chanB.accepted }

/-- SET_ENCODER (R13). -/
def reqSetEncoder (tag : Byte) (p : List Byte) (s : State) : State :=
  let reply (st : Status) (s : State) : State := answer 0x08 tag st (encoderBytes s.pos) s
  if p = [] then reply .ok s
  else if p.length ≠ 4 then reply .badLength s
  else if s.zon.zone ≠ .config then reply .wrongState s
  else
    match encoderOfPayload p s.pos with
    | none => reply .badValue s
    | some u => reply .ok (s.modPos fun _ => u)

/-- READ_POSITION (R14). -/
def reqReadPosition (tag : Byte) (p : List Byte) (s : State) : State :=
  if p ≠ [] then answer 0x09 tag .badLength [] s
  else answer 0x09 tag .ok (le 4 s.here ++ le 4 s.pos.highWater ++ le 6 s.now ++ le 2 s.pos.encErrors) s

/-! ## Commands -/

/-- SET_ENCODER. -/
def execSetEncoder (tag : Byte) (payload : List Byte) (s : State) : Answer :=
  .next (takeFrame (reqSetEncoder tag payload) s)

/-- READ_POSITION. -/
def execReadPosition (tag : Byte) (payload : List Byte) (s : State) : Answer :=
  .next (takeFrame (reqReadPosition tag payload) s)

/-- R1: an acceptance moment at which the named channels that have a change waiting change; no effect when none of them
has (log 5). -/
def execEncoderAcceptance (chanA chanB : Bool) (s : State) : Answer :=
  let a := chanA && s.pos.chanA.raw != s.pos.chanA.accepted
  let b := chanB && s.pos.chanB.raw != s.pos.chanB.accepted
  .next (if a || b then acceptEncoder a b s else s)

/-- R1: a raw level change; a wait is in progress while the raw level differs from the accepted level (log 7). -/
def execEncoderRawChange (chan : EncChannel) (level : Bool) (s : State) : Answer :=
  match chan with
  | .a => .next (s.modPos fun p => { p with chanA := { p.chanA with raw := level } })
  | .b => .next (s.modPos fun p => { p with chanB := { p.chanB with raw := level } })

/-- R11: one microsecond. -/
def execTimeBaseTick (s : State) : Answer := .next (s.modPos fun p => { p with timeBase := p.timeBase + 1 })

end Sys2Proof.Machine
end

