-- ==== Sys2Proof/Machine/Inputs.lean ====
section
/-! DEFINITION. The Input Unit: edges and their delivery (R15 to R20), probes (R25 to R28), SET_INPUT with its reference
checks (R21 to R23), READ_INPUT (R24). -/

namespace Sys2Proof.Machine

/-! ## Probes -/

/-- R27: an edge selection names an edge kind. -/
def EdgeSel.names (sel : EdgeSel) (e : EdgeKind) : Bool :=
  match sel, e with
  | .leading, .leading => true
  | .leading, .trailing => false
  | .trailing, .leading => false
  | .trailing, .trailing => true
  | .both, .leading => true
  | .both, .trailing => true

/-- Table 2-6: the state of a probe after a capture; none in a state that ignores edges. -/
def ProbeState.afterCapture (st : ProbeState) : Option ProbeState :=
  match st with
  | .disarmed => none
  | .armedOnce => some .spent
  | .armedEvery => some .armedEvery
  | .spent => none

/-- R27: the probe takes an edge of this kind. -/
def Probe.takes (p : Probe) (e : EdgeKind) : Bool := p.sel.names e && p.state.afterCapture.isSome

/-- R27: the probe record after it captures an edge. -/
def Probe.capture (p : Probe) (e : EdgeKind) (position : Pos) (time : Time) : Probe :=
  match p.state.afterCapture with
  | none => p
  | some st => { p with state := st, count := satInc8 p.count, last := some ⟨e, position, time⟩ }

/-- R27: an input's probe captures an edge, with its PROBE notice. -/
def captureProbe (i : Fin 8) (e : EdgeKind) (s : State) : State :=
  let p := s.inp.inputs[i].probe.capture e s.here s.now
  offer (.probe s.now i e s.here p.count p.state) (s.modInput i fun x => { x with probe := p })

/-! ## Edges -/

/-- The receivers of an edge (R19, R20). -/
inductive EdgeReceiver where
  | probe
  | entryUnit
  | teachEntry
  | teachTarget
  | station (station : Fin 8)
  | source (source : Fin 4)
  deriving DecidableEq, Repr

/-- Table 2-3, CHECK: the stations that act on a leading edge of an input (R65, R72). -/
def checkReceivers (s : State) (i : Fin 8) : List EdgeReceiver :=
  ((List.finRange 8).filter fun k =>
      let r := s.stn.stations[k].record
      s.zon.zone.tracks && r.kind = .check && r.sense = i && r.mode ≠ .disabled).map EdgeReceiver.station

/-- A LINE source names an input (R85). -/
def SourceRec.namesInput (r : SourceRec) (i : Fin 8) : Bool :=
  match r with
  | .message => false
  | .line input _ _ _ _ => input = i

/-- Table 2-3, VERDICT: the sources that act on a leading edge of an input (R98). -/
def verdictReceivers (s : State) (i : Fin 8) : List EdgeReceiver :=
  ((List.finRange 4).filter fun v => s.zon.zone.tracks && s.vrd.sources[v].record.namesInput i).map
    EdgeReceiver.source

/-- A teach is running (R153). -/
def teaching (s : State) : Bool := s.tch.state.run.isSome

/-- R20: the input is the target of a running teach. -/
def isTeachTarget (s : State) (i : Fin 8) : Bool := s.tch.state.run.any fun run => run.target = i

/-- Table 2-3: the role receivers that act on an edge. -/
def roleReceivers (s : State) (i : Fin 8) (e : EdgeKind) : List EdgeReceiver :=
  match s.inp.inputs[i].role, e with
  | .unused, _ => []
  | .general, _ => []
  | .entry, .leading => .entryUnit :: if teaching s then [.teachEntry] else []
  | .entry, .trailing => [.entryUnit]
  | .check, .leading => checkReceivers s i
  | .check, .trailing => []
  | .verdict, .leading => verdictReceivers s i
  | .verdict, .trailing => []

/-- R19, R20: the receivers that act on an edge of an input. -/
def edgeReceivers (s : State) (i : Fin 8) (e : EdgeKind) : List EdgeReceiver :=
  (if s.inp.inputs[i].probe.takes e then [.probe] else []) ++ roleReceivers s i e
    ++ if e = .leading && isTeachTarget s i then [.teachTarget] else []

/-- A receiver takes an edge of an input. -/
def receiveEdge (i : Fin 8) (e : EdgeKind) (r : EdgeReceiver) (s : State) : State :=
  match r with
  | .probe => captureProbe i e s
  | .entryUnit =>
    match e with
    | .leading => entryLeading s
    | .trailing => entryTrailing s
  | .teachEntry => teachEntryEdge s
  | .teachTarget => teachTargetEdge s
  | .station k => checkEdge k s
  | .source v => lineEdge v s

/-- R17, R19, R20: an edge is delivered to its receivers, in an order the spec leaves open (log 12). -/
def deliverEdge (i : Fin 8) (e : EdgeKind) (s : State) : State :=
  let rs := edgeReceivers s i e
  inFreeOrder (receiveEdge i e) rs.length rs s

/-- R15, R17: the wait of an input has run out: the raw level is accepted and gives an edge under the polarity in
force. -/
def acceptInput (i : Fin 8) (s : State) : State :=
  let x := s.inp.inputs[i]
  let s1 := s.modInput i fun x => { x with accepted := x.raw, wait := none }
  if x.raw = x.accepted then s1
  else deliverEdge i (if s1.inp.inputs[i].active then .leading else .trailing) s1

/-- R15: the raw level of an input changes. -/
def Input.rawChange (level : Bool) (now : Time) (x : Input) : Input :=
  { x with raw := level, wait := rewait x.filter.time now x.accepted x.raw level x.wait }

/-! ## Requests -/

/-- R23: the three settings of an input as a reply carries them; zero settings for an index out of range. -/
def inputSettings (b : Byte) (s : State) : List Byte :=
  b :: match asFin 8 b with
    | none => [0, 0, 0]
    | some i =>
      let x := s.inp.inputs[i]
      [x.role.code, flagByte x.activeLow, x.filter.code]

/-- R21, R22: giving input `i` the role `role` conflicts with the configuration. -/
def roleConflict (s : State) (i : Fin 8) (role : Role) : Bool :=
  (role = .entry && (List.finRange 8).any fun k => k ≠ i && s.inp.inputs[k].role = .entry)
    || (role ≠ .check && (List.finRange 8).any fun k =>
          s.stn.stations[k].record.kind = .check && s.stn.stations[k].record.sense = i)
    || (role ≠ .verdict && (List.finRange 4).any fun v => s.vrd.sources[v].record.namesInput i)
    || (teaching s && s.inp.inputs[i].role = .entry && role ≠ .entry)
    || (isTeachTarget s i && role = .entry)

/-- R23: the full form of SET_INPUT; none where a field is out of range. -/
def inputOfPayload (p : List Byte) : Option (Fin 8 × Role × Bool × InputFilter) := do
  let i ← asFin 8 (byteAt p 0)
  let role ← Role.ofByte (byteAt p 1)
  let activeLow ← asFlag (byteAt p 2)
  let filter ← InputFilter.ofByte (byteAt p 3)
  some (i, role, activeLow, filter)

/-- R16, R23: the settings of an input change; a new filter time restarts a wait in progress. -/
def Input.configure (role : Role) (activeLow : Bool) (filter : InputFilter) (now : Time) (x : Input) : Input :=
  { x with
    role := role
    activeLow := activeLow
    filter := filter
    wait := if filter = x.filter then x.wait else x.wait.map fun _ => now + filter.time }

/-- SET_INPUT (R23). -/
def reqSetInput (tag : Byte) (p : List Byte) (s : State) : State :=
  let reply (st : Status) (s : State) : State := answer 0x0C tag st (inputSettings (byteAt p 0) s) s
  if p.length = 1 then reply (if (asFin 8 (byteAt p 0)).isSome then .ok else .badValue) s
  else if p.length ≠ 4 then reply .badLength s
  else if s.zon.zone ≠ .config then reply .wrongState s
  else
    match inputOfPayload p with
    | none => reply .badValue s
    | some (i, role, activeLow, filter) =>
      if roleConflict s i role then reply .conflict s
      else reply .ok (s.modInput i (Input.configure role activeLow filter s.now))

/-- READ_INPUT (R24). -/
def reqReadInput (tag : Byte) (p : List Byte) (s : State) : State :=
  if p.length ≠ 1 then answer 0x0D tag .badLength [] s
  else
    match asFin 8 (byteAt p 0) with
    | none => answer 0x0D tag .badValue [] s
    | some i =>
      let x := s.inp.inputs[i]
      answer 0x0D tag .ok
        ([byteAt p 0, x.role.code, flagByte x.activeLow, x.filter.code, flagByte x.accepted, flagByte x.active]
          ++ x.probe.bytes) s

/-- R26: the probe record after ARM_PROBE. -/
def Probe.arm (state : ProbeState) (sel : EdgeSel) (p : Probe) : Probe :=
  { p with state := state, sel := sel, count := 0 }

/-- R26: an ARM_PROBE payload; none where a field is out of range. -/
def armOfPayload (p : List Byte) : Option (Fin 8 × ProbeState × EdgeSel) := do
  let i ← asFin 8 (byteAt p 0)
  let state ← ProbeState.ofMode (byteAt p 1)
  let sel ← EdgeSel.ofByte (byteAt p 2)
  some (i, state, sel)

/-- R26, R28: the reply to a taken ARM_PROBE or DISARM_PROBE. -/
def probeReply (kind tag : Byte) (i : Fin 8) (s : State) : State :=
  answer kind tag .ok (idxByte i :: s.inp.inputs[i].probe.bytes) s

/-- ARM_PROBE (R26). -/
def reqArmProbe (tag : Byte) (p : List Byte) (s : State) : State :=
  if p.length ≠ 3 then answer 0x0E tag .badLength [] s
  else
    match armOfPayload p with
    | none => answer 0x0E tag .badValue [] s
    | some (i, state, sel) =>
      probeReply 0x0E tag i (s.modInput i fun x => { x with probe := x.probe.arm state sel })

/-- DISARM_PROBE (R28). -/
def reqDisarmProbe (tag : Byte) (p : List Byte) (s : State) : State :=
  if p.length ≠ 1 then answer 0x0F tag .badLength [] s
  else
    match asFin 8 (byteAt p 0) with
    | none => answer 0x0F tag .badValue [] s
    | some i =>
      probeReply 0x0F tag i (s.modInput i fun x => { x with probe := { x.probe with state := .disarmed } })

/-! ## Commands -/

/-- SET_INPUT. -/
def execSetInput (tag : Byte) (payload : List Byte) (s : State) : Answer :=
  .next (takeFrame (reqSetInput tag payload) s)

/-- READ_INPUT. -/
def execReadInput (tag : Byte) (payload : List Byte) (s : State) : Answer :=
  .next (takeFrame (reqReadInput tag payload) s)

/-- ARM_PROBE. -/
def execArmProbe (tag : Byte) (payload : List Byte) (s : State) : Answer :=
  .next (takeFrame (reqArmProbe tag payload) s)

/-- DISARM_PROBE. -/
def execDisarmProbe (tag : Byte) (payload : List Byte) (s : State) : Answer :=
  .next (takeFrame (reqDisarmProbe tag payload) s)

/-- R15: an input's change is accepted; no effect while its wait has not run out (log 5). -/
def execInputAcceptance (input : Fin 8) (s : State) : Answer :=
  .next (if waitOver s.inp.inputs[input].wait s.now then acceptInput input s else s)

/-- R15: the raw level of an input. -/
def execInputRawChange (input : Fin 8) (level : Bool) (s : State) : Answer :=
  .next (s.modInput input (Input.rawChange level s.now))

end Sys2Proof.Machine
end

