-- ==== Sys2Proof/Machine/Track.lean ====
section
/-! DEFINITION. The requests of the Track Store: SET_ZONE (R52, R53), READ_ITEM (R54), DUMP_TRACK (R55), REMOVE_ITEM
(R49). -/

namespace Sys2Proof.Machine

/-- SET_ZONE (R52, R53). -/
def reqSetZone (tag : Byte) (p : List Byte) (s : State) : State :=
  let reply (st : Status) (s : State) : State := answer 0x10 tag st s.trk.params.bytes s
  if p = [] then reply .ok s
  else if p.length ≠ 15 then reply .badLength s
  else if s.zon.zone ≠ .config then reply .wrongState s
  else
    match zoneOfBytes p with
    | none => reply .badValue s
    | some z => if zoneValid s z then reply .ok (s.modTrk fun t => { t with params := z }) else reply .conflict s

/-- READ_ITEM (R54). -/
def reqReadItem (tag : Byte) (p : List Byte) (s : State) : State :=
  if p.length ≠ 2 then answer 0x11 tag .badLength [] s
  else if u16 p 0 = 0 then answer 0x11 tag .badValue [] s
  else
    match s.findItem (u16 p 0) with
    | none => answer 0x11 tag .unknownItem [] s
    | some it => answer 0x11 tag .ok it.bytes s

/-- R55, R149: the snapshot is taken and the stream becomes active. -/
def startDump (tag : Byte) (s : State) : State :=
  (s.modTrk fun t => { t with snapshot := ⟨t.track, s.here, s.now⟩ }).modLnk fun l =>
    { l with dump := some ⟨tag, 0, false⟩ }

/-- DUMP_TRACK (R55). -/
def reqDumpTrack (tag : Byte) (p : List Byte) (s : State) : State :=
  if p ≠ [] then answer 0x12 tag .badLength [] s
  else if s.lnk.dump.isSome then answer 0x12 tag .busy [] s
  else
    pushReply
      ⟨replyFrame 0x12 tag .ok (BitVec.ofNat 8 s.trk.track.length :: le 4 s.here ++ le 6 s.now), .dumpReply⟩
      (startDump tag s)

/-- REMOVE_ITEM (R49). -/
def reqRemoveItem (tag : Byte) (p : List Byte) (s : State) : State :=
  if p.length ≠ 2 then answer 0x13 tag .badLength [] s
  else if !s.zon.zone.tracks then answer 0x13 tag .wrongState [] s
  else if u16 p 0 = 0 then answer 0x13 tag .badValue [] s
  else
    match s.findItem (u16 p 0) with
    | none => answer 0x13 tag .unknownItem [] s
    | some _ => answer 0x13 tag .ok (le 2 (u16 p 0) ++ le 4 s.here) (leave (u16 p 0) .removed s)

/-- SET_ZONE. -/
def execSetZone (tag : Byte) (payload : List Byte) (s : State) : Answer := .next (takeFrame (reqSetZone tag payload) s)

/-- READ_ITEM. -/
def execReadItem (tag : Byte) (payload : List Byte) (s : State) : Answer :=
  .next (takeFrame (reqReadItem tag payload) s)

/-- DUMP_TRACK. -/
def execDumpTrack (tag : Byte) (payload : List Byte) (s : State) : Answer :=
  .next (takeFrame (reqDumpTrack tag payload) s)

/-- REMOVE_ITEM. -/
def execRemoveItem (tag : Byte) (payload : List Byte) (s : State) : Answer :=
  .next (takeFrame (reqRemoveItem tag payload) s)

end Sys2Proof.Machine
end

