-- ==== Sys2Proof/Machine/StationTable.lean ====
section
/-! DEFINITION. The requests of the Station Unit: LOAD_STATIONS (R59 to R61), SET_STATION_MODE (R62, R77, R78) and
READ_STATION (R63). -/

namespace Sys2Proof.Machine

/-- R60: the station record in force for an index, as a reply carries it; zeros behind an index out of range. -/
def stationReply (b : Byte) (s : State) : List Byte :=
  match asFin 8 b with
  | none => b :: List.replicate 15 0
  | some i => stationBytes b s.stn.stations[i].record

/-- R61, R70: a record replaces a station whole; cursors hold no item and no window is open. -/
def installStation (i : Fin 8) (r : StationRec) (s : State) : State :=
  s.modStation i fun _ => { record := r, cursor := none, opening := none, windows := [] }

/-- R60: what became of the records of one LOAD_STATIONS: the state, the applied count, and the position and status of
the first record that failed. -/
structure LoadResult where
  state : State
  applied : Nat
  failing : Option (Nat × Status)
  deriving DecidableEq, Repr

/-- R60: the records of a payload from position `k` on are applied one at a time until one fails. -/
def loadFrom (p : List Byte) : Nat → Nat → State → LoadResult
  | 0, k, s => ⟨s, k, none⟩
  | n + 1, k, s =>
    match stationOfBytes p (16 * k) with
    | none => ⟨s, k, some (k, .badValue)⟩
    | some (i, r) =>
      if stationValid s i r then loadFrom p n (k + 1) (installStation i r s) else ⟨s, k, some (k, .conflict)⟩

/-- R60: the reply status. -/
def LoadResult.status (r : LoadResult) : Status :=
  match r.failing with
  | none => .ok
  | some (_, st) => if r.applied = 0 then st else .partly

/-- R60: the fields of a full-form reply. -/
def loadFields (p : List Byte) (r : LoadResult) : List Byte :=
  [BitVec.ofNat 8 r.applied, flagByte r.failing.isSome, BitVec.ofNat 8 ((r.failing.map Prod.fst).getD 0),
      (r.failing.map fun f => f.2.code).getD 0]
    ++ (List.range (p.length / 16)).flatMap fun k => stationReply (byteAt p (16 * k)) r.state

/-- R59: a full form carries one to eight records. -/
def loadLengthOk (n : Nat) : Bool := n % 16 = 0 && 1 ≤ n / 16 && n / 16 ≤ 8

/-- LOAD_STATIONS (R59, R60). -/
def reqLoadStations (tag : Byte) (p : List Byte) (s : State) : State :=
  let query (st : Status) : State := answer 0x14 tag st (stationReply (byteAt p 0) s) s
  if p.length = 1 then query (if (asFin 8 (byteAt p 0)).isSome then .ok else .badValue)
  else if !loadLengthOk p.length then query .badLength
  else if s.zon.zone ≠ .config then answer 0x14 tag .wrongState (loadFields p ⟨s, 0, none⟩) s
  else
    let r := loadFrom p (p.length / 16) 0 s
    answer 0x14 tag r.status (loadFields p r) r.state

/-- R62, R77, R78: the mode of a station changes. -/
def changeMode (i : Fin 8) (m : StationMode) (s : State) : State :=
  let old := s.stn.stations[i].record
  let s1 := s.modStation i fun st => { st with record := { st.record with mode := m } }
  if old.kind = .check && old.mode ≠ .disabled && m = .disabled && s.zon.zone.tracks then disableClose i s1 else s1

/-- R62: a SET_STATION_MODE payload; none where a field is out of range. -/
def modeOfPayload (p : List Byte) : Option (Fin 8 × StationMode) := do
  let i ← asFin 8 (byteAt p 0)
  let m ← StationMode.ofByte (byteAt p 1)
  some (i, m)

/-- SET_STATION_MODE (R62). -/
def reqSetStationMode (tag : Byte) (p : List Byte) (s : State) : State :=
  if p.length ≠ 2 then answer 0x15 tag .badLength [] s
  else
    match modeOfPayload p with
    | none => answer 0x15 tag .badValue [] s
    | some (i, m) =>
      if m ≠ .disabled && s.stn.stations[i].record.kind = .none then answer 0x15 tag .conflict [] s
      else
        let s1 := changeMode i m s
        let r := s1.stn.stations[i].record
        answer 0x15 tag .ok [idxByte i, r.kind.code, r.mode.code] s1

/-- R63, R70: the cursor of a station; of a CHECK station, the item of its oldest window, else its opening cursor. -/
def Station.reportedCursor (st : Station) : Option Tag :=
  if st.record.kind = .check then
    match st.windows with
    | [] => st.opening
    | w :: _ => some w.tag
  else st.cursor

/-- R63: an open window as READ_STATION reports it. -/
def CheckWindow.bytes (w : CheckWindow) : List Byte := le 2 w.tag ++ le 4 w.closePos ++ [flagByte w.confirmed, w.mode.code]

/-- READ_STATION (R63). -/
def reqReadStation (tag : Byte) (p : List Byte) (s : State) : State :=
  if p.length ≠ 1 then answer 0x16 tag .badLength [] s
  else
    match asFin 8 (byteAt p 0) with
    | none => answer 0x16 tag .badValue [] s
    | some i =>
      let st := s.stn.stations[i]
      answer 0x16 tag .ok
        (stationBytes (idxByte i) st.record ++ optTag st.reportedCursor ++ optTag st.opening
          ++ BitVec.ofNat 8 st.windows.length :: (st.windows.take Config.reportedWindows).flatMap CheckWindow.bytes) s

/-- LOAD_STATIONS. -/
def execLoadStations (tag : Byte) (payload : List Byte) (s : State) : Answer :=
  .next (takeFrame (reqLoadStations tag payload) s)

/-- SET_STATION_MODE. -/
def execSetStationMode (tag : Byte) (payload : List Byte) (s : State) : Answer :=
  .next (takeFrame (reqSetStationMode tag payload) s)

/-- READ_STATION. -/
def execReadStation (tag : Byte) (payload : List Byte) (s : State) : Answer :=
  .next (takeFrame (reqReadStation tag payload) s)

end Sys2Proof.Machine
end

