-- ==== Sys2Proof/Machine/Verdicts.lean ====
section
/-! DEFINITION. The requests of the Verdict Unit: LOAD_CLASS (R84), SET_SOURCE (R86), VERDICT (R92 to R94) and CLASSIFY
(R100 to R103). -/

namespace Sys2Proof.Machine

/-! ## LOAD_CLASS and SET_SOURCE -/

/-- R84: the class record in force, as a reply carries it; zeros behind an index out of range. -/
def classReply (b : Byte) (s : State) : List Byte :=
  match asFin 16 b with
  | none => b :: List.replicate 7 0
  | some i => classBytes b s.vrd.classes[i]

/-- LOAD_CLASS (R84). -/
def reqLoadClass (tag : Byte) (p : List Byte) (s : State) : State :=
  let reply (st : Status) (s : State) : State := answer 0x18 tag st (classReply (byteAt p 0) s) s
  if p.length = 1 then reply (if (asFin 16 (byteAt p 0)).isSome then .ok else .badValue) s
  else if p.length ≠ 8 then reply .badLength s
  else
    match classOfBytes p with
    | none => reply .badValue s
    | some (i, c) => reply .ok (s.modVrd fun u => { u with classes := modAt u.classes i fun _ => c })

/-- R86: the source record in force, as a reply carries it; zeros behind an index out of range. -/
def sourceReply (b : Byte) (s : State) : List Byte :=
  match asFin 4 b with
  | none => b :: List.replicate 7 0
  | some v => sourceBytes b s.vrd.sources[v].record

/-- SET_SOURCE (R86). -/
def reqSetSource (tag : Byte) (p : List Byte) (s : State) : State :=
  let reply (st : Status) (s : State) : State := answer 0x19 tag st (sourceReply (byteAt p 0) s) s
  if p.length = 1 then reply (if (asFin 4 (byteAt p 0)).isSome then .ok else .badValue) s
  else if p.length ≠ 8 then reply .badLength s
  else if s.zon.zone ≠ .config then reply .wrongState s
  else
    match sourceOfBytes p with
    | none => reply .badValue s
    | some (v, r) =>
      if sourceValid s r then reply .ok (s.modSource v fun src => { src with record := r }) else reply .conflict s

/-! ## VERDICT -/

/-- R92: a slot's state and code as the VERDICT reply carries them. -/
def slotBytes (st : Option SlotState) : List Byte :=
  match st with
  | none => [0, 0]
  | some .pending => [0, 0]
  | some (.set c) => [1, idxByte c]
  | some (.late c) => [2, idxByte c]
  | some .timedOut => [3, 0]

/-- An item's disposition and decision reason in a reply; 0 for UNDECIDED and for an absent reason (R162). -/
def decisionBytes (d : Option Decision) : List Byte :=
  [(d.map fun d => d.disposition.code).getD 0, (d.map fun d => d.reason.code).getD 0]

/-- R92: the tag and source as requested; bytes the payload lacks count as 0 (log 19). -/
def verdictEcho (p : List Byte) : List Byte := le 2 (u16 p 0) ++ [byteAt p 2]

/-- R92: the slot and decision of an item after a VERDICT. -/
def verdictFields (p : List Byte) (v : Fin 4) (s : State) : List Byte :=
  match s.findItem (u16 p 0) with
  | none => verdictEcho p ++ [0, 0, 0, 0]
  | some it => verdictEcho p ++ slotBytes (it.slotAt v) ++ decisionBytes it.decision

/-- R92, checks 6 to 9: the status of a VERDICT for an item in the track. -/
def verdictStatus (it : Item) (v : Fin 4) : Status :=
  if !it.snapshot.requires v then .notRequired
  else
    match it.slotAt v with
    | none => .notRequired
    | some (.set _) => .alreadySet
    | some (.late _) => .alreadySet
    | some .timedOut => .late
    | some .pending => .ok

/-- VERDICT (R92 to R94). -/
def reqVerdict (tag : Byte) (p : List Byte) (s : State) : State :=
  let refuse (st : Status) : State := answer 0x1A tag st (verdictEcho p ++ [0, 0, 0, 0]) s
  if p.length ≠ 4 then refuse .badLength
  else if !s.zon.zone.tracks then refuse .wrongState
  else
    match asFin 4 (byteAt p 2), asFin 16 (byteAt p 3) with
    | none, _ => refuse .badValue
    | some _, none => refuse .badValue
    | some v, some code =>
      if u16 p 0 = 0 then refuse .badValue
      else if s.vrd.sources[v].record ≠ .message then refuse .conflict
      else
        match s.findItem (u16 p 0) with
        | none => refuse .unknownItem
        | some it =>
          match verdictStatus it v with
          | .notRequired => refuse .notRequired
          | .alreadySet => answer 0x1A tag .alreadySet (verdictFields p v s) s
          | st =>
            let s1 := fillVerdict (u16 p 0) v code s
            answer 0x1A tag st (verdictFields p v s1) s1

/-! ## CLASSIFY -/

/-- 03 section 3.1: the item with tag `a` is older than the item with tag `b`. -/
def olderInTrack (a b : Tag) : List Item → Bool
  | [] => false
  | x :: xs => if x.tag = b then false else if x.tag = a then xs.any (fun y => y.tag = b) else olderInTrack a b xs

/-- R80: a cursor has passed an item of the track. -/
def cursorPassed (track : List Item) (tag : Tag) (cursor : Option Tag) : Bool :=
  match cursor with
  | none => true
  | some c => olderInTrack tag c track

/-- R80: a defined station has passed an item. -/
def Station.passed (st : Station) (track : List Item) (tag : Tag) : Bool :=
  if st.record.kind = .check then
    cursorPassed track tag st.opening && !(st.windows.any fun w => w.tag = tag)
  else cursorPassed track tag st.cursor

/-- R101: the slots under a new snapshot: a slot required before and after is kept, others are PENDING. -/
def reslot (it : Item) (c : ClassRec) : List Slot :=
  ((List.finRange 4).filter fun v => c.requires v).map fun v => ⟨v, (it.slotAt v).getD .pending⟩

/-- R102: the outcomes under a new snapshot. -/
def reoutcome (s : State) (it : Item) (c : ClassRec) : List OutcomeEntry :=
  ((List.finRange 8).filter fun i => c.hasMember i && s.stn.stations[i].record.defined).map fun i =>
    ⟨i, (it.outcomeAt i).getD (if s.stn.stations[i].passed s.trk.track it.tag then .notServed else .pending)⟩

/-- R101 to R103: the record of an item given a new class. -/
def reclassified (s : State) (cls : Fin 16) (it : Item) : Item :=
  let c := s.vrd.classes[cls]
  { it with
    cls := cls
    snapshot := c
    slots := reslot it c
    outcomes := reoutcome s it c
    deadline := deadlineOf s it.entryPos c
    flags := { it.flags with reclassified := true } }

/-- R101: a source the new snapshot does not require loses its window for the item. -/
def dropWindows (tag : Tag) (c : ClassRec) (s : State) : State :=
  s.modVrd fun u =>
    { u with sources := mapAll u.sources fun v src => if c.requires v then src else src.itemLeft tag }

/-- R103: after the rebuilding, the decision that CLASSIFY itself brings about. -/
def settleClassify (it : Item) (s : State) : State :=
  if it.snapshot.required = 0 then decideItem it.tag .noneRequired s
  else if it.deadline.any fun d => !ahead d s.here then takeDeadline it.tag s
  else if it.allSet then decideItem it.tag .complete s
  else s

/-- R101 to R103: a taken CLASSIFY. -/
def applyClassify (it : Item) (cls : Fin 16) (s : State) : State :=
  let it1 := reclassified s cls it
  settleClassify it1 (dropWindows it.tag it1.snapshot (s.modItem it.tag fun _ => it1))

/-- R100: the tag and class as requested; bytes the payload lacks count as 0 (log 19). -/
def classifyEcho (p : List Byte) : List Byte := le 2 (u16 p 0) ++ [byteAt p 2]

/-- R100: the item's class, disposition and reason. -/
def classifyFields (p : List Byte) (s : State) : List Byte :=
  match s.findItem (u16 p 0) with
  | none => classifyEcho p ++ [0, 0, 0]
  | some it => classifyEcho p ++ idxByte it.cls :: decisionBytes it.decision

/-- CLASSIFY (R100 to R103). -/
def reqClassify (tag : Byte) (p : List Byte) (s : State) : State :=
  let refuse (st : Status) : State := answer 0x1B tag st (classifyEcho p ++ [0, 0, 0]) s
  if p.length ≠ 3 then refuse .badLength
  else if !s.zon.zone.tracks then refuse .wrongState
  else
    match asFin 16 (byteAt p 2) with
    | none => refuse .badValue
    | some cls =>
      if u16 p 0 = 0 then refuse .badValue
      else
        match s.findItem (u16 p 0) with
        | none => refuse .unknownItem
        | some it =>
          if it.decision.isSome then answer 0x1B tag .decided (classifyFields p s) s
          else
            let s1 := applyClassify it cls s
            answer 0x1B tag .ok (classifyFields p s1) s1

/-! ## Commands -/

/-- LOAD_CLASS. -/
def execLoadClass (tag : Byte) (payload : List Byte) (s : State) : Answer :=
  .next (takeFrame (reqLoadClass tag payload) s)

/-- SET_SOURCE. -/
def execSetSource (tag : Byte) (payload : List Byte) (s : State) : Answer :=
  .next (takeFrame (reqSetSource tag payload) s)

/-- VERDICT. -/
def execVerdict (tag : Byte) (payload : List Byte) (s : State) : Answer := .next (takeFrame (reqVerdict tag payload) s)

/-- CLASSIFY. -/
def execClassify (tag : Byte) (payload : List Byte) (s : State) : Answer :=
  .next (takeFrame (reqClassify tag payload) s)

end Sys2Proof.Machine
end

