-- ==== Sys2Proof/Machine/Link.lean ====
section
/-! DEFINITION. The Link Interface: IDENTIFY, RESET, SET_NOTICES (R146, R150, R151), taking a request (R141), the
receiver (R136 to R139), the transmit arbiter and its bursts (R147 to R149), device reset (R152). -/

namespace Sys2Proof.Machine

/-! ## IDENTIFY, RESET, SET_NOTICES -/

/-- IDENTIFY (R150). -/
def reqIdentify (tag : Byte) (p : List Byte) (s : State) : State :=
  if p ≠ [] then answer 0x01 tag .badLength [] s
  else
    answer 0x01 tag .ok
      ([Config.vendorCode] ++ le 2 Config.partCode
        ++ [Config.revision, s.lnk.unitId.setWidth 8, s.lnk.rateCode.setWidth 8]) s

/-- RESET (R151): the reply whose end is the device reset; every frame that completes until then is discarded. -/
def reqReset (tag : Byte) (p : List Byte) (s : State) : State :=
  if p ≠ [] then answer 0x03 tag .badLength [] s
  else pushReply ⟨replyFrame 0x03 tag .ok [], .resetReply⟩ (s.modLnk fun l => { l with resetPending := true })

/-- R146: the setting in force for a notice kind code, as a reply carries it; zeros for a code out of range. -/
def noticeReply (b : Byte) (s : State) : List Byte :=
  b :: match noticeIndex b with
    | none => [0, 0]
    | some k =>
      let x := s.lnk.settings[k]
      [flagByte x.enabled, idxByte x.level]

/-- R146, checks 2 and 3: the full form of SET_NOTICES; none where a field is refused. -/
def noticesOfPayload (p : List Byte) : Option (Fin 11 × NoticeSetting) := do
  let k ← noticeIndex (byteAt p 0)
  let enabled ← asFlag (byteAt p 1)
  let level ← asFin 4 (byteAt p 2)
  if !enabled && k.val ≤ 1 then none else some (k, { enabled, level })

/-- SET_NOTICES (R146). -/
def reqSetNotices (tag : Byte) (p : List Byte) (s : State) : State :=
  let reply (st : Status) (s : State) : State := answer 0x04 tag st (noticeReply (byteAt p 0) s) s
  if p.length = 1 then reply (if (noticeIndex (byteAt p 0)).isSome then .ok else .badValue) s
  else if p.length ≠ 3 then reply .badLength s
  else
    match noticesOfPayload p with
    | none => reply .badValue s
    | some (k, x) => reply .ok (s.modLnk fun l => { l with settings := modAt l.settings k fun _ => x })

/-! ## Taking a request -/

/-- R141: a KIND that is no request kind answers UNKNOWN_REQUEST, in a frame of KIND 0xFF. -/
def reqUnknown (kind tag : Byte) (s : State) : State :=
  pushReply ⟨⟨0xFF, tag, [Status.unknownRequest.code, kind]⟩, .plain⟩ s

/-- R141: a taken request is handed to the block that owns its effect (Table 10-3). -/
def takeRequest (kind tag : Byte) (p : List Byte) : State → State :=
  match kind.toNat with
  | 0x01 => reqIdentify tag p
  | 0x02 => reqStatus tag p
  | 0x03 => reqReset tag p
  | 0x04 => reqSetNotices tag p
  | 0x08 => reqSetEncoder tag p
  | 0x09 => reqReadPosition tag p
  | 0x0C => reqSetInput tag p
  | 0x0D => reqReadInput tag p
  | 0x0E => reqArmProbe tag p
  | 0x0F => reqDisarmProbe tag p
  | 0x10 => reqSetZone tag p
  | 0x11 => reqReadItem tag p
  | 0x12 => reqDumpTrack tag p
  | 0x13 => reqRemoveItem tag p
  | 0x14 => reqLoadStations tag p
  | 0x15 => reqSetStationMode tag p
  | 0x16 => reqReadStation tag p
  | 0x18 => reqLoadClass tag p
  | 0x19 => reqSetSource tag p
  | 0x1A => reqVerdict tag p
  | 0x1B => reqClassify tag p
  | 0x20 => reqSetOutput tag p
  | 0x21 => reqPulseOutput tag p
  | 0x22 => reqReadOutputs tag p
  | 0x24 => reqStart tag p
  | 0x25 => reqSyncPulse tag p
  | 0x26 => reqStopLine tag p
  | 0x27 => reqHold tag p
  | 0x28 => reqResume tag p
  | 0x29 => reqStop tag p
  | 0x2A => reqEstop tag p
  | 0x2B => reqClear tag p
  | 0x2C => reqSetLine tag p
  | 0x2E => reqTeach tag p
  | 0x2F => reqTeachAbort tag p
  | _ => reqUnknown kind tag

/-! ## The receiver -/

/-- R136 to R138: the receiver moves. -/
def setReceiver (r : Receiver) (s : State) : State := s.modLnk fun l => { l with receiver := r }

/-- R137 to R139: a frame is discarded with a frame error; the receiver enters HUNT. -/
def frameError (s : State) : State :=
  s.modLnk fun l => { l with receiver := .hunt, frameErrors := satInc l.frameErrors }

/-- R139: the bytes of a BODY, after LEN: what the CRC covers and the two CRC bytes, low byte first. -/
def crcHolds (len : Byte) (got : List Byte) : Bool :=
  crc (len :: got.take len.toNat) = u16 got len.toNat

/-- R139, R151: the last CRC byte of a frame has arrived as a good byte; the receiver enters HUNT. While a RESET awaits
the end of its reply the frame is discarded, uncounted (log 21). -/
def frameComplete (len : Byte) (got : List Byte) (s : State) : State :=
  if s.lnk.resetPending then setReceiver .hunt s
  else if crcHolds len got then
    takeFrame (takeRequest (byteAt got 0) (byteAt got 1) ((got.take len.toNat).drop 2)) (setReceiver .hunt s)
  else frameError s

/-- R137: a byte in HUNT. -/
def huntByte (b : Byte) (good : Bool) (s : State) : State :=
  if good && b = 0xA5 then setReceiver (.header s.now) s else s

/-- R137, R138: a byte in HEADER. -/
def headerByte (b : Byte) (good : Bool) (s : State) : State :=
  if good && 2 ≤ b.toNat && b.toNat ≤ 250 then setReceiver (.body b [] s.now) s else frameError s

/-- R137 to R139: a byte in BODY. -/
def bodyByte (len : Byte) (got : List Byte) (b : Byte) (good : Bool) (s : State) : State :=
  if !good then frameError s
  else if (got ++ [b]).length = len.toNat + 2 then frameComplete len (got ++ [b]) s
  else setReceiver (.body len (got ++ [b]) s.now) s

/-- R135, R136: the bit times for which RXD has been high at the end of a byte: none when its stop bit is low; else the
stop bit and, bits being sent least significant first, the ones above the highest bit of the byte that is 0. -/
def highBitsAtEnd (b : Byte) (good : Bool) : Nat :=
  if good then 1 + ((List.range 8).takeWhile fun k => b.getLsbD (7 - k)).length else 0

/-- R136 to R139: a byte arrives on RXD. In SETTLING its low bits restart the idle count, and it is otherwise without
effect. -/
def receiveByte (b : Byte) (good : Bool) (s : State) : State :=
  match s.lnk.receiver with
  | .settling _ _ => setReceiver (.settling s.now (Config.idleBits - highBitsAtEnd b good)) s
  | .hunt => huntByte b good s
  | .header _ => headerByte b good s
  | .body len got _ => bodyByte len got b good s

/-- Whether a number of bit times can have passed since a time (log 8): the time base is whole microseconds, and bit
times at the strapped rate are not. -/
def bitsElapsed (rate : BitVec 2) (bits : Nat) (since now : Time) : Bool :=
  bits * 1000000 / Config.baud rate ≤ (now - since).toNat

/-- R138: a gap discard. -/
def gapDiscard (s : State) : State :=
  s.modLnk fun l => { l with receiver := .hunt, gapDiscards := satInc l.gapDiscards }

/-- R138: the gap timer of the frame being assembled runs out, if it has been running for 16 character times. -/
def gapExpiry (gapFrom : Time) (s : State) : State :=
  if bitsElapsed s.lnk.rateCode Config.gapBits gapFrom s.now then gapDiscard s else s

/-! ## The transmitter -/

/-- R147: NOTICE is ready. -/
def LnkUnit.noticeReady (l : LnkUnit) : Bool := l.notices ≠ [] || l.lostCount ≠ 0

/-- R147: REPLY or NOTICE is ready, as a DUMP burst looks at it (R148). -/
def LnkUnit.hostWaiting (l : LnkUnit) : Bool := l.replies ≠ [] || l.noticeReady

/-- R147, R149: DUMP is ready. -/
def LnkUnit.dumpReady (l : LnkUnit) : Bool := l.dump.any DumpStream.ready

/-- R149: the frame of the dump stream that is next to send, with what its completion brings about. -/
def dumpFrame (snapshot : Snapshot) (d : DumpStream) : Frame × FrameMark :=
  match snapshot.records[d.next]? with
  | some it => (dumpItemFrame d.tag d.next it, .dumpItem)
  | none => (dumpEndFrame d.tag snapshot, .dumpEnd)

/-- Begin to send a frame of a burst. -/
def startFrame (source : TxSource) (completed limit : Nat) (frame : Frame) (mark : FrameMark) (s : State) : State :=
  s.modLnk fun l => { l with tx := .sending ⟨source, completed, limit, frame, mark⟩ }

/-- R147: the transmitter becomes idle. -/
def stopSending (s : State) : State := s.modLnk fun l => { l with tx := .idle }

/-- R144, R148: the notice at the head of the queue leaves it as its frame starts; with none left the burst ends. -/
def sendNotice (completed limit : Nat) (s : State) : State :=
  match s.lnk.notices with
  | [] => stopSending s
  | q :: rest =>
    startFrame .notice completed limit q.notice.frame .plain (s.modLnk fun l => { l with notices := rest })

/-- R149: the next frame of the dump stream starts; with none left the burst ends. -/
def sendDump (completed limit : Nat) (s : State) : State :=
  match s.lnk.dump with
  | none => stopSending s
  | some d =>
    let f := dumpFrame s.trk.snapshot d
    startFrame .dump completed limit f.1 f.2 s

/-- R148: a notice burst is granted; with losses to report its first frame is NOTICES_LOST. -/
def grantNotice (s : State) : State :=
  if s.lnk.lostCount = 0 then sendNotice 0 Config.noticeBurst s
  else
    startFrame .notice 0 Config.noticeBurst (noticesLostFrame s.now s.lnk.lostCount) .plain
      (s.modLnk fun l => { l with lostCount := 0 })

/-- R147: the arbiter grants the highest ready source, REPLY before NOTICE before DUMP. -/
def grant (s : State) : State :=
  match s.lnk.replies with
  | r :: rest => startFrame .reply 0 1 r.frame r.mark (s.modLnk fun l => { l with replies := rest })
  | [] =>
    if s.lnk.noticeReady then grantNotice s
    else if s.lnk.dumpReady then sendDump 0 Config.dumpBurstShort s
    else s

/-- R152: a device reset at whose end the pins have the levels `p`; the free choices and the queue of commands are not
the part's. -/
def deviceReset (p : PinLevels) (s : State) : State :=
  { State.atReset p with choice := s.choice, pending := s.pending }

/-- R151: the levels on the pins as State holds them, for a reset that a RESET request brings about; every drive of the
part has been released (log 16). -/
def pinsNow (straps : Straps) (s : State) : PinLevels :=
  { encA := s.pos.chanA.raw, encB := s.pos.chanB.raw, sense := Vector.ofFn fun i => s.inp.inputs[i].raw
    sync := s.zon.sync.ext, lineStop := s.zon.lineStop.ext, estopN := s.zon.estopN.ext, straps := straps }

/-- R149: what the completion of a frame brings about, a device reset apart. -/
def completeFrame (mark : FrameMark) (s : State) : State :=
  match mark with
  | .plain => s
  | .resetReply => s
  | .dumpReply => s.modLnk fun l => { l with dump := l.dump.map fun d => { d with ready := true } }
  | .dumpItem => s.modLnk fun l => { l with dump := l.dump.map fun d => { d with next := d.next + 1 } }
  | .dumpEnd =>
    (s.modLnk fun l => { l with dump := none }).modTrk fun t => { t with snapshot := ⟨[], 0, 0⟩ }

/-- R148: the limit of a burst once `completed` of its frames have completed. -/
def burstLimit (b : Burst) (completed : Nat) (l : LnkUnit) : Nat :=
  match b.source with
  | .reply => b.limit
  | .notice => b.limit
  | .dump =>
    if completed = Config.dumpLook then
      if l.hostWaiting then Config.dumpBurstShort else Config.dumpBurstLong
    else b.limit

/-- R148: after a completed frame the next frame of the burst starts, while its limit is not reached and its source has
one; else the burst ends. -/
def continueBurst (b : Burst) (s : State) : State :=
  let completed := b.completed + 1
  let limit := burstLimit b completed s.lnk
  if limit ≤ completed then stopSending s
  else
    match b.source with
    | .reply => stopSending s
    | .notice => sendNotice completed limit s
    | .dump => sendDump completed limit s

/-! ## Commands -/

/-- IDENTIFY. -/
def execIdentify (tag : Byte) (payload : List Byte) (s : State) : Answer :=
  .next (takeFrame (reqIdentify tag payload) s)

/-- RESET. -/
def execReset (tag : Byte) (payload : List Byte) (s : State) : Answer := .next (takeFrame (reqReset tag payload) s)

/-- SET_NOTICES. -/
def execSetNotices (tag : Byte) (payload : List Byte) (s : State) : Answer :=
  .next (takeFrame (reqSetNotices tag payload) s)

/-- R141: a request of a kind outside Table 10-3; a request kind is answered by its own rule (log 4). -/
def execRequestOfUnknownKind (kind tag : Byte) (payload : List Byte) (s : State) : Answer :=
  .next (takeFrame (takeRequest kind tag payload) s)

/-- R136 to R139: a byte arrives on RXD. -/
def execReceiveByte (byte : Byte) (good : Bool) (s : State) : Answer := .next (receiveByte byte good s)

/-- R138: the gap timer expires; no effect while it is not running or has not run out (log 5). -/
def execGapTimerExpiry (s : State) : Answer :=
  match s.lnk.receiver with
  | .settling _ _ => .next s
  | .hunt => .next s
  | .header gapFrom => .next (gapExpiry gapFrom s)
  | .body _ _ gapFrom => .next (gapExpiry gapFrom s)

/-- R136: RXD has been high for 64 character times in SETTLING; no effect otherwise (log 5). -/
def execSettlingIdleExpiry (s : State) : Answer :=
  match s.lnk.receiver with
  | .settling since bits =>
    .next (if bitsElapsed s.lnk.rateCode bits since s.now then setReceiver .hunt s else s)
  | .hunt => .next s
  | .header _ => .next s
  | .body _ _ _ => .next s

/-- R147: the arbiter makes a grant; no effect while the transmitter sends or no source is ready. -/
def execArbiterGrant (s : State) : Answer :=
  match s.lnk.tx with
  | .idle => .next (grant s)
  | .sending _ => .next s

/-- R148, R149, R151: a frame has been sent in full; no effect while the transmitter is idle (log 5). -/
def execFrameSent (straps : Straps) (s : State) : Answer :=
  match s.lnk.tx with
  | .idle => .next s
  | .sending b =>
    .next (if b.mark = .resetReply then deviceReset (pinsNow straps s) s else continueBurst b (completeFrame b.mark s))

/-- R152: the end of a reset by the NRST pin. -/
def execNrst (pins : PinLevels) (s : State) : Answer := .next (deviceReset pins s)

/-- R152: the end of a power-up reset. -/
def execPowerUp (pins : PinLevels) (s : State) : Answer := .next (deviceReset pins s)

end Sys2Proof.Machine
end

