-- ==== Sys2Proof/Machine/Dispatch.lean ====
section
/-! DEFINITION. exec: one arm per command. -/

namespace Sys2Proof.Machine

def exec (i : Instr) (s : State) : Host.Outcome State Fault Refusal :=
  match i with
  | .identify tag payload => Sys2Proof.Machine.execIdentify tag payload s
  | .status tag payload => Sys2Proof.Machine.execStatus tag payload s
  | .reset tag payload => Sys2Proof.Machine.execReset tag payload s
  | .setNotices tag payload => Sys2Proof.Machine.execSetNotices tag payload s
  | .setEncoder tag payload => Sys2Proof.Machine.execSetEncoder tag payload s
  | .readPosition tag payload => Sys2Proof.Machine.execReadPosition tag payload s
  | .setInput tag payload => Sys2Proof.Machine.execSetInput tag payload s
  | .readInput tag payload => Sys2Proof.Machine.execReadInput tag payload s
  | .armProbe tag payload => Sys2Proof.Machine.execArmProbe tag payload s
  | .disarmProbe tag payload => Sys2Proof.Machine.execDisarmProbe tag payload s
  | .setZone tag payload => Sys2Proof.Machine.execSetZone tag payload s
  | .readItem tag payload => Sys2Proof.Machine.execReadItem tag payload s
  | .dumpTrack tag payload => Sys2Proof.Machine.execDumpTrack tag payload s
  | .removeItem tag payload => Sys2Proof.Machine.execRemoveItem tag payload s
  | .loadStations tag payload => Sys2Proof.Machine.execLoadStations tag payload s
  | .setStationMode tag payload => Sys2Proof.Machine.execSetStationMode tag payload s
  | .readStation tag payload => Sys2Proof.Machine.execReadStation tag payload s
  | .loadClass tag payload => Sys2Proof.Machine.execLoadClass tag payload s
  | .setSource tag payload => Sys2Proof.Machine.execSetSource tag payload s
  | .verdict tag payload => Sys2Proof.Machine.execVerdict tag payload s
  | .classify tag payload => Sys2Proof.Machine.execClassify tag payload s
  | .setOutput tag payload => Sys2Proof.Machine.execSetOutput tag payload s
  | .pulseOutput tag payload => Sys2Proof.Machine.execPulseOutput tag payload s
  | .readOutputs tag payload => Sys2Proof.Machine.execReadOutputs tag payload s
  | .startSync tag payload => Sys2Proof.Machine.execStartSync tag payload s
  | .startLocal tag payload => Sys2Proof.Machine.execStartLocal tag payload s
  | .syncPulse tag payload => Sys2Proof.Machine.execSyncPulse tag payload s
  | .stopLine tag payload => Sys2Proof.Machine.execStopLine tag payload s
  | .hold tag payload => Sys2Proof.Machine.execHold tag payload s
  | .resume tag payload => Sys2Proof.Machine.execResume tag payload s
  | .stop tag payload => Sys2Proof.Machine.execStop tag payload s
  | .estop tag payload => Sys2Proof.Machine.execEstop tag payload s
  | .clear tag payload => Sys2Proof.Machine.execClear tag payload s
  | .setLine tag payload => Sys2Proof.Machine.execSetLine tag payload s
  | .teach tag payload => Sys2Proof.Machine.execTeach tag payload s
  | .teachAbort tag payload => Sys2Proof.Machine.execTeachAbort tag payload s
  | .requestOfUnknownKind kind tag payload => Sys2Proof.Machine.execRequestOfUnknownKind kind tag payload s
  | .receiveByte byte good => Sys2Proof.Machine.execReceiveByte byte good s
  | .gapTimerExpiry => Sys2Proof.Machine.execGapTimerExpiry s
  | .settlingIdleExpiry => Sys2Proof.Machine.execSettlingIdleExpiry s
  | .arbiterGrant => Sys2Proof.Machine.execArbiterGrant s
  | .frameSent straps => Sys2Proof.Machine.execFrameSent straps s
  | .nrst pins => Sys2Proof.Machine.execNrst pins s
  | .powerUp pins => Sys2Proof.Machine.execPowerUp pins s
  | .encoderAcceptance chanA chanB => Sys2Proof.Machine.execEncoderAcceptance chanA chanB s
  | .inputAcceptance input => Sys2Proof.Machine.execInputAcceptance input s
  | .lineInputAcceptance line => Sys2Proof.Machine.execLineInputAcceptance line s
  | .outputOnEnd output => Sys2Proof.Machine.execOutputOnEnd output s
  | .outputRecoverEnd output => Sys2Proof.Machine.execOutputRecoverEnd output s
  | .syncDriveEnd => Sys2Proof.Machine.execSyncDriveEnd s
  | .lineStopDriveEnd => Sys2Proof.Machine.execLineStopDriveEnd s
  | .encoderRawChange chan level => Sys2Proof.Machine.execEncoderRawChange chan level s
  | .inputRawChange input level => Sys2Proof.Machine.execInputRawChange input level s
  | .lineRawChange line level => Sys2Proof.Machine.execLineRawChange line level s
  | .timeBaseTick => Sys2Proof.Machine.execTimeBaseTick s

end Sys2Proof.Machine
end

