-- ==== Sys2Proof/Safety.lean ====
section
/-! DEFINITION. The terms claims about the T24 use: when a request is taken, what a reply adds, the invariants of the
link, the zone, the track and the configuration, and what an item keeps while it stays in the track. -/

namespace Sys2Proof.Safety

open Sys2Proof.Machine

/-! ## Requests -/

/-- R139, R151: a frame that has passed its CRC check is taken: the reply queue has room and no RESET is pending. -/
def Taken (s : State) : Prop := s.lnk.resetPending = false ∧ s.lnk.replies.length < 8

/-- R141: the state with one reply more in the reply queue. -/
def replied (kind tag : Byte) (st : Status) (fields : List Byte) (s : State) : State :=
  { s with
    lnk := { s.lnk with replies := s.lnk.replies ++ [⟨⟨kind + 0x80, tag, st.code :: fields⟩, .plain⟩] } }

/-- The KIND, TAG and payload of the commands that are requests (Table 10-3). -/
def requestOf (c : Instr) : Option (Byte × Byte × List Byte) :=
  match c with
  | .identify tag p => some (0x01, tag, p)
  | .status tag p => some (0x02, tag, p)
  | .reset tag p => some (0x03, tag, p)
  | .setNotices tag p => some (0x04, tag, p)
  | .setEncoder tag p => some (0x08, tag, p)
  | .readPosition tag p => some (0x09, tag, p)
  | .setInput tag p => some (0x0C, tag, p)
  | .readInput tag p => some (0x0D, tag, p)
  | .armProbe tag p => some (0x0E, tag, p)
  | .disarmProbe tag p => some (0x0F, tag, p)
  | .setZone tag p => some (0x10, tag, p)
  | .readItem tag p => some (0x11, tag, p)
  | .dumpTrack tag p => some (0x12, tag, p)
  | .removeItem tag p => some (0x13, tag, p)
  | .loadStations tag p => some (0x14, tag, p)
  | .setStationMode tag p => some (0x15, tag, p)
  | .readStation tag p => some (0x16, tag, p)
  | .loadClass tag p => some (0x18, tag, p)
  | .setSource tag p => some (0x19, tag, p)
  | .verdict tag p => some (0x1A, tag, p)
  | .classify tag p => some (0x1B, tag, p)
  | .setOutput tag p => some (0x20, tag, p)
  | .pulseOutput tag p => some (0x21, tag, p)
  | .readOutputs tag p => some (0x22, tag, p)
  | .startSync tag p => some (0x24, tag, p)
  | .startLocal tag p => some (0x24, tag, p)
  | .syncPulse tag p => some (0x25, tag, p)
  | .stopLine tag p => some (0x26, tag, p)
  | .hold tag p => some (0x27, tag, p)
  | .resume tag p => some (0x28, tag, p)
  | .stop tag p => some (0x29, tag, p)
  | .estop tag p => some (0x2A, tag, p)
  | .clear tag p => some (0x2B, tag, p)
  | .setLine tag p => some (0x2C, tag, p)
  | .teach tag p => some (0x2E, tag, p)
  | .teachAbort tag p => some (0x2F, tag, p)
  | .requestOfUnknownKind kind tag p => some (kind, tag, p)
  | .receiveByte _ _ => none
  | .gapTimerExpiry => none
  | .settlingIdleExpiry => none
  | .arbiterGrant => none
  | .frameSent _ => none
  | .nrst _ => none
  | .powerUp _ => none
  | .encoderAcceptance _ _ => none
  | .inputAcceptance _ => none
  | .lineInputAcceptance _ => none
  | .outputOnEnd _ => none
  | .outputRecoverEnd _ => none
  | .syncDriveEnd => none
  | .lineStopDriveEnd => none
  | .encoderRawChange _ _ => none
  | .inputRawChange _ _ => none
  | .lineRawChange _ _ => none
  | .timeBaseTick => none

/-! ## Items -/

/-- The state with an item of the track replaced by the record `it` of the same tag. -/
def replaceItem (it : Item) (s : State) : State :=
  { s with trk := { s.trk with track := s.trk.track.map fun x => if x.tag = it.tag then it else x } }

/-- The record of an item once it has been decided (R89); a decided item is left as it is. -/
def decidedItem (it : Item) (r : Reason) (now : Time) : Item :=
  if it.decision = none then { it with decision := some ⟨it.combine r, r, now⟩ } else it

/-- The DECISION notice of an item, offered when the item was undecided before (R89). -/
def announceDecision (it : Item) (r : Reason) (s : State) : State :=
  if it.decision = none then offer (.decision s.pos.timeBase it.tag (it.combine r) r s.pos.position) s else s

/-- R65, R90: the zone states in which items are acted on. -/
def Tracks (s : State) : Prop := s.zon.zone = .tracking ∨ s.zon.zone = .hold ∨ s.zon.zone = .fault

/-- R42: what the level of the ENTRY input makes of the Entry Unit. -/
def levelEntry (s : State) : EntryUnit :=
  if ∃ i : Fin 8, s.inp.inputs[i].role = .entry ∧ s.inp.inputs[i].accepted ≠ s.inp.inputs[i].activeLow then .untracked
  else .clear

/-- R159: the TEACH_RESULT notice of an aborted teach, offered when a teach was running. -/
def announceAbort (teach : TeachState) (s : State) : State :=
  match teach.run with
  | none => s
  | some run => offer (.teachResult s.pos.timeBase .aborted run.samples.length none run.station false none) s

/-! ## Targets acted on one after another -/

/-- Any number of moves `r`, one after another. -/
inductive Many (r : State → State → Prop) : State → State → Prop where
  | none (s : State) : Many r s s
  | more {s t u : State} (first : r s t) (rest : Many r t u) : Many r s u

/-- R8: the owner of one of the targets that stand reached acts on it. The number of free choices made so far is the
model's own (log 11). -/
def ActsOnReach (s t : State) : Prop := ∃ r ∈ reached s, ∃ n : Nat, t = handleReach r { s with choice := n }

/-- R71, R79: the opening position of station `i` for its opening cursor item `it` is not ahead of the track position. -/
def OpeningDue (i : Fin 8) (it : Item) (s : State) : Prop :=
  it ∈ s.trk.track ∧ s.stn.stations[i].opening = some it.tag ∧
    ahead (it.entryPos + s.stn.stations[i].record.offset - s.stn.stations[i].record.tolerance.setWidth 32)
      s.pos.position = false

/-- R71, R79: station `i` handles an opening that is due, and closes the window it opened when the window's close position
is not ahead of the track position either. -/
def OpensLate (i : Fin 8) (s t : State) : Prop :=
  ∃ it, OpeningDue i it s ∧
    let u := openOne i s
    t =
      match u.stn.stations[i].windows.find? fun w => w.tag = it.tag with
      | none => u
      | some w => if ahead w.closePos u.pos.position then u else closeWindow i it.tag u

/-! ## Invariants -/

/-- R144: the notice queue holds at most 32 notices, highest level first. -/
def NoticesOk (l : LnkUnit) : Prop := l.notices.length ≤ 32 ∧ l.notices.Pairwise fun a b => b.level ≤ a.level

/-- R143, R144, R146, R149, R151: the reply queue holds at most 8 replies, the notice queue keeps its bound and its
order, ZONE_STATE and FAULT are enabled, the dump snapshot is empty while no dump stream is active, and while a RESET is
pending its reply is still to be sent. -/
def LinkInv (s : State) : Prop :=
  s.lnk.replies.length ≤ 8 ∧ NoticesOk s.lnk ∧ s.lnk.settings[0].enabled = true ∧ s.lnk.settings[1].enabled = true ∧
    (s.lnk.dump = none → s.trk.snapshot.records = []) ∧
    (s.lnk.resetPending = true →
      (∃ r ∈ s.lnk.replies, r.mark = .resetReply) ∨ ∃ b, s.lnk.tx = .sending b ∧ b.mark = .resetReply)

/-- R130, R111, R31, R153, R42, R127: E-STOP asserted means ESTOP; in ESTOP every output is OFF and no item is being
measured; in CONFIG and ARMED the track is empty; a teach runs only in CONFIG; FAULT has a first cause. -/
def ZoneInv (s : State) : Prop :=
  (s.zon.estopN.accepted = false → s.zon.zone = .estop) ∧
    (s.zon.zone = .estop → (∀ o : Fin 8, s.out.outputs[o].state = .off) ∧ ∀ tag lead, s.trk.entry ≠ .measuring tag lead) ∧
    (s.zon.zone = .config ∨ s.zon.zone = .armed → s.trk.track = []) ∧
    (s.tch.state ≠ .idle → s.zon.zone = .config) ∧ (s.zon.zone = .fault → s.zon.firstCause ≠ none)

/-- The tags of the items of the track, oldest first. -/
def tags (s : State) : List Tag := s.trk.track.map Item.tag

/-- R30, R36: at most 64 items, no tag twice, no tag 0, every record IN_TRACK. -/
def ItemsOk (s : State) : Prop :=
  s.trk.track.length ≤ 64 ∧ (tags s).Nodup ∧ (∀ it ∈ s.trk.track, it.tag ≠ 0 ∧ it.exit = .inTrack) ∧ s.trk.nextTag ≠ 0

/-- R33, R46, R64, R70, R96: whatever names an item names an item of the track: the Entry Unit, the cursors, the
windows. -/
def RefsOk (s : State) : Prop :=
  (∀ tag lead, s.trk.entry = .measuring tag lead → tag ∈ tags s) ∧
    (∀ (i : Fin 8) (tag : Tag), s.stn.stations[i].cursor = some tag → tag ∈ tags s) ∧
    (∀ (i : Fin 8) (tag : Tag), s.stn.stations[i].opening = some tag → tag ∈ tags s) ∧
    (∀ (i : Fin 8), ∀ w ∈ s.stn.stations[i].windows, w.tag ∈ tags s) ∧
    ∀ (v : Fin 4), ∀ w ∈ s.vrd.sources[v].windows, w.tag ∈ tags s

/-- R70, R96: the windows of items with the tags `ws` stand in track order, one for each item, every item older than the
one the cursor is on; with no item at the cursor any item of the track may have one. -/
def BehindCursor (s : State) (cursor : Option Tag) (ws : List Tag) : Prop :=
  ∃ older newer, tags s = older ++ newer ∧ cursor = newer.head? ∧ ws.Sublist older

/-- R70, R96: the windows of every CHECK station lie behind its opening cursor, those of every LINE source behind the
cursor of its trigger station; a MESSAGE source has none. -/
def WindowsOk (s : State) : Prop :=
  (∀ i : Fin 8, BehindCursor s s.stn.stations[i].opening (s.stn.stations[i].windows.map CheckWindow.tag)) ∧
    ∀ v : Fin 4,
      match s.vrd.sources[v].record with
      | .message => s.vrd.sources[v].windows = []
      | .line _ k _ _ _ => BehindCursor s s.stn.stations[k].cursor (s.vrd.sources[v].windows.map LineWindow.tag)

/-- The track's laws, with the bound R55 gives the dump snapshot; the order of the items is OrderOk's. -/
def TrackInv (s : State) : Prop := ItemsOk s ∧ RefsOk s ∧ WindowsOk s ∧ s.trk.snapshot.records.length ≤ 64

/-- R30: every item of the track stands ahead of every older one, in the serial order of positions. -/
def OrderOk (s : State) : Prop := s.trk.track.Pairwise fun x y => ahead y.entryPos x.entryPos = true

/-- The track position and the items of the track lie within a quarter of the circle of positions from `b` on, and no open
checkpoint window has been passed. Only travel of 2^30 counts or more against the items leaves such states; beyond half
the circle the serial order of R7 orders nothing. -/
def Near (b : Pos) (s : State) : Prop :=
  (s.pos.position - b).toNat < 2 ^ 30 ∧ (∀ it ∈ s.trk.track, (it.entryPos - b).toNat < 2 ^ 30) ∧
    ∀ i : Fin 8, ∀ w ∈ s.stn.stations[i].windows, ahead w.closePos s.pos.position = true

/-- R52: the zone parameters are in their ranges. -/
def ParamsOk (z : ZoneParams) : Prop :=
  1 ≤ z.minLength.toNat ∧ z.minLength.toNat ≤ z.maxLength.toNat ∧ z.maxLength.toNat ≤ 1000000 ∧
    1 ≤ z.trackEnd.toNat ∧ z.trackEnd.toNat ≤ 4000000 ∧ 1 ≤ z.reverseLimit.toNat

/-- R21, R22, R52, R57, R58, R86, R120: at most one ENTRY input; every station record passes its value check and its
validation; every LINE source names a VERDICT input and a TRIGGER station whose window ends before TRACK_END; the zone
parameters and the stop pulse width are in their ranges; a running teach has an ENTRY input, which is not its target. -/
def ConfigInv (s : State) : Prop :=
  (∀ i j : Fin 8, s.inp.inputs[i].role = .entry → s.inp.inputs[j].role = .entry → i = j) ∧
    (∀ i : Fin 8, s.stn.stations[i].record.valueOk = true ∧ stationValid s i s.stn.stations[i].record = true) ∧
    (∀ v : Fin 4, sourceValid s s.vrd.sources[v].record = true) ∧ ParamsOk s.trk.params ∧
    (1 ≤ s.zon.stopWidth.toNat ∧ s.zon.stopWidth.toNat ≤ 250) ∧
    ∀ run, s.tch.state.run = some run →
      (∃ i : Fin 8, s.inp.inputs[i].role = .entry) ∧ s.inp.inputs[run.target].role ≠ .entry

/-! ## What an item keeps -/

/-- R32: a flag once set stays set. -/
def FlagsKept (f g : ItemFlags) : Prop :=
  (f.overlength = true → g.overlength = true) ∧ (f.anchored = true → g.anchored = true) ∧
    (f.anchorRefused = true → g.anchorRefused = true) ∧ (f.missing = true → g.missing = true) ∧
    (f.reclassified = true → g.reclassified = true) ∧ (f.lateVerdict = true → g.lateVerdict = true) ∧
    (f.unserved = true → g.unserved = true)

/-- R32, R89: what an item keeps while it stays in the track: its tag, its entry time, a decision once made, its
flags. -/
def Kept (it jt : Item) : Prop :=
  jt.tag = it.tag ∧ jt.entryTime = it.entryTime ∧ (∀ d, it.decision = some d → jt.decision = some d) ∧
    FlagsKept it.flags jt.flags

end Sys2Proof.Safety
end

