-- ==== Sys2Proof/Certificates/Slice0/Obligations.lean ====
section
/-! DEFINITION. The statements about the T24, for the provers. Each docstring names the rules it rests on; a title or
docstring that names a log entry says that a clause is the model's choice. -/

open Sys2Proof Sys2Proof.Machine Sys2Proof.Safety

/-! ## Steps and requests -/

/-- A step runs the command at the front of the queue on the state with the queue's rest; with no command waiting the
block idles (log 2). -/
def Obligations.StepRunsFrontCommand : Prop :=
  (∀ (c : Instr) (rest : List Instr) (s : State),
      s.pending = c :: rest → step s = exec c { s with pending := rest }) ∧
    ∀ s : State, s.pending = [] → step s = .next s

/-- Every command has a next state in every state, and no command touches the queue of waiting commands (95, log 28). -/
def Obligations.EveryCommandHasNextState : Prop :=
  ∀ (c : Instr) (s : State), ∃ t, exec c s = .next t ∧ t.pending = s.pending

/-- R139 (second check), R140, R151: a request that completes while a RESET is pending does nothing; one that completes
with 8 replies queued raises rx_dropped, which stays at 65535, and does nothing else. -/
def Obligations.UntakenRequests : Prop :=
  ∀ (c : Instr) (s : State) (k t : Byte) (p : List Byte), requestOf c = some (k, t, p) →
    (s.lnk.resetPending = true → exec c s = .next s) ∧
      (s.lnk.resetPending = false → 8 ≤ s.lnk.replies.length →
        exec c s =
          .next
            { s with
              lnk :=
                { s.lnk with
                  rxDropped := if s.lnk.rxDropped = 65535 then 65535 else s.lnk.rxDropped + 1 } })

/-- R137, R139, R141, R161: the last CRC byte of a frame that carries a request and its CRC is that request's command; a
frame whose CRC differs is discarded with a frame error (uncounted while a RESET is pending, log 21); and the CRC of the
nine ASCII digits is 0x29B1, low byte first in a frame. -/
def Obligations.FramesOnTheWire : Prop :=
  (∀ (s : State) (len k t last : Byte) (p got : List Byte) (since : Time),
    s.lnk.receiver = .body len got since → len.toNat = p.length + 2 →
      (∀ c, requestOf c = some (k, t, p) →
        got ++ [last] = k :: t :: p ++ le 2 (crc (len :: k :: t :: p)) →
        exec (.receiveByte last true) s = exec c { s with lnk := { s.lnk with receiver := .hunt } }) ∧
      ∀ bad : BitVec 16, bad ≠ crc (len :: k :: t :: p) → got ++ [last] = k :: t :: p ++ le 2 bad →
        exec (.receiveByte last true) s =
          .next
            { s with
              lnk :=
                { s.lnk with
                  receiver := .hunt
                  frameErrors := if s.lnk.resetPending then s.lnk.frameErrors else satInc s.lnk.frameErrors } }) ∧
  (crc [0x31, 0x32, 0x33, 0x34, 0x35, 0x36, 0x37, 0x38, 0x39] = 0x29B1 ∧
    ∀ f : Frame, f.payload.length ≤ 248 →
      f.wire =
        0xA5 :: BitVec.ofNat 8 (f.payload.length + 2) :: f.kind :: f.tag :: f.payload
          ++ [(crc f.body).setWidth 8, (crc f.body >>> 8).setWidth 8])

/-- R135 to R138: what a byte does in SETTLING, HUNT, HEADER and, short of the last CRC byte, BODY; and the two timers. In
SETTLING the idle count goes on from the stop bit and the data bits of value 1 sent last, during which RXD was high. The
gap timer runs only in HEADER and BODY and discards the frame, counted in gap_discards; the idle count of SETTLING leads
to HUNT. Neither can run out before its bit times have passed, counted in whole microseconds of the time base from the end
of a byte (log 8), and at other times the expiry has no effect (log 5). -/
def Obligations.ReceiverBytesAndTimers : Prop :=
  (∀ (s : State) (b : Byte) (good : Bool),
    let moved (r : Receiver) : Host.Outcome State Fault Refusal :=
      .next { s with lnk := { s.lnk with receiver := r } }
    let error : Host.Outcome State Fault Refusal :=
      .next { s with lnk := { s.lnk with receiver := .hunt, frameErrors := satInc s.lnk.frameErrors } }
    (∀ since bits, s.lnk.receiver = .settling since bits →
      (good = false → exec (.receiveByte b good) s = moved (.settling s.pos.timeBase 640)) ∧
      ∀ ones ≤ 8, good = true → (∀ k < ones, b.getLsbD (7 - k) = true) → (ones < 8 → b.getLsbD (7 - ones) = false) →
        exec (.receiveByte b good) s = moved (.settling s.pos.timeBase (640 - (1 + ones)))) ∧
    (s.lnk.receiver = .hunt →
      (good = true ∧ b = 0xA5 → exec (.receiveByte b good) s = moved (.header s.pos.timeBase)) ∧
      (¬(good = true ∧ b = 0xA5) → exec (.receiveByte b good) s = .next s)) ∧
    (∀ since, s.lnk.receiver = .header since →
      (good = true ∧ 2 ≤ b.toNat ∧ b.toNat ≤ 250 →
        exec (.receiveByte b good) s = moved (.body b [] s.pos.timeBase)) ∧
      (¬(good = true ∧ 2 ≤ b.toNat ∧ b.toNat ≤ 250) → exec (.receiveByte b good) s = error)) ∧
    ∀ len got since, s.lnk.receiver = .body len got since →
      (good = false → exec (.receiveByte b good) s = error) ∧
      (good = true → got.length + 1 ≠ len.toNat + 2 →
        exec (.receiveByte b good) s = moved (.body len (got ++ [b]) s.pos.timeBase))) ∧
  (∀ s : State,
    let passed (bits : Nat) (since : Time) : Prop :=
      bits * 1000000 / Config.baud s.lnk.rateCode ≤ (s.pos.timeBase - since).toNat
    let discarded : Host.Outcome State Fault Refusal :=
      .next { s with lnk := { s.lnk with receiver := .hunt, gapDiscards := satInc s.lnk.gapDiscards } }
    (∀ since, s.lnk.receiver = .header since →
      exec .settlingIdleExpiry s = .next s ∧
        (passed 160 since → exec .gapTimerExpiry s = discarded) ∧
        (¬passed 160 since → exec .gapTimerExpiry s = .next s)) ∧
    (∀ len got since, s.lnk.receiver = .body len got since →
      exec .settlingIdleExpiry s = .next s ∧
        (passed 160 since → exec .gapTimerExpiry s = discarded) ∧
        (¬passed 160 since → exec .gapTimerExpiry s = .next s)) ∧
    (s.lnk.receiver = .hunt → exec .gapTimerExpiry s = .next s ∧ exec .settlingIdleExpiry s = .next s) ∧
    ∀ since bits, s.lnk.receiver = .settling since bits →
      exec .gapTimerExpiry s = .next s ∧
      (passed bits since →
        exec .settlingIdleExpiry s = .next { s with lnk := { s.lnk with receiver := .hunt } }) ∧
      (¬passed bits since → exec .settlingIdleExpiry s = .next s))

/-! ## LNK: requests -/

/-- R150: IDENTIFY. R141: a request whose KIND is no request kind. -/
def Obligations.IdentifyAndUnknownKind : Prop :=
  ∀ (tag : Byte) (p : List Byte) (s : State), Taken s →
    (p = [] →
      exec (.identify tag p) s =
        .next
          (replied 0x01 tag .ok
            [0x62, 0x24, 0x01, 1, s.lnk.unitId.setWidth 8, s.lnk.rateCode.setWidth 8] s)) ∧
    (p ≠ [] → exec (.identify tag p) s = .next (replied 0x01 tag .badLength [] s)) ∧
    ∀ k : Byte, k ∉ Config.requestKinds →
      exec (.requestOfUnknownKind k tag p) s =
        .next { s with lnk := { s.lnk with replies := s.lnk.replies ++ [⟨⟨0xFF, tag, [0x10, k]⟩, .plain⟩] } }

/-- R134: what STATUS answers and clears. The byte layout of its reply is log 20's, the size of its track count
log 32's. -/
def Obligations.StatusResult : Prop :=
  ∀ (tag : Byte) (p : List Byte) (s : State), Taken s →
    let measured : Option Tag := match s.trk.entry with | .measuring t _ => some t | .clear => none | .untracked => none
    let fields : List Byte :=
      [s.zon.zone.code, flagByte s.zon.firstCause.isSome, (s.zon.firstCause.map FaultCause.code).getD 0,
          s.zon.causes.byte, BitVec.ofNat 8 s.trk.track.length]
        ++ le 4 s.pos.position ++ le 6 s.pos.timeBase ++ [s.trk.entry.code, flagByte measured.isSome]
        ++ le 2 (measured.getD 0)
        ++ [s.tch.state.code, flagByte s.lnk.dump.isSome, flagByte s.zon.sync.accepted,
          flagByte s.zon.lineStop.accepted, flagByte s.zon.estopN.accepted, flagByte s.zon.syncDrive.isSome,
          flagByte s.zon.lineStopDrive.isSome]
        ++ le 2 s.lnk.frameErrors ++ le 2 s.lnk.gapDiscards ++ le 2 s.lnk.rxDropped ++ le 2 s.pos.encErrors
        ++ le 2 s.lnk.lostCount
    (p.length ≠ 1 → exec (.status tag p) s = .next (replied 0x02 tag .badLength [] s)) ∧
    (∀ b : Byte, p = [b] → 2 ≤ b.toNat → exec (.status tag p) s = .next (replied 0x02 tag .badValue [] s)) ∧
    (p = [0] → exec (.status tag p) s = .next (replied 0x02 tag .ok fields s)) ∧
    (p = [1] →
      exec (.status tag p) s =
        .next
          (replied 0x02 tag .ok fields
            { s with
              pos := { s.pos with encErrors := 0 }
              lnk := { s.lnk with frameErrors := 0, gapDiscards := 0, rxDropped := 0 } }))

/-- R146: SET_NOTICES, in every zone state. -/
def Obligations.SetNoticesResult : Prop :=
  ∀ (tag : Byte) (p : List Byte) (s : State), Taken s →
    let code (k : Fin 11) : Byte := 0x40 + BitVec.ofNat 8 k.val
    let inForce (k : Fin 11) : List Byte :=
      [code k, flagByte s.lnk.settings[k].enabled, idxByte s.lnk.settings[k].level]
    let outside (b : Byte) : Prop := b.toNat < 0x40 ∨ 0x4A < b.toNat
    (∀ k, p = [code k] → exec (.setNotices tag p) s = .next (replied 0x04 tag .ok (inForce k) s)) ∧
    (∀ b, p = [b] → outside b → exec (.setNotices tag p) s = .next (replied 0x04 tag .badValue [b, 0, 0] s)) ∧
    (p.length ≠ 1 → p.length ≠ 3 →
      (∀ k, byteAt p 0 = code k → exec (.setNotices tag p) s = .next (replied 0x04 tag .badLength (inForce k) s)) ∧
      (outside (byteAt p 0) →
        exec (.setNotices tag p) s = .next (replied 0x04 tag .badLength [byteAt p 0, 0, 0] s))) ∧
    (∀ b e l, p = [b, e, l] → outside b →
      exec (.setNotices tag p) s = .next (replied 0x04 tag .badValue [b, 0, 0] s)) ∧
    (∀ k e l, p = [code k, e, l] → 2 ≤ e.toNat ∨ 4 ≤ l.toNat ∨ (e = 0 ∧ k.val ≤ 1) →
      exec (.setNotices tag p) s = .next (replied 0x04 tag .badValue (inForce k) s)) ∧
    ∀ (k : Fin 11) (e : Bool) (l : Fin 4), p = [code k, flagByte e, idxByte l] → e = true ∨ 2 ≤ k.val →
      exec (.setNotices tag p) s =
        .next
          (replied 0x04 tag .ok p
            { s with lnk := { s.lnk with settings := modAt s.lnk.settings k fun _ => ⟨e, l⟩ } })

/-! ## POS -/

/-- R13, R5: SET_ENCODER. That a change of the filter time shows nowhere in the state of a waiting change (R1, R13) is
log 7's: the encoder filter time of a wait is not measured. -/
def Obligations.SetEncoderResult : Prop :=
  ∀ (tag : Byte) (p : List Byte) (s : State), Taken s →
    let inForce : List Byte := [s.pos.mode.code, flagByte s.pos.invert, flagByte s.pos.enable, s.pos.filter.code]
    let refused (st : Status) : Prop := exec (.setEncoder tag p) s = .next (replied 0x08 tag st inForce s)
    (p = [] → refused .ok) ∧ (p ≠ [] → p.length ≠ 4 → refused .badLength) ∧
    (p.length = 4 → s.zon.zone ≠ .config → refused .wrongState) ∧
    (∀ a b c d, p = [a, b, c, d] → s.zon.zone = .config →
      4 ≤ a.toNat ∨ 2 ≤ b.toNat ∨ 2 ≤ c.toNat ∨ 2 ≤ d.toNat → refused .badValue) ∧
    ∀ (m : EncMode) (inv en : Bool) (f : EncFilter), p = [m.code, flagByte inv, flagByte en, f.code] →
      s.zon.zone = .config →
      exec (.setEncoder tag p) s =
        .next
          (replied 0x08 tag .ok p
            { s with
              pos :=
                { s.pos with
                  mode := m, invert := inv, enable := en, filter := f, refA := s.pos.chanA.accepted
                  refB := s.pos.chanB.accepted } })

/-- R14, R24, R114: READ_POSITION, READ_INPUT and READ_OUTPUTS answer in every zone state and change nothing. That the
remaining time of an output past its end time reads 0 is log 25's. -/
def Obligations.ReadRequestsChangeNothing : Prop :=
  ∀ (tag : Byte) (p : List Byte) (s : State), Taken s →
    (p = [] →
      exec (.readPosition tag p) s =
        .next
          (replied 0x09 tag .ok
            (le 4 s.pos.position ++ le 4 s.pos.highWater ++ le 6 s.pos.timeBase ++ le 2 s.pos.encErrors) s) ∧
      exec (.readOutputs tag p) s =
        .next
          (replied 0x22 tag .ok
            ((List.finRange 8).flatMap fun o =>
              [s.out.outputs[o].state.code] ++ le 2 (s.out.outputs[o].state.remaining s.pos.timeBase)
                ++ ownerBytes s.out.outputs[o].state.owner) s)) ∧
    (p ≠ [] →
      exec (.readPosition tag p) s = .next (replied 0x09 tag .badLength [] s) ∧
      exec (.readOutputs tag p) s = .next (replied 0x22 tag .badLength [] s)) ∧
    (p.length ≠ 1 → exec (.readInput tag p) s = .next (replied 0x0D tag .badLength [] s)) ∧
    (∀ b : Byte, p = [b] → 8 ≤ b.toNat → exec (.readInput tag p) s = .next (replied 0x0D tag .badValue [] s)) ∧
    ∀ i : Fin 8, p = [idxByte i] →
      let x := s.inp.inputs[i]
      exec (.readInput tag p) s =
        .next
          (replied 0x0D tag .ok
            ([idxByte i, x.role.code, flagByte x.activeLow, x.filter.code, flagByte x.accepted,
              flagByte (x.accepted != x.activeLow)] ++ x.probe.bytes) s)

/-- R2, R3, R4: the raw count of every acceptance moment, in every mode; a reversal of the encoder gives the opposite
raw count; the invert flag turns the sign. R1, R5, R6, R7, R9: an acceptance moment changes the accepted levels; with the
enable flag set it is decoded against the reference pair and takes its place. A count of 0 does no more, a backward count
and an encoder error are backwardCount and encoderError of the decoded state (FaultCauses says what these do), and every
count moves the position, the high-water position and enc_errors as its rule says, whatever the zone state and whatever
targets a forward count reaches (ForwardCountReaches). A channel with no change waiting takes no part (log 5); the filter
time of a wait is not measured (log 7). -/
def Obligations.EncoderAcceptanceResult : Prop :=
  ((∀ a b a' b' : Bool,
    rawCount .quadX4 a b a' b' =
        (if a ≠ a' ∧ b ≠ b' then .error
          else if a ≠ a' then (if a' = b then .down else .up)
          else if b ≠ b' then (if b' = a then .up else .down)
          else .zero) ∧
      rawCount .quadX2 a b a' b' =
        (if a ≠ a' ∧ b ≠ b' then .error else if a ≠ a' then (if a' = b then .down else .up) else .zero) ∧
      rawCount .quadX1 a b a' b' =
        (if a ≠ a' ∧ b ≠ b' then .error
          else if a ≠ a' ∧ b = false then (if a' then .up else .down) else .zero) ∧
      rawCount .upDown a b a' b' =
        (if (a = false ∧ a' = true) ∧ b = false ∧ b' = true then .error
          else if a = false ∧ a' = true then .up
          else if b = false ∧ b' = true then .down
          else .zero)) ∧
    (∀ (m : EncMode) (a b a' b' : Bool), m ≠ .upDown →
      rawCount m a' b' a b = (rawCount m a b a' b').signed true) ∧
    RawCount.signed false .up = .up ∧ RawCount.signed false .down = .down ∧ RawCount.signed true .up = .down ∧
    RawCount.signed true .down = .up) ∧
  ∀ (s : State) (ca cb : Bool),
    let a := if ca then s.pos.chanA.raw else s.pos.chanA.accepted
    let b := if cb then s.pos.chanB.raw else s.pos.chanB.accepted
    let accepted : PosUnit :=
      { s.pos with chanA := { s.pos.chanA with accepted := a }, chanB := { s.pos.chanB with accepted := b } }
    let decoded : PosUnit := { accepted with refA := a, refB := b }
    let count := (rawCount s.pos.mode s.pos.refA s.pos.refB a b).signed s.pos.invert
    let moved := a ≠ s.pos.chanA.accepted ∨ b ≠ s.pos.chanB.accepted
    (¬moved → exec (.encoderAcceptance ca cb) s = .next s) ∧
    (moved → s.pos.enable = false → exec (.encoderAcceptance ca cb) s = .next { s with pos := accepted }) ∧
    (moved → s.pos.enable = true →
      (count = .zero → exec (.encoderAcceptance ca cb) s = .next { s with pos := decoded }) ∧
      (count = .up → ∃ t, exec (.encoderAcceptance ca cb) s = .next t ∧ t.inp = s.inp ∧
        t.pos =
          { decoded with
            position := s.pos.position + 1
            highWater :=
              if ahead (s.pos.position + 1) s.pos.highWater then s.pos.position + 1 else s.pos.highWater }) ∧
      (count = .down →
        let t := backwardCount { s with pos := decoded }
        exec (.encoderAcceptance ca cb) s = .next t ∧ t.trk = s.trk ∧ t.out = s.out ∧
          t.pos = { decoded with position := s.pos.position - 1 }) ∧
      (count = .error →
        let t := encoderError { s with pos := decoded }
        exec (.encoderAcceptance ca cb) s = .next t ∧ t.trk = s.trk ∧ t.out = s.out ∧
          t.pos = { decoded with encErrors := if s.pos.encErrors = 65535 then 65535 else s.pos.encErrors + 1 }))

/-- R6, R10: an encoder error reports ENCODER; the backward count that raises the reverse distance from REVERSE_LIMIT to
REVERSE_LIMIT + 1 reports REVERSE, no other does. R117, R127, R125: a fault cause in each zone state, with the notices it
offers and the LINE-STOP drive of an entry to FAULT. -/
def Obligations.FaultCauses : Prop :=
  (∀ s : State,
    encoderError s = faultCause .encoder { s with pos := { s.pos with encErrors := satInc s.pos.encErrors } } ∧
    (let s1 : State := { s with pos := { s.pos with position := s.pos.position - 1 } }
     let behind (p : PosUnit) : Nat := if ahead p.highWater p.position then (p.highWater - p.position).toNat else 0
     (behind s.pos = s.trk.params.reverseLimit.toNat ∧ behind s1.pos = s.trk.params.reverseLimit.toNat + 1 →
        backwardCount s = faultCause .reverse s1) ∧
     (¬(behind s.pos = s.trk.params.reverseLimit.toNat ∧ behind s1.pos = s.trk.params.reverseLimit.toNat + 1) →
        backwardCount s = s1))) ∧
  (∀ (s : State) (c : FaultCause),
    let now := s.pos.timeBase
    let here := s.pos.position
    let one : CauseSet := CauseSet.empty.add c
    let entered : State := { s with zon := { s.zon with zone := .fault, firstCause := some c, causes := one } }
    let noticed : State :=
      offer (.fault now c true one here) (offer (.zoneState now s.zon.zone .fault (.fault c) here) entered)
    (s.zon.zone = .tracking ∨ s.zon.zone = .hold →
      (s.zon.stopOut = false → faultCause c s = noticed) ∧
      (s.zon.stopOut = true → faultCause c s = driveLineStop noticed)) ∧
    (s.zon.zone = .fault →
      faultCause c s =
        offer (.fault now c false (s.zon.causes.add c) here)
          { s with zon := { s.zon with causes := s.zon.causes.add c } }) ∧
    (¬Tracks s → faultCause c s = s))

/-! ## INP -/

/-- R21, R22, R23, R16, R18: SET_INPUT. -/
def Obligations.SetInputResult : Prop :=
  ∀ (tag : Byte) (p : List Byte) (s : State), Taken s →
    let refused (st : Status) : Prop :=
      exec (.setInput tag p) s = .next (replied 0x0C tag st (inputSettings (byteAt p 0) s) s)
    (∀ i : Fin 8, p = [idxByte i] →
      exec (.setInput tag p) s =
        .next
          (replied 0x0C tag .ok
            [idxByte i, s.inp.inputs[i].role.code, flagByte s.inp.inputs[i].activeLow, s.inp.inputs[i].filter.code]
            s)) ∧
    (∀ b : Byte, p = [b] → 8 ≤ b.toNat →
      exec (.setInput tag p) s = .next (replied 0x0C tag .badValue [b, 0, 0, 0] s)) ∧
    (p.length ≠ 1 → p.length ≠ 4 → refused .badLength) ∧
    (p.length = 4 → s.zon.zone ≠ .config → refused .wrongState) ∧
    (∀ a b c d, p = [a, b, c, d] → s.zon.zone = .config →
      8 ≤ a.toNat ∨ 5 ≤ b.toNat ∨ 2 ≤ c.toNat ∨ 5 ≤ d.toNat → refused .badValue) ∧
    ∀ (i : Fin 8) (role : Role) (low : Bool) (f : InputFilter), p = [idxByte i, role.code, flagByte low, f.code] →
      s.zon.zone = .config →
      let conflict : Prop :=
        (role = .entry ∧ ∃ k : Fin 8, k ≠ i ∧ s.inp.inputs[k].role = .entry) ∨
          (role ≠ .check ∧
            ∃ k : Fin 8, s.stn.stations[k].record.kind = .check ∧ s.stn.stations[k].record.sense = i) ∨
          (role ≠ .verdict ∧ ∃ (v : Fin 4) (j : Fin 8) (w : BitVec 16) (x y : Fin 16),
            s.vrd.sources[v].record = .line i j w x y) ∨
          ∃ run, s.tch.state.run = some run ∧
            ((s.inp.inputs[i].role = .entry ∧ role ≠ .entry) ∨ (run.target = i ∧ role = .entry))
      (conflict → refused .conflict) ∧
      (¬conflict →
        exec (.setInput tag p) s =
          .next
            (replied 0x0C tag .ok p
              { s with
                inp :=
                  { s.inp with
                    inputs :=
                      modAt s.inp.inputs i fun x =>
                        { x with
                          role := role, activeLow := low, filter := f
                          wait :=
                            if f = x.filter then x.wait
                            else x.wait.map fun _ => s.pos.timeBase + f.time } } }))

/-- R26, R28: ARM_PROBE and DISARM_PROBE, in every zone state. That a refused request's reply carries no fields is
log 17's reading. -/
def Obligations.ProbeRequests : Prop :=
  ∀ (tag : Byte) (p : List Byte) (s : State), Taken s →
    (p.length ≠ 3 → exec (.armProbe tag p) s = .next (replied 0x0E tag .badLength [] s)) ∧
    (∀ a b c : Byte, p = [a, b, c] → 8 ≤ a.toNat ∨ 2 ≤ b.toNat ∨ 3 ≤ c.toNat →
      exec (.armProbe tag p) s = .next (replied 0x0E tag .badValue [] s)) ∧
    (∀ (i : Fin 8) (every : Bool) (sel : EdgeSel), p = [idxByte i, flagByte every, sel.code] →
      let armed : Probe :=
        { state := if every then .armedEvery else .armedOnce, sel := sel, count := 0
          last := s.inp.inputs[i].probe.last }
      exec (.armProbe tag p) s =
        .next
          (replied 0x0E tag .ok (idxByte i :: armed.bytes)
            { s with inp := { s.inp with inputs := modAt s.inp.inputs i fun x => { x with probe := armed } } })) ∧
    (p.length ≠ 1 → exec (.disarmProbe tag p) s = .next (replied 0x0F tag .badLength [] s)) ∧
    (∀ b : Byte, p = [b] → 8 ≤ b.toNat → exec (.disarmProbe tag p) s = .next (replied 0x0F tag .badValue [] s)) ∧
    ∀ i : Fin 8, p = [idxByte i] →
      let disarmed : Probe := { s.inp.inputs[i].probe with state := .disarmed }
      exec (.disarmProbe tag p) s =
        .next
          (replied 0x0F tag .ok (idxByte i :: disarmed.bytes)
            { s with inp := { s.inp with inputs := modAt s.inp.inputs i fun x => { x with probe := disarmed } } })

/-- R1, R15, R118: a raw level change of a sense or line input starts, keeps or ends a wait and does nothing else. That of
an encoder channel moves the raw level alone: a wait is in progress while it differs from the accepted level, and its
time is not measured (log 7). The level of a shared line is low while this unit or another drives it; the level the rest
of the line has is the operand (log 13). -/
def Obligations.RawLevelChanges : Prop :=
  ∀ (s : State) (level : Bool),
    let after (filter : Time) (accepted old new : Bool) (wait : Option Time) : Option Time :=
      if old = new then wait else if new = accepted then none else some (s.pos.timeBase + filter)
    exec (.encoderRawChange .a level) s =
      .next { s with pos := { s.pos with chanA := { s.pos.chanA with raw := level } } } ∧
    exec (.encoderRawChange .b level) s =
      .next { s with pos := { s.pos with chanB := { s.pos.chanB with raw := level } } } ∧
    (∀ i : Fin 8,
      exec (.inputRawChange i level) s =
        .next
          { s with
            inp :=
              { s.inp with
                inputs :=
                  modAt s.inp.inputs i fun x =>
                    { x with raw := level, wait := after x.filter.time x.accepted x.raw level x.wait } } }) ∧
    exec (.lineRawChange .sync level) s =
      .next
        { s with
          zon :=
            { s.zon with
              sync :=
                { s.zon.sync with
                  ext := level
                  wait :=
                    after 20 s.zon.sync.accepted (s.zon.sync.ext && s.zon.syncDrive.isNone)
                      (level && s.zon.syncDrive.isNone) s.zon.sync.wait } } } ∧
    exec (.lineRawChange .lineStop level) s =
      .next
        { s with
          zon :=
            { s.zon with
              lineStop :=
                { s.zon.lineStop with
                  ext := level
                  wait :=
                    after 100 s.zon.lineStop.accepted (s.zon.lineStop.ext && s.zon.lineStopDrive.isNone)
                      (level && s.zon.lineStopDrive.isNone) s.zon.lineStop.wait } } } ∧
    exec (.lineRawChange .estop level) s =
      .next
        { s with
          zon :=
            { s.zon with
              estopN :=
                { s.zon.estopN with
                  ext := level
                  wait := after 2000 s.zon.estopN.accepted s.zon.estopN.ext level s.zon.estopN.wait } } }

/-- R15, R17, R19, R20, R27: the acceptance of a change of a sense input. On an UNUSED or GENERAL input that is no teach
target it makes the raw level the accepted level, and its edge goes to the probe alone, which captures it when it is armed
for that kind of edge. Before the wait has run out nothing happens (log 5).
R65, R72, R98, R155, R156: on an input of any role, with its probe armed or not and a teach running or not, the edge goes
to every receiver that acts on it, each once, in an order the spec leaves open (log 12; the number of free choices made is
the model's own); and what each receiver does with it, in any state it finds. EntryEdgeResult, CheckpointAndSourceEdges
and TeachRules say what the functions named here do. -/
def Obligations.InputAcceptanceResult : Prop :=
  (∀ (s : State) (i : Fin 8),
      let x := s.inp.inputs[i]
      let edge : EdgeKind := if x.raw != x.activeLow then .leading else .trailing
      let accepted : Input := { x with accepted := x.raw, wait := none }
      let armed : Prop :=
        (x.probe.state = .armedOnce ∨ x.probe.state = .armedEvery) ∧
          (x.probe.sel = .both ∨ (x.probe.sel = .leading ∧ edge = .leading) ∨
            (x.probe.sel = .trailing ∧ edge = .trailing))
      let captured : Probe :=
        { x.probe with
          state := if x.probe.state = .armedOnce then .spent else x.probe.state
          count := if x.probe.count = 255 then 255 else x.probe.count + 1
          last := some ⟨edge, s.pos.position, s.pos.timeBase⟩ }
      (waitOver x.wait s.pos.timeBase = false → exec (.inputAcceptance i) s = .next s) ∧
      (waitOver x.wait s.pos.timeBase = true → x.raw ≠ x.accepted → x.role = .unused ∨ x.role = .general →
        (∀ run, s.tch.state.run = some run → run.target ≠ i) →
        (¬armed →
          exec (.inputAcceptance i) s =
            .next { s with inp := { s.inp with inputs := modAt s.inp.inputs i fun _ => accepted } }) ∧
        (armed →
          exec (.inputAcceptance i) s =
            .next
              (offer (.probe s.pos.timeBase i edge s.pos.position captured.count captured.state)
                { s with
                  inp :=
                    { s.inp with
                      inputs := modAt s.inp.inputs i fun _ => { accepted with probe := captured } } })))) ∧
  (∀ (s : State) (i : Fin 8),
    let x := s.inp.inputs[i]
    let edge : EdgeKind := if x.raw != x.activeLow then .leading else .trailing
    let s1 : State :=
      { s with inp := { s.inp with inputs := modAt s.inp.inputs i fun x => { x with accepted := x.raw, wait := none } } }
    let acts (r : EdgeReceiver) : Prop :=
      match r with
      | .probe =>
        (x.probe.state = .armedOnce ∨ x.probe.state = .armedEvery) ∧
          (x.probe.sel = .both ∨ (x.probe.sel = .leading ∧ edge = .leading) ∨
            (x.probe.sel = .trailing ∧ edge = .trailing))
      | .entryUnit => x.role = .entry
      | .teachEntry => x.role = .entry ∧ edge = .leading ∧ s.tch.state ≠ .idle
      | .teachTarget => edge = .leading ∧ ∃ run, s.tch.state.run = some run ∧ run.target = i
      | .station k =>
        x.role = .check ∧ edge = .leading ∧ Tracks s ∧ s.stn.stations[k].record.kind = .check ∧
          s.stn.stations[k].record.sense = i ∧ s.stn.stations[k].record.mode ≠ .disabled
      | .source v =>
        x.role = .verdict ∧ edge = .leading ∧ Tracks s ∧
          ∃ (k : Fin 8) (w : BitVec 16) (a b : Fin 16), s.vrd.sources[v].record = .line i k w a b
    (waitOver x.wait s.pos.timeBase = false → exec (.inputAcceptance i) s = .next s) ∧
    (waitOver x.wait s.pos.timeBase = true → x.raw = x.accepted → exec (.inputAcceptance i) s = .next s1) ∧
    (waitOver x.wait s.pos.timeBase = true → x.raw ≠ x.accepted →
      ∃ order : List (EdgeReceiver × Nat),
        (order.map Prod.fst).Nodup ∧ (∀ r, r ∈ order.map Prod.fst ↔ acts r) ∧
          (order.length ≤ 1 → ∀ r ∈ order, r.2 = s.choice) ∧
          exec (.inputAcceptance i) s =
            .next (order.foldl (fun t r => receiveEdge i edge r.1 { t with choice := r.2 }) s1))) ∧
  (∀ (t : State) (i : Fin 8) (edge : EdgeKind),
    let p := t.inp.inputs[i].probe
    let captured : Probe :=
      { p with
        state := if p.state = .armedOnce then .spent else p.state
        count := if p.count = 255 then 255 else p.count + 1
        last := some ⟨edge, t.pos.position, t.pos.timeBase⟩ }
    (p.state = .armedOnce ∨ p.state = .armedEvery →
      receiveEdge i edge .probe t =
        offer (.probe t.pos.timeBase i edge t.pos.position captured.count captured.state)
          { t with inp := { t.inp with inputs := modAt t.inp.inputs i fun x => { x with probe := captured } } }) ∧
    receiveEdge i .leading .entryUnit t = entryLeading t ∧ receiveEdge i .trailing .entryUnit t = entryTrailing t ∧
    receiveEdge i edge .teachEntry t = teachEntryEdge t ∧ receiveEdge i edge .teachTarget t = teachTargetEdge t ∧
    (∀ k : Fin 8, receiveEdge i edge (.station k) t = checkEdge k t) ∧
    ∀ v : Fin 4, receiveEdge i edge (.source v) t = lineEdge v t)

/-- R33 to R37, R39, R40: what the Entry Unit does at a leading and at a trailing edge of the ENTRY input, whatever else
the edge goes to (InputAcceptanceResult). A leading edge in MEASURING does not arise (log 26). -/
def Obligations.EntryEdgeResult : Prop :=
  ∀ s : State, s.trk.nextTag ≠ 0 →
    let untracked : State := { s with trk := { s.trk with entry := .untracked } }
    let clear : State := { s with trk := { s.trk with entry := .clear } }
    let next (t : Tag) : Tag := if t = 65535 then 1 else t + 1
    (s.trk.entry = .clear ∨ s.trk.entry = .untracked →
      (¬Tracks s → entryLeading s = untracked) ∧
      (Tracks s → 64 ≤ s.trk.track.length → entryLeading s = faultCause .trackFull untracked) ∧
      (Tracks s → s.trk.track.length < 64 →
        ∀ newest, s.trk.track.getLast? = some newest → ahead s.pos.position newest.entryPos = false →
          entryLeading s = offer (.stray s.pos.timeBase .entry s.pos.position) untracked) ∧
      (Tracks s → s.trk.track.length < 64 →
        (∀ newest, s.trk.track.getLast? = some newest → ahead s.pos.position newest.entryPos = true) →
        ∃ (tag : Tag) (k : Nat), tag = next^[k] s.trk.nextTag ∧ (∀ j < k, next^[j] s.trk.nextTag ∈ tags s) ∧
          tag ∉ tags s ∧
          let cls := s.vrd.classes[s.trk.params.defaultClass]
          let it : Item :=
            { tag := tag, cls := s.trk.params.defaultClass, snapshot := cls, entryPos := s.pos.position
              correction := 0, entryTime := s.pos.timeBase, length := none
              deadline := deadlineOf s s.pos.position cls
              slots := ((List.finRange 4).filter fun v => cls.requires v).map fun v => ⟨v, .pending⟩
              decision := none
              outcomes :=
                ((List.finRange 8).filter fun k =>
                  cls.hasMember k && s.stn.stations[k].record.kind != .none).map fun k => ⟨k, .pending⟩
              flags := ⟨false, false, false, false, false, false, false⟩, exit := .inTrack }
          let created : State :=
            { s with
              trk :=
                { s.trk with
                  track :=
                    s.trk.track ++ [if cls.required = 0 then decidedItem it .noneRequired s.pos.timeBase else it]
                  nextTag := next tag, entry := .measuring tag s.pos.position }
              stn :=
                { s.stn with
                  stations :=
                    mapAll s.stn.stations fun _ st =>
                      { st with
                        cursor :=
                          if st.record.kind ≠ .none ∧ st.record.kind ≠ .check ∧ st.cursor = none then some tag
                          else st.cursor
                        opening :=
                          if st.record.kind = .check ∧ st.opening = none then some tag else st.opening } } }
          let announced : State := offer (.entry s.pos.timeBase tag it.cls s.pos.position) created
          entryLeading s = if cls.required = 0 then announceDecision it .noneRequired announced else announced)) ∧
    (s.trk.entry = .clear → entryTrailing s = s) ∧ (s.trk.entry = .untracked → entryTrailing s = clear) ∧
    ∀ tag lead, s.trk.entry = .measuring tag lead →
      let len : Dist := if ahead s.pos.position lead then s.pos.position - lead else 0
      let measured : State :=
        { clear with
          trk :=
            { clear.trk with
              track := s.trk.track.map fun it => if it.tag = tag then { it with length := some len } else it } }
      (s.trk.params.minLength.toNat ≤ len.toNat → entryTrailing s = measured) ∧
        (len.toNat < s.trk.params.minLength.toNat → entryTrailing s = leave tag .short measured)

/-- R19, R65, R72, R73, R74, R98: what a CHECK station and a LINE source do at a leading edge of their input, whatever else
the edge goes to, other stations and sources on that input included (InputAcceptanceResult): the oldest window still
waiting for an edge takes it, or the edge is STRAY. -/
def Obligations.CheckpointAndSourceEdges : Prop :=
  (∀ (s : State) (k : Fin 8), ItemsOk s →
    let st := s.stn.stations[k]
    (¬Tracks s ∨ st.record.mode = .disabled → checkEdge k s = s) ∧
    (Tracks s → st.record.mode ≠ .disabled → (∀ w ∈ st.windows, w.confirmed = true) →
      checkEdge k s = offer (.stray s.pos.timeBase (.station k) s.pos.position) s) ∧
    (Tracks s → st.record.mode ≠ .disabled → ∀ older w newer, st.windows = older ++ w :: newer →
      (∀ y ∈ older, y.confirmed = true) → w.confirmed = false → (∀ y ∈ older ++ newer, y.tag ≠ w.tag) →
      ∀ it ∈ s.trk.track, it.tag = w.tag →
        let marked : State :=
          { s with
            stn :=
              { s.stn with
                stations :=
                  modAt s.stn.stations k fun st =>
                    { st with windows := older ++ { w with confirmed := true } :: newer } } }
        let confirmed : State := replaceItem (it.record k .confirmed) marked
        let tol : Pos := st.record.tolerance.setWidth 32
        let anchors : Prop :=
          w.mode = .active ∧ st.record.anchor = true ∧ ahead (w.closePos - tol - tol) s.pos.position = false
        (it.snapshot.hasMember k = false → checkEdge k s = marked) ∧
        (it.snapshot.hasMember k = true → ¬anchors → checkEdge k s = confirmed) ∧
        (it.snapshot.hasMember k = true → anchors →
          checkEdge k s = requestCorrection w.tag (s.pos.position - (w.closePos - tol)).toInt confirmed))) ∧
  (∀ (s : State) (v : Fin 4),
    let src := s.vrd.sources[v]
    (¬Tracks s → lineEdge v s = s) ∧
    (Tracks s → (∀ w ∈ src.windows, w.edgeSeen = true) →
      lineEdge v s = offer (.stray s.pos.timeBase (.source v) s.pos.position) s) ∧
    (Tracks s → ∀ older w newer, src.windows = older ++ w :: newer → (∀ y ∈ older, y.edgeSeen = true) →
      w.edgeSeen = false → (∀ y ∈ older ++ newer, y.tag ≠ w.tag) →
      lineEdge v s =
        { s with
          vrd :=
            { s.vrd with
              sources :=
                modAt s.vrd.sources v fun src =>
                  { src with windows := older ++ { w with edgeSeen := true } :: newer } } }))

/-! ## TRK -/

/-- R52, R53: SET_ZONE. -/
def Obligations.SetZoneResult : Prop :=
  ∀ (tag : Byte) (p : List Byte) (s : State), Taken s →
    let refused (st : Status) : Prop := exec (.setZone tag p) s = .next (replied 0x10 tag st s.trk.params.bytes s)
    let fits (z : ZoneParams) : Prop :=
      (∀ i : Fin 8,
        let r := s.stn.stations[i].record
        (r.kind ≠ .none → r.offset.toNat < z.trackEnd.toNat ∧ z.minLength.toNat < r.offset.toNat) ∧
          (r.kind = .eject ∨ r.kind = .mark → z.decisionLead.toNat + z.minLength.toNat < r.offset.toNat) ∧
          (r.kind = .check →
            r.offset.toNat + r.tolerance.toNat < z.trackEnd.toNat ∧
              2 * r.tolerance.toNat + z.minLength.toNat < r.offset.toNat)) ∧
        ∀ (v : Fin 4) (i k : Fin 8) (w : BitVec 16) (a b : Fin 16), s.vrd.sources[v].record = .line i k w a b →
          s.stn.stations[k].record.offset.toNat + w.toNat < z.trackEnd.toNat
    (p = [] → refused .ok) ∧ (p ≠ [] → p.length ≠ 15 → refused .badLength) ∧
    (p.length = 15 → s.zon.zone ≠ .config → refused .wrongState) ∧
    (p.length = 15 → s.zon.zone = .config →
      u16 p 0 = 0 ∨ (u32 p 2).toNat < (u16 p 0).toNat ∨ 1000000 < (u32 p 2).toNat ∨ u32 p 6 = 0 ∨
        4000000 < (u32 p 6).toNat ∨ u16 p 12 = 0 ∨ 16 ≤ (byteAt p 14).toNat →
      refused .badValue) ∧
    ∀ z : ZoneParams, p = z.bytes → ParamsOk z → s.zon.zone = .config →
      (fits z → exec (.setZone tag p) s = .next (replied 0x10 tag .ok p { s with trk := { s.trk with params := z } })) ∧
        (¬fits z → refused .conflict)

/-- R54, R49: READ_ITEM and REMOVE_ITEM. -/
def Obligations.ItemRequestsResult : Prop :=
  ∀ (tag : Byte) (p : List Byte) (s : State), Taken s →
    let read (st : Status) (fields : List Byte) : Prop :=
      exec (.readItem tag p) s = .next (replied 0x11 tag st fields s)
    let refused (st : Status) : Prop := exec (.removeItem tag p) s = .next (replied 0x13 tag st [] s)
    (p.length ≠ 2 → read .badLength [] ∧ refused .badLength) ∧ (p = [0, 0] → read .badValue []) ∧
    (p.length = 2 → ¬Tracks s → refused .wrongState) ∧ (p = [0, 0] → Tracks s → refused .badValue) ∧
    ∀ g : Tag, g ≠ 0 → p = le 2 g →
      (g ∉ tags s → read .unknownItem [] ∧ (Tracks s → refused .unknownItem)) ∧
      (∀ older it newer, s.trk.track = older ++ it :: newer → it.tag = g → (∀ x ∈ older, x.tag ≠ g) →
        read .ok it.bytes) ∧
      (g ∈ tags s → Tracks s →
        exec (.removeItem tag p) s = .next (replied 0x13 tag .ok (p ++ le 4 s.pos.position) (leave g .removed s)))

/-- R46, R47, R80, R42, R51, R48: an item leaves the track; a flush takes every item out, oldest first; a retirement first
decides an undecided item AT_EXIT. -/
def Obligations.LeavingRule : Prop :=
  (∀ s : State, ItemsOk s →
    (∀ (older newer : List Item) (it : Item) (reason : ExitReason), s.trk.track = older ++ it :: newer →
      let moved (c : Option Tag) : Option Tag := if c = some it.tag then newer.head?.map Item.tag else c
      leave it.tag reason s =
        offer (.itemDone s.pos.timeBase s.pos.position { it with exit := reason })
          { s with
            trk :=
              { s.trk with
                track := older ++ newer
                entry :=
                  match s.trk.entry with
                  | .clear => .clear
                  | .untracked => .untracked
                  | .measuring g lead => if g = it.tag then .untracked else .measuring g lead }
            stn :=
              { s.stn with
                stations :=
                  mapAll s.stn.stations fun _ st =>
                    { st with
                      cursor := moved st.cursor, opening := moved st.opening
                      windows := st.windows.filter fun w => w.tag ≠ it.tag } }
            vrd :=
              { s.vrd with
                sources :=
                  mapAll s.vrd.sources fun _ src =>
                    { src with windows := src.windows.filter fun w => w.tag ≠ it.tag } } }) ∧
    (∀ (g : Tag) (reason : ExitReason), g ∉ tags s → leave g reason s = s) ∧
    flush s = s.trk.track.foldl (fun t it => leave it.tag .flushed t) s ∧ (flush s).trk.track = [] ∧
    (flush s).lnk =
      (s.trk.track.foldl
        (fun t it => offer (.itemDone s.pos.timeBase s.pos.position { it with exit := .flushed }) t) s).lnk) ∧
  (∀ (s : State) (it : Item), it ∈ s.trk.track → ItemsOk s →
    handleReach (.retirement it.tag) s =
      leave it.tag .endOfTrack
        (announceDecision it .atExit (replaceItem (decidedItem it .atExit s.pos.timeBase) s)))

/-- R43, R44, R45: a correction of an item between its neighbours is applied, one that is not is refused; a correction
that makes nothing reached does no more. R45, R79, R91: what an applied correction has made reached is settled: the
deadline, then the stations in ascending order, each at once and late, then the retirement. -/
def Obligations.CorrectionRule : Prop :=
  (∀ (s : State) (g : Tag) (c : Int), ItemsOk s →
      (g ∉ tags s → requestCorrection g c s = s) ∧
      ∀ (older newer : List Item) (it : Item), s.trk.track = older ++ it :: newer → it.tag = g →
        let e : Pos := it.entryPos + BitVec.ofInt 32 c
        let allowed : Prop :=
          (∀ x, older.getLast? = some x → ahead e x.entryPos = true) ∧
            ∀ x, newer.head? = some x → ahead x.entryPos e = true
        let moved : Item :=
          { it with
            entryPos := e, correction := it.correction + c
            deadline := it.deadline.map fun d => d + BitVec.ofInt 32 c
            flags := { it.flags with anchored := true } }
        (¬allowed →
          requestCorrection g c s = replaceItem { it with flags := { it.flags with anchorRefused := true } } s) ∧
        (allowed → requestCorrection g c s = settleCorrection g (replaceItem moved s)) ∧
        (allowed → (∀ d, moved.deadline = some d → ahead d s.pos.position = true) →
          (∀ k : Fin 8, s.stn.stations[k].cursor = some g →
            ahead (e + s.stn.stations[k].record.offset) s.pos.position = true) →
          (∀ k : Fin 8, s.stn.stations[k].opening = some g →
            ahead (e + s.stn.stations[k].record.offset - s.stn.stations[k].record.tolerance.setWidth 32)
              s.pos.position = true) →
          ahead (e + s.trk.params.trackEnd) s.pos.position = true →
          requestCorrection g c s = replaceItem moved s)) ∧
  (∀ (s : State) (g : Tag),
    settleCorrection g s =
      settleRetirement g ((List.finRange 8).foldl (fun t i => settleStation g t i) (settleDeadline g s))) ∧
  (∀ (s : State) (g : Tag), g ∉ tags s →
    settleDeadline g s = s ∧ settleRetirement g s = s ∧ ∀ i : Fin 8, settleStation g s i = s) ∧
  (∀ (s : State) (it : Item), ItemsOk s → it ∈ s.trk.track →
    let due (p : Pos) : Prop := ahead p s.pos.position = false
    ((∃ d, it.deadline = some d ∧ due d) → settleDeadline it.tag s = takeDeadline it.tag s) ∧
    ((∀ d, it.deadline = some d → ¬due d) → settleDeadline it.tag s = s) ∧
    (due (it.entryPos + s.trk.params.trackEnd) →
      settleRetirement it.tag s = handleReach (.retirement it.tag) s) ∧
    (¬due (it.entryPos + s.trk.params.trackEnd) → settleRetirement it.tag s = s) ∧
    ∀ i : Fin 8,
      let st := s.stn.stations[i]
      let fires : Prop := st.record.kind = .eject ∨ st.record.kind = .mark ∨ st.record.kind = .trigger
      (fires → st.cursor = some it.tag → due (it.entryPos + st.record.offset) →
        settleStation it.tag s i = processStation i true s) ∧
      (fires → ¬(st.cursor = some it.tag ∧ due (it.entryPos + st.record.offset)) → settleStation it.tag s i = s) ∧
      (st.record.kind = .check → OpeningDue i it s →
        Many (OpensLate i) s (settleStation it.tag s i) ∧
          ∀ jt, ¬OpeningDue i jt (settleStation it.tag s i)) ∧
      (st.record.kind = .check → ¬OpeningDue i it s → settleStation it.tag s i = s) ∧
      (st.record.kind = .none → settleStation it.tag s i = s))

/-- R7, R8, R104: a forward count that reaches no target does no more than count; one that reaches one target, and in
whose handling no other comes to be reached, does what the target's owner does; one that reaches several has them acted on
one after another, in an order the spec leaves open (log 11), until none is left. ReachedTargets says which targets stand
reached and what their owners do. -/
def Obligations.ForwardCountReaches : Prop :=
  ∀ (s : State) (ca cb : Bool),
    let a := if ca then s.pos.chanA.raw else s.pos.chanA.accepted
    let b := if cb then s.pos.chanB.raw else s.pos.chanB.accepted
    a ≠ s.pos.chanA.accepted ∨ b ≠ s.pos.chanB.accepted → s.pos.enable = true →
    (rawCount s.pos.mode s.pos.refA s.pos.refB a b).signed s.pos.invert = .up →
    let s1 : State :=
      { s with
        pos :=
          { s.pos with
            chanA := { s.pos.chanA with accepted := a }, chanB := { s.pos.chanB with accepted := b }
            refA := a, refB := b, position := s.pos.position + 1
            highWater :=
              if ahead (s.pos.position + 1) s.pos.highWater then s.pos.position + 1 else s.pos.highWater } }
    (reached s1 = [] → exec (.encoderAcceptance ca cb) s = .next s1) ∧
      (∀ r, reached s1 = [r] → reached (handleReach r s1) = [] →
        exec (.encoderAcceptance ca cb) s = .next (handleReach r s1)) ∧
      (ItemsOk s → ∃ t, exec (.encoderAcceptance ca cb) s = .next t ∧ Many ActsOnReach s1 t ∧ reached t = [])

/-- R8, R41, R48, R64, R70, R71, R75, R90, R96, R99, R153, R157: which targets stand reached at the track position, of
every kind, and what the owner of each does. Items are acted on in TRACKING, HOLD and FAULT only (R65, R90, R99, R48); in
ESTOP every reach is ignored. Within a CHECK station the opening comes before the closes, and closes come in list order.
StationProcessing, CheckpointWindowRules, SlotsAndDecisions, LineWindowRules, LeavingRule and TeachRules say what the
functions named here do. -/
def Obligations.ReachedTargets : Prop :=
  (∀ s : State, ItemsOk s →
    let here := s.pos.position
    let opens (i : Fin 8) : Prop :=
      ∃ it ∈ s.trk.track, s.stn.stations[i].opening = some it.tag ∧
        it.entryPos + s.stn.stations[i].record.offset - s.stn.stations[i].record.tolerance.setWidth 32 = here
    (Tracks s →
      (Reach.overlength ∈ reached s ↔
        ∃ lead, ∃ it ∈ s.trk.track, s.trk.entry = .measuring it.tag lead ∧ lead + s.trk.params.maxLength = here ∧
          it.flags.overlength = false) ∧
      (∀ i : Fin 8, Reach.fire i ∈ reached s ↔
        s.stn.stations[i].record.kind ≠ .none ∧ s.stn.stations[i].record.kind ≠ .check ∧
          ∃ it ∈ s.trk.track, s.stn.stations[i].cursor = some it.tag ∧
            it.entryPos + s.stn.stations[i].record.offset = here) ∧
      (∀ i : Fin 8, Reach.opening i ∈ reached s ↔ s.stn.stations[i].record.kind = .check ∧ opens i) ∧
      (∀ (i : Fin 8) (g : Tag), Reach.closing i g ∈ reached s ↔
        s.stn.stations[i].record.kind = .check ∧ ¬opens i ∧
          ∃ older w newer, s.stn.stations[i].windows = older ++ w :: newer ∧ (∀ y ∈ older, y.closePos ≠ here) ∧
            w.closePos = here ∧ w.tag = g) ∧
      (∀ g : Tag, Reach.deadline g ∈ reached s ↔
        ∃ it ∈ s.trk.track, it.tag = g ∧ it.deadline = some here ∧ it.decision = none) ∧
      (∀ (v : Fin 4) (g : Tag), Reach.lineClose v g ∈ reached s ↔
        ∃ older w newer, s.vrd.sources[v].windows = older ++ w :: newer ∧ (∀ y ∈ older, y.closePos ≠ here) ∧
          w.closePos = here ∧ w.tag = g) ∧
      (∀ g : Tag, Reach.retirement g ∈ reached s ↔
        ∃ it ∈ s.trk.track, it.tag = g ∧ it.entryPos + s.trk.params.trackEnd = here) ∧
      Reach.teachSpan ∉ reached s) ∧
    (¬Tracks s → ∀ r, r ∈ reached s ↔ r = .teachSpan ∧ ∃ run start, s.tch.state = .waitTarget run start here) ∧
    (ZoneInv s → s.zon.zone = .estop → reached s = [])) ∧
  (∀ (s : State) (i : Fin 8) (v : Fin 4) (g : Tag),
    handleReach .teachSpan s = teachSpanReach s ∧ handleReach (.fire i) s = processStation i false s ∧
      handleReach (.closing i g) s = closeWindow i g s ∧ handleReach (.deadline g) s = takeDeadline g s ∧
      handleReach (.lineClose v g) s = closeLineWindow v g s ∧
      (ItemsOk s →
        Many (OpensLate i) (openOne i s) (handleReach (.opening i) s) ∧
          ∀ it, ¬OpeningDue i it (handleReach (.opening i) s))) ∧
  (∀ (s : State) (g : Tag) (lead : Pos) (it : Item), s.trk.entry = .measuring g lead → it ∈ s.trk.track →
    it.tag = g → ItemsOk s →
    handleReach .overlength s =
      faultCause .entryBlocked (replaceItem { it with flags := { it.flags with overlength := true } } s))

/-- R55: DUMP_TRACK. -/
def Obligations.DumpTrackResult : Prop :=
  ∀ (tag : Byte) (p : List Byte) (s : State), Taken s →
    (p ≠ [] → exec (.dumpTrack tag p) s = .next (replied 0x12 tag .badLength [] s)) ∧
    (p = [] → s.lnk.dump ≠ none → exec (.dumpTrack tag p) s = .next (replied 0x12 tag .busy [] s)) ∧
    (p = [] → s.lnk.dump = none →
      exec (.dumpTrack tag p) s =
        .next
          { s with
            trk := { s.trk with snapshot := ⟨s.trk.track, s.pos.position, s.pos.timeBase⟩ }
            lnk :=
              { s.lnk with
                dump := some ⟨tag, 0, false⟩
                replies :=
                  s.lnk.replies ++
                    [⟨⟨0x92, tag,
                        Status.ok.code :: BitVec.ofNat 8 s.trk.track.length :: le 4 s.pos.position
                          ++ le 6 s.pos.timeBase⟩, .dumpReply⟩] } })

/-! ## STN -/

/-- R57, R58: the value check of a station record as a payload carries it, and station validation. -/
def Obligations.StationChecks : Prop :=
  (∀ (p : List Byte) (i : Nat),
    let b (k : Nat) : Nat := (byteAt p (i + k)).toNat
    let offset := (u32 p (i + 4)).toNat
    let pulse := (u16 p (i + 8)).toNat
    let tolerance := (u16 p (i + 12)).toNat
    stationOfBytes p i = none ↔
      7 < b 0 ∨ 4 < b 1 ∨ 2 < b 2 ∨
        (b 1 = 0 ∧
          (b 2 ≠ 0 ∨ b 3 ≠ 255 ∨ offset ≠ 0 ∨ pulse ≠ 0 ∨ b 10 ≠ 0 ∨ b 11 ≠ 0 ∨ tolerance ≠ 0 ∨ b 14 ≠ 0 ∨
            b 15 ≠ 0)) ∨
        ((b 1 = 1 ∨ b 1 = 2 ∨ b 1 = 3) ∧
          (offset = 0 ∨ 4000000 < offset ∨ 7 < b 3 ∨ pulse < 50 ∨ b 11 ≠ 0 ∨ tolerance ≠ 0 ∨ b 14 ≠ 0 ∨ b 15 ≠ 0)) ∨
        ((b 1 = 1 ∨ b 1 = 2) ∧ b 10 ≠ 2 ∧ b 10 ≠ 3) ∨ (b 1 = 3 ∧ b 10 ≠ 0) ∨
        (b 1 = 4 ∧
          (offset = 0 ∨ 4000000 < offset ∨ b 3 ≠ 255 ∨ pulse ≠ 0 ∨ b 10 ≠ 0 ∨ 7 < b 11 ∨ 2 < b 14 ∨ 1 < b 15))) ∧
  (∀ (s : State) (i : Fin 8) (r : StationRec),
    let offset := r.offset.toNat
    let tolerance := r.tolerance.toNat
    let z := s.trk.params
    stationValid s i r = true ↔
      (r.kind ≠ .none → offset < z.trackEnd.toNat ∧ z.minLength.toNat < offset) ∧
        (r.kind = .eject ∨ r.kind = .mark → z.decisionLead.toNat + z.minLength.toNat < offset) ∧
        (r.kind = .check →
          offset + tolerance < z.trackEnd.toNat ∧ 2 * tolerance + z.minLength.toNat < offset ∧
            s.inp.inputs[r.sense].role = .check) ∧
        ∀ (v : Fin 4) (input : Fin 8) (w : BitVec 16) (a b : Fin 16),
          s.vrd.sources[v].record = .line input i w a b →
            r.kind = .trigger ∧ offset + w.toNat < z.trackEnd.toNat)

/-- R59, R60, R61: LOAD_STATIONS. The records of a full form are applied one at a time up to the first that fails; `st k`
is the state once `k` of them have been applied. The fields of a WRONG_STATE reply are log 18's. -/
def Obligations.LoadStationsResult : Prop :=
  ∀ (tag : Byte) (p : List Byte) (s : State), Taken s →
    let inForce (b : Byte) (s : State) : List Byte :=
      match asFin 8 b with
      | none => b :: List.replicate 15 0
      | some i => stationBytes (idxByte i) s.stn.stations[i].record
    let records (n : Nat) (s : State) : List Byte := (List.range n).flatMap fun k => inForce (byteAt p (16 * k)) s
    let query (st : Status) : Prop :=
      exec (.loadStations tag p) s = .next (replied 0x14 tag st (inForce (byteAt p 0) s) s)
    (∀ i : Fin 8, p = [idxByte i] → query .ok) ∧ (∀ b, p = [b] → 8 ≤ b.toNat → query .badValue) ∧
    (p.length ≠ 1 → (∀ n, p.length = 16 * n → n = 0 ∨ 8 < n) → query .badLength) ∧
    ∀ n, p.length = 16 * n → 1 ≤ n → n ≤ 8 →
      (s.zon.zone ≠ .config →
        exec (.loadStations tag p) s = .next (replied 0x14 tag .wrongState ([0, 0, 0, 0] ++ records n s) s)) ∧
      (s.zon.zone = .config → ∀ (m : Nat) (st : Nat → State), m ≤ n → st 0 = s →
        (∀ k < m, ∃ i r, stationOfBytes p (16 * k) = some (i, r) ∧ stationValid (st k) i r = true ∧
          st (k + 1) =
            { st k with stn := { stations := modAt (st k).stn.stations i fun _ => ⟨r, none, none, []⟩ } }) →
        (m = n →
          exec (.loadStations tag p) s =
            .next (replied 0x14 tag .ok ([BitVec.ofNat 8 n, 0, 0, 0] ++ records n (st n)) (st n))) ∧
        (m < n → ∀ bad : Status,
          (bad = .badValue ∧ stationOfBytes p (16 * m) = none) ∨
            (bad = .conflict ∧ ∃ i r, stationOfBytes p (16 * m) = some (i, r) ∧ stationValid (st m) i r = false) →
          exec (.loadStations tag p) s =
            .next
              (replied 0x14 tag (if m = 0 then bad else .partly)
                ([BitVec.ofNat 8 m, 1, BitVec.ofNat 8 m, bad.code] ++ records n (st m)) (st m))))

/-- R62, R77, R78: SET_STATION_MODE, with what a change to DISABLED does to the windows of a CHECK station; R63, R70:
READ_STATION. That refused replies carry no fields is log 17's reading. -/
def Obligations.StationRequests : Prop :=
  (∀ (tag : Byte) (p : List Byte) (s : State), Taken s →
    let refused (st : Status) : Prop := exec (.setStationMode tag p) s = .next (replied 0x15 tag st [] s)
    (p.length ≠ 2 → refused .badLength) ∧
    (∀ a b, p = [a, b] → 8 ≤ a.toNat ∨ 3 ≤ b.toNat → refused .badValue) ∧
    ∀ (i : Fin 8) (m : StationMode), p = [idxByte i, m.code] →
      let st := s.stn.stations[i]
      let answers (t : State) : Prop :=
        exec (.setStationMode tag p) s = .next (replied 0x15 tag .ok [idxByte i, st.record.kind.code, m.code] t)
      let set (windows : List CheckWindow) : State :=
        { s with
          stn :=
            { s.stn with
              stations :=
                modAt s.stn.stations i fun st =>
                  { st with record := { st.record with mode := m }, windows := windows } } }
      let closes : Prop := st.record.kind = .check ∧ st.record.mode ≠ .disabled ∧ m = .disabled ∧ Tracks s
      (m ≠ .disabled ∧ st.record.kind = .none → refused .conflict) ∧
      (¬(m ≠ .disabled ∧ st.record.kind = .none) → ¬closes → answers (set st.windows)) ∧
      (closes →
        answers
          { set [] with
            trk :=
              { s.trk with
                track :=
                  s.trk.track.map fun it =>
                    match st.windows.find? fun w => w.tag = it.tag with
                    | none => it
                    | some w =>
                      if it.snapshot.hasMember i then it.record i (if w.confirmed then .confirmed else .disabled)
                      else it } })) ∧
  (∀ (tag : Byte) (p : List Byte) (s : State), Taken s →
    (p.length ≠ 1 → exec (.readStation tag p) s = .next (replied 0x16 tag .badLength [] s)) ∧
    (∀ b, p = [b] → 8 ≤ b.toNat → exec (.readStation tag p) s = .next (replied 0x16 tag .badValue [] s)) ∧
    ∀ i : Fin 8, p = [idxByte i] →
      let st := s.stn.stations[i]
      let present (t : Option Tag) : List Byte := match t with | none => [0, 0, 0] | some g => 1 :: le 2 g
      let cursor : Option Tag :=
        if st.record.kind = .check then (match st.windows.head? with | some w => some w.tag | none => st.opening)
        else st.cursor
      exec (.readStation tag p) s =
        .next
          (replied 0x16 tag .ok
            (stationBytes (idxByte i) st.record ++ present cursor ++ present st.opening
              ++ BitVec.ofNat 8 st.windows.length
              :: (st.windows.take 28).flatMap fun w =>
                le 2 w.tag ++ le 4 w.closePos ++ [flagByte w.confirmed, w.mode.code]) s))

/-- R66, R67, R68, R69: the processing of a cursor item at an EJECT, MARK or TRIGGER station, `late` or not. -/
def Obligations.StationProcessing : Prop :=
  ∀ (s : State) (i : Fin 8) (late : Bool) (older newer : List Item) (it0 : Item), ItemsOk s →
    s.trk.track = older ++ it0 :: newer →
    let r := s.stn.stations[i].record
    let sorts : Prop := r.kind = .eject ∨ r.kind = .mark
    s.stn.stations[i].cursor = some it0.tag → sorts ∨ r.kind = .trigger →
    let advanced (t : State) : State :=
      { t with
        stn :=
          { t.stn with
            stations := modAt t.stn.stations i fun st => { st with cursor := newer.head?.map Item.tag } } }
    (it0.snapshot.hasMember i = false → processStation i late s = advanced s) ∧
    (it0.snapshot.hasMember i = true → sorts → it0.decision = none → ∀ s1, takeDeadline it0.tag s = s1 →
      processStation i late s = processStation i late s1) ∧
    (it0.snapshot.hasMember i = true → ¬(sorts ∧ it0.decision = none) →
      let recorded (o : StationOutcome) (t : State) : State := replaceItem (it0.record i o) t
      let target : Prop := r.kind = .trigger ∨ it0.decision.map Decision.disposition = r.target
      let held : Prop := s.zon.zone = .fault ∨ (s.zon.zone = .hold ∧ s.zon.holdPolicy = .safe)
      (r.mode = .disabled → processStation i late s = advanced (recorded .disabled s)) ∧
      (r.mode ≠ .disabled → ¬target → processStation i late s = advanced (recorded .notTarget s)) ∧
      (r.mode = .observe → target → processStation i late s = advanced (recorded .wouldFire s)) ∧
      (r.mode = .active → target → held →
        processStation i late s =
          advanced
            (replaceItem
              { it0.record i .suppressed with flags := { it0.flags with unserved := true } } s)) ∧
      (r.mode = .active → target → ¬held → ∀ o, r.output = some o →
        let claim := s.out.outputs[o].claim r.pulse (.station i it0.tag) s.pos.timeBase
        let claimed : State := { s with out := { s.out with outputs := modAt s.out.outputs o fun _ => claim.1 } }
        (∀ reason, claim.2 = some reason →
          processStation i late s =
            advanced (offer (.fireRefused s.pos.timeBase i it0.tag o reason) (recorded .refused claimed))) ∧
        (claim.2 = none → sorts →
          processStation i late s = advanced (recorded (if late then .firedLate else .fired) claimed)) ∧
        (claim.2 = none → r.kind = .trigger →
          processStation i late s =
            advanced
              (openLineWindows i it0.tag (it0.entryPos + r.offset)
                (recorded (if late then .firedLate else .fired) claimed)))))

/-- R71, R75, R76: a CHECK station handles an opening, and closes a window. -/
def Obligations.CheckpointWindowRules : Prop :=
  ∀ (s : State) (i : Fin 8) (older newer : List Item) (it : Item), ItemsOk s → s.trk.track = older ++ it :: newer →
    let st := s.stn.stations[i]
    let r := st.record
    let tol : Pos := r.tolerance.setWidth 32
    let change (f : Station → Station) (t : State) : State :=
      { t with stn := { t.stn with stations := modAt t.stn.stations i f } }
    (st.opening = some it.tag →
      let moved (st : Station) : Station := { st with opening := newer.head?.map Item.tag }
      (r.mode = .disabled → it.snapshot.hasMember i = true →
        openOne i s = change moved (replaceItem (it.record i .disabled) s)) ∧
      (r.mode = .disabled → it.snapshot.hasMember i = false → openOne i s = change moved s) ∧
      (r.mode ≠ .disabled →
        openOne i s =
          change
            (fun st =>
              moved { st with windows := st.windows ++ [⟨it.tag, it.entryPos + r.offset + tol, false, r.mode⟩] })
            s)) ∧
    ∀ w ∈ st.windows, w.tag = it.tag → (∀ x ∈ st.windows, x.tag = it.tag → x = w) →
      let closed : State := change (fun st => { st with windows := st.windows.filter fun x => x.tag ≠ it.tag }) s
      let awaited : Prop := it.snapshot.hasMember i = true ∧ it.outcomeAt i = some .pending
      let missed : State :=
        offer (.missing s.pos.timeBase i it.tag (w.closePos - tol) w.mode)
          (replaceItem { it.record i .missed with flags := { it.flags with missing := true } } closed)
      (¬awaited → closeWindow i it.tag s = closed) ∧
      (awaited → w.confirmed = true → closeWindow i it.tag s = replaceItem (it.record i .confirmed) closed) ∧
      (awaited → w.confirmed = false → w.mode ≠ .active ∨ r.policy = .note → closeWindow i it.tag s = missed) ∧
      (awaited → w.confirmed = false → w.mode = .active → r.policy = .drop →
        closeWindow i it.tag s = leave it.tag .dropped missed) ∧
      (awaited → w.confirmed = false → w.mode = .active → r.policy = .fault →
        closeWindow i it.tag s = faultCause .missing missed)

/-! ## VRD -/

/-- R84: LOAD_CLASS, in every zone state. -/
def Obligations.LoadClassResult : Prop :=
  ∀ (tag : Byte) (p : List Byte) (s : State), Taken s →
    let refused (st : Status) : Prop :=
      (∀ i : Fin 16, byteAt p 0 = idxByte i →
        exec (.loadClass tag p) s = .next (replied 0x18 tag st (classBytes (idxByte i) s.vrd.classes[i]) s)) ∧
      (16 ≤ (byteAt p 0).toNat →
        exec (.loadClass tag p) s = .next (replied 0x18 tag st (byteAt p 0 :: List.replicate 7 0) s))
    (p.length = 1 → (byteAt p 0).toNat < 16 → refused .ok) ∧
    (p.length = 1 → 16 ≤ (byteAt p 0).toNat → refused .badValue) ∧
    (p.length ≠ 1 → p.length ≠ 8 → refused .badLength) ∧
    (p.length = 8 →
      16 ≤ (byteAt p 0).toNat ∨ 16 ≤ (byteAt p 2).toNat ∨ byteAt p 3 = 0 ∨ 4 ≤ (byteAt p 3).toNat ∨
        (∃ k : Fin 16, (u32 p 4).toNat / 4 ^ k.val % 4 = 0) →
      refused .badValue) ∧
    ∀ (i : Fin 16) (c : ClassRec), p = classBytes (idxByte i) c →
      exec (.loadClass tag p) s =
        .next
          (replied 0x18 tag .ok p
            { s with vrd := { s.vrd with classes := modAt s.vrd.classes i fun _ => c } })

/-- R86: SET_SOURCE. -/
def Obligations.SetSourceResult : Prop :=
  ∀ (tag : Byte) (p : List Byte) (s : State), Taken s →
    let refused (st : Status) : Prop :=
      (∀ v : Fin 4, byteAt p 0 = idxByte v →
        exec (.setSource tag p) s = .next (replied 0x19 tag st (sourceBytes (idxByte v) s.vrd.sources[v].record) s)) ∧
      (4 ≤ (byteAt p 0).toNat →
        exec (.setSource tag p) s = .next (replied 0x19 tag st (byteAt p 0 :: List.replicate 7 0) s))
    (p.length = 1 → (byteAt p 0).toNat < 4 → refused .ok) ∧
    (p.length = 1 → 4 ≤ (byteAt p 0).toNat → refused .badValue) ∧
    (p.length ≠ 1 → p.length ≠ 8 → refused .badLength) ∧
    (p.length = 8 → s.zon.zone ≠ .config → refused .wrongState) ∧
    (∀ a b c d e f g h, p = [a, b, c, d, e, f, g, h] → s.zon.zone = .config →
      4 ≤ a.toNat ∨ 2 ≤ b.toNat ∨ (b = 0 ∧ ¬(c = 0 ∧ d = 0 ∧ e = 0 ∧ f = 0 ∧ g = 0 ∧ h = 0)) ∨
        (b = 1 ∧ (8 ≤ c.toNat ∨ 8 ≤ d.toNat ∨ (e = 0 ∧ f = 0) ∨ 16 ≤ g.toNat ∨ 16 ≤ h.toNat)) →
      refused .badValue) ∧
    ∀ (v : Fin 4) (r : SourceRec), p = sourceBytes (idxByte v) r → s.zon.zone = .config →
      (∀ i k w a b, r = .line i k w a b → w ≠ 0) →
      let valid : Prop := ∀ i k w a b, r = .line i k w a b →
        s.inp.inputs[i].role = .verdict ∧ s.stn.stations[k].record.kind = .trigger ∧
          s.stn.stations[k].record.offset.toNat + w.toNat < s.trk.params.trackEnd.toNat
      (valid →
        exec (.setSource tag p) s =
          .next
            (replied 0x19 tag .ok p
              { s with
                vrd := { s.vrd with sources := modAt s.vrd.sources v fun src => { src with record := r } } })) ∧
      (¬valid → refused .conflict)

/-- R92, R93, R94: VERDICT. The tag and source of a bad-length request are read by position, 0 beyond its end
(log 19). -/
def Obligations.VerdictResult : Prop :=
  ∀ (tag : Byte) (p : List Byte) (s : State), Taken s → ItemsOk s →
    let g := u16 p 0
    let reply (st : Status) (slot : List Byte) (d : Option Decision) (t : State) : Prop :=
      exec (.verdict tag p) s =
        .next
          (replied 0x1A tag st
            (le 2 g ++ [byteAt p 2] ++ slot
              ++ [(d.map fun d => d.disposition.code).getD 0, (d.map fun d => d.reason.code).getD 0]) t)
    let refused (st : Status) : Prop := reply st [0, 0] none s
    (p.length ≠ 4 → refused .badLength) ∧ (p.length = 4 → ¬Tracks s → refused .wrongState) ∧
    (p.length = 4 → Tracks s → g = 0 ∨ 4 ≤ (byteAt p 2).toNat ∨ 16 ≤ (byteAt p 3).toNat → refused .badValue) ∧
    ∀ (v : Fin 4) (code : Fin 16), p = le 2 g ++ [idxByte v, idxByte code] → g ≠ 0 → Tracks s →
      (s.vrd.sources[v].record ≠ .message → refused .conflict) ∧
      (s.vrd.sources[v].record = .message → g ∉ tags s → refused .unknownItem) ∧
      ∀ it ∈ s.trk.track, it.tag = g → s.vrd.sources[v].record = .message →
        let filled : Item := it.fillSlot v code
        (it.snapshot.requires v = false → refused .notRequired) ∧
        (it.snapshot.requires v = true →
          (∀ c, it.slotAt v = some (.set c) → reply .alreadySet [1, idxByte c] it.decision s) ∧
          (∀ c, it.slotAt v = some (.late c) → reply .alreadySet [2, idxByte c] it.decision s) ∧
          (it.slotAt v = some .timedOut →
            reply .late [2, idxByte code] it.decision (replaceItem filled s)) ∧
          (it.slotAt v = some .pending → filled.allSet = false →
            reply .ok [1, idxByte code] it.decision (replaceItem filled s)) ∧
          (it.slotAt v = some .pending → filled.allSet = true →
            reply .ok [1, idxByte code] (decidedItem filled .complete s.pos.timeBase).decision
              (announceDecision filled .complete
                (replaceItem (decidedItem filled .complete s.pos.timeBase) s))))

/-- R87, R93, R94: a code that arrives at a slot: PENDING becomes SET, TIMED_OUT becomes LATE and flags the item, a slot
that holds a code keeps it. R88, R89, R90: the combination of every decision reason, the most severe of the dispositions
it names; the decision of an undecided item; the deadline, which times every PENDING slot out first. R38: the deadline
position. -/
def Obligations.SlotsAndDecisions : Prop :=
  (∀ (it : Item) (v : Fin 4) (code : Fin 16),
    let filled := it.fillSlot v code
    filled.slots =
        it.slots.map (fun sl =>
          if sl.source = v ∧ sl.state = .pending then ⟨v, .set code⟩
          else if sl.source = v ∧ sl.state = .timedOut then ⟨v, .late code⟩
          else sl) ∧
      filled = { it with slots := filled.slots, flags := filled.flags } ∧
      filled.flags = { it.flags with lateVerdict := it.flags.lateVerdict || it.slotAt v = some .timedOut } ∧
      (filled.allSet = true ↔ ∀ sl ∈ filled.slots, ∃ c, sl.state = .set c)) ∧
  ((∀ (it : Item) (r : Reason),
    let mapped (d : Disposition) : Prop := ∃ sl ∈ it.slots, ∃ c, sl.state = .set c ∧ it.snapshot.codeMap[c] = d
    let among (d : Disposition) : Prop :=
      match r with
      | .complete => mapped d
      | .deadline => mapped d ∨ it.snapshot.fallback = d
      | .noneRequired => it.snapshot.fallback = d
      | .atExit => mapped d ∨ it.snapshot.fallback = d
    (among .reject → it.combine r = .reject) ∧ (¬among .reject → among .rework → it.combine r = .rework) ∧
      (¬among .reject → ¬among .rework → it.combine r = .accept)) ∧
  (∀ (s : State) (it : Item) (r : Reason), it ∈ s.trk.track → ItemsOk s →
    decideItem it.tag r s = announceDecision it r (replaceItem (decidedItem it r s.pos.timeBase) s)) ∧
  ∀ (s : State) (it : Item), it ∈ s.trk.track → ItemsOk s →
    let timedOut : Item :=
      { it with slots := it.slots.map fun sl => if sl.state = .pending then { sl with state := .timedOut } else sl }
    (it.decision = none →
      takeDeadline it.tag s =
        announceDecision timedOut .deadline (replaceItem (decidedItem timedOut .deadline s.pos.timeBase) s)) ∧
      (it.decision ≠ none → takeDeadline it.tag s = s)) ∧
  (∀ (s : State) (e : Pos) (c : ClassRec),
    let sorts (i : Fin 8) : Prop :=
      c.hasMember i = true ∧ (s.stn.stations[i].record.kind = .eject ∨ s.stn.stations[i].record.kind = .mark)
    ((∀ i, ¬sorts i) → deadlineOf s e c = none) ∧
      ∀ i, sorts i → (∀ j, sorts j → s.stn.stations[i].record.offset.toNat ≤ s.stn.stations[j].record.offset.toNat) →
        deadlineOf s e c =
          some (e + s.stn.stations[i].record.offset - s.trk.params.decisionLead.setWidth 32))

/-- R97, R99: a LINE source opens a window for an item its trigger station has fired for, and closes it with the
result. -/
def Obligations.LineWindowRules : Prop :=
  ∀ (s : State) (v : Fin 4) (input k : Fin 8) (len : BitVec 16) (pulse noPulse : Fin 16) (it : Item), ItemsOk s →
    it ∈ s.trk.track → s.vrd.sources[v].record = .line input k len pulse noPulse →
    let change (f : List LineWindow → List LineWindow) (t : State) : State :=
      { t with
        vrd :=
          { t.vrd with
            sources := modAt t.vrd.sources v fun src => { src with windows := f src.windows } } }
    (∀ (i : Fin 8) (fire : Pos),
      let closePos := fire + len.setWidth 32
      let opened : State := change (fun ws => ws ++ [⟨it.tag, closePos, false⟩]) s
      (¬(k = i ∧ it.snapshot.requires v = true) → openLineWindow i it.tag fire s v = s) ∧
      (k = i → it.snapshot.requires v = true → ahead closePos s.pos.position = true →
        openLineWindow i it.tag fire s v = opened) ∧
      (k = i → it.snapshot.requires v = true → ahead closePos s.pos.position = false →
        openLineWindow i it.tag fire s v = closeLineWindow v it.tag opened)) ∧
    ∀ w ∈ s.vrd.sources[v].windows, w.tag = it.tag →
      (∀ x ∈ s.vrd.sources[v].windows, x.tag = it.tag → x = w) →
      let closed : State := change (fun ws => ws.filter fun x => x.tag ≠ it.tag) s
      let filled : Item := it.fillSlot v (if w.edgeSeen then pulse else noPulse)
      (it.slotAt v = some .timedOut → closeLineWindow v it.tag s = replaceItem filled closed) ∧
      (it.slotAt v = some .pending → filled.allSet = false → closeLineWindow v it.tag s = replaceItem filled closed) ∧
      (it.slotAt v = some .pending → filled.allSet = true →
        closeLineWindow v it.tag s =
          announceDecision filled .complete (replaceItem (decidedItem filled .complete s.pos.timeBase) closed))

/-- R100 to R103, R80: CLASSIFY. The tag and class of a bad-length request are read by position, 0 beyond its end
(log 19). -/
def Obligations.ClassifyResult : Prop :=
  ∀ (tag : Byte) (p : List Byte) (s : State), Taken s → ItemsOk s →
    let g := u16 p 0
    let reply (st : Status) (item : List Byte) (t : State) : Prop :=
      exec (.classify tag p) s = .next (replied 0x1B tag st (le 2 g ++ [byteAt p 2] ++ item) t)
    let refused (st : Status) : Prop := reply st [0, 0, 0] s
    let fields (it : Item) : List Byte :=
      [idxByte it.cls, (it.decision.map fun d => d.disposition.code).getD 0,
        (it.decision.map fun d => d.reason.code).getD 0]
    (p.length ≠ 3 → refused .badLength) ∧ (p.length = 3 → ¬Tracks s → refused .wrongState) ∧
    (p.length = 3 → Tracks s → g = 0 ∨ 16 ≤ (byteAt p 2).toNat → refused .badValue) ∧
    ∀ cls : Fin 16, p = le 2 g ++ [idxByte cls] → g ≠ 0 → Tracks s →
      (g ∉ tags s → refused .unknownItem) ∧
      ∀ older it newer, s.trk.track = older ++ it :: newer → it.tag = g →
        let c := s.vrd.classes[cls]
        let it1 : Item :=
          { it with
            cls := cls, snapshot := c
            slots :=
              ((List.finRange 4).filter fun v => c.requires v).map fun v => ⟨v, (it.slotAt v).getD .pending⟩
            outcomes :=
              ((List.finRange 8).filter fun i =>
                c.hasMember i && s.stn.stations[i].record.kind != .none).map fun i =>
                ⟨i, (it.outcomeAt i).getD
                  (if s.stn.stations[i].passed s.trk.track it.tag then .notServed else .pending)⟩
            deadline := deadlineOf s it.entryPos c
            flags := { it.flags with reclassified := true } }
        let s1 : State :=
          { s with
            vrd :=
              { s.vrd with
                sources :=
                  mapAll s.vrd.sources fun v src =>
                    if c.requires v then src
                    else { src with windows := src.windows.filter fun w => w.tag ≠ it.tag } } }
        let timedOut : Item :=
          { it1 with
            slots := it1.slots.map fun sl => if sl.state = .pending then { sl with state := .timedOut } else sl }
        let late : Prop := ∃ d, it1.deadline = some d ∧ ahead d s.pos.position = false
        let done (jt : Item) (r : Reason) : Prop :=
          reply .ok (fields (decidedItem jt r s.pos.timeBase))
            (announceDecision jt r (replaceItem (decidedItem jt r s.pos.timeBase) s1))
        (∀ i : Fin 8,
          let passedBy (cur : Option Tag) : Prop := cur = none ∨ ∃ x ∈ newer, cur = some x.tag
          let st := s.stn.stations[i]
          (st.cursor = none ∨ (∃ g ∈ tags s, st.cursor = some g)) →
          (st.opening = none ∨ (∃ g ∈ tags s, st.opening = some g)) →
          (st.passed s.trk.track it.tag = true ↔
            (st.record.kind = .check → passedBy st.opening ∧ ∀ w ∈ st.windows, w.tag ≠ it.tag) ∧
              (st.record.kind ≠ .check → passedBy st.cursor))) ∧
        (it.decision ≠ none → reply .decided (fields it) s) ∧
        (it.decision = none →
          (c.required = 0 → done it1 .noneRequired) ∧
          (c.required ≠ 0 → late → done timedOut .deadline) ∧
          (c.required ≠ 0 → ¬late → it1.allSet = true → done it1 .complete) ∧
          (c.required ≠ 0 → ¬late → it1.allSet = false → reply .ok (fields it1) (replaceItem it1 s1)))

/-! ## OUT -/

/-- R113, R115, R106: SET_OUTPUT, which leaves a running pulse as it is, and the level of an output pin. -/
def Obligations.SetOutputResult : Prop :=
  (∀ (tag : Byte) (p : List Byte) (s : State), Taken s →
    let refused (st : Status) : Prop :=
      (∀ o : Fin 8, byteAt p 0 = idxByte o →
        let x := s.out.outputs[o]
        exec (.setOutput tag p) s =
          .next (replied 0x20 tag st ([idxByte o, flagByte x.activeLow, x.collision.code] ++ le 2 x.gap) s)) ∧
      (8 ≤ (byteAt p 0).toNat →
        exec (.setOutput tag p) s = .next (replied 0x20 tag st [byteAt p 0, 0, 0, 0, 0] s))
    (p.length = 1 → (byteAt p 0).toNat < 8 → refused .ok) ∧
    (p.length = 1 → 8 ≤ (byteAt p 0).toNat → refused .badValue) ∧
    (p.length ≠ 1 → p.length ≠ 5 → refused .badLength) ∧
    (p.length = 5 → s.zon.zone ≠ .config → refused .wrongState) ∧
    (p.length = 5 → s.zon.zone = .config →
      8 ≤ (byteAt p 0).toNat ∨ 2 ≤ (byteAt p 1).toNat ∨ 2 ≤ (byteAt p 2).toNat → refused .badValue) ∧
    ∀ (o : Fin 8) (low : Bool) (c : Collision) (gap : BitVec 16),
      p = [idxByte o, flagByte low, c.code] ++ le 2 gap → s.zon.zone = .config →
      exec (.setOutput tag p) s =
        .next
          (replied 0x20 tag .ok p
            { s with
              out :=
                { s.out with
                  outputs :=
                    modAt s.out.outputs o fun x => { x with activeLow := low, collision := c, gap := gap } } })) ∧
  ∀ o : Output,
    (∀ e w, o.state = .on e w → o.pin = !o.activeLow) ∧ (o.state = .off → o.pin = o.activeLow) ∧
      ∀ e w, o.state = .recover e w → o.pin = o.activeLow

/-- R107, R108: OUT's answer to a claim of length `len` taken at time `now`. R112: PULSE_OUTPUT; the index of a refused
reply is read by position, and its other fields are zero (log 19, log 23); a remaining time past the end time reads 0
(log 25). -/
def Obligations.ClaimsAndTestPulses : Prop :=
  (∀ (o : Output) (len : BitVec 16) (owner : Owner) (now : Time),
    let t : Time := now + len.setWidth 48
    (o.state = .off → o.claim len owner now = ({ o with state := .on t owner }, none)) ∧
    (∀ e w, o.state = .on e w → o.collision = .extend →
      o.claim len owner now =
        ({ o with state := .on (if 1 ≤ (e - t).toNat ∧ (e - t).toNat < 2 ^ 47 then e else t) owner }, none)) ∧
    (∀ e w, o.state = .on e w → o.collision = .refuse → o.claim len owner now = (o, some .busy)) ∧
    ∀ e w, o.state = .recover e w → o.claim len owner now = (o, some .recovering)) ∧
  (∀ (tag : Byte) (p : List Byte) (s : State), Taken s →
    let refused (st : Status) : Prop :=
      exec (.pulseOutput tag p) s = .next (replied 0x21 tag st (byteAt p 0 :: List.replicate 8 0) s)
    (p.length ≠ 3 → refused .badLength) ∧ (p.length = 3 → s.zon.zone ≠ .config → refused .wrongState) ∧
    (p.length = 3 → s.zon.zone = .config → 8 ≤ (byteAt p 0).toNat ∨ (u16 p 1).toNat < 50 → refused .badValue) ∧
    ∀ (o : Fin 8) (len : BitVec 16), p = idxByte o :: le 2 len → s.zon.zone = .config → 50 ≤ len.toNat →
      let claim := s.out.outputs[o].claim len .test s.pos.timeBase
      let shown (x : Output) : List Byte :=
        [x.state.code] ++ le 2 (x.state.remaining s.pos.timeBase) ++ ownerBytes x.state.owner
      (claim.2 = none →
        exec (.pulseOutput tag p) s =
          .next
            (replied 0x21 tag .ok ([idxByte o, 0] ++ shown claim.1)
              { s with out := { s.out with outputs := modAt s.out.outputs o fun _ => claim.1 } })) ∧
      ∀ reason : RefusalReason, claim.2 = some reason →
        exec (.pulseOutput tag p) s =
          .next (replied 0x21 tag .busy ([idxByte o, reason.code] ++ shown s.out.outputs[o]) s))

/-- R11, R107, R119: a microsecond of the time base, and the ends of pulses, recovery gaps and drives. An end that is not
reached has no effect (log 5, log 9). -/
def Obligations.TimedEnds : Prop :=
  ∀ s : State,
    let reached (t : Time) : Prop := ¬(1 ≤ (t - s.pos.timeBase).toNat ∧ (t - s.pos.timeBase).toNat < 2 ^ 47)
    let output (o : Fin 8) (f : Output → Output) : State :=
      { s with out := { s.out with outputs := modAt s.out.outputs o f } }
    exec .timeBaseTick s = .next { s with pos := { s.pos with timeBase := s.pos.timeBase + 1 } } ∧
    (∀ o : Fin 8,
      let x := s.out.outputs[o]
      (∀ e w, x.state = .on e w → reached e → x.gap = 0 →
        exec (.outputOnEnd o) s = .next (output o fun x => { x with state := .off })) ∧
      (∀ e w, x.state = .on e w → reached e → x.gap ≠ 0 →
        exec (.outputOnEnd o) s =
          .next (output o fun x => { x with state := .recover (e + x.gap.setWidth 48) w })) ∧
      ((∀ e w, x.state = .on e w → ¬reached e) → exec (.outputOnEnd o) s = .next s) ∧
      (∀ e w, x.state = .recover e w → reached e →
        exec (.outputRecoverEnd o) s = .next (output o fun x => { x with state := .off })) ∧
      ((∀ e w, x.state = .recover e w → ¬reached e) → exec (.outputRecoverEnd o) s = .next s)) ∧
    (∀ e, s.zon.syncDrive = some e → reached e →
      exec .syncDriveEnd s =
        .next
          { s with
            zon :=
              { s.zon with
                syncDrive := none
                sync :=
                  { s.zon.sync with
                    wait :=
                      if s.zon.sync.ext = false then s.zon.sync.wait
                      else if s.zon.sync.accepted = true then none
                      else some (s.pos.timeBase + 20) } } }) ∧
    ((∀ e, s.zon.syncDrive = some e → ¬reached e) → exec .syncDriveEnd s = .next s) ∧
    (∀ e, s.zon.lineStopDrive = some e → reached e →
      exec .lineStopDriveEnd s =
        .next
          { s with
            zon :=
              { s.zon with
                lineStopDrive := none
                lineStop :=
                  { s.zon.lineStop with
                    wait :=
                      if s.zon.lineStop.ext = false then s.zon.lineStop.wait
                      else if s.zon.lineStop.accepted = true then none
                      else some (s.pos.timeBase + 100) } } }) ∧
    ((∀ e, s.zon.lineStopDrive = some e → ¬reached e) → exec .lineStopDriveEnd s = .next s)

/-! ## ZON -/

/-- R120: SET_LINE, in every zone state. -/
def Obligations.SetLineResult : Prop :=
  ∀ (tag : Byte) (p : List Byte) (s : State), Taken s →
    let refused (st : Status) : Prop :=
      exec (.setLine tag p) s =
        .next
          (replied 0x2C tag st
            [flagByte s.zon.stopIn, flagByte s.zon.stopOut, flagByte s.zon.syncIn, s.zon.holdPolicy.code,
              s.zon.stopWidth] s)
    (p = [] → refused .ok) ∧ (p ≠ [] → p.length ≠ 5 → refused .badLength) ∧
    (∀ a b c d e, p = [a, b, c, d, e] →
      2 ≤ a.toNat ∨ 2 ≤ b.toNat ∨ 2 ≤ c.toNat ∨ 2 ≤ d.toNat ∨ e = 0 ∨ 250 < e.toNat → refused .badValue) ∧
    ∀ (stopIn stopOut syncIn : Bool) (h : HoldPolicy) (w : BitVec 8),
      p = [flagByte stopIn, flagByte stopOut, flagByte syncIn, h.code, w] → 1 ≤ w.toNat → w.toNat ≤ 250 →
      exec (.setLine tag p) s =
        .next
          (replied 0x2C tag .ok p
            { s with
              zon :=
                { s.zon with
                  stopIn := stopIn, stopOut := stopOut, syncIn := syncIn, holdPolicy := h, stopWidth := w } })

/-- R124, R125, R119: SYNC_PULSE and STOP_LINE. A remaining time past the end time reads 0 (log 25); that refused replies
carry the drive fields is log 17's reading. -/
def Obligations.SharedLineRequests : Prop :=
  ∀ (tag : Byte) (p : List Byte) (s : State), Taken s →
    let now := s.pos.timeBase
    let left : BitVec 32 :=
      match s.zon.lineStopDrive with | none => 0 | some e => if aheadTime e now then (e - now).setWidth 32 else 0
    let fall (filter : Time) (x : LineIn) (driven : Bool) : LineIn :=
      if x.ext = false ∨ driven = true then x
      else { x with wait := if x.accepted = false then none else some (now + filter) }
    let sync (st : Status) (drive : Byte) (t : State) : Prop :=
      exec (.syncPulse tag p) s = .next (replied 0x25 tag st [drive] t)
    (p ≠ [] →
      sync .badLength (flagByte s.zon.syncDrive.isSome) s ∧
      exec (.stopLine tag p) s =
        .next (replied 0x26 tag .badLength (flagByte s.zon.lineStopDrive.isSome :: le 4 left) s)) ∧
    (p = [] → s.zon.zone = .estop → sync .wrongState (flagByte s.zon.syncDrive.isSome) s) ∧
    (p = [] → s.zon.zone ≠ .estop → s.zon.syncDrive ≠ none → sync .busy 1 s) ∧
    (p = [] → s.zon.zone ≠ .estop → s.zon.syncDrive = none →
      sync .ok 1
        { s with
          zon := { s.zon with syncDrive := some (now + 100), sync := fall 20 s.zon.sync false } }) ∧
    (p = [] →
      let width : Nat := s.zon.stopWidth.toNat * 1000
      exec (.stopLine tag p) s =
          .next (replied 0x26 tag .ok (1 :: le 4 (BitVec.ofNat 32 width)) (driveLineStop s)) ∧
        driveLineStop s =
          { s with
            zon :=
              { s.zon with
                lineStopDrive := some (now + BitVec.ofNat 48 width)
                lineStop := fall 100 s.zon.lineStop s.zon.lineStopDrive.isSome } })

/-- R121, R123, R31, R42, R159: START, in both its rows. The ZONE_STATE notice of a tracking start carries the position
0 (log 29). -/
def Obligations.StartResult : Prop :=
  ∀ (tag : Byte) (p : List Byte) (s : State) (c : Instr), Taken s → c = .startSync tag p ∨ c = .startLocal tag p →
    let refused (st : Status) : Prop := exec c s = .next (replied 0x24 tag st [s.zon.zone.code] s)
    let entry (t : State) : Prop := ∃ i : Fin 8, t.inp.inputs[i].role = .entry
    let now := s.pos.timeBase
    let idle (t : State) : State := { t with tch := { t.tch with state := .idle } }
    (p.length ≠ 1 → refused .badLength) ∧
    (∀ b : Byte, p = [b] →
      ¬(s.zon.zone = .config ∨ (s.zon.zone = .armed ∧ b ≠ 0)) → refused .wrongState) ∧
    (∀ b : Byte, p = [b] → s.zon.zone = .config ∨ s.zon.zone = .armed → 2 ≤ b.toNat → refused .badValue) ∧
    (p = [0] ∨ p = [1] → s.zon.zone = .config → ¬entry s → refused .conflict) ∧
    (p = [0] → s.zon.zone = .config → entry s →
      exec c s =
        .next
          (replied 0x24 tag .ok [1]
            (offer (.zoneState now .config .armed .request s.pos.position)
              (announceAbort s.tch.state (idle { s with zon := { s.zon with zone := .armed } }))))) ∧
    (p = [1] → (s.zon.zone = .config ∧ entry s) ∨ s.zon.zone = .armed →
      exec c s =
        .next
          (replied 0x24 tag .ok [2]
            (offer (.zoneState now s.zon.zone .tracking .request 0)
              (announceAbort s.tch.state
                (idle
                  { s with
                    pos := { s.pos with position := 0, highWater := 0 }
                    trk := { s.trk with nextTag := 1, entry := levelEntry s }
                    zon := { s.zon with zone := .tracking, firstCause := none, causes := .empty } })))))

/-- R126, R128: HOLD and RESUME, with the judgement of each cause. That BAD_LENGTH and WRONG_STATE replies carry the zone
state, a clear line flag and no causes is log 17's reading. -/
def Obligations.HoldResumeResult : Prop :=
  ∀ (tag : Byte) (p : List Byte) (s : State), Taken s →
    let hold (st : Status) (z : ZoneState) (t : State) : Prop :=
      exec (.hold tag p) s = .next (replied 0x27 tag st [z.code] t)
    let resume (st : Status) (z : ZoneState) (line : Bool) (causes : CauseSet) (t : State) : Prop :=
      exec (.resume tag p) s = .next (replied 0x28 tag st [z.code, flagByte line, causes.byte] t)
    let enter (z : ZoneState) : State :=
      offer (.zoneState s.pos.timeBase s.zon.zone z .request s.pos.position)
        { s with zon := { s.zon with zone := z } }
    let lineLow : Bool := s.zon.stopIn && !s.zon.lineStop.accepted
    let behind : Nat :=
      if ahead s.pos.highWater s.pos.position then (s.pos.highWater - s.pos.position).toNat else 0
    let blocked : Prop := ∃ g lead it, s.trk.entry = .measuring g lead ∧ it ∈ s.trk.track ∧ it.tag = g ∧
      it.flags.overlength = true
    (p ≠ [] → hold .badLength s.zon.zone s ∧ resume .badLength s.zon.zone false .empty s) ∧
    (p = [] → s.zon.zone ≠ .tracking → hold .wrongState s.zon.zone s) ∧
    (p = [] → s.zon.zone = .tracking → hold .ok .hold (enter .hold)) ∧
    (p = [] → s.zon.zone ≠ .hold → s.zon.zone ≠ .fault → resume .wrongState s.zon.zone false .empty s) ∧
    (p = [] → s.zon.zone = .hold →
      (lineLow = true → resume .causePresent .hold true .empty s) ∧
      (lineLow = false → resume .ok .tracking false .empty (enter .tracking))) ∧
    (p = [] → s.zon.zone = .fault → ItemsOk s → ∀ present : CauseSet, present.encoder = false →
      present.missing = false →
      (present.reverse = true ↔ s.zon.causes.reverse = true ∧ s.trk.params.reverseLimit.toNat < behind) →
      (present.trackFull = true ↔ s.zon.causes.trackFull = true ∧ 64 ≤ s.trk.track.length) →
      (present.entryBlocked = true ↔ s.zon.causes.entryBlocked = true ∧ blocked) →
      (lineLow = true ∨ present ≠ .empty → resume .causePresent .fault lineLow present s) ∧
      (lineLow = false → present = .empty → resume .ok .tracking false .empty (enter .tracking)))

/-- R129, R132, R51, R42: STOP and CLEAR. Both flush the track, each item with its ITEM_DONE notice, and then enter
CONFIG; an Entry Unit that was measuring an item is UNTRACKED. That the flushed-item count is one byte is log 32's. -/
def Obligations.StopClearResult : Prop :=
  ∀ (tag : Byte) (p : List Byte) (s : State), Taken s → TrackInv s →
    let stopped (st : Status) (n : Nat) (z : ZoneState) (t : State) : Prop :=
      exec (.stop tag p) s = .next (replied 0x29 tag st [BitVec.ofNat 8 n, z.code] t)
    let cleared (st : Status) (n : Nat) (z : ZoneState) (t : State) : Prop :=
      exec (.clear tag p) s = .next (replied 0x2B tag st [BitVec.ofNat 8 n, z.code] t)
    let flushed (t : State) : Prop :=
      t.trk.track = [] ∧ t.trk.nextTag = s.trk.nextTag ∧ t.trk.params = s.trk.params ∧
        t.trk.snapshot = s.trk.snapshot ∧
        t.trk.entry =
          (match s.trk.entry with | .clear => .clear | .measuring _ _ => .untracked | .untracked => .untracked) ∧
        t.zon = { s.zon with zone := .config } ∧ t.pos = s.pos ∧ t.inp = s.inp ∧
        t.out = s.out ∧ t.tch = s.tch ∧ t.vrd.classes = s.vrd.classes ∧
        (∀ i : Fin 8, t.stn.stations[i] = ⟨s.stn.stations[i].record, none, none, []⟩) ∧
        (∀ v : Fin 4, t.vrd.sources[v] = ⟨s.vrd.sources[v].record, []⟩) ∧
        t.lnk =
          (offer (.zoneState s.pos.timeBase s.zon.zone .config .request s.pos.position)
            (s.trk.track.foldl
              (fun t it => offer (.itemDone s.pos.timeBase s.pos.position { it with exit := .flushed }) t) s)).lnk
    (p ≠ [] → stopped .badLength 0 s.zon.zone s ∧ cleared .badLength 0 s.zon.zone s) ∧
    (p = [] → s.zon.zone = .estop → stopped .wrongState 0 .estop s) ∧
    (p = [] → s.zon.zone = .config → stopped .ok 0 .config s) ∧
    (p = [] → s.zon.zone ≠ .estop → s.zon.zone ≠ .config →
      ∃ t, flushed t ∧ stopped .ok s.trk.track.length .config t) ∧
    (p = [] → s.zon.zone ≠ .estop → cleared .wrongState 0 s.zon.zone s) ∧
    (p = [] → s.zon.zone = .estop → s.zon.estopN.accepted = false → cleared .causePresent 0 .estop s) ∧
    (p = [] → s.zon.zone = .estop → s.zon.estopN.accepted = true →
      ∃ t, flushed t ∧ cleared .ok s.trk.track.length .config t)

/-- R131, R111, R42, R159: ESTOP: outputs cut, the Entry Unit set by its level, a teach aborted, the zone in ESTOP. -/
def Obligations.EstopResult : Prop :=
  ∀ (tag : Byte) (p : List Byte) (s : State), Taken s →
    (p ≠ [] → exec (.estop tag p) s = .next (replied 0x2A tag .badLength [s.zon.zone.code] s)) ∧
    (p = [] → s.zon.zone = .estop → exec (.estop tag p) s = .next (replied 0x2A tag .ok [5] s)) ∧
    (p = [] → s.zon.zone ≠ .estop →
      exec (.estop tag p) s =
        .next
          (replied 0x2A tag .ok [5]
            (offer (.zoneState s.pos.timeBase s.zon.zone .estop .request s.pos.position)
              (announceAbort s.tch.state
                { s with
                  out := { s.out with outputs := mapAll s.out.outputs fun _ o => { o with state := .off } }
                  trk := { s.trk with entry := levelEntry s }
                  tch := { s.tch with state := .idle }
                  zon := { s.zon with zone := .estop } }))))

/-- R118, R122, R126, R130, R131: a line input's change is accepted: a falling edge of SYNC starts tracking in ARMED, one
of LINE-STOP holds in TRACKING, a low ESTOP_N enters ESTOP; every other acceptance only moves the accepted level. Before
the wait has run out nothing happens (log 5). The ZONE_STATE notice of the tracking start carries the position 0
(log 29). -/
def Obligations.LineInputAcceptanceResult : Prop :=
  ∀ s : State,
    let now := s.pos.timeBase
    let z := s.zon
    let syncLevel := z.sync.ext && z.syncDrive.isNone
    let stopLevel := z.lineStop.ext && z.lineStopDrive.isNone
    let sync : State := { s with zon := { z with sync := { z.sync with accepted := syncLevel, wait := none } } }
    let stop : State :=
      { s with zon := { z with lineStop := { z.lineStop with accepted := stopLevel, wait := none } } }
    let estop : State :=
      { s with zon := { z with estopN := { z.estopN with accepted := z.estopN.ext, wait := none } } }
    (waitOver z.sync.wait now = false → exec (.lineInputAcceptance .sync) s = .next s) ∧
    (waitOver z.lineStop.wait now = false → exec (.lineInputAcceptance .lineStop) s = .next s) ∧
    (waitOver z.estopN.wait now = false → exec (.lineInputAcceptance .estop) s = .next s) ∧
    (waitOver z.sync.wait now = true →
      let starts : Prop := z.sync.accepted = true ∧ syncLevel = false ∧ z.zone = .armed ∧ z.syncIn = true
      (¬starts → exec (.lineInputAcceptance .sync) s = .next sync) ∧
      (starts →
        exec (.lineInputAcceptance .sync) s =
          .next
            (offer (.zoneState now .armed .tracking .sync 0)
              { sync with
                pos := { s.pos with position := 0, highWater := 0 }
                trk := { s.trk with nextTag := 1, entry := levelEntry s }
                zon := { sync.zon with zone := .tracking, firstCause := none, causes := .empty } }))) ∧
    (waitOver z.lineStop.wait now = true →
      let holds : Prop := z.lineStop.accepted = true ∧ stopLevel = false ∧ z.zone = .tracking ∧ z.stopIn = true
      (¬holds → exec (.lineInputAcceptance .lineStop) s = .next stop) ∧
      (holds →
        exec (.lineInputAcceptance .lineStop) s =
          .next
            (offer (.zoneState now .tracking .hold .lineStop s.pos.position)
              { stop with zon := { stop.zon with zone := .hold } }))) ∧
    (waitOver z.estopN.wait now = true →
      (z.estopN.ext = true ∨ z.zone = .estop → exec (.lineInputAcceptance .estop) s = .next estop) ∧
      (z.estopN.ext = false → z.zone ≠ .estop →
        exec (.lineInputAcceptance .estop) s =
          .next
            (offer (.zoneState now z.zone .estop .input s.pos.position)
              (announceAbort s.tch.state
                { estop with
                  out := { s.out with outputs := mapAll s.out.outputs fun _ o => { o with state := .off } }
                  trk := { s.trk with entry := levelEntry s }
                  tch := { s.tch with state := .idle }
                  zon := { estop.zon with zone := .estop } }))))

/-! ## TCH -/

/-- R154, R159: TEACH and TEACH_ABORT. That BAD_LENGTH and WRONG_STATE replies of TEACH_ABORT carry the teach state is
log 17's reading. -/
def Obligations.TeachRequestsResult : Prop :=
  ∀ (tag : Byte) (p : List Byte) (s : State), Taken s →
    let refused (st : Status) : Prop := exec (.teach tag p) s = .next (replied 0x2E tag st [s.tch.state.code] s)
    let b (k : Nat) : Nat := (byteAt p k).toNat
    (p.length ≠ 10 → refused .badLength) ∧ (p.length = 10 → s.zon.zone ≠ .config → refused .wrongState) ∧
    (p.length = 10 → s.zon.zone = .config →
      8 ≤ b 0 ∨ b 1 = 0 ∨ 8 < b 1 ∨ u32 p 2 = 0 ∨ 4000000 < (u32 p 2).toNat ∨ 2 ≤ b 8 ∨ 8 ≤ b 9 ∨
        (b 8 = 0 ∧ b 9 ≠ 0) → refused .badValue) ∧
    (∀ (target station : Fin 8) (n : BitVec 8) (span : Dist) (spread : BitVec 16) (apply : Bool),
      p = [idxByte target, n] ++ le 4 span ++ le 2 spread ++ [flagByte apply, idxByte station] →
      s.zon.zone = .config → 1 ≤ n.toNat → n.toNat ≤ 8 → 1 ≤ span.toNat → span.toNat ≤ 4000000 →
      apply = true ∨ station = 0 →
      let conflict : Prop :=
        (∀ i : Fin 8, s.inp.inputs[i].role ≠ .entry) ∨ s.inp.inputs[target].role = .entry ∨
          (apply = true ∧ s.stn.stations[station].record.kind = .none)
      (s.tch.state ≠ .idle → refused .busy) ∧ (s.tch.state = .idle → conflict → refused .conflict) ∧
      (s.tch.state = .idle → ¬conflict →
        exec (.teach tag p) s =
          .next
            (replied 0x2E tag .ok [1]
              { s with
                tch :=
                  { s.tch with
                    state := .waitEntry ⟨target, n.toNat, span, spread, apply, station, [], 0⟩ } }))) ∧
    (p ≠ [] → exec (.teachAbort tag p) s = .next (replied 0x2F tag .badLength [s.tch.state.code] s)) ∧
    (p = [] → s.tch.state = .idle → exec (.teachAbort tag p) s = .next (replied 0x2F tag .wrongState [0] s)) ∧
    (p = [] → s.tch.state ≠ .idle →
      exec (.teachAbort tag p) s =
        .next
          (replied 0x2F tag .ok [0]
            (announceAbort s.tch.state { s with tch := { s.tch with state := .idle } })))

/-- R155, R156, R157, R158: what edges and a span reach do to a running teach, its results and its statistics. -/
def Obligations.TeachRules : Prop :=
  (∀ (s : State) (run : TeachRun),
    let now := s.pos.timeBase
    let here := s.pos.position
    let set (t : TeachState) : State := { s with tch := { s.tch with state := t } }
    (s.tch.state = .idle → teachEntryEdge s = s ∧ teachTargetEdge s = s ∧ teachSpanReach s = s) ∧
    (s.tch.state = .waitEntry run →
      teachEntryEdge s = set (.waitTarget run here (here + run.span)) ∧ teachTargetEdge s = s ∧
        teachSpanReach s = s) ∧
    (∀ start spanPos, s.tch.state = .waitTarget run start spanPos →
      let d : Dist := if ahead here start then here - start else 0
      let taken : TeachRun := { run with samples := run.samples ++ [d], failures := 0 }
      let sampled : State :=
        offer (.teachSample now .taken start (some d) (run.samples.length + 1) 0) (set (.waitEntry taken))
      let failed : TeachRun := { run with failures := run.failures + 1 }
      let spanned (t : TeachState) : State :=
        offer (.teachSample now .span start none run.samples.length (run.failures + 1)) (set t)
      teachEntryEdge s =
          offer (.teachSample now .overlapped start none run.samples.length run.failures)
            (set (.waitTarget run here (here + run.span))) ∧
        (run.samples.length + 1 < run.wanted → teachTargetEdge s = sampled) ∧
        (run.wanted ≤ run.samples.length + 1 → teachTargetEdge s = finishTeach taken sampled) ∧
        (run.failures + 1 < 3 → teachSpanReach s = spanned (.waitEntry failed)) ∧
        (3 ≤ run.failures + 1 →
          teachSpanReach s =
            offer (.teachResult now .failed run.samples.length none run.station false none) (spanned .idle))) ∧
    ∀ stats, run.stats = some stats →
      let r : StationRec := { s.stn.stations[run.station].record with offset := stats.mean }
      let ends (result : TeachResult) (applied : Bool) (failing : Option Status) (t : State) : State :=
        offer (.teachResult now result run.samples.length (some stats) run.station applied failing)
          { t with tch := { t.tch with state := .idle } }
      let wide : Prop := run.spread.toNat < (stats.greatest - stats.least).toNat
      (wide → finishTeach run s = ends .spreadExceeded false none s) ∧
      (¬wide → run.apply = false → finishTeach run s = ends .done false none s) ∧
      (¬wide → run.apply = true → stats.mean = 0 ∨ r.valueOk = false →
        finishTeach run s = ends .applyRefused false (some .badValue) s) ∧
      (¬wide → run.apply = true → 1 ≤ stats.mean.toNat → stats.mean.toNat ≤ 4000000 → r.valueOk = true →
        (stationValid s run.station r = false → finishTeach run s = ends .applyRefused false (some .conflict) s) ∧
        (stationValid s run.station r = true →
          finishTeach run s =
            ends .done true none
              { s with
                stn :=
                  { s.stn with
                    stations := modAt s.stn.stations run.station fun st => { st with record := r } } }))) ∧
  (∀ run : TeachRun,
    (run.samples = [] → run.stats = none) ∧
      (run.samples ≠ [] → run.samples.length ≤ 8 →
        ∃ st, run.stats = some st ∧
          st.mean.toNat = (run.samples.map BitVec.toNat).sum / run.samples.length ∧ st.least ∈ run.samples ∧
          st.greatest ∈ run.samples ∧
          ∀ d ∈ run.samples, st.least.toNat ≤ d.toNat ∧ d.toNat ≤ st.greatest.toNat))

/-! ## LNK: notices, the transmitter, reset -/

/-- R144, R145: a notice offered to the queue. -/
def Obligations.NoticeQueueRule : Prop :=
  ∀ (n : Notice) (s : State),
    let setting := s.lnk.settings[n.kind.index]
    let q : QueuedNotice := ⟨setting.level, n⟩
    let lost : BitVec 16 := if s.lnk.lostCount = 65535 then 65535 else s.lnk.lostCount + 1
    let after (notices : List QueuedNotice) (count : BitVec 16) : State :=
      { s with lnk := { s.lnk with notices := notices, lostCount := count } }
    (setting.enabled = false → offer n s = s) ∧
    (setting.enabled = true → NoticesOk s.lnk →
      (∀ high low, s.lnk.notices = high ++ low → (∀ x ∈ high, setting.level ≤ x.level) →
        (∀ x ∈ low, x.level < setting.level) →
        (s.lnk.notices.length < 32 → offer n s = after (high ++ q :: low) s.lnk.lostCount) ∧
        (s.lnk.notices.length = 32 → low ≠ [] → offer n s = after (high ++ q :: low.dropLast) lost) ∧
        (s.lnk.notices.length = 32 → low = [] → offer n s = after s.lnk.notices lost)))

/-- R143, R147, R148: what the arbiter grants: a reply before a notice burst before the dump stream; a notice burst
begins with NOTICES_LOST when notices were lost; nothing while it sends or nothing is ready. A grant is made when its
command is taken (log 10). -/
def Obligations.ArbiterGrantResult : Prop :=
  ∀ s : State,
    let sends (b : Burst) (l : LnkUnit) : Prop :=
      exec .arbiterGrant s = .next { s with lnk := { l with tx := .sending b } }
    (∀ b, s.lnk.tx = .sending b → exec .arbiterGrant s = .next s) ∧
    (s.lnk.tx = .idle →
      (∀ r rest, s.lnk.replies = r :: rest →
        sends ⟨.reply, 0, 1, r.frame, r.mark⟩ { s.lnk with replies := rest }) ∧
      (s.lnk.replies = [] → s.lnk.lostCount ≠ 0 →
        sends ⟨.notice, 0, 4, ⟨0x4B, 0, le 6 s.pos.timeBase ++ le 2 s.lnk.lostCount⟩, .plain⟩
          { s.lnk with lostCount := 0 }) ∧
      (∀ q rest, s.lnk.replies = [] → s.lnk.lostCount = 0 → s.lnk.notices = q :: rest →
        sends ⟨.notice, 0, 4, q.notice.frame, .plain⟩ { s.lnk with notices := rest }) ∧
      (s.lnk.replies = [] → s.lnk.lostCount = 0 → s.lnk.notices = [] → ∀ d, s.lnk.dump = some d → d.ready = true →
        (∀ it, s.trk.snapshot.records[d.next]? = some it →
          sends ⟨.dump, 0, 8, ⟨0x50, d.tag, BitVec.ofNat 8 d.next :: it.bytes⟩, .dumpItem⟩ s.lnk) ∧
        (s.trk.snapshot.records[d.next]? = none →
          sends
            ⟨.dump, 0, 8,
              ⟨0x51, d.tag,
                BitVec.ofNat 8 s.trk.snapshot.records.length :: le 4 s.trk.snapshot.position
                  ++ le 6 s.trk.snapshot.time⟩, .dumpEnd⟩ s.lnk)) ∧
      (s.lnk.replies = [] → s.lnk.lostCount = 0 → s.lnk.notices = [] →
        (∀ d, s.lnk.dump = some d → d.ready = false) → exec .arbiterGrant s = .next s))

/-- R148, R149: a frame has been sent in full: what its completion brings about, and whether its burst goes on. That a
completion has no effect while the transmitter is idle is log 5's, that the empty snapshot after DUMP_END holds
position 0 and time 0 is log 24's. -/
def Obligations.FrameSentResult : Prop :=
  ∀ (s : State) (straps : Straps),
    let answers (l : LnkUnit) : Prop := exec (.frameSent straps) s = .next { s with lnk := l }
    (s.lnk.tx = .idle → exec (.frameSent straps) s = .next s) ∧
    ∀ b, s.lnk.tx = .sending b →
      (b.source = .reply → b.mark = .plain → answers { s.lnk with tx := .idle }) ∧
      (b.source = .reply → b.mark = .dumpReply →
        answers
          { s.lnk with tx := .idle, dump := s.lnk.dump.map fun d => { d with ready := true } }) ∧
      (b.source = .notice → b.mark = .plain →
        (b.limit ≤ b.completed + 1 ∨ s.lnk.notices = [] → answers { s.lnk with tx := .idle }) ∧
        (∀ q rest, b.completed + 1 < b.limit → s.lnk.notices = q :: rest →
          answers
            { s.lnk with
              notices := rest
              tx := .sending ⟨.notice, b.completed + 1, b.limit, q.notice.frame, .plain⟩ })) ∧
      (∀ d, b.source = .dump → b.mark = .dumpItem → s.lnk.dump = some d →
        let waiting : Prop := s.lnk.replies ≠ [] ∨ s.lnk.notices ≠ [] ∨ s.lnk.lostCount ≠ 0
        let next : DumpStream := { d with next := d.next + 1 }
        ∀ limit, (b.completed + 1 ≠ 7 → limit = b.limit) →
          (b.completed + 1 = 7 → (waiting → limit = 8) ∧ (¬waiting → limit = 16)) →
          (limit ≤ b.completed + 1 → answers { s.lnk with tx := .idle, dump := some next }) ∧
          (b.completed + 1 < limit →
            (∀ it, s.trk.snapshot.records[d.next + 1]? = some it →
              answers
                { s.lnk with
                  dump := some next
                  tx :=
                    .sending
                      ⟨.dump, b.completed + 1, limit, ⟨0x50, d.tag, BitVec.ofNat 8 (d.next + 1) :: it.bytes⟩,
                        .dumpItem⟩ }) ∧
            (s.trk.snapshot.records[d.next + 1]? = none →
              answers
                { s.lnk with
                  dump := some next
                  tx :=
                    .sending
                      ⟨.dump, b.completed + 1, limit,
                        ⟨0x51, d.tag,
                          BitVec.ofNat 8 s.trk.snapshot.records.length :: le 4 s.trk.snapshot.position
                            ++ le 6 s.trk.snapshot.time⟩, .dumpEnd⟩ }))) ∧
      (b.source = .dump → b.mark = .dumpEnd →
        exec (.frameSent straps) s =
          .next
            { s with
              trk := { s.trk with snapshot := ⟨[], 0, 0⟩ }
              lnk := { s.lnk with tx := .idle, dump := none } })

/-- R151: RESET. R152 with the reset values of every chapter (R1, R16, R31, R56, R82, R85, R107, R116, R117, R118, R120,
R146, R153): NRST, power-up and the end of the reply to RESET, whose levels are those State holds (log 16). The empty
dump snapshot holds position 0 and time 0 (log 24). -/
def Obligations.ResetResult : Prop :=
  (∀ (tag : Byte) (p : List Byte) (s : State), Taken s →
    (p ≠ [] → exec (.reset tag p) s = .next (replied 0x03 tag .badLength [] s)) ∧
    (p = [] →
      exec (.reset tag p) s =
        .next
          { s with
            lnk :=
              { s.lnk with
                resetPending := true, replies := s.lnk.replies ++ [⟨⟨0x83, tag, [0]⟩, .resetReply⟩] } })) ∧
  (∀ (s : State) (p : PinLevels),
    let zone : ZoneState := if p.estopN then .config else .estop
    let cleared : State :=
      { pos :=
          { mode := .quadX4, invert := false, enable := true, filter := .ns100, chanA := ⟨p.encA, p.encA⟩
            chanB := ⟨p.encB, p.encB⟩, refA := p.encA, refB := p.encB, position := 0, highWater := 0
            encErrors := 0, timeBase := 0 }
        inp :=
          { inputs :=
              Vector.ofFn fun i =>
                ⟨.unused, false, .us250, p.sense[i], p.sense[i], none, ⟨.disarmed, .leading, 0, none⟩⟩ }
        trk := ⟨[], 1, .clear, ⟨10, 10000, 100000, 0, 100, 0⟩, ⟨[], 0, 0⟩⟩
        stn :=
          { stations :=
              Vector.replicate 8 ⟨⟨.none, .disabled, 0, none, 0, none, 0, 0, .note, false⟩, none, none, []⟩ }
        vrd :=
          { classes := Vector.replicate 16 ⟨0, 0, .accept, (Vector.replicate 16 .reject).set 0 .accept⟩
            sources := Vector.replicate 4 ⟨.message, []⟩ }
        out := { outputs := Vector.replicate 8 ⟨false, .refuse, 0, .off⟩ }
        zon :=
          { zone := zone, firstCause := none, causes := ⟨false, false, false, false, false⟩, stopIn := true
            stopOut := true, syncIn := true, holdPolicy := .safe, stopWidth := 20, syncDrive := none
            lineStopDrive := none, sync := ⟨p.sync, p.sync, none⟩, lineStop := ⟨p.lineStop, p.lineStop, none⟩
            estopN := ⟨p.estopN, p.estopN, none⟩ }
        tch := ⟨.idle⟩
        lnk :=
          { rateCode := p.straps.rate, unitId := p.straps.unitId, receiver := .settling 0 640, frameErrors := 0
            gapDiscards := 0, rxDropped := 0, replies := [], notices := [⟨3, .zoneState 0 .config zone .reset 0⟩]
            lostCount := 0
            settings :=
              #v[⟨true, 3⟩, ⟨true, 3⟩, ⟨true, 1⟩, ⟨false, 0⟩, ⟨true, 2⟩, ⟨true, 2⟩, ⟨true, 2⟩, ⟨true, 2⟩, ⟨true, 1⟩,
                ⟨false, 0⟩, ⟨true, 2⟩]
            tx := .idle, dump := none, resetPending := false }
        choice := s.choice
        pending := s.pending }
    exec (.nrst p) s = .next cleared ∧ exec (.powerUp p) s = .next cleared ∧
    ∀ b, s.lnk.tx = .sending b → b.mark = .resetReply →
      p.encA = s.pos.chanA.raw → p.encB = s.pos.chanB.raw → (∀ i : Fin 8, p.sense[i] = s.inp.inputs[i].raw) →
      p.sync = s.zon.sync.ext → p.lineStop = s.zon.lineStop.ext → p.estopN = s.zon.estopN.ext →
      exec (.frameSent p.straps) s = .next cleared)

/-! ## Records -/

/-- R162, R164, Tables 10-4, 10-7, 10-8 and 10-12, R25: where each field of an item record, of every notice and of a probe
record lies in what the part sends, with its code.
R164, Tables 3-6 and 10-9 to 10-11: what the part sends as a station, class, source or zone parameter record reads
back as that record, with every field at every value the record admits. -/
def Obligations.RecordsOnTheLink : Prop :=
  (∀ (p : BitVec 16) (q : BitVec 32) (r : BitVec 48),
    le 2 p = [p.setWidth 8, (p >>> 8).setWidth 8] ∧
    le 4 q = [q.setWidth 8, (q >>> 8).setWidth 8, (q >>> 16).setWidth 8, (q >>> 24).setWidth 8] ∧
    le 6 r =
      [r.setWidth 8, (r >>> 8).setWidth 8, (r >>> 16).setWidth 8, (r >>> 24).setWidth 8, (r >>> 32).setWidth 8,
        (r >>> 40).setWidth 8]) ∧
  (∀ it : Item,
    let b (k : Nat) : Nat := (byteAt it.bytes k).toNat
    let field (k n : Nat) : List Byte := (it.bytes.drop k).take n
    let flag (k : Nat) (x : Bool) : Prop := (byteAt it.bytes 3).getLsbD k = x
    let n := it.slots.length
    it.bytes.length = 40 + 2 * n + 2 * it.outcomes.length ∧ field 0 2 = le 2 it.tag ∧ b 2 = it.cls.val ∧
    (flag 0 it.flags.overlength ∧ flag 1 it.flags.anchored ∧ flag 2 it.flags.anchorRefused ∧
      flag 3 it.flags.missing ∧ flag 4 it.flags.reclassified ∧ flag 5 it.flags.lateVerdict ∧
      flag 6 it.flags.unserved ∧ flag 7 it.length.isSome) ∧
    field 4 4 = le 4 it.entryPos ∧ field 8 4 = le 4 (BitVec.ofInt 32 it.correction) ∧ field 12 6 = le 6 it.entryTime ∧
    (it.length = none → field 18 4 = [0, 0, 0, 0]) ∧ (∀ d, it.length = some d → field 18 4 = le 4 d) ∧
    byteAt it.bytes 22 = it.snapshot.members ∧ b 23 = it.snapshot.required.toNat ∧
    (it.deadline = none → field 24 4 = [0, 0, 0, 0] ∧ b 39 = 0) ∧
    (∀ d, it.deadline = some d → field 24 4 = le 4 d ∧ b 39 = 1) ∧
    (it.decision = none → b 28 = 0 ∧ b 29 = 0 ∧ field 30 6 = [0, 0, 0, 0, 0, 0]) ∧
    (∀ d, it.decision = some d →
      b 28 = 1 + [Disposition.accept, .rework, .reject].idxOf d.disposition ∧
        b 29 = 1 + [Reason.complete, .deadline, .noneRequired, .atExit].idxOf d.reason ∧ field 30 6 = le 6 d.time) ∧
    b 36 = [ExitReason.inTrack, .endOfTrack, .short, .dropped, .removed, .flushed].idxOf it.exit ∧
    (n ≤ 4 → b 37 = n) ∧ (it.outcomes.length ≤ 8 → b 38 = it.outcomes.length) ∧
    (∀ (k : Nat) (sl : Slot), it.slots[k]? = some sl →
      b (40 + 2 * k) = sl.source.val ∧
        b (41 + 2 * k) =
          match sl.state with
          | .pending => 0
          | .set c => 16 + c.val
          | .late c => 32 + c.val
          | .timedOut => 48) ∧
    ∀ (k : Nat) (e : OutcomeEntry), it.outcomes[k]? = some e →
      b (40 + 2 * n + 2 * k) = e.station.val ∧
        b (41 + 2 * n + 2 * k) =
          [StationOutcome.pending, .fired, .firedLate, .wouldFire, .notTarget, .suppressed, .refused, .disabled,
            .notServed, .confirmed, .missed].idxOf e.outcome) ∧
  (∀ (t : Time) (p : Pos) (g : Tag) (i o : Fin 8) (v : Fin 4) (cls : Fin 16) (it : Item) (x : Bool),
    let sent (n : Notice) (kind : Byte) (fields : List Byte) : Prop := n.frame = ⟨kind, 0, le 6 t ++ fields⟩
    let zone (z : ZoneState) : Byte :=
      BitVec.ofNat 8 ([ZoneState.config, .armed, .tracking, .hold, .fault, .estop].idxOf z)
    let cause (c : FaultCause) : Byte :=
      BitVec.ofNat 8 (5 + [FaultCause.encoder, .reverse, .trackFull, .entryBlocked, .missing].idxOf c)
    let bit (y : Bool) (k : Nat) : Nat := if y then 2 ^ k else 0
    (∀ (old new : ZoneState) (why : Byte) (c : ZoneCause),
      (c = .reset ∧ why = 0) ∨ (c = .request ∧ why = 1) ∨ (c = .sync ∧ why = 2) ∨ (c = .lineStop ∧ why = 3) ∨
        (c = .input ∧ why = 4) ∨ (∃ f, c = .fault f ∧ why = cause f) →
      sent (.zoneState t old new c p) 0x40 ([zone old, zone new, why] ++ le 4 p)) ∧
    (∀ (c : FaultCause) (cs : CauseSet),
      sent (.fault t c x cs p) 0x41
        ([cause c, if x then 0 else 1,
          BitVec.ofNat 8
            (bit cs.encoder 0 + bit cs.reverse 1 + bit cs.trackFull 2 + bit cs.entryBlocked 3 + bit cs.missing 4)]
          ++ le 4 p)) ∧
    sent (.entry t g cls p) 0x42 (le 2 g ++ [BitVec.ofNat 8 cls.val] ++ le 4 p) ∧
    (∀ (d : Disposition) (r : Reason),
      sent (.decision t g d r p) 0x43
        (le 2 g
          ++ [BitVec.ofNat 8 (1 + [Disposition.accept, .rework, .reject].idxOf d),
            BitVec.ofNat 8 (1 + [Reason.complete, .deadline, .noneRequired, .atExit].idxOf r)]
          ++ le 4 p)) ∧
    sent (.itemDone t p it) 0x44 (le 4 p ++ it.bytes) ∧
    (∀ m : StationMode,
      sent (.missing t i g p m) 0x45
        ([BitVec.ofNat 8 i.val] ++ le 2 g ++ le 4 p
          ++ [BitVec.ofNat 8 ([StationMode.disabled, .observe, .active].idxOf m)])) ∧
    sent (.stray t .entry p) 0x46 ([0, 0] ++ le 4 p) ∧
    sent (.stray t (.station i) p) 0x46 ([1, BitVec.ofNat 8 i.val] ++ le 4 p) ∧
    sent (.stray t (.source v) p) 0x46 ([2, BitVec.ofNat 8 v.val] ++ le 4 p) ∧
    (∀ r : RefusalReason,
      sent (.fireRefused t i g o r) 0x47
        ([BitVec.ofNat 8 i.val] ++ le 2 g ++ [BitVec.ofNat 8 o.val, if r = .busy then 1 else 2])) ∧
    (∀ (e : EdgeKind) (c : BitVec 8) (st : ProbeState),
      sent (.probe t i e p c st) 0x48
        ([BitVec.ofNat 8 i.val, if e = .leading then 0 else 1] ++ le 4 p
          ++ [c, BitVec.ofNat 8 ([ProbeState.disarmed, .armedOnce, .armedEvery, .spent].idxOf st)])) ∧
    (∀ (d : Dist) (held failures : Nat),
      sent (.teachSample t .taken p (some d) held failures) 0x49
          ([0, 1] ++ le 4 p ++ le 4 d ++ [BitVec.ofNat 8 held, BitVec.ofNat 8 failures]) ∧
        sent (.teachSample t .overlapped p none held failures) 0x49
          ([1, 0] ++ le 4 p ++ [0, 0, 0, 0] ++ [BitVec.ofNat 8 held, BitVec.ofNat 8 failures]) ∧
        sent (.teachSample t .span p none held failures) 0x49
          ([2, 0] ++ le 4 p ++ [0, 0, 0, 0] ++ [BitVec.ofNat 8 held, BitVec.ofNat 8 failures])) ∧
    ∀ (r : TeachResult) (held : Nat) (mean least greatest : Dist) (status : Status),
      let result : Byte :=
        BitVec.ofNat 8 ([TeachResult.done, .failed, .spreadExceeded, .applyRefused, .aborted].idxOf r)
      let station : Byte := BitVec.ofNat 8 i.val
      sent (.teachResult t r held (some ⟨mean, least, greatest⟩) i x none) 0x4A
          ([result, BitVec.ofNat 8 held, if x then 3 else 1] ++ le 4 mean ++ le 4 least ++ le 4 greatest
            ++ [station, 0]) ∧
        sent (.teachResult t r held (some ⟨mean, least, greatest⟩) i false (some status)) 0x4A
          ([result, BitVec.ofNat 8 held, 5] ++ le 4 mean ++ le 4 least ++ le 4 greatest ++ [station, status.code]) ∧
        sent (.teachResult t r held none i false none) 0x4A
          ([result, BitVec.ofNat 8 held, 0] ++ List.replicate 12 0 ++ [station, 0])) ∧
  (∀ p : Probe,
    let head : List Byte :=
      [BitVec.ofNat 8 ([ProbeState.disarmed, .armedOnce, .armedEvery, .spent].idxOf p.state),
        BitVec.ofNat 8 ([EdgeSel.leading, .trailing, .both].idxOf p.sel), p.count]
    (p.last = none → p.bytes = head ++ List.replicate 12 0) ∧
      ∀ c, p.last = some c →
        p.bytes = head ++ [1, if c.edge = .leading then 0 else 1] ++ le 4 c.position ++ le 6 c.time) ∧
  (∀ (i : Fin 8) (r : StationRec), r.valueOk = true → stationOfBytes (stationBytes (idxByte i) r) 0 = some (i, r)) ∧
  (∀ (i : Fin 16) (c : ClassRec), classOfBytes (classBytes (idxByte i) c) = some (i, c)) ∧
  (∀ (v : Fin 4) (r : SourceRec), (∀ i k w a b, r = .line i k w a b → w ≠ 0) →
    sourceOfBytes (sourceBytes (idxByte v) r) = some (v, r)) ∧
  ∀ z : ZoneParams, ParamsOk z → zoneOfBytes z.bytes = some z

/-! ## Invariants -/

/-- The invariants hold right after reset; the levels on the pins there are log 14's. -/
def Obligations.InvariantsAtReset : Prop :=
  LinkInv State.reset ∧ ZoneInv State.reset ∧ TrackInv State.reset ∧ OrderOk State.reset ∧ ConfigInv State.reset

/-- R143, R144, R146, R149, R151: every step keeps the invariant of the link. -/
def Obligations.LinkInvariant : Prop := ∀ s t : State, LinkInv s → step s = .next t → LinkInv t

/-- R130, R111, R31, R153, R42, R127: every step keeps the invariant of the zone. -/
def Obligations.ZoneInvariant : Prop := ∀ s t : State, ZoneInv s → step s = .next t → ZoneInv t

/-- R30, R33, R36, R46, R55, R64, R70, R96: every step keeps the invariant of the track, from states in which CONFIG and
ARMED have no items (ZoneInvariant): at most 64 items, no tag twice, every name of an item the name of one in the track,
and at every CHECK station and LINE source at most one window for each item, in track order. -/
def Obligations.TrackInvariant : Prop := ∀ s t : State, ZoneInv s → TrackInv s → step s = .next t → TrackInv t

/-- R30, R35, R43: every step keeps the items of the track in the strict serial order of their corrected entry positions,
while the track position and the items lie within a quarter of the circle of positions and no open checkpoint window has
been passed (Near). -/
def Obligations.TrackOrder : Prop :=
  ∀ (s t : State) (b : Pos), TrackInv s → Near b s → OrderOk s → step s = .next t → OrderOk t

/-- R21, R22, R52, R57, R58, R86, R120: every step keeps the invariant of the configuration. -/
def Obligations.ConfigInvariant : Prop := ∀ s t : State, ConfigInv s → step s = .next t → ConfigInv t

/-- R32, R89: while an item stays in the track, its tag, its entry time, a decision once made and every flag once set
stay as they are. -/
def Obligations.ItemHistory : Prop :=
  ∀ s t : State, TrackInv s → step s = .next t → ∀ it ∈ s.trk.track, ∀ jt ∈ t.trk.track, jt.tag = it.tag → Kept it jt
end

