-- ==== Sys2Proof/Laws/Codec.lean ====
section
/-! SUPPORT. Reading back what the part sends: indices, flags, codes and little-endian fields. One lemma says what a
code reads back as, one that a code out of range reads as nothing. -/

namespace Sys2Proof.Laws

open Sys2Proof.Machine

/-! ## Indices and flags -/

@[simp] theorem idxByte_toNat {n : Nat} (i : Fin n) (h : n ≤ 256) : (idxByte i).toNat = i.val := by
  simp only [idxByte, BitVec.toNat_ofNat]
  have := i.isLt
  omega

theorem asFin_idxByte {n : Nat} (i : Fin n) (h : n ≤ 256) : asFin n (idxByte i) = some i := by
  simp [asFin, idxByte_toNat i h]

@[simp] theorem asFin_idxByte_4 (i : Fin 4) : asFin 4 (idxByte i) = some i := asFin_idxByte i (by decide)
@[simp] theorem asFin_idxByte_8 (i : Fin 8) : asFin 8 (idxByte i) = some i := asFin_idxByte i (by decide)
@[simp] theorem asFin_idxByte_16 (i : Fin 16) : asFin 16 (idxByte i) = some i := asFin_idxByte i (by decide)

theorem asFin_none {n : Nat} {b : Byte} (h : n ≤ b.toNat) : asFin n b = none := by
  simp [asFin, h]

theorem asFin_some {n : Nat} {b : Byte} (h : b.toNat < n) : asFin n b = some ⟨b.toNat, h⟩ := by
  simp [asFin, h]

/-- An index byte is the byte it was read from. -/
theorem idxByte_of_asFin {n : Nat} {b : Byte} {i : Fin n} (h : asFin n b = some i) : idxByte i = b := by
  unfold asFin at h
  split at h
  · cases h
    simp [idxByte]
  · simp at h

@[simp] theorem asFlag_flagByte (b : Bool) : asFlag (flagByte b) = some b := by cases b <;> rfl

theorem asFlag_none {b : Byte} (h : 2 ≤ b.toNat) : asFlag b = none := by
  unfold asFlag
  split <;> first | omega | rfl

/-! ## Codes -/

@[simp] theorem encMode_code (m : EncMode) : EncMode.ofByte m.code = some m := by cases m <;> rfl
@[simp] theorem encFilter_code (f : EncFilter) : EncFilter.ofByte f.code = some f := by cases f <;> rfl
@[simp] theorem role_code (r : Role) : Role.ofByte r.code = some r := by cases r <;> rfl
@[simp] theorem inputFilter_code (f : InputFilter) : InputFilter.ofByte f.code = some f := by cases f <;> rfl
@[simp] theorem edgeSel_code (e : EdgeSel) : EdgeSel.ofByte e.code = some e := by cases e <;> rfl
@[simp] theorem stationKind_code (k : StationKind) : StationKind.ofByte k.code = some k := by cases k <;> rfl
@[simp] theorem stationMode_code (m : StationMode) : StationMode.ofByte m.code = some m := by cases m <;> rfl
@[simp] theorem missingPolicy_code (p : MissingPolicy) : MissingPolicy.ofByte p.code = some p := by cases p <;> rfl
@[simp] theorem disposition_code (d : Disposition) : Disposition.ofCode d.code.toNat = some d := by cases d <;> rfl
@[simp] theorem collision_code (c : Collision) : Collision.ofByte c.code = some c := by cases c <;> rfl
@[simp] theorem holdPolicy_code (h : HoldPolicy) : HoldPolicy.ofByte h.code = some h := by cases h <;> rfl

theorem encMode_none {b : Byte} (h : 4 ≤ b.toNat) : EncMode.ofByte b = none := by
  unfold EncMode.ofByte
  split <;> first | omega | rfl

theorem encFilter_none {b : Byte} (h : 2 ≤ b.toNat) : EncFilter.ofByte b = none := by
  unfold EncFilter.ofByte
  split <;> first | omega | rfl

theorem role_none {b : Byte} (h : 5 ≤ b.toNat) : Role.ofByte b = none := by
  unfold Role.ofByte
  split <;> first | omega | rfl

theorem inputFilter_none {b : Byte} (h : 5 ≤ b.toNat) : InputFilter.ofByte b = none := by
  unfold InputFilter.ofByte
  split <;> first | omega | rfl

theorem probeMode_none {b : Byte} (h : 2 ≤ b.toNat) : ProbeState.ofMode b = none := by
  unfold ProbeState.ofMode
  split <;> first | omega | rfl

theorem edgeSel_none {b : Byte} (h : 3 ≤ b.toNat) : EdgeSel.ofByte b = none := by
  unfold EdgeSel.ofByte
  split <;> first | omega | rfl

theorem stationMode_none {b : Byte} (h : 3 ≤ b.toNat) : StationMode.ofByte b = none := by
  unfold StationMode.ofByte
  split <;> first | omega | rfl

theorem collision_none {b : Byte} (h : 2 ≤ b.toNat) : Collision.ofByte b = none := by
  unfold Collision.ofByte
  split <;> first | omega | rfl

theorem holdPolicy_none {b : Byte} (h : 2 ≤ b.toNat) : HoldPolicy.ofByte b = none := by
  unfold HoldPolicy.ofByte
  split <;> first | omega | rfl

/-! ## Little-endian fields (R162) -/

@[simp] theorem byteAt_zero (b : Byte) (p : List Byte) : byteAt (b :: p) 0 = b := rfl

@[simp] theorem byteAt_succ (b : Byte) (p : List Byte) (i : Nat) : byteAt (b :: p) (i + 1) = byteAt p i := rfl

theorem le_two {w : Nat} (v : BitVec w) : le 2 v = [v.setWidth 8, (v >>> 8).setWidth 8] := by
  simp [le, List.range_succ]

theorem le_four {w : Nat} (v : BitVec w) :
    le 4 v = [v.setWidth 8, (v >>> 8).setWidth 8, (v >>> 16).setWidth 8, (v >>> 24).setWidth 8] := by
  simp [le, List.range_succ]

@[simp] theorem le_length {w : Nat} (n : Nat) (v : BitVec w) : (le n v).length = n := by simp [le]

/-- The two bytes of a 16-bit value, put together again. -/
theorem join_u16 (v : BitVec 16) : (v >>> 8).setWidth 8 ++ v.setWidth 8 = v := by
  ext i hi
  simp only [BitVec.getElem_append, BitVec.getElem_setWidth, BitVec.getLsbD_ushiftRight]
  split
  · simp [BitVec.getLsbD_eq_getElem hi]
  · rw [show 8 + (i - 8) = i by omega, BitVec.getLsbD_eq_getElem hi]

/-- The four bytes of a 32-bit value, put together again. -/
theorem join_u32 (v : BitVec 32) :
    ((v >>> 24).setWidth 8 ++ (v >>> 16).setWidth 8 : BitVec 16) ++ ((v >>> 8).setWidth 8 ++ v.setWidth 8 : BitVec 16)
      = v := by
  ext i hi
  simp only [BitVec.getElem_append, BitVec.getElem_setWidth, BitVec.getLsbD_ushiftRight]
  split
  · split
    · rw [BitVec.getLsbD_eq_getElem hi]
    · rw [show 8 + (i - 8) = i by omega, BitVec.getLsbD_eq_getElem hi]
  · split
    · rw [show 16 + (i - 16) = i by omega, BitVec.getLsbD_eq_getElem hi]
    · rw [show 24 + (i - 16 - 8) = i by omega, BitVec.getLsbD_eq_getElem hi]

/-- The 16-bit field at the head of a payload. -/
theorem u16_head (v : BitVec 16) (p : List Byte) : u16 (le 2 v ++ p) 0 = v := by
  rw [le_two]
  exact join_u16 v

/-- The 32-bit field at the head of a payload. -/
theorem u32_head (v : BitVec 32) (p : List Byte) : u32 (le 4 v ++ p) 0 = v := by
  rw [le_four]
  exact join_u32 v

/-- A field further on in a payload. -/
theorem u16_cons (b : Byte) (p : List Byte) (i : Nat) : u16 (b :: p) (i + 1) = u16 p i := rfl

theorem u32_cons (b : Byte) (p : List Byte) (i : Nat) : u32 (b :: p) (i + 1) = u32 p i := rfl

end Sys2Proof.Laws
end

