-- ==== Sys2Proof/Laws/State.lean ====
section
/-! SUPPORT. One lemma per field per update of State, true by definition: later proofs rewrite with these and unfold no
record update. -/

namespace Sys2Proof.Machine

/-! ### modPos -/

@[simp] theorem modPos_pos (f : PosUnit → PosUnit) (s : State) : (s.modPos f).pos = f s.pos := rfl
@[simp] theorem modPos_inp (f : PosUnit → PosUnit) (s : State) : (s.modPos f).inp = s.inp := rfl
@[simp] theorem modPos_trk (f : PosUnit → PosUnit) (s : State) : (s.modPos f).trk = s.trk := rfl
@[simp] theorem modPos_stn (f : PosUnit → PosUnit) (s : State) : (s.modPos f).stn = s.stn := rfl
@[simp] theorem modPos_vrd (f : PosUnit → PosUnit) (s : State) : (s.modPos f).vrd = s.vrd := rfl
@[simp] theorem modPos_out (f : PosUnit → PosUnit) (s : State) : (s.modPos f).out = s.out := rfl
@[simp] theorem modPos_zon (f : PosUnit → PosUnit) (s : State) : (s.modPos f).zon = s.zon := rfl
@[simp] theorem modPos_tch (f : PosUnit → PosUnit) (s : State) : (s.modPos f).tch = s.tch := rfl
@[simp] theorem modPos_lnk (f : PosUnit → PosUnit) (s : State) : (s.modPos f).lnk = s.lnk := rfl
@[simp] theorem modPos_choice (f : PosUnit → PosUnit) (s : State) : (s.modPos f).choice = s.choice := rfl
@[simp] theorem modPos_pending (f : PosUnit → PosUnit) (s : State) : (s.modPos f).pending = s.pending := rfl
@[simp] theorem modPos_now (f : PosUnit → PosUnit) (s : State) : (s.modPos f).now = (f s.pos).timeBase := rfl
@[simp] theorem modPos_here (f : PosUnit → PosUnit) (s : State) : (s.modPos f).here = (f s.pos).position := rfl

/-! ### modInp -/

@[simp] theorem modInp_pos (f : InpUnit → InpUnit) (s : State) : (s.modInp f).pos = s.pos := rfl
@[simp] theorem modInp_inp (f : InpUnit → InpUnit) (s : State) : (s.modInp f).inp = f s.inp := rfl
@[simp] theorem modInp_trk (f : InpUnit → InpUnit) (s : State) : (s.modInp f).trk = s.trk := rfl
@[simp] theorem modInp_stn (f : InpUnit → InpUnit) (s : State) : (s.modInp f).stn = s.stn := rfl
@[simp] theorem modInp_vrd (f : InpUnit → InpUnit) (s : State) : (s.modInp f).vrd = s.vrd := rfl
@[simp] theorem modInp_out (f : InpUnit → InpUnit) (s : State) : (s.modInp f).out = s.out := rfl
@[simp] theorem modInp_zon (f : InpUnit → InpUnit) (s : State) : (s.modInp f).zon = s.zon := rfl
@[simp] theorem modInp_tch (f : InpUnit → InpUnit) (s : State) : (s.modInp f).tch = s.tch := rfl
@[simp] theorem modInp_lnk (f : InpUnit → InpUnit) (s : State) : (s.modInp f).lnk = s.lnk := rfl
@[simp] theorem modInp_choice (f : InpUnit → InpUnit) (s : State) : (s.modInp f).choice = s.choice := rfl
@[simp] theorem modInp_pending (f : InpUnit → InpUnit) (s : State) : (s.modInp f).pending = s.pending := rfl
@[simp] theorem modInp_now (f : InpUnit → InpUnit) (s : State) : (s.modInp f).now = s.now := rfl
@[simp] theorem modInp_here (f : InpUnit → InpUnit) (s : State) : (s.modInp f).here = s.here := rfl

/-! ### modTrk -/

@[simp] theorem modTrk_pos (f : TrkUnit → TrkUnit) (s : State) : (s.modTrk f).pos = s.pos := rfl
@[simp] theorem modTrk_inp (f : TrkUnit → TrkUnit) (s : State) : (s.modTrk f).inp = s.inp := rfl
@[simp] theorem modTrk_trk (f : TrkUnit → TrkUnit) (s : State) : (s.modTrk f).trk = f s.trk := rfl
@[simp] theorem modTrk_stn (f : TrkUnit → TrkUnit) (s : State) : (s.modTrk f).stn = s.stn := rfl
@[simp] theorem modTrk_vrd (f : TrkUnit → TrkUnit) (s : State) : (s.modTrk f).vrd = s.vrd := rfl
@[simp] theorem modTrk_out (f : TrkUnit → TrkUnit) (s : State) : (s.modTrk f).out = s.out := rfl
@[simp] theorem modTrk_zon (f : TrkUnit → TrkUnit) (s : State) : (s.modTrk f).zon = s.zon := rfl
@[simp] theorem modTrk_tch (f : TrkUnit → TrkUnit) (s : State) : (s.modTrk f).tch = s.tch := rfl
@[simp] theorem modTrk_lnk (f : TrkUnit → TrkUnit) (s : State) : (s.modTrk f).lnk = s.lnk := rfl
@[simp] theorem modTrk_choice (f : TrkUnit → TrkUnit) (s : State) : (s.modTrk f).choice = s.choice := rfl
@[simp] theorem modTrk_pending (f : TrkUnit → TrkUnit) (s : State) : (s.modTrk f).pending = s.pending := rfl
@[simp] theorem modTrk_now (f : TrkUnit → TrkUnit) (s : State) : (s.modTrk f).now = s.now := rfl
@[simp] theorem modTrk_here (f : TrkUnit → TrkUnit) (s : State) : (s.modTrk f).here = s.here := rfl

/-! ### modStn -/

@[simp] theorem modStn_pos (f : StnUnit → StnUnit) (s : State) : (s.modStn f).pos = s.pos := rfl
@[simp] theorem modStn_inp (f : StnUnit → StnUnit) (s : State) : (s.modStn f).inp = s.inp := rfl
@[simp] theorem modStn_trk (f : StnUnit → StnUnit) (s : State) : (s.modStn f).trk = s.trk := rfl
@[simp] theorem modStn_stn (f : StnUnit → StnUnit) (s : State) : (s.modStn f).stn = f s.stn := rfl
@[simp] theorem modStn_vrd (f : StnUnit → StnUnit) (s : State) : (s.modStn f).vrd = s.vrd := rfl
@[simp] theorem modStn_out (f : StnUnit → StnUnit) (s : State) : (s.modStn f).out = s.out := rfl
@[simp] theorem modStn_zon (f : StnUnit → StnUnit) (s : State) : (s.modStn f).zon = s.zon := rfl
@[simp] theorem modStn_tch (f : StnUnit → StnUnit) (s : State) : (s.modStn f).tch = s.tch := rfl
@[simp] theorem modStn_lnk (f : StnUnit → StnUnit) (s : State) : (s.modStn f).lnk = s.lnk := rfl
@[simp] theorem modStn_choice (f : StnUnit → StnUnit) (s : State) : (s.modStn f).choice = s.choice := rfl
@[simp] theorem modStn_pending (f : StnUnit → StnUnit) (s : State) : (s.modStn f).pending = s.pending := rfl
@[simp] theorem modStn_now (f : StnUnit → StnUnit) (s : State) : (s.modStn f).now = s.now := rfl
@[simp] theorem modStn_here (f : StnUnit → StnUnit) (s : State) : (s.modStn f).here = s.here := rfl

/-! ### modVrd -/

@[simp] theorem modVrd_pos (f : VrdUnit → VrdUnit) (s : State) : (s.modVrd f).pos = s.pos := rfl
@[simp] theorem modVrd_inp (f : VrdUnit → VrdUnit) (s : State) : (s.modVrd f).inp = s.inp := rfl
@[simp] theorem modVrd_trk (f : VrdUnit → VrdUnit) (s : State) : (s.modVrd f).trk = s.trk := rfl
@[simp] theorem modVrd_stn (f : VrdUnit → VrdUnit) (s : State) : (s.modVrd f).stn = s.stn := rfl
@[simp] theorem modVrd_vrd (f : VrdUnit → VrdUnit) (s : State) : (s.modVrd f).vrd = f s.vrd := rfl
@[simp] theorem modVrd_out (f : VrdUnit → VrdUnit) (s : State) : (s.modVrd f).out = s.out := rfl
@[simp] theorem modVrd_zon (f : VrdUnit → VrdUnit) (s : State) : (s.modVrd f).zon = s.zon := rfl
@[simp] theorem modVrd_tch (f : VrdUnit → VrdUnit) (s : State) : (s.modVrd f).tch = s.tch := rfl
@[simp] theorem modVrd_lnk (f : VrdUnit → VrdUnit) (s : State) : (s.modVrd f).lnk = s.lnk := rfl
@[simp] theorem modVrd_choice (f : VrdUnit → VrdUnit) (s : State) : (s.modVrd f).choice = s.choice := rfl
@[simp] theorem modVrd_pending (f : VrdUnit → VrdUnit) (s : State) : (s.modVrd f).pending = s.pending := rfl
@[simp] theorem modVrd_now (f : VrdUnit → VrdUnit) (s : State) : (s.modVrd f).now = s.now := rfl
@[simp] theorem modVrd_here (f : VrdUnit → VrdUnit) (s : State) : (s.modVrd f).here = s.here := rfl

/-! ### modOut -/

@[simp] theorem modOut_pos (f : OutUnit → OutUnit) (s : State) : (s.modOut f).pos = s.pos := rfl
@[simp] theorem modOut_inp (f : OutUnit → OutUnit) (s : State) : (s.modOut f).inp = s.inp := rfl
@[simp] theorem modOut_trk (f : OutUnit → OutUnit) (s : State) : (s.modOut f).trk = s.trk := rfl
@[simp] theorem modOut_stn (f : OutUnit → OutUnit) (s : State) : (s.modOut f).stn = s.stn := rfl
@[simp] theorem modOut_vrd (f : OutUnit → OutUnit) (s : State) : (s.modOut f).vrd = s.vrd := rfl
@[simp] theorem modOut_out (f : OutUnit → OutUnit) (s : State) : (s.modOut f).out = f s.out := rfl
@[simp] theorem modOut_zon (f : OutUnit → OutUnit) (s : State) : (s.modOut f).zon = s.zon := rfl
@[simp] theorem modOut_tch (f : OutUnit → OutUnit) (s : State) : (s.modOut f).tch = s.tch := rfl
@[simp] theorem modOut_lnk (f : OutUnit → OutUnit) (s : State) : (s.modOut f).lnk = s.lnk := rfl
@[simp] theorem modOut_choice (f : OutUnit → OutUnit) (s : State) : (s.modOut f).choice = s.choice := rfl
@[simp] theorem modOut_pending (f : OutUnit → OutUnit) (s : State) : (s.modOut f).pending = s.pending := rfl
@[simp] theorem modOut_now (f : OutUnit → OutUnit) (s : State) : (s.modOut f).now = s.now := rfl
@[simp] theorem modOut_here (f : OutUnit → OutUnit) (s : State) : (s.modOut f).here = s.here := rfl

/-! ### modZon -/

@[simp] theorem modZon_pos (f : ZonUnit → ZonUnit) (s : State) : (s.modZon f).pos = s.pos := rfl
@[simp] theorem modZon_inp (f : ZonUnit → ZonUnit) (s : State) : (s.modZon f).inp = s.inp := rfl
@[simp] theorem modZon_trk (f : ZonUnit → ZonUnit) (s : State) : (s.modZon f).trk = s.trk := rfl
@[simp] theorem modZon_stn (f : ZonUnit → ZonUnit) (s : State) : (s.modZon f).stn = s.stn := rfl
@[simp] theorem modZon_vrd (f : ZonUnit → ZonUnit) (s : State) : (s.modZon f).vrd = s.vrd := rfl
@[simp] theorem modZon_out (f : ZonUnit → ZonUnit) (s : State) : (s.modZon f).out = s.out := rfl
@[simp] theorem modZon_zon (f : ZonUnit → ZonUnit) (s : State) : (s.modZon f).zon = f s.zon := rfl
@[simp] theorem modZon_tch (f : ZonUnit → ZonUnit) (s : State) : (s.modZon f).tch = s.tch := rfl
@[simp] theorem modZon_lnk (f : ZonUnit → ZonUnit) (s : State) : (s.modZon f).lnk = s.lnk := rfl
@[simp] theorem modZon_choice (f : ZonUnit → ZonUnit) (s : State) : (s.modZon f).choice = s.choice := rfl
@[simp] theorem modZon_pending (f : ZonUnit → ZonUnit) (s : State) : (s.modZon f).pending = s.pending := rfl
@[simp] theorem modZon_now (f : ZonUnit → ZonUnit) (s : State) : (s.modZon f).now = s.now := rfl
@[simp] theorem modZon_here (f : ZonUnit → ZonUnit) (s : State) : (s.modZon f).here = s.here := rfl

/-! ### modTch -/

@[simp] theorem modTch_pos (f : TchUnit → TchUnit) (s : State) : (s.modTch f).pos = s.pos := rfl
@[simp] theorem modTch_inp (f : TchUnit → TchUnit) (s : State) : (s.modTch f).inp = s.inp := rfl
@[simp] theorem modTch_trk (f : TchUnit → TchUnit) (s : State) : (s.modTch f).trk = s.trk := rfl
@[simp] theorem modTch_stn (f : TchUnit → TchUnit) (s : State) : (s.modTch f).stn = s.stn := rfl
@[simp] theorem modTch_vrd (f : TchUnit → TchUnit) (s : State) : (s.modTch f).vrd = s.vrd := rfl
@[simp] theorem modTch_out (f : TchUnit → TchUnit) (s : State) : (s.modTch f).out = s.out := rfl
@[simp] theorem modTch_zon (f : TchUnit → TchUnit) (s : State) : (s.modTch f).zon = s.zon := rfl
@[simp] theorem modTch_tch (f : TchUnit → TchUnit) (s : State) : (s.modTch f).tch = f s.tch := rfl
@[simp] theorem modTch_lnk (f : TchUnit → TchUnit) (s : State) : (s.modTch f).lnk = s.lnk := rfl
@[simp] theorem modTch_choice (f : TchUnit → TchUnit) (s : State) : (s.modTch f).choice = s.choice := rfl
@[simp] theorem modTch_pending (f : TchUnit → TchUnit) (s : State) : (s.modTch f).pending = s.pending := rfl
@[simp] theorem modTch_now (f : TchUnit → TchUnit) (s : State) : (s.modTch f).now = s.now := rfl
@[simp] theorem modTch_here (f : TchUnit → TchUnit) (s : State) : (s.modTch f).here = s.here := rfl

/-! ### modLnk -/

@[simp] theorem modLnk_pos (f : LnkUnit → LnkUnit) (s : State) : (s.modLnk f).pos = s.pos := rfl
@[simp] theorem modLnk_inp (f : LnkUnit → LnkUnit) (s : State) : (s.modLnk f).inp = s.inp := rfl
@[simp] theorem modLnk_trk (f : LnkUnit → LnkUnit) (s : State) : (s.modLnk f).trk = s.trk := rfl
@[simp] theorem modLnk_stn (f : LnkUnit → LnkUnit) (s : State) : (s.modLnk f).stn = s.stn := rfl
@[simp] theorem modLnk_vrd (f : LnkUnit → LnkUnit) (s : State) : (s.modLnk f).vrd = s.vrd := rfl
@[simp] theorem modLnk_out (f : LnkUnit → LnkUnit) (s : State) : (s.modLnk f).out = s.out := rfl
@[simp] theorem modLnk_zon (f : LnkUnit → LnkUnit) (s : State) : (s.modLnk f).zon = s.zon := rfl
@[simp] theorem modLnk_tch (f : LnkUnit → LnkUnit) (s : State) : (s.modLnk f).tch = s.tch := rfl
@[simp] theorem modLnk_lnk (f : LnkUnit → LnkUnit) (s : State) : (s.modLnk f).lnk = f s.lnk := rfl
@[simp] theorem modLnk_choice (f : LnkUnit → LnkUnit) (s : State) : (s.modLnk f).choice = s.choice := rfl
@[simp] theorem modLnk_pending (f : LnkUnit → LnkUnit) (s : State) : (s.modLnk f).pending = s.pending := rfl
@[simp] theorem modLnk_now (f : LnkUnit → LnkUnit) (s : State) : (s.modLnk f).now = s.now := rfl
@[simp] theorem modLnk_here (f : LnkUnit → LnkUnit) (s : State) : (s.modLnk f).here = s.here := rfl

/-! ### nextChoice -/

@[simp] theorem nextChoice_pos (s : State) : s.nextChoice.pos = s.pos := rfl
@[simp] theorem nextChoice_inp (s : State) : s.nextChoice.inp = s.inp := rfl
@[simp] theorem nextChoice_trk (s : State) : s.nextChoice.trk = s.trk := rfl
@[simp] theorem nextChoice_stn (s : State) : s.nextChoice.stn = s.stn := rfl
@[simp] theorem nextChoice_vrd (s : State) : s.nextChoice.vrd = s.vrd := rfl
@[simp] theorem nextChoice_out (s : State) : s.nextChoice.out = s.out := rfl
@[simp] theorem nextChoice_zon (s : State) : s.nextChoice.zon = s.zon := rfl
@[simp] theorem nextChoice_tch (s : State) : s.nextChoice.tch = s.tch := rfl
@[simp] theorem nextChoice_lnk (s : State) : s.nextChoice.lnk = s.lnk := rfl
@[simp] theorem nextChoice_choice (s : State) : s.nextChoice.choice = s.choice + 1 := rfl
@[simp] theorem nextChoice_pending (s : State) : s.nextChoice.pending = s.pending := rfl

/-! ### modInput -/

@[simp] theorem modInput_pos (i : Fin 8) (f : Input → Input) (s : State) :
    (s.modInput i f).pos = s.pos := rfl
@[simp] theorem modInput_inp (i : Fin 8) (f : Input → Input) (s : State) :
    (s.modInput i f).inp = { s.inp with inputs := modAt s.inp.inputs i f } := rfl
@[simp] theorem modInput_trk (i : Fin 8) (f : Input → Input) (s : State) :
    (s.modInput i f).trk = s.trk := rfl
@[simp] theorem modInput_stn (i : Fin 8) (f : Input → Input) (s : State) :
    (s.modInput i f).stn = s.stn := rfl
@[simp] theorem modInput_vrd (i : Fin 8) (f : Input → Input) (s : State) :
    (s.modInput i f).vrd = s.vrd := rfl
@[simp] theorem modInput_out (i : Fin 8) (f : Input → Input) (s : State) :
    (s.modInput i f).out = s.out := rfl
@[simp] theorem modInput_zon (i : Fin 8) (f : Input → Input) (s : State) :
    (s.modInput i f).zon = s.zon := rfl
@[simp] theorem modInput_tch (i : Fin 8) (f : Input → Input) (s : State) :
    (s.modInput i f).tch = s.tch := rfl
@[simp] theorem modInput_lnk (i : Fin 8) (f : Input → Input) (s : State) :
    (s.modInput i f).lnk = s.lnk := rfl
@[simp] theorem modInput_choice (i : Fin 8) (f : Input → Input) (s : State) :
    (s.modInput i f).choice = s.choice := rfl
@[simp] theorem modInput_pending (i : Fin 8) (f : Input → Input) (s : State) :
    (s.modInput i f).pending = s.pending := rfl

/-! ### modStation -/

@[simp] theorem modStation_pos (i : Fin 8) (f : Station → Station) (s : State) :
    (s.modStation i f).pos = s.pos := rfl
@[simp] theorem modStation_inp (i : Fin 8) (f : Station → Station) (s : State) :
    (s.modStation i f).inp = s.inp := rfl
@[simp] theorem modStation_trk (i : Fin 8) (f : Station → Station) (s : State) :
    (s.modStation i f).trk = s.trk := rfl
@[simp] theorem modStation_stn (i : Fin 8) (f : Station → Station) (s : State) :
    (s.modStation i f).stn = { s.stn with stations := modAt s.stn.stations i f } := rfl
@[simp] theorem modStation_vrd (i : Fin 8) (f : Station → Station) (s : State) :
    (s.modStation i f).vrd = s.vrd := rfl
@[simp] theorem modStation_out (i : Fin 8) (f : Station → Station) (s : State) :
    (s.modStation i f).out = s.out := rfl
@[simp] theorem modStation_zon (i : Fin 8) (f : Station → Station) (s : State) :
    (s.modStation i f).zon = s.zon := rfl
@[simp] theorem modStation_tch (i : Fin 8) (f : Station → Station) (s : State) :
    (s.modStation i f).tch = s.tch := rfl
@[simp] theorem modStation_lnk (i : Fin 8) (f : Station → Station) (s : State) :
    (s.modStation i f).lnk = s.lnk := rfl
@[simp] theorem modStation_choice (i : Fin 8) (f : Station → Station) (s : State) :
    (s.modStation i f).choice = s.choice := rfl
@[simp] theorem modStation_pending (i : Fin 8) (f : Station → Station) (s : State) :
    (s.modStation i f).pending = s.pending := rfl

/-! ### modSource -/

@[simp] theorem modSource_pos (i : Fin 4) (f : Source → Source) (s : State) :
    (s.modSource i f).pos = s.pos := rfl
@[simp] theorem modSource_inp (i : Fin 4) (f : Source → Source) (s : State) :
    (s.modSource i f).inp = s.inp := rfl
@[simp] theorem modSource_trk (i : Fin 4) (f : Source → Source) (s : State) :
    (s.modSource i f).trk = s.trk := rfl
@[simp] theorem modSource_stn (i : Fin 4) (f : Source → Source) (s : State) :
    (s.modSource i f).stn = s.stn := rfl
@[simp] theorem modSource_vrd (i : Fin 4) (f : Source → Source) (s : State) :
    (s.modSource i f).vrd = { s.vrd with sources := modAt s.vrd.sources i f } := rfl
@[simp] theorem modSource_out (i : Fin 4) (f : Source → Source) (s : State) :
    (s.modSource i f).out = s.out := rfl
@[simp] theorem modSource_zon (i : Fin 4) (f : Source → Source) (s : State) :
    (s.modSource i f).zon = s.zon := rfl
@[simp] theorem modSource_tch (i : Fin 4) (f : Source → Source) (s : State) :
    (s.modSource i f).tch = s.tch := rfl
@[simp] theorem modSource_lnk (i : Fin 4) (f : Source → Source) (s : State) :
    (s.modSource i f).lnk = s.lnk := rfl
@[simp] theorem modSource_choice (i : Fin 4) (f : Source → Source) (s : State) :
    (s.modSource i f).choice = s.choice := rfl
@[simp] theorem modSource_pending (i : Fin 4) (f : Source → Source) (s : State) :
    (s.modSource i f).pending = s.pending := rfl

/-! ### modOutput -/

@[simp] theorem modOutput_pos (i : Fin 8) (f : Output → Output) (s : State) :
    (s.modOutput i f).pos = s.pos := rfl
@[simp] theorem modOutput_inp (i : Fin 8) (f : Output → Output) (s : State) :
    (s.modOutput i f).inp = s.inp := rfl
@[simp] theorem modOutput_trk (i : Fin 8) (f : Output → Output) (s : State) :
    (s.modOutput i f).trk = s.trk := rfl
@[simp] theorem modOutput_stn (i : Fin 8) (f : Output → Output) (s : State) :
    (s.modOutput i f).stn = s.stn := rfl
@[simp] theorem modOutput_vrd (i : Fin 8) (f : Output → Output) (s : State) :
    (s.modOutput i f).vrd = s.vrd := rfl
@[simp] theorem modOutput_out (i : Fin 8) (f : Output → Output) (s : State) :
    (s.modOutput i f).out = { s.out with outputs := modAt s.out.outputs i f } := rfl
@[simp] theorem modOutput_zon (i : Fin 8) (f : Output → Output) (s : State) :
    (s.modOutput i f).zon = s.zon := rfl
@[simp] theorem modOutput_tch (i : Fin 8) (f : Output → Output) (s : State) :
    (s.modOutput i f).tch = s.tch := rfl
@[simp] theorem modOutput_lnk (i : Fin 8) (f : Output → Output) (s : State) :
    (s.modOutput i f).lnk = s.lnk := rfl
@[simp] theorem modOutput_choice (i : Fin 8) (f : Output → Output) (s : State) :
    (s.modOutput i f).choice = s.choice := rfl
@[simp] theorem modOutput_pending (i : Fin 8) (f : Output → Output) (s : State) :
    (s.modOutput i f).pending = s.pending := rfl

/-! ### modItem -/

@[simp] theorem modItem_pos (tag : Tag) (f : Item → Item) (s : State) :
    (s.modItem tag f).pos = s.pos := rfl
@[simp] theorem modItem_inp (tag : Tag) (f : Item → Item) (s : State) :
    (s.modItem tag f).inp = s.inp := rfl
@[simp] theorem modItem_trk (tag : Tag) (f : Item → Item) (s : State) :
    (s.modItem tag f).trk = { s.trk with track := s.trk.track.map fun it => if it.tag = tag then f it else it } := rfl
@[simp] theorem modItem_stn (tag : Tag) (f : Item → Item) (s : State) :
    (s.modItem tag f).stn = s.stn := rfl
@[simp] theorem modItem_vrd (tag : Tag) (f : Item → Item) (s : State) :
    (s.modItem tag f).vrd = s.vrd := rfl
@[simp] theorem modItem_out (tag : Tag) (f : Item → Item) (s : State) :
    (s.modItem tag f).out = s.out := rfl
@[simp] theorem modItem_zon (tag : Tag) (f : Item → Item) (s : State) :
    (s.modItem tag f).zon = s.zon := rfl
@[simp] theorem modItem_tch (tag : Tag) (f : Item → Item) (s : State) :
    (s.modItem tag f).tch = s.tch := rfl
@[simp] theorem modItem_lnk (tag : Tag) (f : Item → Item) (s : State) :
    (s.modItem tag f).lnk = s.lnk := rfl
@[simp] theorem modItem_choice (tag : Tag) (f : Item → Item) (s : State) :
    (s.modItem tag f).choice = s.choice := rfl
@[simp] theorem modItem_pending (tag : Tag) (f : Item → Item) (s : State) :
    (s.modItem tag f).pending = s.pending := rfl

/-! ### Tables -/

@[simp] theorem modAt_getElem {α : Type} {n : Nat} (v : Vector α n) (i : Fin n) (f : α → α) (k : Nat) (h : k < n) :
    (modAt v i f)[k] = if i.val = k then f v[k] else v[k] := by
  unfold modAt
  rw [Vector.getElem_set]
  split <;> simp_all

@[simp] theorem mapAll_getElem {α : Type} {n : Nat} (v : Vector α n) (f : Fin n → α → α) (k : Nat) (h : k < n) :
    (mapAll v f)[k] = f ⟨k, h⟩ v[k] := by
  simp [mapAll]

end Sys2Proof.Machine
end

