-- ==== Sys2Proof/Laws/Notices.lean ====
section
/-! SUPPORT. What offering a notice can do: it changes the notice queue and the loss count, and keeps the queue's bound
and order. -/

namespace Sys2Proof.Laws

open Sys2Proof.Machine Sys2Proof.Safety

theorem insertNotice_length (q : QueuedNotice) (l : List QueuedNotice) :
    (insertNotice q l).length = l.length + 1 := by
  induction l with
  | nil => rfl
  | cons x xs ih => unfold insertNotice; split <;> simp [ih]

theorem mem_insertNotice (q x : QueuedNotice) (l : List QueuedNotice) :
    x ∈ insertNotice q l ↔ x = q ∨ x ∈ l := by
  induction l with
  | nil => simp [insertNotice]
  | cons y ys ih =>
    unfold insertNotice
    split
    · simp
    · simp only [List.mem_cons, ih]; tauto

theorem insertNotice_sorted (q : QueuedNotice) (l : List QueuedNotice)
    (h : l.Pairwise fun a b => b.level ≤ a.level) : (insertNotice q l).Pairwise fun a b => b.level ≤ a.level := by
  induction l with
  | nil => simp [insertNotice]
  | cons y ys ih =>
    rw [List.pairwise_cons] at h
    unfold insertNotice
    split
    · rename_i hlt
      simp only [List.pairwise_cons, List.mem_cons]
      refine ⟨?_, h.1, h.2⟩
      rintro b (rfl | hb)
      · exact le_of_lt hlt
      · exact le_trans (h.1 b hb) (le_of_lt hlt)
    · rename_i hge
      rw [List.pairwise_cons]
      refine ⟨fun b hb => ?_, ih h.2⟩
      rcases (mem_insertNotice q b ys).1 hb with rfl | hb
      · exact le_of_not_gt hge
      · exact h.1 b hb

/-- A notice enters behind every queued notice of its level or a higher one, ahead of the others. -/
theorem insertNotice_eq (q : QueuedNotice) (l : List QueuedNotice) (h : l.Pairwise fun a b => b.level ≤ a.level) :
    insertNotice q l = (l.filter fun x => q.level ≤ x.level) ++ q :: l.filter fun x => x.level < q.level := by
  induction l with
  | nil => rfl
  | cons y ys ih =>
    rw [List.pairwise_cons] at h
    unfold insertNotice
    split
    · rename_i hlt
      have hlow : ∀ x ∈ y :: ys, x.level < q.level := by
        intro x hx
        rcases List.mem_cons.1 hx with rfl | hx
        · exact hlt
        · exact lt_of_le_of_lt (h.1 x hx) hlt
      rw [List.filter_eq_nil_iff.2, List.filter_eq_self.2]
      · rfl
      · intro x hx; simpa using hlow x hx
      · intro x hx; simpa using hlow x hx
    · rename_i hge
      rw [ih h.2]
      simp [hge, le_of_not_gt hge]

theorem enqueue_ok (q : QueuedNotice) (l : LnkUnit) (h : NoticesOk l) : NoticesOk (l.enqueue q) := by
  obtain ⟨hlen, hs⟩ := h
  unfold LnkUnit.enqueue
  split
  · rename_i hlt
    refine ⟨?_, insertNotice_sorted q _ hs⟩
    simp only [insertNotice_length, Config.noticeCapacity] at *
    omega
  · split
    · exact ⟨hlen, hs⟩
    · split
      · refine ⟨?_, insertNotice_sorted q _ (hs.sublist (List.dropLast_sublist _))⟩
        simp only [insertNotice_length, List.length_dropLast]
        rename_i w hw _
        have : l.notices ≠ [] := by rintro h0; simp [h0] at hw
        have := List.length_pos_iff.2 this
        omega
      · exact ⟨hlen, hs⟩

theorem enqueue_eq (q : QueuedNotice) (l : LnkUnit) :
    l.enqueue q = { l with notices := (l.enqueue q).notices, lostCount := (l.enqueue q).lostCount } := by
  unfold LnkUnit.enqueue
  split
  · rfl
  · split
    · rfl
    · split <;> rfl

/-- All that offering a notice does. -/
theorem offer_eq (n : Notice) (s : State) :
    offer n s = { s with lnk := { s.lnk with notices := (offer n s).lnk.notices, lostCount := (offer n s).lnk.lostCount } } := by
  unfold offer
  dsimp only
  split
  · unfold State.modLnk
    dsimp only
    congr 1
    exact enqueue_eq _ _
  · rfl

theorem offer_ok (n : Notice) (s : State) (h : NoticesOk s.lnk) : NoticesOk (offer n s).lnk := by
  unfold offer
  dsimp only
  split
  · exact enqueue_ok _ _ h
  · exact h

@[simp] theorem offer_pos (n : Notice) (s : State) : (offer n s).pos = s.pos := by rw [offer_eq]
@[simp] theorem offer_inp (n : Notice) (s : State) : (offer n s).inp = s.inp := by rw [offer_eq]
@[simp] theorem offer_trk (n : Notice) (s : State) : (offer n s).trk = s.trk := by rw [offer_eq]
@[simp] theorem offer_stn (n : Notice) (s : State) : (offer n s).stn = s.stn := by rw [offer_eq]
@[simp] theorem offer_vrd (n : Notice) (s : State) : (offer n s).vrd = s.vrd := by rw [offer_eq]
@[simp] theorem offer_out (n : Notice) (s : State) : (offer n s).out = s.out := by rw [offer_eq]
@[simp] theorem offer_zon (n : Notice) (s : State) : (offer n s).zon = s.zon := by rw [offer_eq]
@[simp] theorem offer_tch (n : Notice) (s : State) : (offer n s).tch = s.tch := by rw [offer_eq]
@[simp] theorem offer_choice (n : Notice) (s : State) : (offer n s).choice = s.choice := by rw [offer_eq]
@[simp] theorem offer_pending (n : Notice) (s : State) : (offer n s).pending = s.pending := by rw [offer_eq]
@[simp] theorem offer_here (n : Notice) (s : State) : (offer n s).here = s.here := by unfold State.here; simp
@[simp] theorem offer_now (n : Notice) (s : State) : (offer n s).now = s.now := by unfold State.now; simp
@[simp] theorem offer_findItem (n : Notice) (s : State) (tag : Tag) : (offer n s).findItem tag = s.findItem tag := by
  unfold State.findItem; simp

end Sys2Proof.Laws
end

