-- ==== Sys2Proof/Laws/Work.lean ====
section
/-! SUPPORT. ItemWork: all that the shared operations on items, stations, windows and fault causes can do to a state,
said once, with one lemma per operation. -/

namespace Sys2Proof.Laws

open Sys2Proof.Machine Sys2Proof.Safety

/-- What work on the items of the track leaves as it was, and the laws it keeps. -/
structure ItemWork (s t : State) : Prop where
  pos : t.pos = s.pos
  inp : t.inp = s.inp
  tch : t.tch = s.tch
  pending : t.pending = s.pending
  classes : t.vrd.classes = s.vrd.classes
  params : t.trk.params = s.trk.params
  snapshot : t.trk.snapshot = s.trk.snapshot
  nextTag : t.trk.nextTag = s.trk.nextTag
  stationRecords : ∀ i : Fin 8, t.stn.stations[i].record = s.stn.stations[i].record
  sourceRecords : ∀ v : Fin 4, t.vrd.sources[v].record = s.vrd.sources[v].record
  lnk : t.lnk = { s.lnk with notices := t.lnk.notices, lostCount := t.lnk.lostCount }
  notices : NoticesOk s.lnk → NoticesOk t.lnk
  zon : t.zon =
    { s.zon with
      zone := t.zon.zone, firstCause := t.zon.firstCause, causes := t.zon.causes
      lineStopDrive := t.zon.lineStopDrive, lineStop := { s.zon.lineStop with wait := t.zon.lineStop.wait } }
  zone : t.zon.zone = s.zon.zone ∨ ((s.zon.zone = .tracking ∨ s.zon.zone = .hold) ∧ t.zon.zone = .fault)
  fault : (s.zon.zone = .fault → s.zon.firstCause ≠ none) → t.zon.zone = .fault → t.zon.firstCause ≠ none
  tagsSub : ∀ tag ∈ tags t, tag ∈ tags s
  entry : ∀ tag lead, t.trk.entry = .measuring tag lead → s.trk.entry = .measuring tag lead
  itemsOk : ItemsOk s → ItemsOk t
  refsOk : ItemsOk s → RefsOk s → RefsOk t
  items : ItemsOk s → ∀ jt ∈ t.trk.track, ∃ it ∈ s.trk.track, Kept it jt

theorem FlagsKept.refl (f : ItemFlags) : FlagsKept f f := ⟨id, id, id, id, id, id, id⟩

theorem FlagsKept.trans {f g h : ItemFlags} (a : FlagsKept f g) (b : FlagsKept g h) : FlagsKept f h := by
  obtain ⟨a1, a2, a3, a4, a5, a6, a7⟩ := a
  obtain ⟨b1, b2, b3, b4, b5, b6, b7⟩ := b
  exact ⟨b1 ∘ a1, b2 ∘ a2, b3 ∘ a3, b4 ∘ a4, b5 ∘ a5, b6 ∘ a6, b7 ∘ a7⟩

theorem Kept.refl (it : Item) : Kept it it := ⟨rfl, rfl, fun _ h => h, FlagsKept.refl _⟩

theorem Kept.trans {a b c : Item} (h : Kept a b) (k : Kept b c) : Kept a c := by
  obtain ⟨h1, h2, h3, h4⟩ := h
  obtain ⟨k1, k2, k3, k4⟩ := k
  exact ⟨k1.trans h1, k2.trans h2, fun d hd => k3 d (h3 d hd), FlagsKept.trans h4 k4⟩

theorem ItemWork.refl (s : State) : ItemWork s s where
  pos := rfl
  inp := rfl
  tch := rfl
  pending := rfl
  classes := rfl
  params := rfl
  snapshot := rfl
  nextTag := rfl
  stationRecords _ := rfl
  sourceRecords _ := rfl
  lnk := rfl
  notices h := h
  zon := rfl
  zone := .inl rfl
  fault h := h
  tagsSub _ h := h
  entry _ _ h := h
  itemsOk h := h
  refsOk _ h := h
  items _ jt h := ⟨jt, h, Kept.refl jt⟩

theorem ItemWork.trans {s t u : State} (h : ItemWork s t) (k : ItemWork t u) : ItemWork s u where
  pos := k.pos.trans h.pos
  inp := k.inp.trans h.inp
  tch := k.tch.trans h.tch
  pending := k.pending.trans h.pending
  classes := k.classes.trans h.classes
  params := k.params.trans h.params
  snapshot := k.snapshot.trans h.snapshot
  nextTag := k.nextTag.trans h.nextTag
  stationRecords i := (k.stationRecords i).trans (h.stationRecords i)
  sourceRecords v := (k.sourceRecords v).trans (h.sourceRecords v)
  lnk := by rw [k.lnk, h.lnk]
  notices hs := k.notices (h.notices hs)
  zon := by rw [k.zon, h.zon]
  zone := by
    rcases h.zone with h1 | ⟨h1, h2⟩ <;> rcases k.zone with k1 | ⟨k1, k2⟩
    · exact .inl (k1.trans h1)
    · exact .inr ⟨h1 ▸ k1, k2⟩
    · exact .inr ⟨h1, k1.trans h2⟩
    · exact .inr ⟨h1, k2⟩
  fault hs := k.fault (h.fault hs)
  tagsSub tag ht := h.tagsSub tag (k.tagsSub tag ht)
  entry tag lead he := h.entry tag lead (k.entry tag lead he)
  itemsOk hi := k.itemsOk (h.itemsOk hi)
  refsOk hi hr := k.refsOk (h.itemsOk hi) (h.refsOk hi hr)
  items hi jt hj := by
    obtain ⟨x, hx, kx⟩ := k.items (h.itemsOk hi) jt hj
    obtain ⟨y, hy, ky⟩ := h.items hi x hx
    exact ⟨y, hy, Kept.trans ky kx⟩

/-! ## Plain updates -/

theorem offer_work (n : Notice) (s : State) : ItemWork s (offer n s) where
  pos := by simp
  inp := by simp
  tch := by simp
  pending := by simp
  classes := by simp
  params := by simp
  snapshot := by simp
  nextTag := by simp
  stationRecords _ := by simp
  sourceRecords _ := by simp
  lnk := by
    have := congrArg State.lnk (offer_eq n s)
    exact this
  notices := offer_ok n s
  zon := by simp
  zone := by simp
  fault := by simp
  tagsSub := by simp [tags]
  entry := by simp
  itemsOk := by simp [ItemsOk, tags]
  refsOk := by simp [RefsOk, tags]
  items := by
    intro _ jt hj
    rw [offer_trk] at hj
    exact ⟨jt, hj, Kept.refl jt⟩

theorem tags_modItem (tag : Tag) (f : Item → Item) (ht : ∀ x, (f x).tag = x.tag) (s : State) :
    tags (s.modItem tag f) = tags s := by
  unfold tags
  simp only [modItem_trk, List.map_map]
  congr 1
  funext x
  simp only [Function.comp]
  split <;> simp [ht]

theorem modItem_work (tag : Tag) (f : Item → Item) (s : State) (ht : ∀ x, (f x).tag = x.tag)
    (he : ∀ x, (f x).exit = x.exit) (hk : ItemsOk s → ∀ x ∈ s.trk.track, x.tag = tag → Kept x (f x)) :
    ItemWork s (s.modItem tag f) where
  pos := rfl
  inp := rfl
  tch := rfl
  pending := rfl
  classes := rfl
  params := rfl
  snapshot := rfl
  nextTag := rfl
  stationRecords _ := rfl
  sourceRecords _ := rfl
  lnk := rfl
  notices h := h
  zon := rfl
  zone := .inl rfl
  fault h := h
  tagsSub := by rw [tags_modItem tag f ht]; exact fun _ h => h
  entry _ _ h := h
  itemsOk h := by
    obtain ⟨h1, h2, h3, h4⟩ := h
    refine ⟨by simpa using h1, by rwa [tags_modItem tag f ht], ?_, h4⟩
    intro y hy
    simp only [modItem_trk, List.mem_map] at hy
    obtain ⟨x, hx, rfl⟩ := hy
    split
    · simpa [ht, he] using h3 x hx
    · exact h3 x hx
  refsOk _ h := by
    unfold RefsOk at *
    rw [tags_modItem tag f ht]
    exact h
  items hi jt hj := by
    simp only [modItem_trk, List.mem_map] at hj
    obtain ⟨x, hx, rfl⟩ := hj
    refine ⟨x, hx, ?_⟩
    split
    · exact hk hi x hx ‹_›
    · exact Kept.refl x

/-- What a station's update may name. -/
def StationKeeps (s : State) (i : Fin 8) (f : Station → Station) : Prop :=
  let x := s.stn.stations[i]
  (∀ tag, (f x).cursor = some tag → x.cursor = some tag ∨ tag ∈ tags s) ∧
    (∀ tag, (f x).opening = some tag → x.opening = some tag ∨ tag ∈ tags s) ∧
    ∀ w ∈ (f x).windows, (∃ w' ∈ x.windows, w'.tag = w.tag) ∨ w.tag ∈ tags s

theorem modStation_work (i : Fin 8) (f : Station → Station) (s : State)
    (hr : (f s.stn.stations[i]).record = s.stn.stations[i].record) (hf : StationKeeps s i f) :
    ItemWork s (s.modStation i f) where
  pos := rfl
  inp := rfl
  tch := rfl
  pending := rfl
  classes := rfl
  params := rfl
  snapshot := rfl
  nextTag := rfl
  stationRecords k := by
    simp only [modStation_stn, Fin.getElem_fin, modAt_getElem]
    split
    · rename_i h
      have : i = k := Fin.ext h
      subst this
      exact hr
    · rfl
  sourceRecords _ := rfl
  lnk := rfl
  notices h := h
  zon := rfl
  zone := .inl rfl
  fault h := h
  tagsSub _ h := h
  entry _ _ h := h
  itemsOk h := h
  refsOk _ h := by
    obtain ⟨h1, h2, h3, h4, h5⟩ := h
    obtain ⟨f1, f2, f3⟩ := hf
    refine ⟨h1, ?_, ?_, ?_, h5⟩
    · intro k x
      simp only [modStation_stn, Fin.getElem_fin, modAt_getElem]
      split
      · rename_i h
        have : i = k := Fin.ext h
        subst this
        exact fun hx => (f1 x hx).elim (h2 i x) id
      · exact h2 k x
    · intro k x
      simp only [modStation_stn, Fin.getElem_fin, modAt_getElem]
      split
      · rename_i h
        have : i = k := Fin.ext h
        subst this
        exact fun hx => (f2 x hx).elim (h3 i x) id
      · exact h3 k x
    · intro k x
      simp only [modStation_stn, Fin.getElem_fin, modAt_getElem]
      split
      · rename_i h
        have : i = k := Fin.ext h
        subst this
        exact fun hx => (f3 x hx).elim (fun ⟨w, hw, g⟩ => g ▸ h4 i w hw) id
      · exact h4 k x
  items _ jt h := ⟨jt, h, Kept.refl jt⟩

theorem modSource_work (v : Fin 4) (f : Source → Source) (s : State)
    (hr : (f s.vrd.sources[v]).record = s.vrd.sources[v].record)
    (hf : ∀ w ∈ (f s.vrd.sources[v]).windows, (∃ w' ∈ s.vrd.sources[v].windows, w'.tag = w.tag) ∨ w.tag ∈ tags s) :
    ItemWork s (s.modSource v f) where
  pos := rfl
  inp := rfl
  tch := rfl
  pending := rfl
  classes := rfl
  params := rfl
  snapshot := rfl
  nextTag := rfl
  stationRecords _ := rfl
  sourceRecords k := by
    simp only [modSource_vrd, Fin.getElem_fin, modAt_getElem]
    split
    · rename_i h
      have : v = k := Fin.ext h
      subst this
      exact hr
    · rfl
  lnk := rfl
  notices h := h
  zon := rfl
  zone := .inl rfl
  fault h := h
  tagsSub _ h := h
  entry _ _ h := h
  itemsOk h := h
  refsOk _ h := by
    obtain ⟨h1, h2, h3, h4, h5⟩ := h
    refine ⟨h1, h2, h3, h4, ?_⟩
    intro k x
    simp only [modSource_vrd, Fin.getElem_fin, modAt_getElem]
    split
    · rename_i h
      have : v = k := Fin.ext h
      subst this
      intro hx
      rcases hf x hx with ⟨w, hw, g⟩ | g
      · exact g ▸ h5 v w hw
      · exact g
    · exact h5 k x
  items _ jt h := ⟨jt, h, Kept.refl jt⟩

theorem modOutput_work (o : Fin 8) (f : Output → Output) (s : State) : ItemWork s (s.modOutput o f) where
  pos := rfl
  inp := rfl
  tch := rfl
  pending := rfl
  classes := rfl
  params := rfl
  snapshot := rfl
  nextTag := rfl
  stationRecords _ := rfl
  sourceRecords _ := rfl
  lnk := rfl
  notices h := h
  zon := rfl
  zone := .inl rfl
  fault h := h
  tagsSub _ h := h
  entry _ _ h := h
  itemsOk h := h
  refsOk _ h := h
  items _ jt h := ⟨jt, h, Kept.refl jt⟩

/-! ## Fault causes -/

theorem driveLineStop_zon (s : State) :
    (driveLineStop s).zon =
      { s.zon with
        lineStopDrive := (driveLineStop s).zon.lineStopDrive
        lineStop := { s.zon.lineStop with wait := (driveLineStop s).zon.lineStop.wait } } := rfl

/-- A change of the zone and nothing else of the state. -/
theorem modZon_work (f : ZonUnit → ZonUnit) (s : State)
    (hz : f s.zon =
      { s.zon with
        zone := (f s.zon).zone, firstCause := (f s.zon).firstCause, causes := (f s.zon).causes
        lineStopDrive := (f s.zon).lineStopDrive
        lineStop := { s.zon.lineStop with wait := (f s.zon).lineStop.wait } })
    (hs : (f s.zon).zone = s.zon.zone ∨
      ((s.zon.zone = .tracking ∨ s.zon.zone = .hold) ∧ (f s.zon).zone = .fault))
    (hf : (s.zon.zone = .fault → s.zon.firstCause ≠ none) → (f s.zon).zone = .fault → (f s.zon).firstCause ≠ none) :
    ItemWork s (s.modZon f) where
  pos := rfl
  inp := rfl
  tch := rfl
  pending := rfl
  classes := rfl
  params := rfl
  snapshot := rfl
  nextTag := rfl
  stationRecords _ := rfl
  sourceRecords _ := rfl
  lnk := rfl
  notices h := h
  zon := hz
  zone := hs
  fault := hf
  tagsSub _ h := h
  entry _ _ h := h
  itemsOk h := h
  refsOk _ h := h
  items _ jt h := ⟨jt, h, Kept.refl jt⟩

theorem driveLineStop_work (s : State) : ItemWork s (driveLineStop s) :=
  modZon_work _ _ (driveLineStop_zon s) (.inl rfl) fun h => h

theorem enterFault_work (c : FaultCause) (s : State) (h : s.zon.zone = .tracking ∨ s.zon.zone = .hold) :
    ItemWork s (enterFault c s) := by
  have h1 : ItemWork s (s.modZon fun z => { z with zone := .fault, firstCause := some c, causes := .single c }) :=
    modZon_work _ _ rfl (.inr ⟨h, rfl⟩) (by simp)
  unfold enterFault enterZone
  dsimp only
  split
  · exact ((h1.trans (offer_work _ _)).trans (offer_work _ _)).trans (driveLineStop_work _)
  · exact (h1.trans (offer_work _ _)).trans (offer_work _ _)

theorem joinFault_work (c : FaultCause) (s : State) : ItemWork s (joinFault c s) := by
  have h1 : ItemWork s (s.modZon fun z => { z with causes := z.causes.add c }) :=
    modZon_work _ _ rfl (.inl rfl) fun h => h
  exact h1.trans (offer_work _ _)

/-- All that taking a fault cause can do. -/
theorem faultCause_work (c : FaultCause) (s : State) : ItemWork s (faultCause c s) := by
  unfold faultCause
  split
  · exact enterFault_work c s (.inl ‹_›)
  · exact enterFault_work c s (.inr ‹_›)
  · exact joinFault_work c s
  all_goals exact ItemWork.refl s

end Sys2Proof.Laws
end

