-- ==== Sys2Proof/Laws/Items.lean ====
section
/-! SUPPORT. What the shared operations on items can do: leaving, deciding, taking a deadline, filling a slot. -/

namespace Sys2Proof.Laws

open Sys2Proof.Machine Sys2Proof.Safety

/-! ## Finding items -/

theorem findItem_some {s : State} {tag : Tag} {it : Item} (h : s.findItem tag = some it) :
    it ∈ s.trk.track ∧ it.tag = tag := by
  unfold State.findItem at h
  exact ⟨List.mem_of_find?_eq_some h, by simpa using List.find?_some h⟩

theorem findItem_mem_tags {s : State} {tag : Tag} {it : Item} (h : s.findItem tag = some it) : tag ∈ tags s := by
  obtain ⟨h1, h2⟩ := findItem_some h
  exact h2 ▸ List.mem_map_of_mem h1

theorem unique_tag {s : State} (h : ItemsOk s) {x y : Item} (hx : x ∈ s.trk.track) (hy : y ∈ s.trk.track)
    (e : x.tag = y.tag) : x = y :=
  List.inj_on_of_nodup_map h.2.1 hx hy e

theorem findItem_eq {s : State} (h : ItemsOk s) {x : Item} (hx : x ∈ s.trk.track) : s.findItem x.tag = some x := by
  cases hf : s.findItem x.tag with
  | none =>
    unfold State.findItem at hf
    rw [List.find?_eq_none] at hf
    simpa using hf x hx
  | some y =>
    obtain ⟨hy, e⟩ := findItem_some hf
    rw [unique_tag h hy hx e]

/-- Finding the changed item after a change that keeps tags. -/
theorem findItem_modItem {s : State} {tag : Tag} {f : Item → Item} (ht : ∀ x, (f x).tag = x.tag) (k : Tag) :
    (s.modItem tag f).findItem k = (s.findItem k).map fun x => if x.tag = tag then f x else x := by
  unfold State.findItem
  simp only [modItem_trk, List.find?_map]
  congr 1
  apply congrArg (fun p => List.find? p s.trk.track)
  funext x
  simp only [Function.comp]
  split <;> simp [ht]

/-! ## Leaving the track -/

theorem newerThan_mem {tag t : Tag} {l : List Item} (h : newerThan tag l = some t) : t ∈ l.map Item.tag := by
  induction l with
  | nil => simp [newerThan] at h
  | cons x xs ih =>
    unfold newerThan at h
    split at h
    · cases xs with
      | nil => simp at h
      | cons y ys => simp at h; simp [h]
    · exact List.mem_cons_of_mem _ (ih h)

theorem newerThan_ne {tag t : Tag} {l : List Item} (hn : (l.map Item.tag).Nodup) (h : newerThan tag l = some t) :
    t ≠ tag := by
  induction l with
  | nil => simp [newerThan] at h
  | cons x xs ih =>
    rw [List.map_cons, List.nodup_cons] at hn
    unfold newerThan at h
    split at h
    · rename_i hx
      cases xs with
      | nil => simp at h
      | cons y ys =>
        simp at h
        rintro rfl
        exact hn.1 (by rw [hx, ← h]; simp)
    · exact ih hn.2 h

theorem tags_takeOut (tag : Tag) (s : State) : tags (takeOut tag s) = (tags s).filter (· ≠ tag) := by
  unfold tags takeOut
  simp only [modVrd_trk, modStn_trk, modTrk_trk, List.filter_map]
  rfl

theorem takeOut_work (tag : Tag) (s : State) : ItemWork s (takeOut tag s) where
  pos := rfl
  inp := rfl
  tch := rfl
  pending := rfl
  classes := rfl
  params := rfl
  snapshot := rfl
  nextTag := rfl
  stationRecords i := by simp [takeOut, Station.itemLeft]
  sourceRecords v := by simp [takeOut, Source.itemLeft]
  lnk := rfl
  notices h := h
  zon := rfl
  zone := .inl rfl
  fault h := h
  tagsSub x hx := by
    rw [tags_takeOut] at hx
    exact List.mem_of_mem_filter hx
  entry t lead h := by
    simp only [takeOut, modVrd_trk, modStn_trk, modTrk_trk, EntryUnit.itemLeft] at h
    split at h
    · simp at h
    · split at h <;> simp_all
    · simp at h
  itemsOk h := by
    obtain ⟨h1, h2, h3, h4⟩ := h
    refine ⟨?_, ?_, ?_, h4⟩
    · exact le_trans (List.length_filter_le _ _) h1
    · rw [tags_takeOut]; exact h2.filter _
    · intro x hx
      exact h3 x (List.mem_of_mem_filter hx)
  refsOk hi h := by
    obtain ⟨h1, h2, h3, h4, h5⟩ := h
    unfold RefsOk
    rw [tags_takeOut]
    have hmem : ∀ t, t ∈ (tags s).filter (· ≠ tag) ↔ t ∈ tags s ∧ t ≠ tag := by simp
    have hnext : ∀ t, newerThan tag s.trk.track = some t → t ∈ (tags s).filter (· ≠ tag) := fun t ht =>
      (hmem t).2 ⟨newerThan_mem ht, newerThan_ne hi.2.1 ht⟩
    refine ⟨?_, ?_, ?_, ?_, ?_⟩
    · intro t lead h
      simp only [takeOut, modVrd_trk, modStn_trk, modTrk_trk, EntryUnit.itemLeft] at h
      split at h
      · simp at h
      · rename_i t' lead' he
        split at h
        · simp at h
        · rename_i hne
          simp only [EntryUnit.measuring.injEq] at h
          obtain ⟨rfl, rfl⟩ := h
          exact (hmem t').2 ⟨h1 t' lead' he, hne⟩
      · simp at h
    · intro i t h
      simp only [takeOut, modVrd_stn, modStn_stn, modTrk_stn, Fin.getElem_fin, mapAll_getElem, Station.itemLeft] at h
      split at h
      · exact hnext t h
      · rename_i hne
        exact (hmem t).2 ⟨h2 i t h, fun e => hne (e ▸ h)⟩
    · intro i t h
      simp only [takeOut, modVrd_stn, modStn_stn, modTrk_stn, Fin.getElem_fin, mapAll_getElem, Station.itemLeft] at h
      split at h
      · exact hnext t h
      · rename_i hne
        exact (hmem t).2 ⟨h3 i t h, fun e => hne (e ▸ h)⟩
    · intro i w h
      simp only [takeOut, modVrd_stn, modStn_stn, modTrk_stn, Fin.getElem_fin, mapAll_getElem, Station.itemLeft,
        List.mem_filter, decide_eq_true_eq] at h
      exact (hmem w.tag).2 ⟨h4 i w h.1, h.2⟩
    · intro v w h
      simp only [takeOut, modVrd_vrd, modStn_vrd, modTrk_vrd, Fin.getElem_fin, mapAll_getElem, Source.itemLeft,
        List.mem_filter, decide_eq_true_eq] at h
      exact (hmem w.tag).2 ⟨h5 v w h.1, h.2⟩
  items _ jt hj := ⟨jt, List.mem_of_mem_filter hj, Kept.refl jt⟩

/-- All that a leaving can do. -/
theorem leave_work (tag : Tag) (r : ExitReason) (s : State) : ItemWork s (leave tag r s) := by
  unfold leave
  split
  · exact ItemWork.refl s
  · exact (takeOut_work tag s).trans (offer_work _ _)

/-- A leaving takes the item out, whoever else carries the tag. -/
theorem tags_leave (tag : Tag) (r : ExitReason) (s : State) : tags (leave tag r s) = (tags s).filter (· ≠ tag) := by
  unfold leave
  split
  · rename_i h
    unfold State.findItem at h
    rw [List.find?_eq_none] at h
    rw [List.filter_eq_self.2]
    intro x hx
    simp only [tags, List.mem_map] at hx
    obtain ⟨it, hit, rfl⟩ := hx
    simpa using h it hit
  · rw [← tags_takeOut]
    simp [tags]

theorem flushList_work (l : List Tag) (s : State) :
    ItemWork s (l.foldl (fun s tag => leave tag .flushed s) s) := by
  induction l generalizing s with
  | nil => exact ItemWork.refl s
  | cons t ts ih => exact (leave_work t .flushed s).trans (ih _)

/-- All that a flush can do. -/
theorem flush_work (s : State) : ItemWork s (flush s) := flushList_work _ s

theorem tags_flushList (l : List Tag) (s : State) :
    ∀ x ∈ tags (l.foldl (fun s tag => leave tag .flushed s) s), x ∈ tags s ∧ x ∉ l := by
  induction l generalizing s with
  | nil => simp
  | cons t ts ih =>
    intro x hx
    obtain ⟨h1, h2⟩ := ih _ x hx
    rw [tags_leave] at h1
    simp only [List.mem_filter, ne_eq, decide_not, Bool.not_eq_true', decide_eq_false_iff_not] at h1
    exact ⟨h1.1, by simp [h1.2, h2]⟩

/-- R51: a flush leaves no item. -/
theorem flush_empty (s : State) : (flush s).trk.track = [] := by
  have h : tags (flush s) = [] := by
    rw [List.eq_nil_iff_forall_not_mem]
    intro x hx
    obtain ⟨h1, h2⟩ := tags_flushList _ s x hx
    exact h2 h1
  simpa [tags] using h

/-! ## Deciding -/

/-- All that a decision can do. -/
theorem decideItem_work (tag : Tag) (r : Reason) (s : State) : ItemWork s (decideItem tag r s) := by
  unfold decideItem
  split
  · exact ItemWork.refl s
  · rename_i it hit
    split
    · exact ItemWork.refl s
    · rename_i hd
      refine (modItem_work tag _ s ?_ ?_ ?_).trans (offer_work _ _)
      · exact fun _ => rfl
      · exact fun _ => rfl
      intro hi x hx e
      obtain ⟨h1, h2⟩ := findItem_some hit
      have : x = it := unique_tag hi hx h1 (e.trans h2.symm)
      subst this
      refine ⟨rfl, rfl, fun d h => ?_, FlagsKept.refl _⟩
      simp [h] at hd

/-- All that taking a deadline can do. -/
theorem takeDeadline_work (tag : Tag) (s : State) : ItemWork s (takeDeadline tag s) := by
  unfold takeDeadline
  split
  · exact ItemWork.refl s
  · split
    · exact ItemWork.refl s
    · refine (modItem_work tag _ s ?_ ?_ ?_).trans (decideItem_work _ _ _)
      · exact fun _ => rfl
      · exact fun _ => rfl
      · exact fun _ x _ _ => ⟨rfl, rfl, fun _ h => h, FlagsKept.refl _⟩

theorem fillSlot_kept (v : Fin 4) (code : Fin 16) (it : Item) : Kept it (it.fillSlot v code) := by
  refine ⟨rfl, rfl, fun _ h => h, id, id, id, id, id, ?_, id⟩
  intro h
  simp [Item.fillSlot, h]

/-- All that a code arriving at a slot can do. -/
theorem fillVerdict_work (tag : Tag) (v : Fin 4) (code : Fin 16) (s : State) :
    ItemWork s (fillVerdict tag v code s) := by
  have h1 : ItemWork s (s.modItem tag (Item.fillSlot v code)) :=
    modItem_work tag _ s (fun _ => rfl) (fun _ => rfl) fun _ x _ _ => fillSlot_kept v code x
  unfold fillVerdict
  split
  · exact ItemWork.refl s
  · split
    · exact ItemWork.refl s
    · exact ItemWork.refl s
    · exact ItemWork.refl s
    · exact h1
    · dsimp only
      split
      · exact h1.trans (decideItem_work _ _ _)
      · exact h1

/-- All that a retirement can do. -/
theorem retire_work (tag : Tag) (s : State) : ItemWork s (retire tag s) :=
  (decideItem_work tag .atExit s).trans (leave_work tag .endOfTrack _)

/-- All that an over-length reach can do. -/
theorem overlengthReach_work (s : State) : ItemWork s (overlengthReach s) := by
  unfold overlengthReach
  split
  · exact ItemWork.refl s
  · exact ItemWork.refl s
  · refine (modItem_work _ _ s ?_ ?_ ?_).trans (faultCause_work _ _)
    · exact fun _ => rfl
    · exact fun _ => rfl
    intro _ x _ _
    exact ⟨rfl, rfl, fun _ h => h, fun _ => rfl, id, id, id, id, id, id⟩

end Sys2Proof.Laws
end

