-- ==== Sys2Proof/Laws/Stations.lean ====
section
/-! SUPPORT. What the work of stations, checkpoints, line windows and corrections can do: all of it is ItemWork. -/

namespace Sys2Proof.Laws

open Sys2Proof.Machine Sys2Proof.Safety

theorem foldl_work {α : Type} (f : State → α → State) (h : ∀ s a, ItemWork s (f s a)) (l : List α) (s : State) :
    ItemWork s (l.foldl f s) := by
  induction l generalizing s with
  | nil => exact ItemWork.refl s
  | cons a as ih => exact (h s a).trans (ih _)

/-- A change of items that keeps tag, exit reason and history in every record. -/
theorem modItem_work' (tag : Tag) (f : Item → Item) (s : State) (ht : ∀ x, (f x).tag = x.tag)
    (he : ∀ x, (f x).exit = x.exit) (hk : ∀ x, Kept x (f x)) : ItemWork s (s.modItem tag f) :=
  modItem_work tag f s ht he fun _ x _ _ => hk x

theorem record_work (tag : Tag) (i : Fin 8) (o : StationOutcome) (s : State) :
    ItemWork s (s.modItem tag fun x => x.record i o) := by
  apply modItem_work'
  · exact fun _ => rfl
  · exact fun _ => rfl
  · exact fun x => ⟨rfl, rfl, fun _ h => h, FlagsKept.refl _⟩

/-! ## Line verdict windows -/

theorem closeLineWindow_work (v : Fin 4) (tag : Tag) (s : State) : ItemWork s (closeLineWindow v tag s) := by
  have h1 : ItemWork s (s.modSource v fun src => { src with windows := src.windows.filter fun w => w.tag ≠ tag }) := by
    apply modSource_work
    · rfl
    · exact fun w hw => .inl ⟨w, List.mem_of_mem_filter hw, rfl⟩
  unfold closeLineWindow
  split
  · exact ItemWork.refl s
  · dsimp only
    split
    · exact h1
    · exact h1.trans (fillVerdict_work _ _ _ _)

theorem openLineWindow_work (i : Fin 8) (tag : Tag) (fire : Pos) (s : State) (v : Fin 4) :
    ItemWork s (openLineWindow i tag fire s v) := by
  unfold openLineWindow
  split
  · exact ItemWork.refl s
  · split
    · exact ItemWork.refl s
    · rename_i hit
      split
      · dsimp only
        have h1 : ∀ p, ItemWork s (s.modSource v fun src => { src with windows := src.windows ++ [⟨tag, p, false⟩] }) := by
          intro p
          apply modSource_work
          · rfl
          · intro w hw
            rcases List.mem_append.1 hw with hw | hw
            · exact .inl ⟨w, hw, rfl⟩
            · rw [List.mem_singleton] at hw
              exact .inr (hw ▸ findItem_mem_tags hit)
        split
        · exact h1 _
        · exact (h1 _).trans (closeLineWindow_work _ _ _)
      · exact ItemWork.refl s

theorem openLineWindows_work (i : Fin 8) (tag : Tag) (fire : Pos) (s : State) :
    ItemWork s (openLineWindows i tag fire s) :=
  foldl_work _ (fun s v => openLineWindow_work i tag fire s v) _ s

theorem lineEdge_work (v : Fin 4) (s : State) : ItemWork s (lineEdge v s) := by
  unfold lineEdge
  split
  · split
    · exact offer_work _ _
    · apply modSource_work
      · rfl
      · intro w hw
        obtain ⟨x, hx, e⟩ := List.mem_map.1 hw
        refine .inl ⟨x, hx, ?_⟩
        rw [← e]
        split <;> rfl
  · exact ItemWork.refl s

/-! ## Stations that fire -/

theorem claimOutput_work (o : Fin 8) (len : BitVec 16) (w : Owner) (s : State) :
    ItemWork s (claimOutput o len w s).1 := modOutput_work _ _ _

theorem fireStation_work (i : Fin 8) (it : Item) (late : Bool) (s : State) : ItemWork s (fireStation i it late s) := by
  unfold fireStation
  dsimp only
  split
  · exact ItemWork.refl s
  · split
    · exact ((claimOutput_work _ _ _ s).trans (record_work _ _ _ _)).trans (offer_work _ _)
    · split
      · exact ((claimOutput_work _ _ _ s).trans (record_work _ _ _ _)).trans (openLineWindows_work _ _ _ _)
      · exact (claimOutput_work _ _ _ s).trans (record_work _ _ _ _)

theorem stationOutcome_work (i : Fin 8) (it : Item) (late : Bool) (s : State) :
    ItemWork s (stationOutcome i it late s) := by
  unfold stationOutcome
  split
  · exact fireStation_work _ _ _ _
  · apply modItem_work'
    · exact fun _ => rfl
    · exact fun _ => rfl
    · exact fun x => ⟨rfl, rfl, fun _ h => h, id, id, id, id, id, id, fun _ => rfl⟩
  · exact record_work _ _ _ _

theorem deadlineFirst_work (i : Fin 8) (tag : Tag) (s : State) : ItemWork s (deadlineFirst i tag s) := by
  unfold deadlineFirst
  split
  · exact takeDeadline_work _ _
  · exact ItemWork.refl s

theorem advanceCursor_work (i : Fin 8) (tag : Tag) (s : State) : ItemWork s (advanceCursor i tag s) := by
  apply modStation_work
  · rfl
  · exact ⟨fun _ h => .inr (newerThan_mem h), fun _ h => .inl h, fun w h => .inl ⟨w, h, rfl⟩⟩

/-- All that the processing of an item at a station can do. -/
theorem processStation_work (i : Fin 8) (late : Bool) (s : State) : ItemWork s (processStation i late s) := by
  unfold processStation
  split
  · exact ItemWork.refl s
  · split
    · exact ItemWork.refl s
    · split
      · exact ((deadlineFirst_work _ _ s).trans (stationOutcome_work _ _ _ _)).trans (advanceCursor_work _ _ _)
      · exact advanceCursor_work _ _ _

/-! ## Checkpoints -/

theorem missingPolicy_work (p : MissingPolicy) (tag : Tag) (s : State) : ItemWork s (missingPolicy p tag s) := by
  unfold missingPolicy
  split
  · exact ItemWork.refl s
  · exact leave_work _ _ _
  · exact faultCause_work _ _

theorem missItem_work (i : Fin 8) (w : CheckWindow) (s : State) : ItemWork s (missItem i w s) := by
  have h1 : ItemWork s (s.modItem w.tag fun x =>
      { x.record i .missed with flags := { x.flags with missing := true } }) := by
    apply modItem_work'
    · exact fun _ => rfl
    · exact fun _ => rfl
    · exact fun x => ⟨rfl, rfl, fun _ h => h, id, id, id, fun _ => rfl, id, id, id⟩
  unfold missItem
  dsimp only
  split
  · exact (h1.trans (offer_work _ _)).trans (missingPolicy_work _ _ _)
  · exact h1.trans (offer_work _ _)

theorem dropWindow_work (i : Fin 8) (s : State) (p : CheckWindow → Bool) :
    ItemWork s (s.modStation i fun st => { st with windows := st.windows.filter p }) := by
  apply modStation_work
  · rfl
  · exact ⟨fun _ h => .inl h, fun _ h => .inl h, fun w h => .inl ⟨w, List.mem_of_mem_filter h, rfl⟩⟩

/-- All that the close of a checkpoint window can do. -/
theorem closeWindow_work (i : Fin 8) (tag : Tag) (s : State) : ItemWork s (closeWindow i tag s) := by
  unfold closeWindow
  split
  · exact ItemWork.refl s
  · dsimp only
    split
    · exact dropWindow_work _ _ _
    · split
      · split
        · exact (dropWindow_work _ _ _).trans (record_work _ _ _ _)
        · exact (dropWindow_work _ _ _).trans (missItem_work _ _ _)
      · exact dropWindow_work _ _ _

/-- All that the opening of a checkpoint window can do. -/
theorem openOne_work (i : Fin 8) (s : State) : ItemWork s (openOne i s) := by
  unfold openOne
  dsimp only
  split
  · exact ItemWork.refl s
  · rename_i tag _
    split
    · exact ItemWork.refl s
    · rename_i it hit
      have adv : ∀ u : State, (∀ x ∈ tags s, x ∈ tags u) →
          ItemWork u (u.modStation i fun x => { x with opening := newerThan tag s.trk.track }) := by
        intro u hu
        apply modStation_work
        · rfl
        · exact ⟨fun _ h => .inl h, fun t h => .inr (hu t (newerThan_mem h)), fun w h => .inl ⟨w, h, rfl⟩⟩
      split
      · split
        · refine (record_work _ _ _ _).trans (adv _ ?_)
          rw [tags_modItem]
          · exact fun _ h => h
          · exact fun _ => rfl
        · exact adv _ fun _ h => h
      · refine ItemWork.trans ?_ (adv _ fun _ h => h)
        apply modStation_work
        · rfl
        · refine ⟨fun _ h => .inl h, fun _ h => .inl h, fun w h => ?_⟩
          rcases List.mem_append.1 h with h | h
          · exact .inl ⟨w, h, rfl⟩
          · rw [List.mem_singleton] at h
            exact .inr (h ▸ findItem_mem_tags hit)

theorem closeIfLate_work (i : Fin 8) (tag : Tag) (s : State) : ItemWork s (closeIfLate i tag s) := by
  unfold closeIfLate
  split
  · exact ItemWork.refl s
  · split
    · exact ItemWork.refl s
    · exact closeWindow_work _ _ _

theorem lateOpen_work (i : Fin 8) (k : Nat) (s : State) : ItemWork s (lateOpen i k s) := by
  induction k generalizing s with
  | zero => exact ItemWork.refl s
  | succ k ih =>
    unfold lateOpen
    split
    · exact ItemWork.refl s
    · split
      · exact ItemWork.refl s
      · exact ((openOne_work _ _).trans (closeIfLate_work _ _ _)).trans (ih _)

theorem handleOpening_work (i : Fin 8) (s : State) : ItemWork s (handleOpening i s) :=
  (openOne_work i s).trans (lateOpen_work i _ _)

/-- All that the closes of R77 can do. -/
theorem disableClose_work (i : Fin 8) (s : State) : ItemWork s (disableClose i s) := by
  have hm : ∀ t : State, ItemWork t (t.modStation i fun st => { st with windows := [] }) := by
    intro t
    apply modStation_work
    · rfl
    · exact ⟨fun _ h => .inl h, fun _ h => .inl h, fun w h => by simp at h⟩
  unfold disableClose
  dsimp only
  refine ItemWork.trans (foldl_work _ ?_ _ s) (hm _)
  · intro s w
    apply modItem_work'
    · intro x; split <;> rfl
    · intro x; split <;> rfl
    · intro x
      split
      · exact ⟨rfl, rfl, fun _ h => h, FlagsKept.refl _⟩
      · exact Kept.refl x

/-! ## Corrections -/

theorem correct_work (tag : Tag) (c : Int) (s : State) : ItemWork s (s.modItem tag (Item.correct c)) := by
  apply modItem_work'
  · exact fun _ => rfl
  · exact fun _ => rfl
  · exact fun x => ⟨rfl, rfl, fun _ h => h, id, fun _ => rfl, id, id, id, id, id⟩

theorem settleDeadline_work (tag : Tag) (s : State) : ItemWork s (settleDeadline tag s) := by
  unfold settleDeadline
  split
  · exact ItemWork.refl s
  · split
    · exact ItemWork.refl s
    · exact takeDeadline_work _ _

theorem settleStation_work (tag : Tag) (s : State) (i : Fin 8) : ItemWork s (settleStation tag s i) := by
  unfold settleStation
  dsimp only
  split
  · exact ItemWork.refl s
  · split
    · exact ItemWork.refl s
    · split
      · exact lateOpen_work _ _ _
      · exact ItemWork.refl s
    all_goals
      split
      · exact processStation_work _ _ _
      · exact ItemWork.refl s

theorem settleRetirement_work (tag : Tag) (s : State) : ItemWork s (settleRetirement tag s) := by
  unfold settleRetirement
  split
  · exact ItemWork.refl s
  · split
    · exact ItemWork.refl s
    · exact retire_work _ _

theorem settleCorrection_work (tag : Tag) (s : State) : ItemWork s (settleCorrection tag s) :=
  ((settleDeadline_work tag s).trans (foldl_work _ (settleStation_work tag) _ _)).trans (settleRetirement_work _ _)

/-- All that a correction request can do. -/
theorem requestCorrection_work (tag : Tag) (c : Int) (s : State) : ItemWork s (requestCorrection tag c s) := by
  unfold requestCorrection
  split
  · exact ItemWork.refl s
  · split
    · exact (correct_work _ _ _).trans (settleCorrection_work _ _)
    · apply modItem_work'
      · exact fun _ => rfl
      · exact fun _ => rfl
      · exact fun x => ⟨rfl, rfl, fun _ h => h, id, id, fun _ => rfl, id, id, id, id⟩

theorem confirmWindow_work (i : Fin 8) (w : CheckWindow) (s : State) : ItemWork s (confirmWindow i w s) := by
  have h1 : ItemWork s (s.modStation i fun st =>
      { st with windows := st.windows.map fun x => if x.tag = w.tag then { x with confirmed := true } else x }) := by
    apply modStation_work
    · rfl
    · refine ⟨fun _ h => .inl h, fun _ h => .inl h, fun y h => ?_⟩
      obtain ⟨x, hx, e⟩ := List.mem_map.1 h
      refine .inl ⟨x, hx, ?_⟩
      rw [← e]
      split <;> rfl
  unfold confirmWindow
  dsimp only
  split
  · exact h1
  · split
    · split
      · exact (h1.trans (record_work _ _ _ _)).trans (requestCorrection_work _ _ _)
      · exact h1.trans (record_work _ _ _ _)
    · exact h1

/-- All that a leading edge at a checkpoint can do. -/
theorem checkEdge_work (i : Fin 8) (s : State) : ItemWork s (checkEdge i s) := by
  unfold checkEdge
  split
  · split
    · exact offer_work _ _
    · exact confirmWindow_work _ _ _
  · exact ItemWork.refl s

end Sys2Proof.Laws
end

