-- ==== Sys2Proof/Laws/Counts.lean ====
section
/-! SUPPORT. EventWork: ItemWork that may also move a running teach on or end it. The reaches of a forward count do no
more, so a count moves the position by one step whatever it reaches. -/

namespace Sys2Proof.Laws

open Sys2Proof.Machine Sys2Proof.Safety

/-- ItemWork does not look at the Teach Unit. -/
theorem ItemWork.withTch {s t : State} (h : ItemWork s t) (x : TchUnit) :
    ItemWork { s with tch := x } { t with tch := x } where
  pos := h.pos
  inp := h.inp
  tch := rfl
  pending := h.pending
  classes := h.classes
  params := h.params
  snapshot := h.snapshot
  nextTag := h.nextTag
  stationRecords := h.stationRecords
  sourceRecords := h.sourceRecords
  lnk := h.lnk
  notices := h.notices
  zon := h.zon
  zone := h.zone
  fault := h.fault
  tagsSub := h.tagsSub
  entry := h.entry
  itemsOk := h.itemsOk
  refsOk := h.refsOk
  items := h.items

/-- Item work, and a teach that goes on with the same target or ends. -/
structure EventWork (s t : State) : Prop where
  work : ItemWork { s with tch := t.tch } t
  teach : ∀ run, t.tch.state.run = some run → ∃ run', s.tch.state.run = some run' ∧ run.target = run'.target

theorem ItemWork.event {s t : State} (h : ItemWork s t) : EventWork s t where
  work := by
    have hw := h.withTch t.tch
    exact hw
  teach run hr := ⟨run, by rw [← h.tch]; exact hr, rfl⟩

theorem EventWork.refl (s : State) : EventWork s s := (ItemWork.refl s).event

theorem EventWork.trans {s t u : State} (h : EventWork s t) (k : EventWork t u) : EventWork s u where
  work := (h.work.withTch u.tch).trans k.work
  teach run hr := by
    obtain ⟨r1, h1, e1⟩ := k.teach run hr
    obtain ⟨r2, h2, e2⟩ := h.teach r1 h1
    exact ⟨r2, h2, e1.trans e2⟩

theorem EventWork.pos {s t : State} (h : EventWork s t) : t.pos = s.pos := h.work.pos
theorem EventWork.inp {s t : State} (h : EventWork s t) : t.inp = s.inp := h.work.inp
theorem EventWork.pending {s t : State} (h : EventWork s t) : t.pending = s.pending := h.work.pending

theorem setTeach_event (x : TeachState) (s : State)
    (h : ∀ run, x.run = some run → ∃ run', s.tch.state.run = some run' ∧ run.target = run'.target) :
    EventWork s (setTeach x s) where
  work := ItemWork.refl _
  teach := h

theorem nextChoice_event (s : State) : EventWork s s.nextChoice := by
  have h : ItemWork s s.nextChoice :=
    { pos := rfl, inp := rfl, tch := rfl, pending := rfl, classes := rfl, params := rfl, snapshot := rfl, nextTag := rfl
      stationRecords := fun _ => rfl, sourceRecords := fun _ => rfl, lnk := rfl, notices := id, zon := rfl
      zone := .inl rfl, fault := id, tagsSub := fun _ h => h, entry := fun _ _ h => h, itemsOk := id
      refsOk := fun _ h => h, items := fun _ jt h => ⟨jt, h, Kept.refl jt⟩ }
  exact h.event

/-- All that the end of a teach can do. -/
theorem endTeach_event (run : TeachRun) (r : TeachResult) (stats : Option TeachStats) (a : Bool) (v : Option Status)
    (s : State) : EventWork s (endTeach run r stats a v s) :=
  (setTeach_event .idle s (by simp [TeachState.run])).trans (offer_work _ _).event

theorem abortTeach_event (s : State) : EventWork s (abortTeach s) := by
  unfold abortTeach
  split
  · exact EventWork.refl s
  · exact endTeach_event _ _ _ _ _ s

/-- R159: after an abort no teach is running. -/
theorem abortTeach_idle (s : State) : (abortTeach s).tch.state = .idle := by
  unfold abortTeach
  split
  · rename_i h
    unfold TeachState.run at h
    split at h <;> simp_all
  · simp [endTeach, setTeach]

theorem teachEntryEdge_event (s : State) : EventWork s (teachEntryEdge s) := by
  unfold teachEntryEdge
  split
  · exact EventWork.refl s
  · rename_i run h
    exact setTeach_event _ _ fun r hr => ⟨run, by rw [h]; rfl, by cases hr; rfl⟩
  · rename_i run start sp h
    exact (setTeach_event _ _ fun r hr => ⟨run, by rw [h]; rfl, by cases hr; rfl⟩).trans (offer_work _ _).event

theorem teachSpanReach_event (s : State) : EventWork s (teachSpanReach s) := by
  unfold teachSpanReach
  split
  · exact EventWork.refl s
  · exact EventWork.refl s
  · rename_i run start sp h
    dsimp only
    have h1 : ∀ n, EventWork s (offer n (setTeach (.waitEntry { run with failures := run.failures + 1 }) s)) := fun n =>
      (setTeach_event _ _ fun r hr => ⟨run, by rw [h]; rfl, by cases hr; rfl⟩).trans (offer_work n _).event
    split
    · exact (h1 _).trans (endTeach_event _ _ _ _ _ _)
    · exact h1 _

/-- All that the handling of one reached target can do. -/
theorem handleReach_event (r : Reach) (s : State) : EventWork s (handleReach r s) := by
  unfold handleReach
  split
  · exact (overlengthReach_work s).event
  · exact teachSpanReach_event s
  · exact (processStation_work _ _ _).event
  · exact (handleOpening_work _ _).event
  · exact (closeWindow_work _ _ _).event
  · exact (takeDeadline_work _ _).event
  · exact (closeLineWindow_work _ _ _).event
  · exact (retire_work _ _).event

/-- All that the targets reached by one count can do. -/
theorem settleReaches_event (k : Nat) (s : State) : EventWork s (settleReaches k s) := by
  induction k generalizing s with
  | zero => exact EventWork.refl s
  | succ k ih =>
    unfold settleReaches
    split
    · exact EventWork.refl s
    · exact (handleReach_event _ _).trans (ih _)
    · exact ((nextChoice_event s).trans (handleReach_event _ _)).trans (ih _)

/-- R7, R9: a forward count moves the position and the high-water position, whatever it reaches. -/
theorem forwardCount_event (s : State) : EventWork (s.modPos PosUnit.forward) (forwardCount s) :=
  settleReaches_event _ _

theorem forwardCount_pos (s : State) : (forwardCount s).pos = s.pos.forward := (forwardCount_event s).pos

/-- All that a backward count can do. -/
theorem backwardCount_event (s : State) :
    EventWork (s.modPos fun p => { p with position := p.position - 1 }) (backwardCount s) := by
  unfold backwardCount
  dsimp only
  split
  · exact (faultCause_work _ _).event
  · exact EventWork.refl _

/-- All that an encoder error can do. -/
theorem encoderError_event (s : State) :
    EventWork (s.modPos fun p => { p with encErrors := satInc p.encErrors }) (encoderError s) :=
  (faultCause_work _ _).event

end Sys2Proof.Laws
end

