-- ==== Sys2Proof/Laws/Entry.lean ====
section
/-! SUPPORT. Creation of an item: the tag it gets is carried by no other item (R36), and what the creation writes (R37). -/

namespace Sys2Proof.Laws

open Sys2Proof.Machine Sys2Proof.Safety

theorem advanceTag_toNat (t : Tag) (h : t ≠ 0) : (advanceTag t).toNat = t.toNat % 65535 + 1 := by
  unfold advanceTag
  have hlt := t.isLt
  split
  · rename_i e; subst e; rfl
  · rename_i e
    have h1 : t.toNat ≠ 65535 := fun e' => e (BitVec.eq_of_toNat_eq e')
    rw [BitVec.toNat_add]
    have : (1 : Tag).toNat = 1 := rfl
    omega

theorem advanceTag_ne_zero (t : Tag) : advanceTag t ≠ 0 := by
  by_cases h : t = 0
  · subst h; decide
  · intro e
    have := advanceTag_toNat t h
    rw [e] at this
    simp at this

theorem iterate_advanceTag (t : Tag) (h : t ≠ 0) (j : Nat) :
    (advanceTag^[j] t).toNat = (t.toNat - 1 + j) % 65535 + 1 := by
  have h0 : 1 ≤ t.toNat := by
    rcases Nat.eq_zero_or_pos t.toNat with e | e
    · exact absurd (BitVec.eq_of_toNat_eq e) h
    · exact e
  induction j with
  | zero =>
    have hlt := t.isLt
    simp only [Function.iterate_zero, id]
    omega
  | succ j ih =>
    rw [Function.iterate_succ_apply']
    have hne : advanceTag^[j] t ≠ 0 := by
      intro e
      rw [e] at ih
      simp at ih
    rw [advanceTag_toNat _ hne, ih]
    omega

theorem freeTag_ne_zero (l : List Item) (k : Nat) (t : Tag) (h : t ≠ 0) : freeTag l k t ≠ 0 := by
  induction k generalizing t with
  | zero => exact h
  | succ k ih =>
    unfold freeTag
    split
    · exact ih _ (advanceTag_ne_zero t)
    · exact h

theorem freeTag_taken (l : List Item) (k : Nat) (t : Tag) (h : freeTag l k t ∈ l.map Item.tag) :
    ∀ j < k, advanceTag^[j] t ∈ l.map Item.tag := by
  induction k generalizing t with
  | zero => intro j hj; omega
  | succ k ih =>
    unfold freeTag at h
    have ht : t ∈ l.map Item.tag := by
      split at h
      · rename_i hany
        simp only [List.any_eq_true, decide_eq_true_eq] at hany
        obtain ⟨x, hx, e⟩ := hany
        exact e ▸ List.mem_map_of_mem hx
      · exact h
    have hany : (l.any fun it => it.tag = t) = true := by
      obtain ⟨x, hx, e⟩ := List.mem_map.1 ht
      simp only [List.any_eq_true, decide_eq_true_eq]
      exact ⟨x, hx, e⟩
    rw [if_pos hany] at h
    intro j hj
    cases j with
    | zero => exact ht
    | succ j => exact ih _ h j (by omega)

/-- R36: within 65 steps a tag is found that no item of the track carries. -/
theorem freeTag_fresh (l : List Item) (t : Tag) (ht : t ≠ 0) (hl : l.length ≤ 64) : freeTag l 65 t ∉ l.map Item.tag := by
  intro h
  have hall := freeTag_taken l 65 t h
  have hsub : (List.range 65).map (fun j => advanceTag^[j] t) ⊆ l.map Item.tag := by
    intro x hx
    simp only [List.mem_map, List.mem_range] at hx
    obtain ⟨j, hj, rfl⟩ := hx
    exact hall j hj
  have hnd : ((List.range 65).map (fun j => advanceTag^[j] t)).Nodup := by
    refine (List.nodup_map_iff_inj_on List.nodup_range).2 ?_
    intro i hi j hj e
    simp only [List.mem_range] at hi hj
    have e' := congrArg BitVec.toNat e
    rw [iterate_advanceTag t ht, iterate_advanceTag t ht] at e'
    omega
  have := (hnd.subperm hsub).length_le
  simp at this
  omega

/-- The tag a creation assigns now. -/
def newTag (s : State) : Tag := freeTag s.trk.track (Config.trackCapacity + 1) s.trk.nextTag

/-- R37: the record of a created item, decided at once when its class requires no source. -/
def createdItem (s : State) : Item :=
  let it := newItem s (newTag s)
  { it with
    decision := if it.snapshot.required = 0 then some ⟨it.snapshot.fallback, .noneRequired, s.now⟩ else none }

theorem newTag_fresh {s : State} (hn : s.trk.nextTag ≠ 0) (hl : s.trk.track.length ≤ 64) : newTag s ∉ tags s :=
  freeTag_fresh _ _ hn hl

/-- The state in which a creation has added the item and offered ENTRY. -/
def enteredState (s : State) : State :=
  offer (.entry s.now (newTag s) (newItem s (newTag s)).cls s.here)
    (s.modTrk fun t =>
      { t with
        track := t.track ++ [newItem s (newTag s)], nextTag := advanceTag (newTag s)
        entry := .measuring (newTag s) s.here })

theorem createItem_def (s : State) :
    createItem s =
      (if (newItem s (newTag s)).snapshot.required = 0 then decideItem (newTag s) .noneRequired (enteredState s)
        else enteredState s).modStn
        fun x => { x with stations := mapAll x.stations fun _ st => st.itemCreated (newTag s) } := rfl

/-- A creation in its two forms. -/
theorem createItem_cases (s : State) (hf : newTag s ∉ tags s) :
    ∃ u, ((u = enteredState s ∧ (newItem s (newTag s)).snapshot.required ≠ 0) ∨
        ((newItem s (newTag s)).snapshot.required = 0 ∧
          u = offer
            (.decision s.now (newTag s) (newItem s (newTag s)).snapshot.fallback .noneRequired s.here)
            ((enteredState s).modItem (newTag s) fun it =>
              { it with decision := some ⟨it.snapshot.fallback, .noneRequired, s.now⟩ }))) ∧
      createItem s = u.modStn fun x => { x with stations := mapAll x.stations fun _ st => st.itemCreated (newTag s) } := by
  have hfind : (enteredState s).findItem (newTag s) = some (newItem s (newTag s)) := by
    have hnone : s.trk.track.find? (fun it => it.tag = newTag s) = none := by
      rw [List.find?_eq_none]
      intro x hx e
      exact hf (by simpa using (by simpa using e : x.tag = newTag s) ▸ List.mem_map_of_mem (f := Item.tag) hx)
    unfold enteredState State.findItem
    simp only [offer_trk, modTrk_trk, List.find?_append, hnone]
    simp [newItem]
  by_cases h : (newItem s (newTag s)).snapshot.required = 0
  · refine ⟨_, .inr ⟨h, rfl⟩, ?_⟩
    have hd : decideItem (newTag s) .noneRequired (enteredState s) =
        offer (.decision s.now (newTag s) (newItem s (newTag s)).snapshot.fallback .noneRequired s.here)
          ((enteredState s).modItem (newTag s) fun it =>
            { it with decision := some ⟨it.snapshot.fallback, .noneRequired, s.now⟩ }) := by
      unfold decideItem
      rw [hfind]
      have hnow : (enteredState s).now = s.now := by simp [enteredState]
      have hhere : (enteredState s).here = s.here := by simp [enteredState]
      rw [hnow, hhere]
      rfl
    rw [← hd, createItem_def, if_pos h]
  · refine ⟨_, .inl ⟨rfl, h⟩, ?_⟩
    rw [createItem_def, if_neg h]

theorem modItem_new (s : State) (hf : newTag s ∉ tags s) (x : Item) (hx : x.tag = newTag s) (f : Item → Item) :
    ((s.trk.track ++ [x]).map fun it => if it.tag = newTag s then f it else it) = s.trk.track ++ [f x] := by
  rw [List.map_append]
  congr 1
  · conv_rhs => rw [← List.map_id s.trk.track]
    apply List.map_congr_left
    intro y hy
    rw [if_neg]
    · rfl
    · exact fun e => hf (e ▸ List.mem_map_of_mem hy)
  · simp [hx]

/-- What a creation does to the track. -/
theorem createItem_trk (s : State) (hf : newTag s ∉ tags s) :
    (createItem s).trk =
      { s.trk with
        track := s.trk.track ++ [createdItem s], nextTag := advanceTag (newTag s)
        entry := .measuring (newTag s) s.here } := by
  obtain ⟨u, hu, e⟩ := createItem_cases s hf
  rw [e, modStn_trk]
  rcases hu with ⟨rfl, hr⟩ | ⟨hr, rfl⟩
  · simp only [enteredState, offer_trk, modTrk_trk, createdItem, if_neg hr]
    rfl
  · simp only [enteredState, offer_trk, modItem_trk, modTrk_trk, createdItem, if_pos hr]
    rw [modItem_new s hf _ rfl]

/-- What a creation does to the stations. -/
theorem createItem_stn (s : State) (hf : newTag s ∉ tags s) :
    (createItem s).stn =
      { s.stn with stations := mapAll s.stn.stations fun _ st => st.itemCreated (newTag s) } := by
  obtain ⟨u, hu, e⟩ := createItem_cases s hf
  rw [e, modStn_stn]
  rcases hu with ⟨rfl, hr⟩ | ⟨hr, rfl⟩ <;> simp [enteredState]

/-- What a creation leaves as it was. -/
theorem createItem_rest (s : State) (hf : newTag s ∉ tags s) :
    (createItem s).pos = s.pos ∧ (createItem s).inp = s.inp ∧ (createItem s).vrd = s.vrd ∧
      (createItem s).out = s.out ∧ (createItem s).zon = s.zon ∧ (createItem s).tch = s.tch ∧
      (createItem s).choice = s.choice ∧ (createItem s).pending = s.pending := by
  obtain ⟨u, hu, e⟩ := createItem_cases s hf
  rw [e]
  rcases hu with ⟨rfl, hr⟩ | ⟨hr, rfl⟩ <;> simp [enteredState]

/-- What a creation does to the link: it offers notices. -/
theorem createItem_lnk (s : State) (hf : newTag s ∉ tags s) :
    (createItem s).lnk =
        { s.lnk with notices := (createItem s).lnk.notices, lostCount := (createItem s).lnk.lostCount } ∧
      (NoticesOk s.lnk → NoticesOk (createItem s).lnk) := by
  obtain ⟨u, hu, e⟩ := createItem_cases s hf
  rw [e]
  simp only [modStn_lnk]
  rcases hu with ⟨rfl, hr⟩ | ⟨hr, rfl⟩
  · exact ⟨(offer_work _ _).lnk, fun h => offer_ok _ _ h⟩
  · have h1 := (offer_work (.entry s.now (newTag s) (newItem s (newTag s)).cls s.here)
      (s.modTrk fun t =>
        { t with
          track := t.track ++ [newItem s (newTag s)], nextTag := advanceTag (newTag s)
          entry := .measuring (newTag s) s.here }))
    have h2 := offer_work (.decision s.now (newTag s) (newItem s (newTag s)).snapshot.fallback .noneRequired s.here)
      ((enteredState s).modItem (newTag s) fun it =>
        { it with decision := some ⟨it.snapshot.fallback, .noneRequired, s.now⟩ })
    refine ⟨?_, fun h => h2.notices (h1.notices h)⟩
    have e1 := h1.lnk
    have e2 := h2.lnk
    simp only [modItem_lnk, enteredState] at e2
    rw [e1] at e2
    exact e2

/-- R30, R33, R64, R70: a creation keeps the track's laws. -/
theorem createItem_inv (s : State) (hi : ItemsOk s) (hr : RefsOk s) (hl : s.trk.track.length < 64) :
    ItemsOk (createItem s) ∧ RefsOk (createItem s) := by
  have hf := newTag_fresh hi.2.2.2 (le_of_lt hl)
  have htags : tags (createItem s) = tags s ++ [newTag s] := by
    unfold tags
    rw [createItem_trk s hf]
    simp [createdItem, newItem]
  obtain ⟨-, -, hv, -⟩ := createItem_rest s hf
  refine ⟨⟨?_, ?_, ?_, ?_⟩, ?_, ?_, ?_, ?_, ?_⟩
  · rw [createItem_trk s hf]
    simp
    omega
  · rw [htags, List.nodup_append]
    refine ⟨hi.2.1, by simp, ?_⟩
    intro a ha b hb
    rw [List.mem_singleton] at hb
    exact fun e => hf (hb ▸ e ▸ ha)
  · rw [createItem_trk s hf]
    intro x hx
    rcases List.mem_append.1 hx with hx | hx
    · exact hi.2.2.1 x hx
    · rw [List.mem_singleton] at hx
      subst hx
      exact ⟨freeTag_ne_zero _ _ _ hi.2.2.2, rfl⟩
  · rw [createItem_trk s hf]
    exact advanceTag_ne_zero _
  · intro t lead h
    rw [createItem_trk s hf] at h
    simp only [EntryUnit.measuring.injEq] at h
    rw [htags, ← h.1]
    simp
  · intro i t h
    rw [createItem_stn s hf] at h
    simp only [Fin.getElem_fin, mapAll_getElem, Station.itemCreated] at h
    rw [htags, List.mem_append]
    split at h
    · cases h; simp
    · exact .inl (hr.2.1 i t h)
  · intro i t h
    rw [createItem_stn s hf] at h
    simp only [Fin.getElem_fin, mapAll_getElem, Station.itemCreated] at h
    rw [htags, List.mem_append]
    split at h
    · cases h; simp
    · exact .inl (hr.2.2.1 i t h)
  · intro i w h
    rw [createItem_stn s hf] at h
    simp only [Fin.getElem_fin, mapAll_getElem, Station.itemCreated] at h
    rw [htags, List.mem_append]
    exact .inl (hr.2.2.2.1 i w h)
  · intro v w h
    rw [hv] at h
    rw [htags, List.mem_append]
    exact .inl (hr.2.2.2.2 v w h)

end Sys2Proof.Laws
end

