-- ==== Sys2Proof/Laws/Reaches.lean ====
section
/-! SUPPORT. Chains of actions: the receivers of an edge, each once, in some order; the reached targets, one after
another; the late openings of a CHECK station; how many items there are from a cursor on. -/

namespace Sys2Proof.Laws

open Sys2Proof.Machine Sys2Proof.Safety

/-! ## Any number of moves -/

theorem Many.one {r : State → State → Prop} {s t : State} (h : r s t) : Many r s t := .more h (.none t)

theorem Many.trans {r : State → State → Prop} {s t u : State} (h : Many r s t) (k : Many r t u) : Many r s u := by
  induction h with
  | none _ => exact k
  | more first _ ih => exact .more first (ih k)

/-! ## A free order -/

/-- Every element of a list is handled once, in some order; a single one is handled with no choice made. -/
theorem inFreeOrder_eq {α : Type} (f : α → State → State) (k : Nat) (l : List α) (s : State) (hk : l.length ≤ k) :
    ∃ order : List (α × Nat), (order.map Prod.fst).Perm l ∧ (order.length ≤ 1 → ∀ r ∈ order, r.2 = s.choice) ∧
      inFreeOrder f k l s = order.foldl (fun t r => f r.1 { t with choice := r.2 }) s := by
  induction k generalizing l s with
  | zero =>
    cases l
    · exact ⟨[], by simp, by simp, rfl⟩
    · simp at hk
  | succ k ih =>
    match l, hk with
    | [], _ => exact ⟨[], by simp, by simp, rfl⟩
    | [a], _ => exact ⟨[(a, s.choice)], by simp, by simp, rfl⟩
    | a :: b :: rest, hk =>
      have hn : freePick s a (b :: rest) < (a :: b :: rest).length := Nat.mod_lt _ (by simp)
      generalize hx : freePick s a (b :: rest) = n at hn
      have hg : (a :: b :: rest).getD n a = (a :: b :: rest)[n] := by
        rw [List.getD_eq_getElem?_getD, List.getElem?_eq_getElem hn]
        rfl
      obtain ⟨order, h1, -, h3⟩ :=
        ih ((a :: b :: rest).eraseIdx n) (f (a :: b :: rest)[n] s.nextChoice)
          (by rw [List.length_eraseIdx_of_lt hn]; simp at hk ⊢; omega)
      refine ⟨((a :: b :: rest)[n], s.choice + 1) :: order, ?_, ?_, ?_⟩
      · exact (h1.cons _).trans (List.getElem_cons_eraseIdx_perm hn)
      · intro hl
        have := h1.length_eq
        rw [List.length_eraseIdx_of_lt hn] at this
        simp at this hl
        simp [hl] at this
      · unfold inFreeOrder
        simp only [hx, hg]
        rw [h3]
        rfl

/-- R19, R20: no receiver takes an edge twice. -/
theorem edgeReceivers_nodup (s : State) (i : Fin 8) (e : EdgeKind) : (edgeReceivers s i e).Nodup := by
  have hc : (checkReceivers s i).Nodup :=
    (List.Nodup.filter _ (List.nodup_finRange 8)).map fun a b h => by cases h; rfl
  have hv : (verdictReceivers s i).Nodup :=
    (List.Nodup.filter _ (List.nodup_finRange 4)).map fun a b h => by cases h; rfl
  have hr : (roleReceivers s i e).Nodup ∧ .probe ∉ roleReceivers s i e ∧ .teachTarget ∉ roleReceivers s i e := by
    unfold roleReceivers
    split <;> (try split) <;> simp_all [checkReceivers, verdictReceivers]
  unfold edgeReceivers
  refine List.nodup_append.2 ⟨List.nodup_append.2 ⟨by split <;> simp, hr.1, ?_⟩, by split <;> simp, ?_⟩
  · rintro a ha _ hb rfl
    split at ha <;> simp at ha
    exact hr.2.1 (ha ▸ hb)
  · rintro a ha _ hb rfl
    split at hb <;> simp at hb
    subst hb
    rcases List.mem_append.1 ha with h | h
    · split at h <;> simp at h
    · exact hr.2.2 h

/-! ## Reached targets -/

/-- R8: what the targets reached by one count do, they do one after another. -/
theorem settleReaches_many (k : Nat) (s : State) : Many ActsOnReach s (settleReaches k s) := by
  induction k generalizing s with
  | zero => exact .none s
  | succ k ih =>
    unfold settleReaches
    split
    · exact .none s
    · rename_i r h
      exact .more ⟨r, by simp [h], s.choice, rfl⟩ (ih _)
    · rename_i r r' rest h
      refine .more ⟨_, ?_, s.choice + 1, rfl⟩ (ih _)
      have hn : freePick s r (r' :: rest) < (r :: r' :: rest).length := Nat.mod_lt _ (by simp)
      rw [h, List.getD_eq_getElem?_getD, List.getElem?_eq_getElem hn]
      exact List.getElem_mem hn

/-! ## Late openings -/

/-- How many items there are from the one a cursor is on to the newest. -/
def rank (cursor : Option Tag) : List Item → Nat
  | [] => 0
  | x :: xs => if cursor = some x.tag then xs.length + 1 else rank cursor xs

theorem rank_le (c : Option Tag) (l : List Item) : rank c l ≤ l.length := by
  induction l with
  | nil => exact Nat.le_refl _
  | cons x xs ih => unfold rank; split <;> simp only [List.length_cons] <;> omega

theorem rank_none (l : List Item) : rank none l = 0 := by
  induction l with
  | nil => rfl
  | cons x xs ih => simpa [rank] using ih

theorem rank_pos {l : List Item} {x : Item} (h : x ∈ l) : 0 < rank (some x.tag) l := by
  induction l with
  | nil => simp at h
  | cons y ys ih =>
    unfold rank
    split
    · omega
    · rename_i hy
      rcases List.mem_cons.1 h with e | e
      · exact absurd (by rw [e]) hy
      · exact ih e

theorem rank_map (c : Option Tag) (f : Item → Item) (hf : ∀ x, (f x).tag = x.tag) (l : List Item) :
    rank c (l.map f) = rank c l := by
  induction l with
  | nil => rfl
  | cons x xs ih => simp [rank, hf, ih]

theorem rank_filter (c : Option Tag) (p : Item → Bool) (l : List Item) : rank c (l.filter p) ≤ rank c l := by
  induction l with
  | nil => exact Nat.le_refl _
  | cons x xs ih =>
    have h1 := rank_le c (xs.filter p)
    have h2 := List.length_filter_le p xs
    rw [List.filter_cons]
    by_cases hp : p x = true
    · rw [if_pos hp]
      simp only [rank]
      split <;> omega
    · rw [if_neg hp]
      simp only [rank]
      split <;> omega

/-- R64: a cursor that advances has fewer items before it. -/
theorem rank_newer {l : List Item} {g : Tag} (hn : (l.map Item.tag).Nodup) (h : g ∈ l.map Item.tag) :
    rank (newerThan g l) l < rank (some g) l := by
  induction l with
  | nil => simp at h
  | cons x xs ih =>
    rw [List.map_cons, List.nodup_cons] at hn
    have skip : ∀ c, (∀ t, c = some t → t ∈ xs.map Item.tag) → rank c (x :: xs) = rank c xs := by
      intro c hc
      simp only [rank]
      rw [if_neg]
      exact fun e => hn.1 (hc _ e)
    unfold newerThan
    split
    · rename_i hx
      rw [skip _ fun t ht => by cases xs <;> simp_all]
      have := rank_le (xs.head?.map Item.tag) xs
      simp only [rank, hx]
      simpa using Nat.lt_succ_of_le this
    · rename_i hx
      have hg : g ∈ xs.map Item.tag := (List.mem_cons.1 h).resolve_left fun e => hx e.symm
      rw [skip _ fun t ht => newerThan_mem ht, skip _ fun t ht => by cases ht; exact hg]
      exact ih hn.2 hg

/-- What the handling of an opening or a close leaves of the openings still to be handled. -/
def OpeningsLeft (i : Fin 8) (s : State) : Nat := rank s.stn.stations[i].opening s.trk.track

theorem openingsLeft_leave (i : Fin 8) (g : Tag) (r : ExitReason) {s : State} (h : ItemsOk s) :
    OpeningsLeft i (leave g r s) ≤ OpeningsLeft i s := by
  unfold leave
  split
  · exact Nat.le_refl _
  · rename_i it hf
    unfold OpeningsLeft
    simp only [offer_stn, offer_trk, takeOut, modVrd_stn, modVrd_trk, modStn_stn, modStn_trk, modTrk_trk, modTrk_stn,
      Fin.getElem_fin, mapAll_getElem, Station.itemLeft]
    refine Nat.le_trans (rank_filter _ _ _) ?_
    split
    · rename_i ho
      rw [ho]
      exact Nat.le_of_lt (rank_newer h.2.1 (findItem_mem_tags hf))
    · exact Nat.le_refl _

theorem faultCause_stn (c : FaultCause) (s : State) : (faultCause c s).stn = s.stn := by
  unfold faultCause
  split <;> try rfl
  all_goals
    simp only [enterFault, joinFault, enterZone, driveLineStop]
    try split
    all_goals simp

theorem faultCause_trk (c : FaultCause) (s : State) : (faultCause c s).trk = s.trk := by
  unfold faultCause
  split <;> try rfl
  all_goals
    simp only [enterFault, joinFault, enterZone, driveLineStop]
    try split
    all_goals simp

theorem openingsLeft_modItem (i : Fin 8) (g : Tag) (f : Item → Item) (hf : ∀ x, (f x).tag = x.tag) (s : State) :
    OpeningsLeft i (s.modItem g f) = OpeningsLeft i s := by
  unfold OpeningsLeft
  rw [modItem_stn, modItem_trk]
  exact rank_map _ _ (fun x => by split <;> simp [hf]) _

/-- R71: an opening that is handled leaves one opening fewer to be handled. -/
theorem openingsLeft_openOne (i : Fin 8) {s : State} {it : Item} (h : ItemsOk s) (hm : it ∈ s.trk.track)
    (ho : s.stn.stations[i].opening = some it.tag) : OpeningsLeft i (openOne i s) < OpeningsLeft i s := by
  have hn := rank_newer h.2.1 (List.mem_map_of_mem hm)
  have hs : OpeningsLeft i s = rank (some it.tag) s.trk.track := by unfold OpeningsLeft; rw [ho]
  have adv : ∀ t : State,
      OpeningsLeft i (t.modStation i fun x => { x with opening := newerThan it.tag s.trk.track }) =
        rank (newerThan it.tag s.trk.track) t.trk.track := fun t => by simp [OpeningsLeft]
  rw [hs]
  unfold openOne
  simp only [ho, findItem_eq h hm]
  rw [adv]
  split
  · split
    · rw [modItem_trk]
      exact Nat.lt_of_le_of_lt (Nat.le_of_eq (rank_map _ _ (fun x => by split <;> rfl) _)) hn
    · exact hn
  · exact hn

/-- R79: late openings are handled one after another, each by OpensLate. -/
theorem lateOpen_many (i : Fin 8) (k : Nat) {s : State} (h : ItemsOk s) : Many (OpensLate i) s (lateOpen i k s) := by
  induction k generalizing s with
  | zero => exact .none s
  | succ k ih =>
    unfold lateOpen
    split
    · exact .none s
    · rename_i it hb
      split
      · exact .none s
      · rename_i ha
        obtain ⟨g, hg, hf⟩ := Option.bind_eq_some_iff.1 hb
        obtain ⟨hm, rfl⟩ := findItem_some hf
        exact .more ⟨it, ⟨hm, hg, Bool.eq_false_iff.2 ha⟩, rfl⟩
          (ih (((openOne_work _ _).trans (closeIfLate_work _ _ _)).itemsOk h))

end Sys2Proof.Laws
end

