-- ==== Sys2Proof/Laws/Requests.lean ====
section
/-! SUPPORT. Taking a request: what the two gates do, what a reply adds; the changes of zone state that several
commands share; fire claims, filter waits and serial order. -/

namespace Sys2Proof.Laws

open Sys2Proof.Machine Sys2Proof.Safety

/-! ## Taking a request -/

/-- A taken frame is handed to its request. -/
theorem takeFrame_taken {f : State → State} {s : State} (h : Taken s) : takeFrame f s = f s := by
  unfold takeFrame
  rw [if_neg (by simp [h.1]), if_pos (show s.lnk.replies.length < Config.replyCapacity from h.2)]

/-- R151: a frame that completes while a RESET is pending does nothing. -/
theorem takeFrame_pending {f : State → State} {s : State} (h : s.lnk.resetPending = true) : takeFrame f s = s := by
  unfold takeFrame
  rw [if_pos h]

/-- R139: a frame that completes with 8 replies queued is counted and nothing else. -/
theorem takeFrame_full {f : State → State} {s : State} (h : s.lnk.resetPending = false) (hl : 8 ≤ s.lnk.replies.length) :
    takeFrame f s = s.modLnk fun l => { l with rxDropped := satInc l.rxDropped } := by
  unfold takeFrame
  rw [if_neg (by simp [h]), if_neg (by simpa [Config.replyCapacity] using hl)]

/-- A frame that completes does one of three things. -/
theorem takeFrame_cases (f : State → State) (s : State) :
    (Taken s ∧ takeFrame f s = f s) ∨ takeFrame f s = s ∨
      takeFrame f s = s.modLnk fun l => { l with rxDropped := satInc l.rxDropped } := by
  by_cases h : s.lnk.resetPending = true
  · exact .inr (.inl (takeFrame_pending h))
  · by_cases hl : s.lnk.replies.length < 8
    · exact .inl ⟨⟨by simpa using h, hl⟩, takeFrame_taken ⟨by simpa using h, hl⟩⟩
    · exact .inr (.inr (takeFrame_full (by simpa using h) (by omega)))

/-- All that answering a request does. -/
theorem answer_eq (kind tag : Byte) (st : Status) (fields : List Byte) (s : State) :
    answer kind tag st fields s = replied kind tag st fields s := rfl

theorem pushReply_eq (r : Reply) (s : State) :
    pushReply r s = { s with lnk := { s.lnk with replies := s.lnk.replies ++ [r] } } := rfl

/-! ## Changes of zone state -/

/-- All that a change of zone state does. -/
theorem enterZone_eq (z : ZoneState) (c : ZoneCause) (s : State) :
    enterZone z c s =
      offer (.zoneState s.now s.zon.zone z c s.here) { s with zon := { s.zon with zone := z } } := rfl

@[simp] theorem enterZone_zon (z : ZoneState) (c : ZoneCause) (s : State) :
    (enterZone z c s).zon = { s.zon with zone := z } := by simp [enterZone]

@[simp] theorem enterZone_trk (z : ZoneState) (c : ZoneCause) (s : State) : (enterZone z c s).trk = s.trk := by
  simp [enterZone]

@[simp] theorem enterZone_pending (z : ZoneState) (c : ZoneCause) (s : State) :
    (enterZone z c s).pending = s.pending := by simp [enterZone]

/-- R123: what a tracking start does. -/
theorem trackingStart_spec (c : ZoneCause) (s : State) :
    (trackingStart c s).pos = { s.pos with position := 0, highWater := 0 } ∧
      (trackingStart c s).trk = { s.trk with nextTag := 1, entry := entryByLevel s } ∧
      (trackingStart c s).zon = { s.zon with zone := .tracking, firstCause := none, causes := .empty } ∧
      (trackingStart c s).inp = s.inp ∧ (trackingStart c s).stn = s.stn ∧ (trackingStart c s).vrd = s.vrd ∧
      (trackingStart c s).out = s.out ∧ (trackingStart c s).tch = s.tch ∧
      (trackingStart c s).pending = s.pending := by
  simp [trackingStart, enterZone]

/-- R131: what an entry to ESTOP does. -/
theorem enterEstop_spec (c : ZoneCause) (s : State) :
    (enterEstop c s).zon = { s.zon with zone := .estop } ∧
      (enterEstop c s).out = { s.out with outputs := mapAll s.out.outputs fun _ o => { o with state := .off } } ∧
      (enterEstop c s).trk = { s.trk with entry := entryByLevel s } ∧ (enterEstop c s).tch.state = .idle ∧
      (enterEstop c s).pos = s.pos ∧ (enterEstop c s).inp = s.inp ∧ (enterEstop c s).stn = s.stn ∧
      (enterEstop c s).vrd = s.vrd ∧ (enterEstop c s).pending = s.pending := by
  have hidle := abortTeach_idle (setEntry (entryByLevel s) (emergencyCut s))
  unfold enterEstop
  unfold abortTeach at *
  split <;> simp_all [enterZone, endTeach, setTeach, setEntry, emergencyCut]

/-- R51, R129, R132: what a flush to CONFIG does to the track and the zone. -/
theorem flushToConfig_spec (s : State) :
    (flushToConfig s).trk.track = [] ∧ (flushToConfig s).zon = { (flush s).zon with zone := .config } ∧
      (flushToConfig s).pos = s.pos ∧ (flushToConfig s).inp = s.inp ∧ (flushToConfig s).tch = s.tch ∧
      (flushToConfig s).pending = s.pending := by
  have h := flush_work s
  refine ⟨?_, ?_, ?_, ?_, ?_, ?_⟩
  · simp [flushToConfig, flush_empty]
  · simp [flushToConfig]
  · simp [flushToConfig, enterZone, h.pos]
  · simp [flushToConfig, enterZone, h.inp]
  · simp [flushToConfig, enterZone, h.tch]
  · simp [flushToConfig, h.pending]

/-! ## Fire claims and waits -/

/-- R108: a claim changes the state of its output and nothing else of it. -/
theorem claim_settings (o : Output) (len : BitVec 16) (w : Owner) (now : Time) :
    (o.claim len w now).1.activeLow = o.activeLow ∧ (o.claim len w now).1.collision = o.collision ∧
      (o.claim len w now).1.gap = o.gap := by
  unfold Output.claim
  dsimp only
  split
  · exact ⟨rfl, rfl, rfl⟩
  · split <;> exact ⟨rfl, rfl, rfl⟩
  · exact ⟨rfl, rfl, rfl⟩

/-- R108: a refused claim changes nothing. -/
theorem claim_refused (o : Output) (len : BitVec 16) (w : Owner) (now : Time) (r : RefusalReason)
    (h : (o.claim len w now).2 = some r) : (o.claim len w now).1 = o := by
  unfold Output.claim at *
  dsimp only at *
  split at h
  · simp at h
  · split at h
    · simp at h
    · simp_all
  · simp_all

/-- R15: an unchanged raw level leaves a wait alone. -/
theorem rewait_same (f now : Time) (a l : Bool) (w : Option Time) : rewait f now a l l w = w := by simp [rewait]

/-- R15: a return to the accepted level ends the wait. -/
theorem rewait_revert (f now : Time) (a l : Bool) (w : Option Time) (h : l ≠ a) : rewait f now a l a w = none := by
  simp [rewait, h]

/-! ## Serial order (R7) -/

theorem ahead_irrefl (p : Pos) : ahead p p = false := by simp [ahead]

theorem ahead_asymm (p q : Pos) (h : ahead p q = true) : ahead q p = false := by
  simp only [ahead, Bool.and_eq_true, decide_eq_true_eq, Bool.and_eq_false_iff, decide_eq_false_iff_not] at *
  have e : (q - p).toNat = (2 ^ 32 - (p - q).toNat) % 2 ^ 32 := by
    rw [show q - p = -(p - q) by ring, BitVec.toNat_neg]
  have := (p - q).isLt
  omega

end Sys2Proof.Laws
end

