-- ==== Sys2Proof/Laws/Settling.lean ====
section
/-! SUPPORT. The targets of one count come to an end: Calm, work that leaves no more targets to come than there were, and
the reaches, each of which leaves fewer; so do late openings, until none is due. -/

namespace Sys2Proof.Laws

open Sys2Proof.Machine Sys2Proof.Safety

/-- How often an item can still be over length, take a deadline and retire. -/
def itemLeft (x : Item) : Nat := 1 + (if x.flags.overlength then 0 else 1) + if x.decision.isNone then 1 else 0

theorem itemLeft_pos (x : Item) : 1 ≤ itemLeft x := by unfold itemLeft; omega

/-- How many targets of its items a track can still have reached. -/
def itemsLeft (l : List Item) : Nat := (l.map itemLeft).sum

theorem itemsLeft_map (f : Item → Item) (hf : ∀ x, itemLeft (f x) ≤ itemLeft x) (l : List Item) :
    itemsLeft (l.map f) ≤ itemsLeft l := by
  unfold itemsLeft
  induction l with
  | nil => exact Nat.le_refl _
  | cons x xs ih => have := hf x; simp only [List.map_cons, List.sum_cons] at *; omega

theorem itemsLeft_map_lt (f : Item → Item) (hf : ∀ x, itemLeft (f x) ≤ itemLeft x) {l : List Item} {y : Item}
    (hy : y ∈ l) (h : itemLeft (f y) < itemLeft y) : itemsLeft (l.map f) < itemsLeft l := by
  induction l with
  | nil => simp at hy
  | cons x xs ih =>
    have h1 := hf x
    have h2 := itemsLeft_map f hf xs
    unfold itemsLeft at *
    simp only [List.map_cons, List.sum_cons] at *
    rcases List.mem_cons.1 hy with e | e
    · subst e; omega
    · have := ih e; omega

theorem itemsLeft_filter (p : Item → Bool) (l : List Item) : itemsLeft (l.filter p) ≤ itemsLeft l := by
  unfold itemsLeft
  induction l with
  | nil => exact Nat.le_refl _
  | cons x xs ih => rw [List.filter_cons]; split <;> simp only [List.map_cons, List.sum_cons] <;> omega

theorem itemsLeft_filter_lt {p : Item → Bool} {l : List Item} {y : Item} (hy : y ∈ l) (h : p y = false) :
    itemsLeft (l.filter p) < itemsLeft l := by
  induction l with
  | nil => simp at hy
  | cons x xs ih =>
    have h1 := itemsLeft_filter p xs
    have h2 := itemLeft_pos x
    rw [List.filter_cons]
    unfold itemsLeft at *
    rcases List.mem_cons.1 hy with e | e
    · subst e
      rw [if_neg (by simp [h])]
      simp only [List.map_cons, List.sum_cons]
      omega
    · have := ih e
      split <;> simp only [List.map_cons, List.sum_cons] <;> omega

theorem itemsLeft_le (l : List Item) : itemsLeft l ≤ 3 * l.length := by
  unfold itemsLeft
  induction l with
  | nil => exact Nat.le_refl _
  | cons x xs ih =>
    have : itemLeft x ≤ 3 := by unfold itemLeft; split <;> split <;> omega
    simp only [List.map_cons, List.sum_cons, List.length_cons]
    omega

/-- Work that leaves no more targets to come than there were, of any kind. -/
structure Calm (s t : State) : Prop where
  ok : ItemsOk t
  tch : t.tch = s.tch
  records : ∀ v : Fin 4, t.vrd.sources[v].record = s.vrd.sources[v].record
  cursor : ∀ i : Fin 8, rank t.stn.stations[i].cursor t.trk.track ≤ rank s.stn.stations[i].cursor s.trk.track
  opening : ∀ i : Fin 8, OpeningsLeft i t ≤ OpeningsLeft i s
  checks : ∀ i : Fin 8, t.stn.stations[i].windows.length ≤ s.stn.stations[i].windows.length
  lines : ∀ v : Fin 4, t.vrd.sources[v].windows.length ≤ s.vrd.sources[v].windows.length
  items : itemsLeft t.trk.track ≤ itemsLeft s.trk.track

theorem Calm.refl {s : State} (h : ItemsOk s) : Calm s s :=
  ⟨h, rfl, fun _ => rfl, fun _ => Nat.le_refl _, fun _ => Nat.le_refl _, fun _ => Nat.le_refl _, fun _ => Nat.le_refl _,
    Nat.le_refl _⟩

theorem Calm.trans {s t u : State} (h : Calm s t) (k : Calm t u) : Calm s u where
  ok := k.ok
  tch := k.tch.trans h.tch
  records v := (k.records v).trans (h.records v)
  cursor i := Nat.le_trans (k.cursor i) (h.cursor i)
  opening i := Nat.le_trans (k.opening i) (h.opening i)
  checks i := Nat.le_trans (k.checks i) (h.checks i)
  lines v := Nat.le_trans (k.lines v) (h.lines v)
  items := Nat.le_trans k.items h.items

/-- Work that changes neither stations nor sources nor items. -/
theorem Calm.of_same {s t : State} (h : ItemsOk s) (w : ItemWork s t) (h1 : t.stn = s.stn) (h2 : t.vrd = s.vrd)
    (h3 : t.trk.track = s.trk.track) : Calm s t where
  ok := w.itemsOk h
  tch := w.tch
  records := w.sourceRecords
  cursor i := by rw [h1, h3]
  opening i := by unfold OpeningsLeft; rw [h1, h3]
  checks i := by rw [h1]
  lines v := by rw [h2]
  items := by rw [h3]

theorem faultCause_vrd (c : FaultCause) (s : State) : (faultCause c s).vrd = s.vrd := by
  unfold faultCause
  split <;> try rfl
  all_goals
    simp only [enterFault, joinFault, enterZone, driveLineStop]
    try split
    all_goals simp

theorem offer_calm (n : Notice) {s : State} (h : ItemsOk s) : Calm s (offer n s) :=
  .of_same h (offer_work n s) (by simp) (by simp) (by simp)

theorem faultCause_calm (c : FaultCause) {s : State} (h : ItemsOk s) : Calm s (faultCause c s) :=
  .of_same h (faultCause_work c s) (faultCause_stn c s) (faultCause_vrd c s) (by rw [faultCause_trk])

theorem modItem_calm (g : Tag) (f : Item → Item) {s : State} (h : ItemsOk s) (ht : ∀ x, (f x).tag = x.tag)
    (he : ∀ x, (f x).exit = x.exit) (hf : ∀ x, itemLeft (f x) ≤ itemLeft x) : Calm s (s.modItem g f) where
  ok := by
    obtain ⟨h1, h2, h3, h4⟩ := h
    refine ⟨by simpa using h1, by rwa [tags_modItem g f ht], ?_, h4⟩
    intro y hy
    simp only [modItem_trk, List.mem_map] at hy
    obtain ⟨x, hx, rfl⟩ := hy
    split
    · simpa [ht, he] using h3 x hx
    · exact h3 x hx
  tch := rfl
  records _ := rfl
  cursor i := Nat.le_of_eq (rank_map _ _ (fun x => by split <;> simp [ht]) _)
  opening i := Nat.le_of_eq (openingsLeft_modItem i g f ht s)
  checks _ := Nat.le_refl _
  lines _ := Nat.le_refl _
  items := itemsLeft_map _ (fun x => by split <;> simp [hf]) _

theorem record_calm (g : Tag) (i : Fin 8) (o : StationOutcome) {s : State} (h : ItemsOk s) :
    Calm s (s.modItem g fun x => x.record i o) :=
  modItem_calm _ _ h (fun _ => rfl) (fun _ => rfl) fun _ => Nat.le_refl _

theorem leave_calm (g : Tag) (r : ExitReason) {s : State} (h : ItemsOk s) : Calm s (leave g r s) where
  ok := (leave_work g r s).itemsOk h
  tch := (leave_work g r s).tch
  records := (leave_work g r s).sourceRecords
  cursor i := by
    unfold leave
    split
    · exact Nat.le_refl _
    · rename_i it hf
      simp only [offer_stn, offer_trk, takeOut, modVrd_stn, modVrd_trk, modStn_stn, modStn_trk, modTrk_trk, modTrk_stn,
        Fin.getElem_fin, mapAll_getElem, Station.itemLeft]
      refine Nat.le_trans (rank_filter _ _ _) ?_
      split
      · rename_i ho
        rw [ho]
        exact Nat.le_of_lt (rank_newer h.2.1 (findItem_mem_tags hf))
      · exact Nat.le_refl _
  opening i := openingsLeft_leave i g r h
  checks i := by
    unfold leave
    split
    · exact Nat.le_refl _
    · simpa [takeOut, Station.itemLeft] using List.length_filter_le _ _
  lines v := by
    unfold leave
    split
    · exact Nat.le_refl _
    · simpa [takeOut, Source.itemLeft] using List.length_filter_le _ _
  items := by
    unfold leave
    split
    · exact Nat.le_refl _
    · simpa [takeOut] using itemsLeft_filter _ _

theorem decideItem_calm (g : Tag) (r : Reason) {s : State} (h : ItemsOk s) : Calm s (decideItem g r s) := by
  have h1 := modItem_calm g (fun x => { x with decision := some ⟨x.combine r, r, s.now⟩ }) h (fun _ => rfl)
    (fun _ => rfl) fun x => by simp [itemLeft]
  unfold decideItem
  split
  · exact .refl h
  · split
    · exact .refl h
    · exact h1.trans (offer_calm _ h1.ok)

theorem takeDeadline_calm (g : Tag) {s : State} (h : ItemsOk s) : Calm s (takeDeadline g s) := by
  unfold takeDeadline
  split
  · exact .refl h
  · split
    · exact .refl h
    · have h1 := modItem_calm g (fun it => { it with slots := it.slots.map Slot.timeOut }) h (fun _ => rfl)
        (fun _ => rfl) fun _ => Nat.le_refl _
      exact h1.trans (decideItem_calm g .deadline h1.ok)

theorem fillVerdict_calm (g : Tag) (v : Fin 4) (code : Fin 16) {s : State} (h : ItemsOk s) :
    Calm s (fillVerdict g v code s) := by
  have h1 := modItem_calm g (Item.fillSlot v code) h (fun _ => rfl) (fun _ => rfl) fun _ => Nat.le_refl _
  unfold fillVerdict
  split
  · exact .refl h
  · split
    · exact .refl h
    · exact .refl h
    · exact .refl h
    · exact h1
    · dsimp only
      split
      · exact h1.trans (decideItem_calm _ _ h1.ok)
      · exact h1

/-- A change of one source that keeps its record and opens no window. -/
theorem modSource_calm (v : Fin 4) (f : Source → Source) {s : State} (h : ItemsOk s)
    (hr : (f s.vrd.sources[v]).record = s.vrd.sources[v].record)
    (hw : (f s.vrd.sources[v]).windows.length ≤ s.vrd.sources[v].windows.length) : Calm s (s.modSource v f) where
  ok := h
  tch := rfl
  records k := by
    simp only [modSource_vrd, Fin.getElem_fin, modAt_getElem]
    split
    · rename_i e; obtain rfl : v = k := Fin.ext e; exact hr
    · rfl
  cursor _ := Nat.le_refl _
  opening _ := Nat.le_refl _
  checks _ := Nat.le_refl _
  lines k := by
    simp only [modSource_vrd, Fin.getElem_fin, modAt_getElem]
    split
    · rename_i e; obtain rfl : v = k := Fin.ext e; exact hw
    · exact Nat.le_refl _
  items := Nat.le_refl _

theorem closeLineWindow_calm (v : Fin 4) (g : Tag) {s : State} (h : ItemsOk s) : Calm s (closeLineWindow v g s) := by
  have h1 := modSource_calm v (fun src => { src with windows := src.windows.filter fun w => w.tag ≠ g }) h rfl
    (List.length_filter_le _ _)
  unfold closeLineWindow
  split
  · exact .refl h
  · dsimp only
    split
    · exact h1
    · exact h1.trans (fillVerdict_calm _ _ _ h1.ok)

/-- A change of one station that opens no window and moves no cursor back. -/
theorem modStation_calm (i : Fin 8) (f : Station → Station) {s : State} (h : ItemsOk s)
    (hc : rank (f s.stn.stations[i]).cursor s.trk.track ≤ rank s.stn.stations[i].cursor s.trk.track)
    (ho : rank (f s.stn.stations[i]).opening s.trk.track ≤ rank s.stn.stations[i].opening s.trk.track)
    (hw : (f s.stn.stations[i]).windows.length ≤ s.stn.stations[i].windows.length) : Calm s (s.modStation i f) where
  ok := h
  tch := rfl
  records _ := rfl
  cursor k := by
    simp only [modStation_stn, modStation_trk, Fin.getElem_fin, modAt_getElem]
    split
    · rename_i e; obtain rfl : i = k := Fin.ext e; exact hc
    · exact Nat.le_refl _
  opening k := by
    simp only [OpeningsLeft, modStation_stn, modStation_trk, Fin.getElem_fin, modAt_getElem]
    split
    · rename_i e; obtain rfl : i = k := Fin.ext e; exact ho
    · exact Nat.le_refl _
  checks k := by
    simp only [modStation_stn, Fin.getElem_fin, modAt_getElem]
    split
    · rename_i e; obtain rfl : i = k := Fin.ext e; exact hw
    · exact Nat.le_refl _
  lines _ := Nat.le_refl _
  items := Nat.le_refl _

theorem dropWindow_calm (i : Fin 8) (p : CheckWindow → Bool) {s : State} (h : ItemsOk s) :
    Calm s (s.modStation i fun st => { st with windows := st.windows.filter p }) :=
  modStation_calm i _ h (Nat.le_refl _) (Nat.le_refl _) (List.length_filter_le _ _)

theorem missItem_calm (i : Fin 8) (w : CheckWindow) {s : State} (h : ItemsOk s) : Calm s (missItem i w s) := by
  have h1 := modItem_calm w.tag (fun x => { x.record i .missed with flags := { x.flags with missing := true } }) h
    (fun _ => rfl) (fun _ => rfl) fun _ => Nat.le_refl _
  have h2 := fun n => h1.trans (offer_calm n h1.ok)
  unfold missItem
  dsimp only
  split
  · unfold missingPolicy
    split
    · exact h2 _
    · exact (h2 _).trans (leave_calm _ _ (h2 _).ok)
    · exact (h2 _).trans (faultCause_calm _ (h2 _).ok)
  · exact h2 _

theorem closeWindow_calm (i : Fin 8) (g : Tag) {s : State} (h : ItemsOk s) : Calm s (closeWindow i g s) := by
  have h1 := dropWindow_calm i (fun w => w.tag ≠ g) h
  unfold closeWindow
  split
  · exact .refl h
  · dsimp only
    split
    · exact h1
    · split
      · split
        · exact h1.trans (record_calm _ _ _ h1.ok)
        · exact h1.trans (missItem_calm _ _ h1.ok)
      · exact h1

theorem retire_calm (g : Tag) {s : State} (h : ItemsOk s) : Calm s (retire g s) :=
  (decideItem_calm g .atExit h).trans (leave_calm g .endOfTrack (decideItem_calm g .atExit h).ok)

/-! ## How many targets can still come -/

/-- The fires still to come at the trigger station of a source. -/
def triggersLeft (s : State) (v : Fin 4) : Nat :=
  match s.vrd.sources[v].record with
  | .message => 0
  | .line _ k _ _ _ => rank s.stn.stations[k].cursor s.trk.track

/-- A running teach that waits for its target edge can still have its span reached. -/
def spanLeft (t : TeachState) : Nat :=
  match t with
  | .idle => 0
  | .waitEntry _ => 0
  | .waitTarget _ _ _ => 1

/-- A bound on the targets that can still come at the same count. -/
def targetsLeft (s : State) : Nat :=
  (∑ i : Fin 8,
      (rank s.stn.stations[i].cursor s.trk.track + 2 * OpeningsLeft i s + s.stn.stations[i].windows.length)) +
    (∑ v : Fin 4, (s.vrd.sources[v].windows.length + triggersLeft s v)) + itemsLeft s.trk.track + spanLeft s.tch.state

theorem Calm.triggersLeft_le {s t : State} (h : Calm s t) (v : Fin 4) : triggersLeft t v ≤ triggersLeft s v := by
  unfold triggersLeft
  rw [h.records v]
  cases s.vrd.sources[v].record with
  | message => exact Nat.le_refl _
  | line _ k _ _ _ => exact h.cursor k

theorem Calm.stations_le {s t : State} (h : Calm s t) (i : Fin 8) :
    rank t.stn.stations[i].cursor t.trk.track + 2 * OpeningsLeft i t + t.stn.stations[i].windows.length ≤
      rank s.stn.stations[i].cursor s.trk.track + 2 * OpeningsLeft i s + s.stn.stations[i].windows.length := by
  have h1 := h.cursor i
  have h2 := h.opening i
  have h3 := h.checks i
  omega

theorem Calm.sources_le {s t : State} (h : Calm s t) (v : Fin 4) :
    t.vrd.sources[v].windows.length + triggersLeft t v ≤ s.vrd.sources[v].windows.length + triggersLeft s v :=
  Nat.add_le_add (h.lines v) (h.triggersLeft_le v)

/-- Calm work leaves no more targets. -/
theorem Calm.le {s t : State} (h : Calm s t) : targetsLeft t ≤ targetsLeft s := by
  have h1 := Finset.sum_le_sum fun i (_ : i ∈ Finset.univ) => h.stations_le i
  have h2 := Finset.sum_le_sum fun v (_ : v ∈ Finset.univ) => h.sources_le v
  have h3 := h.items
  unfold targetsLeft
  rw [h.tch]
  omega

/-- Calm work that takes a target away leaves fewer. -/
theorem Calm.lt_items {s t : State} (h : Calm s t) (hi : itemsLeft t.trk.track < itemsLeft s.trk.track) :
    targetsLeft t < targetsLeft s := by
  have h1 := Finset.sum_le_sum fun i (_ : i ∈ Finset.univ) => h.stations_le i
  have h2 := Finset.sum_le_sum fun v (_ : v ∈ Finset.univ) => h.sources_le v
  unfold targetsLeft
  rw [h.tch]
  omega

theorem Calm.lt_checks {s t : State} (h : Calm s t) (i : Fin 8)
    (hi : t.stn.stations[i].windows.length < s.stn.stations[i].windows.length) : targetsLeft t < targetsLeft s := by
  have h1 := Finset.sum_lt_sum (fun i (_ : i ∈ Finset.univ) => h.stations_le i)
    ⟨i, Finset.mem_univ i, by have h1 := h.cursor i; have h2 := h.opening i; omega⟩
  have h2 := Finset.sum_le_sum fun v (_ : v ∈ Finset.univ) => h.sources_le v
  have h3 := h.items
  unfold targetsLeft
  rw [h.tch]
  omega

theorem Calm.lt_lines {s t : State} (h : Calm s t) (v : Fin 4)
    (hv : t.vrd.sources[v].windows.length < s.vrd.sources[v].windows.length) : targetsLeft t < targetsLeft s := by
  have h1 := Finset.sum_le_sum fun i (_ : i ∈ Finset.univ) => h.stations_le i
  have h2 := Finset.sum_lt_sum (fun v (_ : v ∈ Finset.univ) => h.sources_le v)
    ⟨v, Finset.mem_univ v, Nat.add_lt_add_of_lt_of_le hv (h.triggersLeft_le v)⟩
  have h3 := h.items
  unfold targetsLeft
  rw [h.tch]
  omega

/-! ## Each reach leaves fewer -/

theorem closeWindow_less (i : Fin 8) {s : State} (h : ItemsOk s) {w : CheckWindow}
    (hw : w ∈ s.stn.stations[i].windows) : targetsLeft (closeWindow i w.tag s) < targetsLeft s := by
  have hd := dropWindow_calm i (fun x => x.tag ≠ w.tag) h
  have hlt : targetsLeft (s.modStation i fun st => { st with windows := st.windows.filter fun x => x.tag ≠ w.tag }) <
      targetsLeft s := by
    apply hd.lt_checks i
    simp only [modStation_stn, Fin.getElem_fin, modAt_getElem, if_true]
    exact List.length_filter_lt_length_iff_exists.2 ⟨w, hw, by simp⟩
  unfold closeWindow
  split
  · rename_i hf
    have := List.find?_eq_none.1 hf w hw
    simp at this
  · dsimp only
    split
    · exact hlt
    · split
      · split
        · exact Nat.lt_of_le_of_lt (record_calm _ _ _ hd.ok).le hlt
        · exact Nat.lt_of_le_of_lt (missItem_calm _ _ hd.ok).le hlt
      · exact hlt

theorem closeLineWindow_less (v : Fin 4) {s : State} (h : ItemsOk s) {w : LineWindow}
    (hw : w ∈ s.vrd.sources[v].windows) : targetsLeft (closeLineWindow v w.tag s) < targetsLeft s := by
  have hd := modSource_calm v (fun src => { src with windows := src.windows.filter fun x => x.tag ≠ w.tag }) h rfl
    (List.length_filter_le _ _)
  have hlt : targetsLeft (s.modSource v fun src => { src with windows := src.windows.filter fun x => x.tag ≠ w.tag }) <
      targetsLeft s := by
    apply hd.lt_lines v
    simp only [modSource_vrd, Fin.getElem_fin, modAt_getElem, if_true]
    exact List.length_filter_lt_length_iff_exists.2 ⟨w, hw, by simp⟩
  unfold closeLineWindow
  split
  · rename_i hf
    have := List.find?_eq_none.1 hf w hw
    simp at this
  · dsimp only
    split
    · exact hlt
    · exact Nat.lt_of_le_of_lt (fillVerdict_calm _ _ _ hd.ok).le hlt

theorem decideItem_less {g : Tag} (r : Reason) {s : State} (h : ItemsOk s) {it : Item} (hf : s.findItem g = some it)
    (hd : it.decision = none) : targetsLeft (decideItem g r s) < targetsLeft s := by
  apply (decideItem_calm g r h).lt_items
  unfold decideItem
  simp only [hf, hd, Option.isSome_none, Bool.false_eq_true, if_false, offer_trk, modItem_trk]
  obtain ⟨hm, rfl⟩ := findItem_some hf
  exact itemsLeft_map_lt _ (fun x => by split <;> simp [itemLeft]) hm (by simp [itemLeft, hd])

theorem takeDeadline_less {g : Tag} {s : State} (h : ItemsOk s) {it : Item} (hf : s.findItem g = some it)
    (hd : it.decision = none) : targetsLeft (takeDeadline g s) < targetsLeft s := by
  have h1 := modItem_calm g (fun it => { it with slots := it.slots.map Slot.timeOut }) h (fun _ => rfl) (fun _ => rfl)
    fun _ => Nat.le_refl _
  unfold takeDeadline
  simp only [hf, hd, Option.isSome_none, Bool.false_eq_true, if_false]
  refine Nat.lt_of_lt_of_le (decideItem_less .deadline h1.ok
    (it := { it with slots := it.slots.map Slot.timeOut }) ?_ hd) h1.le
  rw [findItem_modItem, hf, Option.map_some, if_pos (findItem_some hf).2]
  exact fun _ => rfl

theorem retire_less {g : Tag} {s : State} (h : ItemsOk s) {it : Item} (hf : s.findItem g = some it) :
    targetsLeft (retire g s) < targetsLeft s := by
  have h1 := decideItem_calm g .atExit h
  refine Nat.lt_of_lt_of_le ((leave_calm g .endOfTrack h1.ok).lt_items ?_) h1.le
  have hg : ∃ jt, (decideItem g .atExit s).findItem g = some jt := by
    unfold decideItem
    rw [hf]
    dsimp only
    split
    · exact ⟨it, hf⟩
    · rw [offer_findItem, findItem_modItem, hf]
      · exact ⟨_, rfl⟩
      · exact fun _ => rfl
  obtain ⟨jt, hj⟩ := hg
  obtain ⟨hm, ht⟩ := findItem_some hj
  unfold leave
  simp only [hj, offer_trk, takeOut, modVrd_trk, modStn_trk, modTrk_trk]
  exact itemsLeft_filter_lt hm (by simp [ht])

theorem overlengthReach_less {s : State} (h : ItemsOk s) {g : Tag} {lead : Pos} {it : Item}
    (he : s.trk.entry = .measuring g lead) (hf : s.findItem g = some it) (hl : it.flags.overlength = false) :
    targetsLeft (overlengthReach s) < targetsLeft s := by
  have h1 := modItem_calm g (fun it => { it with flags := { it.flags with overlength := true } }) h (fun _ => rfl)
    (fun _ => rfl) fun x => by simp [itemLeft]
  unfold overlengthReach
  simp only [he]
  refine Nat.lt_of_le_of_lt (faultCause_calm _ h1.ok).le (h1.lt_items ?_)
  obtain ⟨hm, ht⟩ := findItem_some hf
  rw [modItem_trk]
  exact itemsLeft_map_lt _ (fun x => by split <;> simp [itemLeft]) hm (by simp [itemLeft, hl, ht])

theorem teachSpanReach_less {s : State} {run : TeachRun} {start sp : Pos} (he : s.tch.state = .waitTarget run start sp) :
    targetsLeft (teachSpanReach s) < targetsLeft s := by
  have less : ∀ t : State, t.stn = s.stn → t.trk = s.trk → t.vrd = s.vrd → spanLeft t.tch.state = 0 →
      targetsLeft t < targetsLeft s := by
    intro t h1 h2 h3 h4
    have h5 : spanLeft s.tch.state = 1 := by rw [he]; rfl
    unfold targetsLeft OpeningsLeft triggersLeft
    rw [h1, h2, h3, h4, h5]
    omega
  unfold teachSpanReach
  simp only [he]
  split <;> apply less <;> simp [endTeach, setTeach, spanLeft]

/-! ## Stations that fire -/

/-- R97: a source whose trigger station fires opens one window at most. -/
def opensFor (s : State) (i : Fin 8) (v : Fin 4) : Nat :=
  match s.vrd.sources[v].record with
  | .message => 0
  | .line _ k _ _ _ => if k = i then 1 else 0

/-- Calm work, but for the windows that the sources `vs` open for a fire of station `i`. -/
structure Fires (i : Fin 8) (vs : List (Fin 4)) (s t : State) : Prop where
  ok : ItemsOk t
  tch : t.tch = s.tch
  records : ∀ v : Fin 4, t.vrd.sources[v].record = s.vrd.sources[v].record
  stations : t.stn = s.stn
  sameTags : t.trk.track.map Item.tag = s.trk.track.map Item.tag
  lines : ∀ v : Fin 4, t.vrd.sources[v].windows.length ≤
    s.vrd.sources[v].windows.length + if v ∈ vs then opensFor s i v else 0
  items : itemsLeft t.trk.track ≤ itemsLeft s.trk.track

theorem opensFor_eq {i : Fin 8} {s t : State} {v : Fin 4} (h : t.vrd.sources[v].record = s.vrd.sources[v].record) :
    opensFor t i v = opensFor s i v := by unfold opensFor; rw [h]

theorem Fires.trans {i : Fin 8} {vs ws : List (Fin 4)} {s t u : State} (h : Fires i vs s t) (k : Fires i ws t u)
    (hd : ∀ v ∈ vs, v ∉ ws) : Fires i (vs ++ ws) s u where
  ok := k.ok
  tch := k.tch.trans h.tch
  records v := (k.records v).trans (h.records v)
  stations := k.stations.trans h.stations
  sameTags := k.sameTags.trans h.sameTags
  lines v := by
    have h1 := h.lines v
    have h2 := k.lines v
    rw [opensFor_eq (h.records v)] at h2
    have h3 := hd v
    simp only [List.mem_append]
    by_cases a : v ∈ vs
    · have b := h3 a
      simp only [a, b, if_true, if_false, true_or] at *
      omega
    · simp only [a, if_false, false_or] at *
      omega
  items := Nat.le_trans k.items h.items

/-- Calm work that leaves the stations and the tags of the track as they are. -/
theorem Calm.fires {i : Fin 8} {s t : State} (h : Calm s t) (h1 : t.stn = s.stn)
    (h2 : t.trk.track.map Item.tag = s.trk.track.map Item.tag) : Fires i [] s t :=
  ⟨h.ok, h.tch, h.records, h1, h2, fun v => by simpa using h.lines v, h.items⟩

theorem Fires.refl {i : Fin 8} {s : State} (h : ItemsOk s) : Fires i [] s s := (Calm.refl h).fires rfl rfl

/-- Calm work first. -/
theorem Fires.after {i : Fin 8} {vs : List (Fin 4)} {s t u : State} (h : Fires i [] s t) (k : Fires i vs t u) :
    Fires i vs s u := h.trans k (by simp)

theorem modItem_fires {i : Fin 8} (g : Tag) (f : Item → Item) {s : State} (h : ItemsOk s) (ht : ∀ x, (f x).tag = x.tag)
    (he : ∀ x, (f x).exit = x.exit) (hf : ∀ x, itemLeft (f x) ≤ itemLeft x) : Fires i [] s (s.modItem g f) :=
  (modItem_calm g f h ht he hf).fires rfl (tags_modItem g f ht s)

theorem offer_fires {i : Fin 8} (n : Notice) {s : State} (h : ItemsOk s) : Fires i [] s (offer n s) :=
  (offer_calm n h).fires (by simp) (by simp)

theorem decideItem_fires {i : Fin 8} (g : Tag) (r : Reason) {s : State} (h : ItemsOk s) :
    Fires i [] s (decideItem g r s) := by
  unfold decideItem
  split
  · exact .refl h
  · split
    · exact .refl h
    · rename_i it _ _
      have h1 : Fires i [] s (s.modItem g fun x => { x with decision := some ⟨x.combine r, r, s.now⟩ }) :=
        modItem_fires g _ h (fun _ => rfl) (fun _ => rfl) fun x => by simp [itemLeft]
      exact h1.after (offer_fires _ h1.ok)

theorem takeDeadline_fires {i : Fin 8} (g : Tag) {s : State} (h : ItemsOk s) : Fires i [] s (takeDeadline g s) := by
  unfold takeDeadline
  split
  · exact .refl h
  · split
    · exact .refl h
    · have h1 : Fires i [] s (s.modItem g fun it => { it with slots := it.slots.map Slot.timeOut }) :=
        modItem_fires g _ h (fun _ => rfl) (fun _ => rfl) fun _ => Nat.le_refl _
      exact h1.after (decideItem_fires g .deadline h1.ok)

theorem fillVerdict_fires {i : Fin 8} (g : Tag) (v : Fin 4) (code : Fin 16) {s : State} (h : ItemsOk s) :
    Fires i [] s (fillVerdict g v code s) := by
  have h1 : Fires i [] s (s.modItem g (Item.fillSlot v code)) :=
    modItem_fires g _ h (fun _ => rfl) (fun _ => rfl) fun _ => Nat.le_refl _
  unfold fillVerdict
  split
  · exact .refl h
  · split
    · exact .refl h
    · exact .refl h
    · exact .refl h
    · exact h1
    · dsimp only
      split
      · exact h1.after (decideItem_fires _ _ h1.ok)
      · exact h1

theorem closeLineWindow_fires {i : Fin 8} (v : Fin 4) (g : Tag) {s : State} (h : ItemsOk s) :
    Fires i [] s (closeLineWindow v g s) := by
  have h1 : Fires i [] s (s.modSource v fun src => { src with windows := src.windows.filter fun w => w.tag ≠ g }) :=
    (modSource_calm v _ h rfl (List.length_filter_le _ _)).fires rfl rfl
  unfold closeLineWindow
  split
  · exact .refl h
  · dsimp only
    split
    · exact h1
    · exact h1.after (fillVerdict_fires _ _ _ h1.ok)

theorem openLineWindow_fires (i : Fin 8) (g : Tag) (fire : Pos) {s : State} (h : ItemsOk s) (v : Fin 4) :
    Fires i [v] s (openLineWindow i g fire s v) := by
  have none' : Fires i [v] s s :=
    ⟨h, rfl, fun _ => rfl, rfl, rfl, fun _ => Nat.le_add_right _ _, Nat.le_refl _⟩
  unfold openLineWindow
  cases hr : s.vrd.sources[v].record with
  | message => exact none'
  | line input k len a b =>
    dsimp only
    split
    · exact none'
    · split
      · rename_i hk
        have hk : k = i := by simpa using (Bool.and_eq_true_iff.1 hk).1
        have h1 : ∀ p, Fires i [v] s
            (s.modSource v fun src => { src with windows := src.windows ++ [⟨g, p, false⟩] }) := fun p =>
          { ok := h, tch := rfl, stations := rfl, sameTags := rfl, items := Nat.le_refl _
            records := fun w => by
              simp only [modSource_vrd, Fin.getElem_fin, modAt_getElem]
              split <;> rfl
            lines := fun w => by
              simp only [modSource_vrd, Fin.getElem_fin, modAt_getElem, List.mem_singleton]
              by_cases e : v = w
              · subst e
                have : opensFor s i v = 1 := by unfold opensFor; rw [hr]; simp [hk]
                simp [this]
              · have e' : ¬v.val = w.val := fun h => e (Fin.ext h)
                simp [e'] }
        split
        · exact h1 _
        · exact (h1 _).trans (closeLineWindow_fires v g (h1 _).ok) (by simp)
      · exact none'

theorem openLineWindows_fires (i : Fin 8) (g : Tag) (fire : Pos) {s : State} (h : ItemsOk s) :
    Fires i (List.finRange 4) s (openLineWindows i g fire s) := by
  have fold : ∀ (l : List (Fin 4)) (s : State), ItemsOk s → l.Nodup →
      Fires i l s (l.foldl (openLineWindow i g fire) s) := by
    intro l
    induction l with
    | nil => exact fun s h _ => .refl h
    | cons v vs ih =>
      intro s h hn
      rw [List.nodup_cons] at hn
      have h1 := openLineWindow_fires i g fire h v
      exact h1.trans (ih _ h1.ok hn.2) (by simpa using hn.1)
  exact fold _ _ h (List.nodup_finRange 4)

theorem Fires.all {i : Fin 8} {s t : State} (h : Fires i [] s t) : Fires i (List.finRange 4) s t :=
  { h with lines := fun v => Nat.le_trans (h.lines v) (by simp) }

theorem fireStation_fires (i : Fin 8) (it : Item) (late : Bool) {s : State} (h : ItemsOk s) :
    Fires i (List.finRange 4) s (fireStation i it late s) := by
  have claim : ∀ o len w, Fires i [] s (claimOutput o len w s).1 := fun o len w =>
    (Calm.of_same h (claimOutput_work o len w s) rfl rfl rfl).fires rfl rfl
  have record : ∀ o (t : State), ItemsOk t → Fires i [] t (t.modItem it.tag fun x => x.record i o) := fun o t ht =>
    modItem_fires _ _ ht (fun _ => rfl) (fun _ => rfl) fun _ => Nat.le_refl _
  unfold fireStation
  dsimp only
  split
  · exact (Fires.refl h).all
  · rename_i o _
    have c := claim o s.stn.stations[i].record.pulse (.station i it.tag)
    split
    · have r := c.after (record .refused _ c.ok)
      exact (r.after (offer_fires _ r.ok)).all
    · have r := fun x => c.after (record x _ c.ok)
      split
      · exact (r _).after (openLineWindows_fires _ _ _ (r _).ok)
      · exact (r _).all

theorem stationOutcome_fires (i : Fin 8) (it : Item) (late : Bool) {s : State} (h : ItemsOk s) :
    Fires i (List.finRange 4) s (stationOutcome i it late s) := by
  unfold stationOutcome
  split
  · exact fireStation_fires _ _ _ h
  all_goals
    apply Fires.all
    apply modItem_fires _ _ h
    · exact fun _ => rfl
    · exact fun _ => rfl
    · exact fun _ => Nat.le_refl _

theorem deadlineFirst_fires (i : Fin 8) (g : Tag) {s : State} (h : ItemsOk s) : Fires i [] s (deadlineFirst i g s) := by
  unfold deadlineFirst
  split
  · exact takeDeadline_fires _ h
  · exact .refl h

theorem rank_tags (c : Option Tag) {l m : List Item} (h : l.map Item.tag = m.map Item.tag) : rank c l = rank c m := by
  induction l generalizing m with
  | nil => cases m <;> simp_all
  | cons x xs ih =>
    cases m with
    | nil => simp at h
    | cons y ys =>
      simp only [List.map_cons, List.cons.injEq] at h
      have hl := congrArg List.length h.2
      simp only [List.length_map] at hl
      simp only [rank, h.1, ih h.2, hl]

theorem newerThan_tags (g : Tag) {l m : List Item} (h : l.map Item.tag = m.map Item.tag) :
    newerThan g l = newerThan g m := by
  induction l generalizing m with
  | nil => cases m <;> simp_all
  | cons x xs ih =>
    cases m with
    | nil => simp at h
    | cons y ys =>
      simp only [List.map_cons, List.cons.injEq] at h
      have hh : xs.head?.map Item.tag = ys.head?.map Item.tag := by
        rw [← List.head?_map, ← List.head?_map, h.2]
      simp only [newerThan, h.1, ih h.2, hh]

/-- A station that has fired, or passed its item over, has fewer fires to come, and more than makes up for the windows
opened. -/
theorem Fires.advance_less {i : Fin 8} {g : Tag} {s t : State} (h : Fires i (List.finRange 4) s t) (hi : ItemsOk s)
    (hc : s.stn.stations[i].cursor = some g) (hg : g ∈ tags s) : targetsLeft (advanceCursor i g t) < targetsLeft s := by
  have hn := rank_newer hi.2.1 hg
  have rk : ∀ c, rank c t.trk.track = rank c s.trk.track := fun c => rank_tags c h.sameTags
  have cur : ∀ k : Fin 8, rank (advanceCursor i g t).stn.stations[k].cursor (advanceCursor i g t).trk.track =
      if k = i then rank (newerThan g s.trk.track) s.trk.track else rank s.stn.stations[k].cursor s.trk.track := by
    intro k
    simp only [advanceCursor, modStation_stn, modStation_trk, Fin.getElem_fin, modAt_getElem, rk]
    by_cases e : k = i
    · subst e
      simp [newerThan_tags g h.sameTags]
    · have e' : ¬i.val = k.val := fun x => e (Fin.ext x).symm
      simp [e, e', h.stations]
  have st : ∀ k : Fin 8,
      rank (advanceCursor i g t).stn.stations[k].cursor (advanceCursor i g t).trk.track +
          2 * OpeningsLeft k (advanceCursor i g t) + (advanceCursor i g t).stn.stations[k].windows.length ≤
        rank s.stn.stations[k].cursor s.trk.track + 2 * OpeningsLeft k s + s.stn.stations[k].windows.length ∧
      (k = i → rank (advanceCursor i g t).stn.stations[k].cursor (advanceCursor i g t).trk.track +
          2 * OpeningsLeft k (advanceCursor i g t) + (advanceCursor i g t).stn.stations[k].windows.length <
        rank s.stn.stations[k].cursor s.trk.track + 2 * OpeningsLeft k s + s.stn.stations[k].windows.length) := by
    intro k
    have o : OpeningsLeft k (advanceCursor i g t) = OpeningsLeft k s := by
      simp only [OpeningsLeft, advanceCursor, modStation_stn, modStation_trk, Fin.getElem_fin, modAt_getElem, rk]
      split <;> simp [h.stations]
    have w : (advanceCursor i g t).stn.stations[k].windows.length = s.stn.stations[k].windows.length := by
      simp only [advanceCursor, modStation_stn, Fin.getElem_fin, modAt_getElem]
      split <;> simp [h.stations]
    rw [cur k, o, w]
    by_cases e : k = i
    · subst e
      rw [if_pos rfl, hc]
      exact ⟨by omega, fun _ => by omega⟩
    · rw [if_neg e]
      exact ⟨Nat.le_refl _, fun x => absurd x e⟩
  have src : ∀ v : Fin 4,
      (advanceCursor i g t).vrd.sources[v].windows.length + triggersLeft (advanceCursor i g t) v ≤
        s.vrd.sources[v].windows.length + triggersLeft s v := by
    intro v
    have hl := h.lines v
    rw [if_pos (List.mem_finRange v)] at hl
    have hv : (advanceCursor i g t).vrd = t.vrd := rfl
    unfold triggersLeft opensFor at *
    rw [hv, h.records v]
    cases hr : s.vrd.sources[v].record with
    | message => rw [hr] at hl; simpa using hl
    | line _ k _ _ _ =>
      rw [hr] at hl
      dsimp only at hl ⊢
      rw [cur k]
      by_cases e : k = i
      · subst e
        rw [if_pos rfl] at hl ⊢
        rw [hc]
        omega
      · rw [if_neg e] at hl ⊢
        omega
  have h1 := Finset.sum_lt_sum (fun k (_ : k ∈ Finset.univ) => (st k).1) ⟨i, Finset.mem_univ i, (st i).2 rfl⟩
  have h2 := Finset.sum_le_sum fun v (_ : v ∈ Finset.univ) => src v
  have h3 : itemsLeft (advanceCursor i g t).trk.track ≤ itemsLeft s.trk.track := h.items
  have h4 : (advanceCursor i g t).tch = s.tch := h.tch
  unfold targetsLeft
  rw [h4]
  omega

theorem processStation_less (i : Fin 8) (late : Bool) {s : State} (h : ItemsOk s) {it : Item}
    (hb : s.stn.stations[i].cursor.bind s.findItem = some it) : targetsLeft (processStation i late s) < targetsLeft s := by
  obtain ⟨g, hc, hf⟩ := Option.bind_eq_some_iff.1 hb
  have hg := findItem_mem_tags hf
  unfold processStation
  simp only [hc, hf]
  split
  · have h1 := deadlineFirst_fires i g h
    exact (h1.after (stationOutcome_fires i _ late h1.ok)).advance_less h hc hg
  · exact (Fires.refl h).all.advance_less h hc hg

/-! ## Openings -/

theorem openOne_less (i : Fin 8) {s : State} {it : Item} (h : ItemsOk s) (hm : it ∈ s.trk.track)
    (ho : s.stn.stations[i].opening = some it.tag) : targetsLeft (openOne i s) < targetsLeft s := by
  have hlt := openingsLeft_openOne i h hm ho
  have one : ∀ (t : State) (f : Station → Station), Fires i [] s t → (∀ x, (f x).cursor = x.cursor) →
      (∀ x, (f x).windows.length ≤ x.windows.length + 1) → openOne i s = t.modStation i f →
      targetsLeft (openOne i s) < targetsLeft s := by
    intro t f ht hc hw e
    rw [e] at hlt ⊢
    have rk : ∀ c, rank c t.trk.track = rank c s.trk.track := fun c => rank_tags c ht.sameTags
    have cur : ∀ k : Fin 8, rank (t.modStation i f).stn.stations[k].cursor (t.modStation i f).trk.track =
        rank s.stn.stations[k].cursor s.trk.track := by
      intro k
      simp only [modStation_stn, modStation_trk, Fin.getElem_fin, modAt_getElem, rk]
      split <;> simp [hc, ht.stations]
    have st : ∀ k : Fin 8,
        rank (t.modStation i f).stn.stations[k].cursor (t.modStation i f).trk.track +
            2 * OpeningsLeft k (t.modStation i f) + (t.modStation i f).stn.stations[k].windows.length ≤
          rank s.stn.stations[k].cursor s.trk.track + 2 * OpeningsLeft k s + s.stn.stations[k].windows.length ∧
        (k = i → rank (t.modStation i f).stn.stations[k].cursor (t.modStation i f).trk.track +
            2 * OpeningsLeft k (t.modStation i f) + (t.modStation i f).stn.stations[k].windows.length <
          rank s.stn.stations[k].cursor s.trk.track + 2 * OpeningsLeft k s + s.stn.stations[k].windows.length) := by
      intro k
      rw [cur k]
      by_cases hk : k = i
      · subst hk
        have hw' : (t.modStation k f).stn.stations[k].windows.length ≤ s.stn.stations[k].windows.length + 1 := by
          simp only [modStation_stn, Fin.getElem_fin, modAt_getElem, if_true, ht.stations]
          exact hw _
        exact ⟨by omega, fun _ => by omega⟩
      · have hk' : ¬i.val = k.val := fun x => hk (Fin.ext x).symm
        have h1 : OpeningsLeft k (t.modStation i f) = OpeningsLeft k s := by
          simp [OpeningsLeft, hk', rk, ht.stations]
        have h2 : (t.modStation i f).stn.stations[k].windows.length = s.stn.stations[k].windows.length := by
          simp [hk', ht.stations]
        rw [h1, h2]
        exact ⟨Nat.le_refl _, fun x => absurd x hk⟩
    have src : ∀ v : Fin 4,
        (t.modStation i f).vrd.sources[v].windows.length + triggersLeft (t.modStation i f) v ≤
          s.vrd.sources[v].windows.length + triggersLeft s v := by
      intro v
      refine Nat.add_le_add (by simpa using ht.lines v) ?_
      unfold triggersLeft
      rw [show (t.modStation i f).vrd.sources[v].record = _ from ht.records v]
      cases s.vrd.sources[v].record with
      | message => exact Nat.le_refl _
      | line _ k _ _ _ => exact Nat.le_of_eq (cur k)
    have h1 := Finset.sum_lt_sum (fun k (_ : k ∈ Finset.univ) => (st k).1) ⟨i, Finset.mem_univ i, (st i).2 rfl⟩
    have h2 := Finset.sum_le_sum fun v (_ : v ∈ Finset.univ) => src v
    have h3 : itemsLeft (t.modStation i f).trk.track ≤ itemsLeft s.trk.track := ht.items
    have h4 : (t.modStation i f).tch = s.tch := ht.tch
    unfold targetsLeft
    rw [h4]
    omega
  have hr : Fires i [] s (s.modItem it.tag fun x => x.record i .disabled) :=
    modItem_fires _ _ h (fun _ => rfl) (fun _ => rfl) fun _ => Nat.le_refl _
  by_cases hd : s.stn.stations[i].record.mode = .disabled
  · by_cases hmem : it.snapshot.hasMember i = true
    · refine one _ (fun x => { x with opening := newerThan it.tag s.trk.track }) hr (fun _ => rfl)
        (fun _ => Nat.le_succ _) ?_
      unfold openOne
      simp only [ho, findItem_eq h hm, hd, hmem, if_true]
    · refine one s (fun x => { x with opening := newerThan it.tag s.trk.track }) (.refl h) (fun _ => rfl)
        (fun _ => Nat.le_succ _) ?_
      unfold openOne
      simp only [ho, findItem_eq h hm, hd, hmem, if_true]
      rfl
  · refine one s
      (fun x =>
        { x with
          windows := x.windows ++
            [⟨it.tag, it.entryPos + s.stn.stations[i].record.offset + s.stn.stations[i].record.tolerance.setWidth 32,
              false, s.stn.stations[i].record.mode⟩]
          opening := newerThan it.tag s.trk.track })
      (.refl h) (fun _ => rfl) (fun _ => by simp) ?_
    unfold openOne
    simp only [ho, findItem_eq h hm, hd, if_false]
    simp [State.modStation, State.modStn, modAt]

theorem closeIfLate_calm (i : Fin 8) (g : Tag) {s : State} (h : ItemsOk s) : Calm s (closeIfLate i g s) := by
  unfold closeIfLate
  split
  · exact .refl h
  · split
    · exact .refl h
    · exact closeWindow_calm _ _ h

/-- R79: once they have been handled, no opening is due. -/
theorem lateOpen_done (i : Fin 8) (k : Nat) {s : State} (h : ItemsOk s) (hk : OpeningsLeft i s ≤ k) (it : Item) :
    ¬OpeningDue i it (lateOpen i k s) := by
  induction k generalizing s with
  | zero =>
    rintro ⟨hm, ho, -⟩
    have := rank_pos hm
    rw [← ho] at this
    exact absurd hk (Nat.not_le.2 this)
  | succ k ih =>
    unfold lateOpen
    split
    · rename_i hb
      rintro ⟨hm, ho, -⟩
      rw [ho, Option.bind_some, findItem_eq h hm] at hb
      cases hb
    · rename_i jt hb
      obtain ⟨g, hg, hf⟩ := Option.bind_eq_some_iff.1 hb
      obtain ⟨hj, rfl⟩ := findItem_some hf
      split
      · rename_i ha
        rintro ⟨hm, ho, hd⟩
        have := unique_tag h hm hj (Option.some.inj (ho.symm.trans hg))
        subst this
        exact Bool.eq_false_iff.1 hd ha
      · have h1 := openingsLeft_openOne i h hj hg
        have h2 := (closeIfLate_calm i jt.tag ((openOne_work i s).itemsOk h)).opening i
        exact ih (((openOne_work _ _).trans (closeIfLate_work _ _ _)).itemsOk h) (by omega)

/-- R71: all that the reach of an opening does. -/
theorem handleOpening_spec (i : Fin 8) {s : State} (h : ItemsOk s) :
    Many (OpensLate i) (openOne i s) (handleOpening i s) ∧ ∀ it, ¬OpeningDue i it (handleOpening i s) := by
  have h1 := (openOne_work i s).itemsOk h
  refine ⟨lateOpen_many i _ h1, lateOpen_done i _ h1 ?_⟩
  have h2 : (openOne i s).trk.track.length = s.trk.track.length := by
    unfold openOne
    dsimp only
    repeat' split
    all_goals simp
  exact h2 ▸ rank_le _ _

theorem lateOpen_le (i : Fin 8) (k : Nat) {s : State} (h : ItemsOk s) : targetsLeft (lateOpen i k s) ≤ targetsLeft s := by
  induction k generalizing s with
  | zero => exact Nat.le_refl _
  | succ k ih =>
    unfold lateOpen
    split
    · exact Nat.le_refl _
    · rename_i it hb
      obtain ⟨g, hg, hf⟩ := Option.bind_eq_some_iff.1 hb
      obtain ⟨hm, rfl⟩ := findItem_some hf
      split
      · exact Nat.le_refl _
      · have h1 := (openOne_work i s).itemsOk h
        have h2 := closeIfLate_calm i it.tag h1
        exact Nat.le_trans (ih h2.ok) (Nat.le_trans h2.le (Nat.le_of_lt (openOne_less i h hm hg)))

theorem handleOpening_less (i : Fin 8) {s : State} (h : ItemsOk s) {it : Item}
    (hb : s.stn.stations[i].opening.bind s.findItem = some it) : targetsLeft (handleOpening i s) < targetsLeft s := by
  obtain ⟨g, hg, hf⟩ := Option.bind_eq_some_iff.1 hb
  obtain ⟨hm, rfl⟩ := findItem_some hf
  exact Nat.lt_of_le_of_lt (lateOpen_le i _ ((openOne_work i s).itemsOk h)) (openOne_less i h hm hg)

/-! ## The end -/

/-- R8: acting on a target that stands reached leaves fewer targets to come. -/
theorem handleReach_less {r : Reach} {s : State} (h : ItemsOk s) (hr : r ∈ reached s) :
    targetsLeft (handleReach r s) < targetsLeft s := by
  have overlong : r ∈ overlengthReached s → targetsLeft (handleReach r s) < targetsLeft s := by
    unfold overlengthReached
    split
    · simp
    · simp
    · rename_i g lead he
      split
      · simp
      · rename_i it hf
        split
        · rename_i hc
          rw [List.mem_singleton]
          rintro rfl
          exact overlengthReach_less h he hf (by simpa using hc.2)
        · simp
  have station : ∀ i, r ∈ stationReached s i → targetsLeft (handleReach r s) < targetsLeft s := by
    intro i
    have fire : (r ∈ match s.stn.stations[i].cursor.bind s.findItem with
        | none => []
        | some it => if it.firePos s.stn.stations[i].record.offset = s.here then [Reach.fire i] else []) →
        targetsLeft (handleReach r s) < targetsLeft s := by
      split
      · simp
      · rename_i it hb
        split
        · rw [List.mem_singleton]
          rintro rfl
          exact processStation_less i false h hb
        · simp
    unfold stationReached
    dsimp only
    split
    · simp
    · exact fire
    · exact fire
    · exact fire
    · split
      · rename_i ho
        rw [List.mem_singleton]
        rintro rfl
        obtain ⟨it, hb, -⟩ := (Option.any_eq_true _ _).1 ho
        exact handleOpening_less i h hb
      · split
        · simp
        · rename_i w hw
          rw [List.mem_singleton]
          rintro rfl
          exact closeWindow_less i h (List.mem_of_find?_eq_some hw)
  have source : ∀ v, r ∈ sourceReached s v → targetsLeft (handleReach r s) < targetsLeft s := by
    intro v
    unfold sourceReached
    split
    · simp
    · rename_i w hw
      rw [List.mem_singleton]
      rintro rfl
      exact closeLineWindow_less v h (List.mem_of_find?_eq_some hw)
  have item : ∀ it ∈ s.trk.track, r ∈ itemReached s it → targetsLeft (handleReach r s) < targetsLeft s := by
    intro it hm
    unfold itemReached
    rw [List.mem_append]
    rintro (hx | hx)
    · split at hx
      · rename_i hc
        rw [List.mem_singleton] at hx
        subst hx
        exact takeDeadline_less h (findItem_eq h hm) (by simpa using hc.2)
      · simp at hx
    · split at hx
      · rw [List.mem_singleton] at hx
        subst hx
        exact retire_less h (findItem_eq h hm)
      · simp at hx
  unfold reached at hr
  split at hr
  · simp only [List.mem_append, List.mem_flatMap] at hr
    rcases hr with ((hr | ⟨i, -, hr⟩) | ⟨it, hm, hr⟩) | ⟨v, -, hr⟩
    · exact overlong hr
    · exact station i hr
    · exact item it hm hr
    · exact source v hr
  · unfold spanReached at hr
    split at hr
    · simp at hr
    · simp at hr
    · rename_i he
      split at hr
      · rw [List.mem_singleton] at hr
        subst hr
        exact teachSpanReach_less he
      · simp at hr

/-- R8: with steps enough for the targets still to come, none is left. -/
theorem settleReaches_done (k : Nat) {s : State} (h : ItemsOk s) (hk : targetsLeft s ≤ k) :
    reached (settleReaches k s) = [] := by
  induction k generalizing s with
  | zero =>
    refine List.eq_nil_iff_forall_not_mem.2 fun r hr => ?_
    have := handleReach_less h (show r ∈ reached s from hr)
    omega
  | succ k ih =>
    unfold settleReaches
    split
    · assumption
    · rename_i r hr
      have h1 := handleReach_less h (show r ∈ reached s by rw [hr]; simp)
      exact ih ((handleReach_event r s).work.itemsOk h) (by omega)
    · rename_i r r' rest hr
      have hn : freePick s r (r' :: rest) < (r :: r' :: rest).length := Nat.mod_lt _ (by simp)
      have hx : (r :: r' :: rest).getD (freePick s r (r' :: rest)) r ∈ reached s.nextChoice := by
        rw [show reached s.nextChoice = reached s from rfl, hr, List.getD_eq_getElem?_getD, List.getElem?_eq_getElem hn]
        exact List.getElem_mem hn
      have h1 := handleReach_less (s := s.nextChoice) h hx
      have h2 : targetsLeft s.nextChoice = targetsLeft s := rfl
      exact ih ((handleReach_event _ s.nextChoice).work.itemsOk h) (by omega)

/-- The bound of a count allows for every target that can come. -/
theorem targetsLeft_le (s : State) : targetsLeft s ≤ reachBound s := by
  have sums : ∀ {n : Nat} (f : Fin n → Nat), ((List.finRange n).map f).sum = ∑ i, f i := fun f => by
    rw [← List.ofFn_eq_map, List.sum_ofFn]
  have h1 : (∑ i : Fin 8,
      (rank s.stn.stations[i].cursor s.trk.track + 2 * OpeningsLeft i s + s.stn.stations[i].windows.length)) ≤
      ∑ i : Fin 8, (3 * s.trk.track.length + s.stn.stations[i].windows.length) :=
    Finset.sum_le_sum fun i _ => by
      have a := rank_le s.stn.stations[i].cursor s.trk.track
      have b := rank_le s.stn.stations[i].opening s.trk.track
      unfold OpeningsLeft
      omega
  have h2 : (∑ v : Fin 4, (s.vrd.sources[v].windows.length + triggersLeft s v)) ≤
      ∑ v : Fin 4, (s.vrd.sources[v].windows.length + s.trk.track.length) :=
    Finset.sum_le_sum fun v _ => by
      refine Nat.add_le_add_left ?_ _
      unfold triggersLeft
      split
      · exact Nat.zero_le _
      · exact rank_le _ _
  have h3 := itemsLeft_le s.trk.track
  have h4 : spanLeft s.tch.state ≤ 1 := by unfold spanLeft; split <;> omega
  have h5 : (∑ i : Fin 8, (3 * s.trk.track.length + s.stn.stations[i].windows.length)) =
      24 * s.trk.track.length + ∑ i : Fin 8, s.stn.stations[i].windows.length := by
    rw [Finset.sum_add_distrib, Finset.sum_const, Finset.card_univ, Fintype.card_fin, smul_eq_mul]
    omega
  unfold targetsLeft reachBound
  rw [sums, sums]
  omega

end Sys2Proof.Laws
end

