-- ==== Sys2Proof/Tests/Slice0.lean ====
section
/-! SUPPORT. Small tests, each about one command on a small state; the ill-formed commands the check refuses; and for
every obligation a state and operands that meet its hypotheses, clause by clause where it has several. -/

set_option maxRecDepth 20000

namespace Sys2Proof.Tests

open Sys2Proof.Machine Sys2Proof.Safety

/-! ## Helpers -/

/-- The state a command leaves. -/
def after (c : Instr) (s : State) : State := match exec c s with | .next t => t | .fault _ => s | .refused _ => s

/-- The payload of the reply a command adds, when it adds one. -/
def replyTo (c : Instr) (s : State) : Option (List Byte) :=
  let t := after c s
  if t.lnk.replies.length = s.lnk.replies.length + 1 then t.lnk.replies.getLast?.map fun r => r.frame.payload else none

/-- The status byte of the reply a command adds. -/
def statusOf (c : Instr) (s : State) : Option Byte := (replyTo c s).bind List.head?

/-- The statuses of several commands, each on the same state. -/
def statuses (s : State) (cs : List Instr) : List (Option Byte) := cs.map fun c => statusOf c s

/-- The notices a command leaves in the queue, without those of before. -/
def newNotices (c : Instr) (s : State) : List Notice :=
  ((after c s).lnk.notices.map QueuedNotice.notice).filter fun n => !(s.lnk.notices.map QueuedNotice.notice).contains n

def inState (z : ZoneState) (s : State) : State := s.modZon fun u => { u with zone := z }

/-- An EJECT, TRIGGER and CHECK station, a class that has all three as members and requires V0 and V1, an ENTRY, a
CHECK and a VERDICT input, V1 a LINE source; in CONFIG, with no notice queued. -/
def ejectRec : StationRec :=
  { kind := .eject, mode := .active, offset := 500, output := some 1, pulse := 60, target := some .reject, sense := 0
    tolerance := 0, policy := .note, anchor := false }
def triggerRec : StationRec :=
  { kind := .trigger, mode := .active, offset := 300, output := some 2, pulse := 50, target := none, sense := 0
    tolerance := 0, policy := .note, anchor := false }
def checkRec : StationRec :=
  { kind := .check, mode := .active, offset := 200, output := none, pulse := 0, target := none, sense := 3
    tolerance := 20, policy := .drop, anchor := true }
def classRec : ClassRec := { ClassRec.atReset with members := 0x07, required := 3, fallback := .rework }

def withRole (i : Fin 8) (r : Role) (s : State) : State := s.modInput i fun x => { x with role := r }

def configured : State :=
  ((((((withRole 4 .verdict (withRole 3 .check (withRole 0 .entry State.reset))).modStation 0 fun st =>
      { st with record := ejectRec }).modStation 1 fun st => { st with record := triggerRec }).modStation 2 fun st =>
      { st with record := checkRec }).modVrd fun u =>
      { u with classes := modAt u.classes 0 fun _ => classRec }).modSource 1 fun src =>
      { src with record := .line 4 1 50 1 2 }).modLnk fun l => { l with notices := [] }

/-- An item of class 0 with a tag and an entry position, one slot SET and one PENDING. -/
def item (tag : Tag) (pos : Pos) : Item :=
  { tag := tag, cls := 0, snapshot := classRec, entryPos := pos, correction := 0, entryTime := 5, length := some 20
    deadline := some (pos + 500), slots := [⟨0, .pending⟩, ⟨1, .set 1⟩], decision := none
    outcomes := [⟨0, .pending⟩, ⟨1, .pending⟩, ⟨2, .pending⟩], flags := .none, exit := .inTrack }

/-- A zone in TRACKING at position 1000 with two items, every cursor on the older one. -/
def tracking : State :=
  (((inState .tracking configured).modPos fun p => { p with position := 1000, highWater := 1000, timeBase := 9000 }).modTrk
      fun t => { t with track := [item 1 600, item 2 700], nextTag := 3 }).modStn fun u =>
    { u with
      stations :=
        mapAll u.stations fun i st =>
          if i = 0 ∨ i = 1 then { st with cursor := some 1 }
          else if i = 2 then { st with opening := some 1 } else st }

/-! ## Well-formed commands -/

def long : List Byte := List.replicate 249 0

theorem test_wf_longest_payload : (Instr.status 0 (List.replicate 248 0)).wf = true := by decide

theorem test_wf_refuses_long_payloads :
    [Instr.identify 0 long, .status 0 long, .reset 0 long, .setNotices 0 long, .setEncoder 0 long, .readPosition 0 long,
      .setInput 0 long, .readInput 0 long, .armProbe 0 long, .disarmProbe 0 long, .setZone 0 long, .readItem 0 long,
      .dumpTrack 0 long, .removeItem 0 long, .loadStations 0 long, .setStationMode 0 long, .readStation 0 long,
      .loadClass 0 long].all (fun c => !c.wf) = true ∧
    [Instr.setSource 0 long, .verdict 0 long, .classify 0 long, .setOutput 0 long, .pulseOutput 0 long,
      .readOutputs 0 long, .startSync 0 long, .startLocal 0 long, .syncPulse 0 long, .stopLine 0 long, .hold 0 long,
      .resume 0 long, .stop 0 long, .estop 0 long, .clear 0 long, .setLine 0 long, .teach 0 long, .teachAbort 0 long,
      .requestOfUnknownKind 0x60 0 long].all (fun c => !c.wf) = true := by
  decide

theorem test_wf_refuses_other_start_form : (Instr.startSync 0 [1]).wf = false ∧ (Instr.startLocal 0 [0]).wf = false := by
  decide

theorem test_wf_refuses_known_kind :
    (Instr.requestOfUnknownKind 0x10 0 []).wf = false ∧ (Instr.requestOfUnknownKind 0x60 0 []).wf = true := by
  decide

theorem test_wf_refuses_no_channel :
    (Instr.encoderAcceptance false false).wf = false ∧ (Instr.encoderAcceptance false true).wf = true := by
  decide

/-! ## Codecs -/

theorem test_crc_check_value : crc [0x31, 0x32, 0x33, 0x34, 0x35, 0x36, 0x37, 0x38, 0x39] = 0x29B1 := by decide

theorem test_station_bytes :
    stationBytes 2 checkRec = [2, 4, 2, 0xFF, 200, 0, 0, 0, 0, 0, 0, 3, 20, 0, 1, 1] := by decide


/-! ## The hypotheses most statements share -/

theorem witness_taken : Taken configured ∧ Taken tracking ∧ ItemsOk tracking := by
  unfold Taken ItemsOk
  decide

theorem witness_tracks : Tracks tracking ∧ ¬Tracks configured := by
  unfold Tracks
  decide

/-! ## Steps, frames and the receiver -/

theorem test_step_runs_front :
    step { configured with pending := [.identify 7 [], .hold 8 []] }
        = exec (.identify 7 []) { configured with pending := [.hold 8 []] } ∧
      step configured = .next configured := by
  constructor <;> rfl

/-- Eight replies queued, and a full counter. -/
def full : State :=
  configured.modLnk fun l => { l with replies := List.replicate 8 ⟨⟨0x81, 0, [0]⟩, .plain⟩, rxDropped := 65534 }

theorem witness_UntakenRequests :
    requestOf (.hold 1 []) = some (0x27, 1, []) ∧ (after (.hold 1 []) full).lnk.rxDropped = 65535 ∧
      (after (.hold 1 []) (after (.hold 1 []) full)).lnk.rxDropped = 65535 ∧
      replyTo (.hold 1 []) (tracking.modLnk fun l => { l with resetPending := true }) = none := by
  decide

/-- The receiver in BODY of an IDENTIFY frame of tag 7, the last CRC byte still to come. -/
def receiving : State :=
  configured.modLnk fun l =>
    { l with receiver := .body 2 [0x01, 0x07, (crc [2, 0x01, 0x07]).setWidth 8] 0 }

theorem witness_FramesOnTheWire :
    statusOf (.receiveByte ((crc [2, 0x01, 0x07] >>> 8).setWidth 8) true) receiving = some 0 ∧
      (after (.receiveByte ((crc [2, 0x01, 0x07] >>> 8).setWidth 8 + 1) true) receiving).lnk.frameErrors = 1 ∧
      (after (.receiveByte ((crc [2, 0x01, 0x07] >>> 8).setWidth 8) true) receiving).lnk.receiver = .hunt := by
  decide

def rx (r : Receiver) : State := configured.modLnk fun l => { l with receiver := r }

theorem witness_ReceiverBytesAndTimers :
    [0x00, 0x7F, 0xA5, 0xFE, 0xFF].map (fun b => (after (.receiveByte b true) (rx (.settling 0 640))).lnk.receiver)
        = [.settling 0 639, .settling 0 639, .settling 0 638, .settling 0 632, .settling 0 631] ∧
      (after (.receiveByte 0xFF false) (rx (.settling 0 631))).lnk.receiver = .settling 0 640 ∧
      (after (.receiveByte 0xA5 true) (rx .hunt)).lnk.receiver = .header 0 ∧
      (after (.receiveByte 0xA5 false) (rx .hunt)).lnk.receiver = .hunt ∧
      [1, 2, 250, 251].map (fun b => (after (.receiveByte b true) (rx (.header 0))).lnk.receiver)
        = [.hunt, .body 2 [] 0, .body 250 [] 0, .hunt] ∧
      (after (.receiveByte 1 true) (rx (.body 2 [] 0))).lnk.receiver = .body 2 [1] 0 ∧
      (after (.receiveByte 1 false) (rx (.body 2 [] 0))).lnk.frameErrors = 1 := by
  decide

def timeAt (t : Time) (s : State) : State := s.modPos fun p => { p with timeBase := t }

theorem witness_timers :
    [1387, 1388].map (fun t => (after .gapTimerExpiry (timeAt t (rx (.header 0)))).lnk.gapDiscards) = [0, 1] ∧
      [1387, 1388].map (fun t => (after .gapTimerExpiry (timeAt t (rx (.body 2 [] 0)))).lnk.gapDiscards) = [0, 1] ∧
      [5554, 5555].map (fun t => (after .settlingIdleExpiry (timeAt t (rx (.settling 0 640)))).lnk.receiver)
        = [.settling 0 640, .hunt] ∧
      [Receiver.header 0, .body 2 [] 0].all (fun r => after .settlingIdleExpiry (timeAt 9999 (rx r)) = timeAt 9999 (rx r))
        = true := by
  decide

/-! ## Requests of LNK, POS and INP -/

theorem witness_IdentifyAndUnknownKind :
    replyTo (.identify 7 []) configured = some [0, 0x62, 0x24, 1, 1, 0, 0] ∧
      statuses configured [.identify 7 [0], .requestOfUnknownKind 0x30 7 [1]] = [some 0x11, some 0x10] := by
  decide

theorem witness_StatusResult :
    statuses tracking [.status 7 [], .status 7 [0], .status 7 [1], .status 7 [2]]
        = [some 0x11, some 0, some 0, some 0x12] ∧
      (after (.status 7 [1]) full).lnk.rxDropped = 65535 ∧
      (after (.status 7 [1]) (full.modLnk fun l => { l with replies := [] })).lnk.rxDropped = 0 := by
  decide

theorem witness_SetNoticesResult :
    statuses configured
      [.setNotices 7 [0x40], .setNotices 7 [0x3F], .setNotices 7 [0x4B], .setNotices 7 [0x4A, 1],
        .setNotices 7 [], .setNotices 7 [0x4B, 0, 0], .setNotices 7 [0x41, 0, 3], .setNotices 7 [0x42, 2, 3],
        .setNotices 7 [0x42, 1, 4], .setNotices 7 [0x42, 0, 3], .setNotices 7 [0x41, 1, 0]]
      = [some 0, some 0x12, some 0x12, some 0x11, some 0x11, some 0x12, some 0x12, some 0x12, some 0x12, some 0,
        some 0] := by
  decide

theorem witness_SetEncoderResult :
    statuses configured
        [.setEncoder 7 [], .setEncoder 7 [0], .setEncoder 7 [4, 0, 0, 0], .setEncoder 7 [3, 2, 0, 0],
          .setEncoder 7 [3, 1, 2, 0], .setEncoder 7 [3, 1, 1, 2], .setEncoder 7 [3, 1, 1, 1]]
        = [some 0, some 0x11, some 0x12, some 0x12, some 0x12, some 0x12, some 0] ∧
      statusOf (.setEncoder 7 [3, 1, 1, 1]) tracking = some 0x13 := by
  decide

theorem witness_ReadRequestsChangeNothing :
    replyTo (.readPosition 7 []) tracking = some [0, 232, 3, 0, 0, 232, 3, 0, 0, 40, 35, 0, 0, 0, 0, 0, 0] ∧
      statuses tracking
        [.readPosition 7 [0], .readOutputs 7 [], .readOutputs 7 [0], .readInput 7 [], .readInput 7 [7], .readInput 7 [8]]
        = [some 0x11, some 0, some 0x11, some 0x11, some 0, some 0x12] := by
  decide

theorem witness_SetInputResult :
    statuses configured
        [.setInput 7 [7], .setInput 7 [8], .setInput 7 [], .setInput 7 [8, 0, 0, 0], .setInput 7 [7, 5, 0, 0],
          .setInput 7 [7, 4, 2, 0], .setInput 7 [7, 4, 1, 5], .setInput 7 [7, 4, 1, 4], .setInput 7 [7, 1, 0, 0],
          .setInput 7 [3, 4, 0, 0], .setInput 7 [4, 4, 0, 0], .setInput 7 [0, 1, 1, 0]]
        = [some 0, some 0x12, some 0x11, some 0x12, some 0x12, some 0x12, some 0x12, some 0, some 0x15, some 0x15,
          some 0x15, some 0] ∧
      statusOf (.setInput 7 [7, 4, 1, 4]) tracking = some 0x13 := by
  decide

/-- A teach runs with S5 as its target. -/
def run0 : TeachRun :=
  { target := 5, wanted := 2, span := 100, spread := 5, apply := true, station := 0, samples := [400], failures := 2 }
def teachingState : State := configured.modTch fun _ => ⟨.waitEntry run0⟩

theorem test_setInput_conflicts_with_teach :
    statuses teachingState [.setInput 7 [0, 0, 0, 0], .setInput 7 [5, 1, 0, 0], .setInput 7 [5, 4, 0, 0]]
      = [some 0x15, some 0x15, some 0] := by
  decide

theorem witness_ProbeRequests :
    statuses tracking
        [.armProbe 7 [], .armProbe 7 [8, 0, 0], .armProbe 7 [7, 2, 0], .armProbe 7 [7, 1, 3], .armProbe 7 [7, 1, 2],
          .disarmProbe 7 [], .disarmProbe 7 [8], .disarmProbe 7 [7]]
        = [some 0x11, some 0x12, some 0x12, some 0x12, some 0, some 0x11, some 0x12, some 0] ∧
      (after (.armProbe 7 [7, 1, 2]) tracking).inp.inputs[7].probe.state = .armedEvery := by
  decide

theorem test_raw_level_changes :
    (after (.encoderRawChange .b true) configured).pos.chanB.raw = true ∧
      (after (.inputRawChange 7 true) (timeAt 10 configured)).inp.inputs[7].wait = some 260 ∧
      (after (.lineRawChange .estop false) (timeAt 10 configured)).zon.estopN.wait = some 2010 := by
  decide

/-- An input whose wait has run out, about to go active. -/
def ready (i : Fin 8) (s : State) : State := s.modInput i fun x => { x with raw := true, wait := some s.now }

theorem witness_InputAcceptanceResult :
    (after (.inputAcceptance 7) configured) = configured ∧
      (after (.inputAcceptance 7) (ready 7 (withRole 7 .general configured))).inp.inputs[7].accepted = true ∧
      newNotices (.inputAcceptance 7)
          (ready 7 (configured.modInput 7 fun x => { x with probe := ⟨.armedOnce, .both, 255, none⟩ }))
        = [.probe 0 7 .leading 0 255 .spent] := by
  decide

/-- R19, R20: a probe and the Entry Unit at one edge, a running teach beside them; two CHECK stations on one input, and one
of them the teach target's; no station acts outside TRACKING, HOLD and FAULT. -/
theorem witness_InputAcceptanceResult_receivers :
    edgeReceivers (teachingState.modInput 0 fun x => { x with probe := ⟨.armedOnce, .both, 0, none⟩ }) 0 .leading
        = [.probe, .entryUnit, .teachEntry] ∧
      edgeReceivers teachingState 5 .leading = [.teachTarget] ∧ edgeReceivers teachingState 3 .leading = [] ∧
      edgeReceivers (tracking.modStation 6 fun st => { st with record := checkRec }) 3 .leading
        = [.station 2, .station 6] ∧
      edgeReceivers tracking 4 .leading = [.source 1] ∧ edgeReceivers tracking 3 .trailing = [] ∧
      (after (.inputAcceptance 5) (ready 5 (teachingState.modTch fun _ => ⟨.waitTarget run0 0 100⟩))).tch.state = .idle := by
  decide

/-! ## Edges and counts -/

/-- The Entry Unit, the tags of the track and the new notices after a leading edge of S0. -/
def afterEdge (s : State) : EntryUnit × List Tag × List Notice :=
  let c := Instr.inputAcceptance 0
  ((after c (ready 0 s)).trk.entry, tags (after c (ready 0 s)), newNotices c (ready 0 s))

theorem witness_EntryEdgeResult :
    (afterEdge configured).1 = .untracked ∧
      afterEdge tracking = (.measuring 3 1000, [1, 2, 3], [.entry 9000 3 0 1000]) ∧
      afterEdge (tracking.modPos fun p => { p with position := 700 })
        = (.untracked, [1, 2], [.stray 9000 .entry 700]) ∧
      (afterEdge (tracking.modTrk fun t =>
        { t with track := (List.range 64).map fun k => item (BitVec.ofNat 16 (k + 1)) (BitVec.ofNat 32 k) })).1
        = .untracked := by
  decide

/-- S0 active, about to go inactive, while an item is measured from position 990. -/
def leaving0 (lead : Pos) : State :=
  ((tracking.modTrk fun t => { t with entry := .measuring 2 lead }).modInput 0 fun x =>
    { x with accepted := true, raw := false, wait := some 9000 })

theorem test_entry_trailing :
    tags (after (.inputAcceptance 0) (leaving0 990)) = [1, 2] ∧
      tags (after (.inputAcceptance 0) (leaving0 991)) = [1] ∧
      (after (.inputAcceptance 0) (leaving0 990)).trk.track.map Item.length = [some 20, some 10] ∧
      (after (.inputAcceptance 0) (leaving0 990)).trk.entry = .clear := by
  decide

/-- A checkpoint window for item 1 and a source window for item 1, both at position 1000. -/
def watching (tol : Pos) : State :=
  (tracking.modStation 2 fun st => { st with opening := some 2, windows := [⟨1, 1000 + tol, false, .active⟩] }).modSource
    1 fun src => { src with windows := [⟨1, 1010, false⟩] }

theorem witness_CheckpointAndSourceEdges :
    ((after (.inputAcceptance 3) (ready 3 (watching 15))).trk.track.map Item.entryPos = [605, 700]) ∧
      (after (.inputAcceptance 3) (ready 3 (watching 15))).stn.stations[2].windows = [⟨1, 1015, true, .active⟩] ∧
      newNotices (.inputAcceptance 3) (ready 3 tracking) = [.stray 9000 (.station 2) 1000] ∧
      (after (.inputAcceptance 4) (ready 4 (watching 15))).vrd.sources[1].windows = [⟨1, 1010, true⟩] ∧
      newNotices (.inputAcceptance 4) (ready 4 tracking) = [.stray 9000 (.source 1) 1000] := by
  decide

/-- The encoder about to change to the pair (a, b) from (0, 0). -/
def encoder (a b : Bool) (s : State) : State :=
  s.modPos fun p => { p with chanA := { p.chanA with raw := a }, chanB := { p.chanB with raw := b } }

theorem witness_EncoderAcceptanceResult :
    (after (.encoderAcceptance true true) configured) = configured ∧
      (after (.encoderAcceptance true true) (encoder true false configured)).pos.position = 1 ∧
      (after (.encoderAcceptance true true) (encoder false true configured)).pos.position = 0xFFFFFFFF ∧
      (after (.encoderAcceptance true true) (encoder true true tracking)).pos.encErrors = 1 ∧
      (after (.encoderAcceptance true true) (encoder true true tracking)).zon.zone = .fault ∧
      (after (.encoderAcceptance true false)
        (encoder true false (configured.modPos fun p => { p with enable := false }))).pos.position = 0 := by
  decide

theorem witness_FaultCauses :
    [99, 100, 101].map (fun d =>
        (after (.encoderAcceptance true true)
          (encoder false true (tracking.modPos fun p => { p with highWater := 1000 + d }))).zon.zone)
        = [.tracking, .fault, .tracking] ∧
      (faultCause .missing (inState .fault tracking)).zon.causes = CauseSet.empty.add .missing ∧
      (faultCause .missing tracking).zon.lineStopDrive = some 29000 ∧ faultCause .missing configured = configured := by
  decide

def positionAt (p : Pos) (s : State) : State := s.modPos fun u => { u with position := p }

theorem witness_ForwardCountReaches :
    reached (after (.encoderAcceptance true true) (encoder true false tracking)) = [] ∧
      reached (positionAt 900 tracking) = [.fire 1] ∧ reached (handleReach (.fire 1) (positionAt 900 tracking)) = [] ∧
      reached (positionAt 1100 tracking) = [.fire 0, .deadline 1] := by
  decide

/-- A target of every kind stands reached; none does in ESTOP, with an item's deadline and fire position there. -/
theorem witness_ReachedTargets :
    reached ((tracking.modTrk fun t => { t with entry := .measuring 2 0xFFFFDCD8 })) = [.overlength] ∧
      reached (positionAt 780 tracking) = [.opening 2] ∧ reached (watching 0) = [.closing 2 1] ∧
      reached (positionAt 1010 (watching 15)) = [.lineClose 1 1] ∧ reached (positionAt 100600 tracking) = [.retirement 1] ∧
      reached (configured.modTch fun _ => ⟨.waitTarget run0 0xFFFFFF9C 0⟩) = [.teachSpan] ∧
      reached (positionAt 1100 (inState .estop tracking)) = [] ∧
      (handleReach (.opening 2) (positionAt 780 tracking)).stn.stations[2].opening = some 2 := by
  decide

/-! ## The track -/

theorem witness_SetZoneResult :
    statuses configured
        [.setZone 0 [], .setZone 0 [1], .setZone 0 [0, 0, 16, 39, 0, 0, 144, 1, 0, 0, 0, 0, 100, 0, 0],
          .setZone 0 [10, 0, 9, 0, 0, 0, 232, 3, 0, 0, 0, 0, 100, 0, 0],
          .setZone 0 [10, 0, 16, 39, 0, 0, 232, 3, 0, 0, 0, 0, 100, 0, 16],
          .setZone 0 [10, 0, 16, 39, 0, 0, 244, 1, 0, 0, 0, 0, 100, 0, 0],
          .setZone 0 [10, 0, 16, 39, 0, 0, 245, 1, 0, 0, 0, 0, 100, 0, 15]]
        = [some 0x00, some 0x11, some 0x12, some 0x12, some 0x12, some 0x15, some 0x00] ∧
      statusOf (.setZone 0 [10, 0, 16, 39, 0, 0, 245, 1, 0, 0, 0, 0, 100, 0, 15]) tracking = some 0x13 := by
  decide

theorem witness_ItemRequestsResult :
    statuses tracking
        [.readItem 7 [], .readItem 7 [0, 0], .readItem 7 [3, 0], .readItem 7 [2, 0], .removeItem 7 [],
          .removeItem 7 [0, 0], .removeItem 7 [3, 0], .removeItem 7 [2, 0]]
        = [some 0x11, some 0x12, some 0x20, some 0, some 0x11, some 0x12, some 0x20, some 0] ∧
      statusOf (.removeItem 7 [2, 0]) configured = some 0x13 := by
  decide

theorem witness_LeavingRule :
    tracking.trk.track = [] ++ item 1 600 :: [item 2 700] ∧ (leave 1 .removed tracking).stn.stations[0].cursor = some 2 ∧
      tags (flush tracking) = [] ∧ (3 : Tag) ∉ tags tracking ∧
      (handleReach (.retirement 1) tracking).lnk.notices.map (fun q => q.notice.kind) = [.itemDone] := by
  decide

/-- The same track at position 705, where a correction of item 1 or 2 makes nothing reached. -/
def early : State := tracking.modPos fun p => { p with position := 705 }

theorem witness_CorrectionRule :
    (requestCorrection 1 99 early).trk.track.map Item.entryPos = [699, 700] ∧
      (requestCorrection 1 100 early).trk.track.map (fun it => it.flags.anchorRefused) = [true, false] ∧
      (requestCorrection 2 (-100) early).trk.track.map Item.entryPos = [600, 700] ∧
      (requestCorrection 2 (-99) early).trk.track.map Item.entryPos = [600, 601] ∧
      requestCorrection 3 5 early = early := by
  decide

/-- R45, R79: what is reached late is settled: the deadline, a fire position with FIRED_LATE, a window opened and closed,
the retirement. -/
theorem witness_CorrectionRule_late :
    (settleDeadline 1 (positionAt 1100 tracking)).trk.track.map (fun it => it.decision.isSome) = [true, false] ∧
      (settleStation 1 tracking 1).trk.track.map (fun it => it.outcomeAt 1) = [some .firedLate, some .pending] ∧
      (settleStation 2 tracking 1) = tracking ∧
      tags (settleStation 1 (positionAt 820 tracking) 2) = [2] ∧
      (settleStation 1 (positionAt 819 tracking) 2).stn.stations[2].windows = [⟨1, 820, false, .active⟩] ∧
      tags (settleRetirement 1 (positionAt 100600 tracking)) = [2] ∧ settleRetirement 1 tracking = tracking := by
  decide

theorem witness_DumpTrackResult :
    statuses tracking [.dumpTrack 7 [0], .dumpTrack 7 []] = [some 0x11, some 0] ∧
      statusOf (.dumpTrack 8 []) (after (.dumpTrack 7 []) tracking) = some 0x14 ∧
      (after (.dumpTrack 7 []) tracking).trk.snapshot.records.length = 2 := by
  decide

/-! ## Stations -/

/-- Three records: station 5 a TRIGGER, station 6 a CHECK on S3, station 1 no longer a TRIGGER. -/
def rec5 : List Byte := stationBytes 5 { triggerRec with offset := 8700 }
def rec6 : List Byte := stationBytes 6 checkRec
def rec1 : List Byte := stationBytes 1 StationRec.none

theorem witness_StationChecks :
    stationOfBytes rec5 0 = some (5, { triggerRec with offset := 8700 }) ∧ stationOfBytes (stationBytes 9 checkRec) 0 = none ∧
      stationValid configured 6 checkRec = true ∧ stationValid configured 1 StationRec.none = false := by
  decide

theorem witness_LoadStationsResult :
    replyTo (.loadStations 7 (rec5 ++ rec1 ++ rec6)) configured
        = some (1 :: [1, 1, 1, 0x15] ++ rec5 ++ stationBytes 1 triggerRec ++ stationBytes 6 StationRec.none) ∧
      statuses configured
        [.loadStations 7 [7], .loadStations 7 [8], .loadStations 7 [], .loadStations 7 (rec5 ++ rec6),
          .loadStations 7 rec1, .loadStations 7 (stationBytes 9 checkRec)]
        = [some 0, some 0x12, some 0x11, some 0, some 0x15, some 0x12] ∧
      statusOf (.loadStations 7 rec5) tracking = some 0x13 := by
  decide

theorem witness_StationRequests :
    statuses tracking
        [.setStationMode 7 [], .setStationMode 7 [8, 0], .setStationMode 7 [7, 3], .setStationMode 7 [7, 1],
          .setStationMode 7 [7, 0], .setStationMode 7 [2, 0], .readStation 7 [], .readStation 7 [8], .readStation 7 [7]]
        = [some 0x11, some 0x12, some 0x12, some 0x15, some 0, some 0, some 0x11, some 0x12, some 0] ∧
      (after (.setStationMode 7 [2, 0]) (watching 15)).trk.track.map (fun it => it.outcomeAt 2)
        = [some .disabled, some .pending] := by
  decide

/-- Item 1 decided. -/
def decided (d : Disposition) (s : State) : State :=
  replaceItem { item 1 600 with decision := some ⟨d, .complete, 8000⟩ } s

theorem witness_StationProcessing :
    tracking.stn.stations[0].cursor = some (item 1 600).tag ∧
      (processStation 0 false (decided .reject tracking)).out.outputs[1].state = .on 9060 (.station 0 1) ∧
      (processStation 0 false (decided .accept tracking)).trk.track.map (fun it => it.outcomeAt 0)
        = [some .notTarget, some .pending] ∧
      (processStation 0 false tracking).trk.track.map (fun it => it.decision.map Decision.reason)
        = [some .deadline, none] ∧
      (processStation 0 true (decided .reject (inState .fault tracking))).trk.track.map (fun it => it.flags.unserved)
        = [true, false] ∧
      (processStation 1 false tracking).vrd.sources[1].windows = [] ∧
      (processStation 1 false (tracking.modPos fun p => { p with position := 900 })).vrd.sources[1].windows
        = [⟨1, 950, false⟩] := by
  decide

theorem witness_CheckpointWindowRules :
    (openOne 2 tracking).stn.stations[2].windows = [⟨1, 820, false, .active⟩] ∧
      (openOne 2 tracking).stn.stations[2].opening = some 2 ∧
      tags (closeWindow 2 1 (watching 0)) = [2] ∧
      (closeWindow 2 1 (replaceItem ((item 1 600).record 2 .confirmed) (watching 0))).trk.track.length = 2 := by
  decide

/-! ## Verdicts -/

theorem witness_LoadClassResult :
    statuses tracking
      [.loadClass 7 [15], .loadClass 7 [16], .loadClass 7 [], .loadClass 7 [16, 0, 0, 1, 85, 85, 85, 85],
        .loadClass 7 [15, 0, 16, 1, 85, 85, 85, 85], .loadClass 7 [15, 0, 15, 0, 85, 85, 85, 85],
        .loadClass 7 [15, 0, 15, 4, 85, 85, 85, 85], .loadClass 7 [15, 0, 15, 3, 85, 85, 85, 21],
        .loadClass 7 [15, 255, 15, 3, 85, 170, 255, 85]]
      = [some 0, some 0x12, some 0x11, some 0x12, some 0x12, some 0x12, some 0x12, some 0x12, some 0] := by
  decide

theorem witness_SetSourceResult :
    statuses configured
        [.setSource 7 [3], .setSource 7 [4], .setSource 7 [], .setSource 7 [4, 0, 0, 0, 0, 0, 0, 0],
          .setSource 7 [3, 2, 0, 0, 0, 0, 0, 0], .setSource 7 [3, 0, 0, 0, 0, 0, 0, 1],
          .setSource 7 [3, 1, 4, 1, 0, 0, 1, 2], .setSource 7 [3, 1, 4, 1, 1, 0, 1, 16],
          .setSource 7 [3, 0, 0, 0, 0, 0, 0, 0], .setSource 7 [3, 1, 4, 1, 1, 0, 15, 2],
          .setSource 7 [3, 1, 4, 2, 1, 0, 15, 2]]
        = [some 0, some 0x12, some 0x11, some 0x12, some 0x12, some 0x12, some 0x12, some 0x12, some 0, some 0,
          some 0x15] ∧
      statusOf (.setSource 7 [3, 0, 0, 0, 0, 0, 0, 0]) tracking = some 0x13 := by
  decide

/-- Item 1 with slot 0 in a state. -/
def slot0 (st : SlotState) (s : State) : State := replaceItem { item 1 600 with slots := [⟨0, st⟩, ⟨1, .set 1⟩] } s

theorem witness_VerdictResult :
    statuses tracking
        [.verdict 7 [], .verdict 7 [0, 0, 0, 0], .verdict 7 [1, 0, 4, 0], .verdict 7 [1, 0, 3, 16],
          .verdict 7 [1, 0, 1, 15], .verdict 7 [9, 0, 0, 0], .verdict 7 [1, 0, 3, 15], .verdict 7 [1, 0, 0, 15]]
        = [some 0x11, some 0x12, some 0x12, some 0x12, some 0x15, some 0x20, some 0x21, some 0] ∧
      statusOf (.verdict 7 [1, 0, 0, 15]) configured = some 0x13 ∧
      replyTo (.verdict 7 [1, 0, 0, 0]) tracking = some [0, 1, 0, 0, 1, 0, 3, 1] ∧
      replyTo (.verdict 7 [1, 0, 0, 0]) (slot0 (.set 15) tracking) = some [0x22, 1, 0, 0, 1, 15, 0, 0] ∧
      replyTo (.verdict 7 [1, 0, 0, 0]) (slot0 .timedOut tracking) = some [0x23, 1, 0, 0, 2, 0, 0, 0] := by
  decide

theorem witness_SlotsAndDecisions :
    ((item 1 600).fillSlot 0 0).allSet = true ∧ (item 1 600).combine .deadline = .reject ∧
      (item 1 600).combine .noneRequired = .rework ∧
      ({ item 1 600 with slots := [] } : Item).combine .complete = .accept ∧
      (takeDeadline 1 tracking).trk.track.map (fun it => it.slotAt 0) = [some .timedOut, some .pending] ∧
      takeDeadline 1 (decided .accept tracking) = decided .accept tracking ∧
      deadlineOf configured 100 classRec = some 600 ∧ deadlineOf State.reset 100 classRec = none := by
  decide

theorem witness_LineWindowRules :
    (openLineWindow 1 1 980 tracking 1).vrd.sources[1].windows = [⟨1, 1030, false⟩] ∧
      (openLineWindow 1 1 950 tracking 1).vrd.sources[1].windows = [] ∧
      (closeLineWindow 1 1 (replaceItem { item 1 600 with slots := [⟨1, .pending⟩] } (watching 15))).trk.track.map
          (fun it => it.decision.map Decision.reason) = [some .complete, none] := by
  decide

theorem witness_ClassifyResult :
    statuses tracking
        [.classify 7 [], .classify 7 [0, 0, 0], .classify 7 [1, 0, 16], .classify 7 [9, 0, 0], .classify 7 [1, 0, 15],
          .classify 7 [2, 0, 0]]
        = [some 0x11, some 0x12, some 0x12, some 0x20, some 0, some 0] ∧
      statusOf (.classify 7 [1, 0, 0]) configured = some 0x13 ∧
      statusOf (.classify 7 [1, 0, 0]) (decided .accept tracking) = some 0x24 ∧
      (after (.classify 7 [1, 0, 15]) tracking).trk.track.map (fun it => it.decision.map Decision.reason)
        = [some .noneRequired, none] ∧
      (after (.classify 7 [1, 0, 0]) (tracking.modPos fun p => { p with position := 1100 })).trk.track.map
          (fun it => it.decision.map Decision.reason) = [some .deadline, none] := by
  decide

/-! ## Outputs -/

def outputIs (st : OutState) (c : Collision) (s : State) : State :=
  s.modOutput 7 fun x => { x with state := st, collision := c, gap := 10 }

theorem witness_SetOutputResult :
    statuses configured
        [.setOutput 7 [7], .setOutput 7 [8], .setOutput 7 [], .setOutput 7 [8, 0, 0, 0, 0],
          .setOutput 7 [7, 2, 0, 0, 0], .setOutput 7 [7, 1, 2, 0, 0], .setOutput 7 [7, 1, 1, 255, 255]]
        = [some 0, some 0x12, some 0x11, some 0x12, some 0x12, some 0x12, some 0] ∧
      statusOf (.setOutput 7 [7, 1, 1, 255, 255]) tracking = some 0x13 := by
  decide

theorem witness_ClaimsAndTestPulses :
    statuses configured
        [.pulseOutput 7 [], .pulseOutput 7 [8, 50, 0], .pulseOutput 7 [7, 49, 0], .pulseOutput 7 [7, 50, 0]]
        = [some 0x11, some 0x12, some 0x12, some 0] ∧
      statusOf (.pulseOutput 7 [7, 50, 0]) tracking = some 0x13 ∧
      replyTo (.pulseOutput 7 [7, 50, 0]) (outputIs (.on 20 .test) .refuse configured)
        = some [0x14, 7, 1, 1, 20, 0, 2, 0, 0, 0] ∧
      replyTo (.pulseOutput 7 [7, 50, 0]) (outputIs (.recover 20 .test) .extend configured)
        = some [0x14, 7, 2, 2, 20, 0, 2, 0, 0, 0] ∧
      replyTo (.pulseOutput 7 [7, 50, 0]) (outputIs (.on 60 (.station 3 9)) .extend configured)
        = some [0, 7, 0, 1, 60, 0, 2, 0, 0, 0] := by
  decide

theorem witness_TimedEnds :
    [19, 20].map (fun t => (after (.outputOnEnd 7) (timeAt t (outputIs (.on 20 .test) .refuse configured))).out.outputs[7].state)
        = [.on 20 .test, .recover 30 .test] ∧
      [19, 20].map (fun t =>
          (after (.outputRecoverEnd 7) (timeAt t (outputIs (.recover 20 .test) .refuse configured))).out.outputs[7].state)
        = [.recover 20 .test, .off] ∧
      [99, 100].map (fun t => (after .syncDriveEnd (timeAt t (after (.syncPulse 7 []) configured))).zon.syncDrive)
        = [some 100, none] ∧
      [19999, 20000].map (fun t =>
          (after .lineStopDriveEnd (timeAt t (after (.stopLine 7 []) configured))).zon.lineStopDrive) = [some 20000, none] ∧
      (after .timeBaseTick (timeAt 0xFFFFFFFFFFFF configured)).pos.timeBase = 0 := by
  decide

/-! ## The zone -/

theorem witness_SetLineResult :
    statuses tracking
      [.setLine 7 [], .setLine 7 [1], .setLine 7 [2, 0, 0, 0, 1], .setLine 7 [1, 2, 0, 0, 1], .setLine 7 [1, 1, 2, 0, 1],
        .setLine 7 [1, 1, 1, 2, 1], .setLine 7 [1, 1, 1, 1, 0], .setLine 7 [1, 1, 1, 1, 251],
        .setLine 7 [1, 1, 1, 1, 250], .setLine 7 [0, 0, 0, 0, 1]]
      = [some 0, some 0x11, some 0x12, some 0x12, some 0x12, some 0x12, some 0x12, some 0x12, some 0, some 0] := by
  decide

theorem witness_SharedLineRequests :
    statuses tracking [.syncPulse 7 [0], .syncPulse 7 [], .stopLine 7 [0], .stopLine 7 []]
        = [some 0x11, some 0, some 0x11, some 0] ∧
      statusOf (.syncPulse 7 []) (inState .estop configured) = some 0x13 ∧
      statusOf (.syncPulse 8 []) (after (.syncPulse 7 []) configured) = some 0x14 ∧
      replyTo (.stopLine 7 []) configured = some [0, 1, 32, 78, 0, 0] := by
  decide

theorem witness_StartResult :
    statuses configured [.startSync 7 [], .startSync 7 [0], .startLocal 7 [1], .startSync 7 [2]]
        = [some 0x11, some 0, some 0, some 0x12] ∧
      statuses (inState .armed configured) [.startSync 7 [0], .startLocal 7 [1], .startLocal 7 [2]]
        = [some 0x13, some 0, some 0x12] ∧
      statuses tracking [.startLocal 7 [1], .startSync 7 [2]] = [some 0x13, some 0x13] ∧
      statuses State.reset [.startSync 7 [0], .startLocal 7 [1]] = [some 0x15, some 0x15] ∧
      (after (.startLocal 7 [1]) (after (.teach 6 [5, 1, 9, 0, 0, 0, 0, 0, 0, 0]) configured)).lnk.notices.map
          (fun q => q.notice.kind) = [.zoneState, .teachResult] := by
  decide

/-- FAULT with every cause, REVERSE and ENTRY_BLOCKED present. -/
def faulted : State :=
  ((inState .fault tracking).modZon fun z => { z with causes := ⟨true, true, true, true, true⟩, firstCause := some .reverse }).modPos
    fun p => { p with highWater := 1101 }

theorem witness_HoldResumeResult :
    statuses tracking [.hold 7 [0], .hold 7 [], .resume 7 [0], .resume 7 []]
        = [some 0x11, some 0, some 0x11, some 0x13] ∧
      statuses (inState .hold tracking) [.hold 7 [], .resume 7 []] = [some 0x13, some 0] ∧
      replyTo (.resume 7 []) faulted = some [0x16, 4, 0, 2] ∧
      replyTo (.resume 7 []) (faulted.modPos fun p => { p with highWater := 1100 }) = some [0, 2, 0, 0] ∧
      replyTo (.resume 7 []) (faulted.modZon fun z => { z with lineStop := { z.lineStop with accepted := false } })
        = some [0x16, 4, 1, 2] := by
  decide

theorem test_flush_leaves_entry_untracked :
    (after (.stop 7 []) (tracking.modTrk fun t => { t with entry := .measuring 2 990 })).trk.entry = .untracked ∧
      (after (.stop 7 []) tracking).trk.entry = .clear := by
  decide

theorem witness_StopClearResult :
    statuses tracking [.stop 7 [0], .stop 7 [], .clear 7 [0], .clear 7 []]
        = [some 0x11, some 0, some 0x11, some 0x13] ∧
      replyTo (.stop 7 []) tracking = some [0, 2, 0] ∧ replyTo (.stop 7 []) configured = some [0, 0, 0] ∧
      statuses (inState .estop tracking) [.stop 7 [], .clear 7 []] = [some 0x13, some 0] ∧
      statusOf (.clear 7 [])
          ((inState .estop tracking).modZon fun z => { z with estopN := { z.estopN with accepted := false } })
        = some 0x16 := by
  decide

theorem witness_EstopResult :
    statuses tracking [.estop 7 [0], .estop 7 []] = [some 0x11, some 0] ∧
      (after (.estop 7 []) (outputIs (.on 20 .test) .refuse tracking)).out.outputs[7].state = .off ∧
      newNotices (.estop 7 []) (inState .estop tracking) = [] ∧
      newNotices (.estop 7 []) tracking = [.zoneState 9000 .tracking .estop .request 1000] := by
  decide

/-- A line input whose wait to go low has run out. -/
def lowLine : LineIn := { ext := false, accepted := true, wait := some 0 }

theorem witness_LineInputAcceptanceResult :
    after (.lineInputAcceptance .sync) configured = configured ∧
      (after (.lineInputAcceptance .sync) ((inState .armed configured).modZon fun z => { z with sync := lowLine })).zon.zone
        = .tracking ∧
      (after (.lineInputAcceptance .sync) (configured.modZon fun z => { z with sync := lowLine })).zon.zone = .config ∧
      (after (.lineInputAcceptance .lineStop)
        ((inState .tracking configured).modZon fun z => { z with lineStop := lowLine })).zon.zone = .hold ∧
      (after (.lineInputAcceptance .estop) (configured.modZon fun z => { z with estopN := lowLine })).zon.zone = .estop := by
  decide

/-! ## Teaching -/

theorem witness_TeachRequestsResult :
    statuses configured
        [.teach 7 [], .teach 7 [8, 1, 9, 0, 0, 0, 0, 0, 0, 0], .teach 7 [5, 0, 9, 0, 0, 0, 0, 0, 0, 0],
          .teach 7 [5, 9, 9, 0, 0, 0, 0, 0, 0, 0], .teach 7 [5, 8, 0, 0, 0, 0, 0, 0, 0, 0],
          .teach 7 [5, 8, 1, 9, 61, 0, 0, 0, 0, 0], .teach 7 [5, 8, 9, 0, 0, 0, 0, 0, 2, 0],
          .teach 7 [5, 8, 9, 0, 0, 0, 0, 0, 1, 8], .teach 7 [5, 8, 9, 0, 0, 0, 0, 0, 0, 1],
          .teach 7 [0, 8, 9, 0, 0, 0, 0, 0, 0, 0], .teach 7 [5, 8, 9, 0, 0, 0, 0, 0, 1, 7],
          .teach 7 [5, 8, 0, 9, 61, 0, 0, 0, 1, 2]]
        = [some 0x11, some 0x12, some 0x12, some 0x12, some 0x12, some 0x12, some 0x12, some 0x12, some 0x12, some 0x15,
          some 0x15, some 0] ∧
      statusOf (.teach 7 [5, 8, 9, 0, 0, 0, 0, 0, 0, 0]) tracking = some 0x13 ∧
      statusOf (.teach 7 [5, 8, 9, 0, 0, 0, 0, 0, 0, 0]) teachingState = some 0x14 ∧
      statuses teachingState [.teachAbort 7 [0], .teachAbort 7 []] = [some 0x11, some 0] ∧
      statusOf (.teachAbort 7 []) configured = some 0x13 := by
  decide

/-- A sample of a teach in progress, started at position 0. -/
def sampling (run : TeachRun) (here : Pos) : State :=
  (configured.modTch fun _ => ⟨.waitTarget run 0 (0 + run.span)⟩).modPos fun p => { p with position := here }

theorem witness_TeachRules :
    (teachTargetEdge (sampling run0 404)).stn.stations[0].record.offset = 402 ∧
      (teachTargetEdge (sampling run0 404)).tch.state = .idle ∧
      (teachTargetEdge (sampling run0 406)).stn.stations[0].record.offset = 500 ∧
      (teachTargetEdge (sampling { run0 with samples := [] } 9)).tch.state
        = .waitEntry { run0 with samples := [9], failures := 0 } ∧
      (teachSpanReach (sampling run0 100)).tch.state = .idle ∧
      (teachSpanReach (sampling { run0 with failures := 1 } 100)).tch.state = .waitEntry run0 ∧
      (teachEntryEdge teachingState).tch.state = .waitTarget run0 0 100 ∧
      run0.stats = some ⟨400, 400, 400⟩ := by
  decide

/-! ## Notices, the transmitter, reset -/

/-- 08 section 8.4.1: a full queue of 2 notices at level 3, 20 at level 2 and 10 at level 1. -/
def fullQueue : State :=
  configured.modLnk fun l =>
    { l with
      notices :=
        List.replicate 2 ⟨3, .zoneState 1 .config .armed .request 0⟩ ++ List.replicate 20 ⟨2, .stray 1 .entry 0⟩
          ++ List.replicate 10 ⟨1, .entry 1 1 0 0⟩ }

def levels (s : State) : List Nat :=
  [3, 2, 1, 0].map fun k => (s.lnk.notices.filter fun q => q.level.val = k).length

theorem test_full_queue_example :
    let s1 := offer (.probe 2 0 .leading 0 1 .spent) fullQueue
    let s2 := offer (.itemDone 3 0 (item 1 600)) s1
    let s3 := offer (.zoneState 4 .armed .config .request 0) s2
    let s4 := offer (.entry 5 2 0 0) s3
    [s1, s2, s3, s4].map levels = [[2, 20, 10, 0], [2, 21, 9, 0], [3, 21, 8, 0], [3, 21, 8, 0]] ∧
      [s1, s2, s3, s4].map (fun s => s.lnk.lostCount) = [1, 2, 3, 4] := by
  decide

theorem witness_NoticeQueueRule :
    NoticesOk fullQueue.lnk ∧ NoticesOk configured.lnk ∧ fullQueue.lnk.settings[3].enabled = false ∧
      offer (.decision 1 1 .accept .complete 0) fullQueue = fullQueue := by
  unfold NoticesOk
  decide

theorem witness_ArbiterGrantResult :
    (after .arbiterGrant full).lnk.replies.length = 7 ∧ (after .arbiterGrant configured) = configured ∧
      (after .arbiterGrant fullQueue).lnk.notices.length = 31 ∧
      (after .arbiterGrant (fullQueue.modLnk fun l => { l with lostCount := 65535 })).lnk.tx
        = .sending ⟨.notice, 0, 4, ⟨0x4B, 0, [0, 0, 0, 0, 0, 0, 255, 255]⟩, .plain⟩ ∧
      (after .arbiterGrant (tracking.modLnk fun l => { l with dump := some ⟨9, 0, true⟩ })).lnk.tx
        = .sending ⟨.dump, 0, 8, ⟨0x51, 9, [0, 0, 0, 0, 0, 0, 0, 0, 0, 0, 0]⟩, .dumpEnd⟩ := by
  decide

/-- A burst in transmission. -/
def sending (src : TxSource) (done limit : Nat) (m : FrameMark) (s : State) : State :=
  s.modLnk fun l => { l with tx := .sending ⟨src, done, limit, ⟨0, 0, []⟩, m⟩ }

/-- The number of completed frames and the limit of the burst that goes on. -/
def burstOf (s : State) : Option (Nat × Nat) :=
  match s.lnk.tx with | .idle => none | .sending b => some (b.completed, b.limit)

/-- A dump stream in transmission with 64 records. -/
def dumping (s : State) : State :=
  (s.modTrk fun t => { t with snapshot := ⟨List.replicate 64 (item 1 600), 0, 0⟩ }).modLnk fun l =>
    { l with dump := some ⟨9, 10, true⟩ }

theorem witness_FrameSentResult :
    (fullQueue.lnk.tx = .idle ∧ (after (.frameSent ⟨0, 0⟩) fullQueue).lnk = fullQueue.lnk) ∧
      burstOf (after (.frameSent ⟨0, 0⟩) (sending .reply 0 1 .plain fullQueue)) = none ∧
      burstOf (after (.frameSent ⟨0, 0⟩) (sending .notice 2 4 .plain fullQueue)) = some (3, 4) ∧
      burstOf (after (.frameSent ⟨0, 0⟩) (sending .notice 3 4 .plain fullQueue)) = none ∧
      burstOf (after (.frameSent ⟨0, 0⟩) (sending .dump 6 8 .dumpItem (dumping configured))) = some (7, 16) ∧
      burstOf (after (.frameSent ⟨0, 0⟩) (sending .dump 6 8 .dumpItem (dumping fullQueue))) = some (7, 8) ∧
      burstOf (after (.frameSent ⟨0, 0⟩) (sending .dump 7 8 .dumpItem (dumping fullQueue))) = none ∧
      (after (.frameSent ⟨0, 0⟩) (sending .dump 3 8 .dumpEnd (dumping configured))).lnk.dump = none := by
  decide

theorem witness_ResetResult :
    statuses tracking [.reset 7 [0], .reset 7 []] = [some 0x11, some 0] ∧
      (after (.frameSent ⟨2, 9⟩) (sending .reply 0 1 .resetReply tracking)).lnk.unitId = 9 ∧
      (after (.nrst quietPins) tracking).trk.track = [] ∧
      (after (.powerUp { quietPins with estopN := false }) tracking).zon.zone = .estop := by
  decide

/-! ## Records and invariants -/

/-- The record of the worked example in the Track chapter has one slot, V0 SET with code 2, and two outcomes: 46 bytes. -/
theorem test_item_record :
    let b := Item.bytes { item 7 600 with slots := [⟨0, .set 2⟩], outcomes := [⟨1, .fired⟩, ⟨3, .missed⟩] }
    b.length = 46 ∧ (b.drop 37).take 9 = [1, 2, 1, 0, 0x12, 1, 1, 3, 10] := by
  decide

theorem witness_RecordsOnTheLink :
    ejectRec.valueOk = true ∧ triggerRec.valueOk = true ∧ checkRec.valueOk = true ∧ StationRec.none.valueOk = true ∧
      ParamsOk configured.trk.params := by
  unfold ParamsOk
  decide

theorem witness_TrackInv : TrackInv tracking := by
  have hc : ∀ i : Fin 8,
      tracking.stn.stations[i].cursor = none ∨ tracking.stn.stations[i].cursor = some 1 := by decide
  have ho : ∀ i : Fin 8,
      tracking.stn.stations[i].opening = none ∨ tracking.stn.stations[i].opening = some 1 := by decide
  have hw : ∀ i : Fin 8, tracking.stn.stations[i].windows = [] := by decide
  have hs : ∀ v : Fin 4, tracking.vrd.sources[v].windows = [] := by decide
  have ht : (1 : Tag) ∈ tags tracking := by decide
  have he : tracking.trk.entry = .clear := by decide
  have old : BehindCursor tracking (some 1) [] := ⟨[], [1, 2], by decide, by decide, List.Sublist.refl _⟩
  have all : BehindCursor tracking none [] := ⟨[1, 2], [], by decide, by decide, List.nil_sublist _⟩
  refine ⟨witness_taken.2.2, ⟨?_, ?_, ?_, ?_, ?_⟩, ⟨?_, ?_⟩, by decide⟩
  · intro tag lead h
    rw [he] at h
    cases h
  · intro i tag h
    rcases hc i with hi | hi <;> rw [hi] at h <;> cases h
    exact ht
  · intro i tag h
    rcases ho i with hi | hi <;> rw [hi] at h <;> cases h
    exact ht
  · intro i w h
    rw [hw i] at h
    cases h
  · intro v w h
    rw [hs v] at h
    cases h
  · intro i
    rw [hw i]
    rcases ho i with hi | hi <;> rw [hi]
    · exact all
    · exact old
  · intro v
    have h : ∀ v : Fin 4, tracking.vrd.sources[v].record = .message ∨
        tracking.vrd.sources[v].record = .line 4 1 50 1 2 := by decide
    have hc1 : tracking.stn.stations[(1 : Fin 8)].cursor = some 1 := by decide
    rcases h v with hv | hv <;> rw [hv]
    · exact hs v
    · dsimp only
      rw [hs v, hc1]
      exact old

theorem witness_TrackOrder : OrderOk tracking ∧ Near 500 tracking := by
  unfold OrderOk Near
  decide

theorem witness_LinkInv : LinkInv tracking := by
  unfold LinkInv NoticesOk
  refine ⟨by decide, by decide, by decide, by decide, fun _ => by decide, fun h => ?_⟩
  rw [show tracking.lnk.resetPending = false by decide] at h
  cases h

theorem witness_ZoneInv : ZoneInv tracking := by
  unfold ZoneInv
  have hz : tracking.zon.zone = .tracking := by decide
  have ht : tracking.tch.state = .idle := by decide
  simp [hz, ht, show tracking.zon.estopN.accepted = true by decide]

theorem witness_ConfigInv : ConfigInv tracking := by
  unfold ConfigInv ParamsOk
  refine ⟨by decide, by decide, by decide, by decide, by decide, fun run h => ?_⟩
  rw [show tracking.tch.state.run = none by decide] at h
  cases h

theorem witness_steps :
    step { tracking with pending := [.hold 7 []] } = exec (.hold 7 []) { tracking with pending := [] } ∧
      tags (after (.verdict 7 [1, 0, 0, 0]) tracking) = tags tracking ∧
      (after (.verdict 7 [1, 0, 0, 0]) tracking).trk.track.map Item.entryTime = [5, 5] :=
  ⟨rfl, by decide⟩

end Sys2Proof.Tests
end

section
/-! SUPPORT and CERTIFICATES. Chapter 1 of the T24, track position and time base: SET_ENCODER and the read requests, the
acceptance moments of the encoder and what their counts do, the targets of a forward count, fault causes, raw level changes
and timed ends. The rules come first, in the order of the definitions they speak of; the obligations they settle last. -/

namespace Sys2Proof.Position

open Sys2Proof.Machine Sys2Proof.Safety Sys2Proof.Laws

/-! ## Tables and items -/

/-- Changing an entry depends on the function only at that entry. -/
theorem modAt_congr {α : Type} {n : Nat} (v : Vector α n) (i : Fin n) {f g : α → α} (h : f v[i] = g v[i]) :
    modAt v i f = modAt v i g := by
  unfold modAt
  rw [h]

theorem modAt_id {α : Type} {n : Nat} (v : Vector α n) (i : Fin n) : modAt v i id = v :=
  Vector.set_getElem_self i.isLt

theorem modOutput_congr (o : Fin 8) {f g : Output → Output} (s : State) (h : f s.out.outputs[o] = g s.out.outputs[o]) :
    s.modOutput o f = s.modOutput o g :=
  congrArg (fun v => { s with out := { s.out with outputs := v } }) (modAt_congr _ _ h)

/-- An output to which nothing happens leaves the state as it was. -/
theorem modOutput_self (o : Fin 8) {f : Output → Output} (s : State) (h : f s.out.outputs[o] = s.out.outputs[o]) :
    s.modOutput o f = s :=
  (modOutput_congr o (g := id) s h).trans
    (congrArg (fun v => { s with out := { s.out with outputs := v } }) (modAt_id s.out.outputs o))

/-- Changing the item of a tag is replacing the one record that carries it. -/
theorem modItem_eq_replaceItem {s : State} (h : ItemsOk s) {it : Item} (hm : it ∈ s.trk.track) (f : Item → Item)
    (hf : (f it).tag = it.tag) : s.modItem it.tag f = replaceItem (f it) s := by
  have hmap : (s.trk.track.map fun x => if x.tag = it.tag then f x else x) =
      s.trk.track.map fun x => if x.tag = (f it).tag then f it else x := by
    refine List.map_congr_left fun x hx => ?_
    rw [hf]
    by_cases e : x.tag = it.tag
    · rw [unique_tag h hx hm e]
    · rw [if_neg e, if_neg e]
  exact congrArg (fun l => { s with trk := { s.trk with track := l } }) hmap

/-- The item a cursor is on. -/
theorem cursorItem_iff {s : State} (h : ItemsOk s) (c : Option Tag) (it : Item) :
    c.bind s.findItem = some it ↔ it ∈ s.trk.track ∧ c = some it.tag := by
  rw [Option.bind_eq_some_iff]
  constructor
  · rintro ⟨g, hg, hf⟩
    obtain ⟨hm, rfl⟩ := findItem_some hf
    exact ⟨hm, hg⟩
  · rintro ⟨hm, hc⟩
    exact ⟨it.tag, hc, findItem_eq h hm⟩

/-! ## Serial order -/

/-- R11: an end time is reached when it is not ahead of the time base. -/
theorem timeReached_iff (t now : Time) :
    timeReached t now = true ↔ ¬(1 ≤ (t - now).toNat ∧ (t - now).toNat < 2 ^ 47) := by
  simp only [timeReached, aheadTime, Bool.not_eq_true', Bool.and_eq_false_iff, decide_eq_false_iff_not, not_and_or]

/-- R10: the reverse distance is how far the high-water position is ahead. -/
theorem reverseDistance_eq (p : PosUnit) :
    reverseDistance p = if ahead p.highWater p.position then (p.highWater - p.position).toNat else 0 := by
  unfold reverseDistance serialDist
  split <;> rfl

/-! ## Requests -/

section Requests

variable {s : State} (tag : Byte) (p : List Byte)

theorem exec_setEncoder_taken (h : Taken s) : exec (.setEncoder tag p) s = .next (reqSetEncoder tag p s) :=
  congrArg _ (takeFrame_taken h)

theorem exec_readPosition_taken (h : Taken s) : exec (.readPosition tag p) s = .next (reqReadPosition tag p s) :=
  congrArg _ (takeFrame_taken h)

theorem exec_readInput_taken (h : Taken s) : exec (.readInput tag p) s = .next (reqReadInput tag p s) :=
  congrArg _ (takeFrame_taken h)

theorem exec_readOutputs_taken (h : Taken s) : exec (.readOutputs tag p) s = .next (reqReadOutputs tag p s) :=
  congrArg _ (takeFrame_taken h)

end Requests

/-- R13, R163: one field out of range, and the whole full form is refused. -/
theorem encoderOfPayload_none {a b c d : Byte} (u : PosUnit)
    (h : 4 ≤ a.toNat ∨ 2 ≤ b.toNat ∨ 2 ≤ c.toNat ∨ 2 ≤ d.toNat) : encoderOfPayload [a, b, c, d] u = none := by
  rcases h with h | h | h | h
  · simp [encoderOfPayload, encMode_none h]
  · simp [encoderOfPayload, asFlag_none h]
  · simp [encoderOfPayload, asFlag_none h]
  · simp [encoderOfPayload, encFilter_none h]

/-- R13, R5: the full form sets the four settings and retakes the reference pair. -/
theorem encoderOfPayload_codes (m : EncMode) (inv en : Bool) (f : EncFilter) (u : PosUnit) :
    encoderOfPayload [m.code, flagByte inv, flagByte en, f.code] u =
      some
        { u with
          mode := m, invert := inv, enable := en, filter := f, refA := u.chanA.accepted, refB := u.chanB.accepted } := by
  simp [encoderOfPayload]

/-! ## Raw counts -/

/-- R2, QUAD_X4: every change of one channel counts, its direction told by the other channel's level. -/
theorem quadX4_eq (a b a' b' : Bool) :
    quadX4 a b a' b' =
      if a ≠ a' ∧ b ≠ b' then .error
      else if a ≠ a' then (if a' = b then .down else .up)
      else if b ≠ b' then (if b' = a then .up else .down)
      else .zero := by
  revert a b a' b'
  decide

/-- R2, QUAD_X2: only changes of A count. -/
theorem quadX2_eq (a b a' b' : Bool) :
    quadX2 a b a' b' =
      if a ≠ a' ∧ b ≠ b' then .error else if a ≠ a' then (if a' = b then .down else .up) else .zero := by
  revert a b a' b'
  decide

/-- R2, QUAD_X1: only changes of A while B is low count. -/
theorem quadX1_eq (a b a' b' : Bool) :
    quadX1 a b a' b' =
      if a ≠ a' ∧ b ≠ b' then .error
      else if a ≠ a' ∧ b = false then (if a' then .up else .down)
      else .zero := by
  revert a b a' b'
  decide

/-- R3, UP_DOWN: only rising edges count, A's up and B's down. -/
theorem upDown_eq (a b a' b' : Bool) :
    upDown a b a' b' =
      if (a = false ∧ a' = true) ∧ b = false ∧ b' = true then .error
      else if a = false ∧ a' = true then .up
      else if b = false ∧ b' = true then .down
      else .zero := by
  revert a b a' b'
  decide

/-- R2: in the quadrature modes the way back gives the opposite count of the way there. -/
theorem rawCount_reversal {m : EncMode} (hm : m ≠ .upDown) (a b a' b' : Bool) :
    rawCount m a' b' a b = (rawCount m a b a' b').signed true := by
  cases m with
  | quadX1 => revert a b a' b'; decide
  | quadX2 => revert a b a' b'; decide
  | quadX4 => revert a b a' b'; decide
  | upDown => exact absurd rfl hm

/-! ## Acceptance moments -/

/-- The level a channel has accepted after an acceptance moment in which it takes part or not. -/
def acceptedLevel (takesPart : Bool) (c : Channel) : Bool := if takesPart then c.raw else c.accepted

/-- The Position Unit once the channels have accepted their levels (R1). -/
def acceptedPos (ca cb : Bool) (p : PosUnit) : PosUnit :=
  { p with
    chanA := { p.chanA with accepted := acceptedLevel ca p.chanA }
    chanB := { p.chanB with accepted := acceptedLevel cb p.chanB } }

/-- The Position Unit once the new pair has become the reference pair (R5). -/
def decodedPos (ca cb : Bool) (p : PosUnit) : PosUnit :=
  { acceptedPos ca cb p with refA := acceptedLevel ca p.chanA, refB := acceptedLevel cb p.chanB }

/-- The signed count an acceptance moment gives (R2 to R4). -/
def decodedCount (ca cb : Bool) (p : PosUnit) : RawCount :=
  (rawCount p.mode p.refA p.refB (acceptedLevel ca p.chanA) (acceptedLevel cb p.chanB)).signed p.invert

/-- An acceptance moment at which some channel accepts a new level. -/
def Moved (ca cb : Bool) (p : PosUnit) : Prop :=
  acceptedLevel ca p.chanA ≠ p.chanA.accepted ∨ acceptedLevel cb p.chanB ≠ p.chanB.accepted

/-- A channel that takes part has a change waiting exactly when it accepts a new level. -/
theorem waiting_iff (takesPart : Bool) (c : Channel) :
    (takesPart && c.raw != c.accepted) = true ↔ acceptedLevel takesPart c ≠ c.accepted := by
  cases takesPart <;> simp [acceptedLevel]

/-- R1: a channel with no change waiting may be left out of the moment. -/
theorem accept_waiting (takesPart : Bool) (c : Channel) :
    c.accept (takesPart && c.raw != c.accepted) = { c with accepted := acceptedLevel takesPart c } := by
  obtain ⟨raw, accepted⟩ := c
  cases takesPart <;> cases raw <;> cases accepted <;> rfl

/-- What the moment comes to once each channel has been asked whether it has a change waiting. -/
theorem acceptEncoder_waiting (ca cb : Bool) (s : State) :
    acceptEncoder (ca && s.pos.chanA.raw != s.pos.chanA.accepted) (cb && s.pos.chanB.raw != s.pos.chanB.accepted) s =
      if s.pos.enable then applyCount (decodedCount ca cb s.pos) { s with pos := decodedPos ca cb s.pos }
      else { s with pos := acceptedPos ca cb s.pos } := by
  simp only [acceptEncoder, State.modPos, accept_waiting]
  rfl

section Acceptance

variable {s : State} {ca cb : Bool}

/-- Log 5: with no change waiting nothing happens. -/
theorem exec_encoderAcceptance_still (h : ¬Moved ca cb s.pos) : exec (.encoderAcceptance ca cb) s = .next s := by
  refine congrArg Host.Outcome.next (if_neg ?_)
  rwa [Bool.or_eq_true, waiting_iff, waiting_iff]

/-- R1, R5: all that an acceptance moment does. -/
theorem exec_encoderAcceptance_moved (h : Moved ca cb s.pos) :
    exec (.encoderAcceptance ca cb) s =
      .next
        (if s.pos.enable then applyCount (decodedCount ca cb s.pos) { s with pos := decodedPos ca cb s.pos }
          else { s with pos := acceptedPos ca cb s.pos }) := by
  rw [← acceptEncoder_waiting]
  refine congrArg Host.Outcome.next (if_pos ?_)
  rwa [Bool.or_eq_true, waiting_iff, waiting_iff]

/-- R5: with the enable flag clear the levels are accepted and nothing is decoded. -/
theorem exec_encoderAcceptance_disabled (h : Moved ca cb s.pos) (he : s.pos.enable = false) :
    exec (.encoderAcceptance ca cb) s = .next { s with pos := acceptedPos ca cb s.pos } := by
  rw [exec_encoderAcceptance_moved h, if_neg (by simp [he])]

/-- R5, R6: with the enable flag set the count of the moment takes effect on the decoded state. -/
theorem exec_encoderAcceptance_enabled (h : Moved ca cb s.pos) (he : s.pos.enable = true) {c : RawCount}
    (hc : decodedCount ca cb s.pos = c) :
    exec (.encoderAcceptance ca cb) s = .next (applyCount c { s with pos := decodedPos ca cb s.pos }) := by
  rw [exec_encoderAcceptance_moved h, if_pos he, hc]

end Acceptance

/-! ## Fault causes -/

theorem faultCause_out (c : FaultCause) (s : State) : (faultCause c s).out = s.out := by
  unfold faultCause
  cases s.zon.zone with
  | tracking | hold =>
    simp only [enterFault, enterZone]
    split <;> simp [driveLineStop]
  | fault => simp [joinFault]
  | config | armed | estop => rfl

/-- R127: in TRACKING and HOLD a cause enters FAULT. -/
theorem faultCause_enters (c : FaultCause) {s : State} (h : s.zon.zone = .tracking ∨ s.zon.zone = .hold) :
    faultCause c s = enterFault c s := by
  unfold faultCause
  rcases h with h | h <;> rw [h]

/-- R127: in FAULT a cause joins the set. -/
theorem faultCause_joins (c : FaultCause) {s : State} (h : s.zon.zone = .fault) : faultCause c s = joinFault c s := by
  unfold faultCause
  rw [h]

/-- R127: elsewhere a cause is not reported. -/
theorem faultCause_ignored (c : FaultCause) {s : State} (h : ¬Tracks s) : faultCause c s = s := by
  unfold faultCause
  unfold Tracks at h
  cases hz : s.zon.zone with
  | tracking => simp [hz] at h
  | hold => simp [hz] at h
  | fault => simp [hz] at h
  | config | armed | estop => rfl

/-! ## Backward counts and encoder errors -/

theorem backwardCount_trk (s : State) : (backwardCount s).trk = s.trk := by
  unfold backwardCount
  dsimp only
  split
  · rw [faultCause_trk, modPos_trk]
  · rw [modPos_trk]

theorem backwardCount_out (s : State) : (backwardCount s).out = s.out := by
  unfold backwardCount
  dsimp only
  split
  · rw [faultCause_out, modPos_out]
  · rw [modPos_out]

theorem backwardCount_pos (s : State) : (backwardCount s).pos = { s.pos with position := s.pos.position - 1 } :=
  (backwardCount_event s).pos

theorem encoderError_trk (s : State) : (encoderError s).trk = s.trk := faultCause_trk _ _

theorem encoderError_out (s : State) : (encoderError s).out = s.out := faultCause_out _ _

/-- R6: the error counter stays at 65535. -/
theorem satInc_eq (n : BitVec 16) : satInc n = if n = 65535 then 65535 else n + 1 := by
  unfold satInc
  by_cases h : n = 65535#16
  · subst h
    rfl
  · simp [h]

theorem encoderError_pos (s : State) :
    (encoderError s).pos =
      { s.pos with encErrors := if s.pos.encErrors = 65535 then 65535 else s.pos.encErrors + 1 } := by
  rw [← satInc_eq]
  exact (encoderError_event s).pos

/-! ## Settling the targets of a count -/

/-- R8: a count that reaches no target does no more. -/
theorem settleReaches_none (k : Nat) {s : State} (h : reached s = []) : settleReaches k s = s := by
  cases k with
  | zero => rfl
  | succ k => rw [settleReaches, h]

/-- R8: a count that reaches one target, in whose handling no other comes to be reached. -/
theorem settleReaches_one {k : Nat} (hk : 0 < k) {s : State} {r : Reach} (h : reached s = [r])
    (hr : reached (handleReach r s) = []) : settleReaches k s = handleReach r s := by
  obtain ⟨k, rfl⟩ := Nat.exists_eq_succ_of_ne_zero hk.ne'
  rw [settleReaches, h]
  exact settleReaches_none k hr

theorem reachBound_pos (s : State) : 0 < reachBound s := by
  unfold reachBound
  omega

/-! ## Which targets stand reached -/

theorem tracks_iff (s : State) : s.zon.zone.tracks = true ↔ Tracks s := by
  simp [ZoneState.tracks, Tracks, or_assoc]

/-- R56, R70: the opening position of the item at the opening cursor of a CHECK station is the track position. -/
def OpeningReached (s : State) (i : Fin 8) : Prop :=
  ∃ it ∈ s.trk.track, s.stn.stations[i].opening = some it.tag ∧
    it.entryPos + s.stn.stations[i].record.offset - s.stn.stations[i].record.tolerance.setWidth 32 = s.pos.position

/-- R56, R64: the fire position of a station for its cursor item is the track position. -/
def FireReached (s : State) (i : Fin 8) : Prop :=
  ∃ it ∈ s.trk.track, s.stn.stations[i].cursor = some it.tag ∧
    it.entryPos + s.stn.stations[i].record.offset = s.pos.position

/-- The first entry of a list of windows that closes at a position has the tag `g`. -/
def FirstClosing {α : Type} (closePos : α → Pos) (tagOf : α → Tag) (here : Pos) (g : Tag) (ws : List α) : Prop :=
  ∃ older w newer, ws = older ++ w :: newer ∧ (∀ y ∈ older, closePos y ≠ here) ∧ closePos w = here ∧ tagOf w = g

theorem firstClosing_iff {α : Type} (closePos : α → Pos) (tagOf : α → Tag) (here : Pos) (g : Tag) (ws : List α) :
    FirstClosing closePos tagOf here g ws ↔ ∃ w, ws.find? (fun w => closePos w = here) = some w ∧ tagOf w = g := by
  simp only [List.find?_eq_some_iff_append, FirstClosing]
  constructor
  · rintro ⟨older, w, newer, he, ho, hw, hg⟩
    exact ⟨w, ⟨by simpa using hw, older, newer, he, by simpa using ho⟩, hg⟩
  · rintro ⟨w, ⟨hw, older, newer, he, ho⟩, hg⟩
    exact ⟨older, w, newer, he, by simpa using ho, by simpa using hw, hg⟩

/-- The target of a station that fires (R64), while it stands at the track position. -/
def fireTarget (s : State) (i : Fin 8) : List Reach :=
  match s.stn.stations[i].cursor.bind s.findItem with
  | none => []
  | some it => if it.firePos s.stn.stations[i].record.offset = s.here then [.fire i] else []

theorem stationReached_fires {s : State} {i : Fin 8} (hn : s.stn.stations[i].record.kind ≠ .none)
    (hc : s.stn.stations[i].record.kind ≠ .check) : stationReached s i = fireTarget s i := by
  unfold stationReached
  cases hk : s.stn.stations[i].record.kind with
  | none => exact absurd hk hn
  | check => exact absurd hk hc
  | eject | mark | trigger =>
    simp only [hk]
    rfl

theorem stationReached_none {s : State} {i : Fin 8} (hk : s.stn.stations[i].record.kind = .none) :
    stationReached s i = [] := by
  simp only [stationReached, hk]

section Reached

variable {s : State} (r : Reach)

/-- R41: the over-length target. -/
theorem mem_overlengthReached (h : ItemsOk s) :
    r ∈ overlengthReached s ↔ r = .overlength ∧ ∃ lead, ∃ it ∈ s.trk.track, s.trk.entry = .measuring it.tag lead ∧
      lead + s.trk.params.maxLength = s.pos.position ∧ it.flags.overlength = false := by
  unfold overlengthReached
  cases s.trk.entry with
  | clear => simp
  | untracked => simp
  | measuring g lead =>
    dsimp only
    cases hf : s.findItem g with
    | none =>
      have absent : ∀ it ∈ s.trk.track, g ≠ it.tag := by
        rintro it hm rfl
        rw [findItem_eq h hm] at hf
        cases hf
      simp only [List.not_mem_nil, false_iff]
      rintro ⟨-, lead', it, hm, he, -⟩
      cases he
      exact absent it hm rfl
    | some it =>
      obtain ⟨hm, rfl⟩ := findItem_some hf
      dsimp only
      split
      · rename_i hc
        obtain ⟨hp, ho⟩ := hc
        simp only [List.mem_singleton, iff_self_and]
        exact fun _ => ⟨lead, it, hm, rfl, hp, by simpa using ho⟩
      · rename_i hc
        simp only [List.not_mem_nil, false_iff]
        rintro ⟨-, lead', jt, hj, he, hp, ho⟩
        injection he with hg hl
        subst hl
        rw [unique_tag h hj hm hg.symm] at ho
        exact hc ⟨hp, by simp [ho]⟩

/-- R153, R157: the span target. -/
theorem mem_spanReached :
    r ∈ spanReached s ↔ r = .teachSpan ∧ ∃ run start, s.tch.state = .waitTarget run start s.pos.position := by
  unfold spanReached
  cases s.tch.state with
  | idle => simp
  | waitEntry run => simp
  | waitTarget run start spanPos =>
    dsimp only
    rw [List.mem_ite_nil_right, List.mem_singleton, and_comm]
    simp [State.here]

/-- R64, R65: the targets of a station that fires. -/
theorem mem_stationReached_fires (h : ItemsOk s) {i : Fin 8} (hn : s.stn.stations[i].record.kind ≠ .none)
    (hc : s.stn.stations[i].record.kind ≠ .check) : r ∈ stationReached s i ↔ r = .fire i ∧ FireReached s i := by
  have item : ∀ it, s.stn.stations[i].cursor.bind s.findItem = some it ↔
      it ∈ s.trk.track ∧ s.stn.stations[i].cursor = some it.tag := cursorItem_iff h _
  have target : r ∈ fireTarget s i ↔ r = .fire i ∧ FireReached s i := by
    unfold fireTarget FireReached
    split
    · rename_i hb
      simp only [hb, reduceCtorEq, false_iff, not_and] at item
      simp only [List.not_mem_nil, false_iff]
      rintro ⟨-, it, hm, ht, -⟩
      exact item it hm ht
    · rename_i it hb
      obtain ⟨hm, ht⟩ := (item it).1 hb
      rw [List.mem_ite_nil_right, List.mem_singleton, and_comm]
      refine and_congr_right fun _ => ⟨fun hp => ⟨it, hm, ht, hp⟩, ?_⟩
      rintro ⟨jt, hj, hg, hp⟩
      rw [ht] at hg
      rwa [unique_tag h hm hj (Option.some.inj hg)]
  rw [stationReached_fires hn hc, target]

/-- R70, R71, R75: the targets of a CHECK station, its opening before its closes. -/
theorem mem_stationReached_check (h : ItemsOk s) {i : Fin 8} (hk : s.stn.stations[i].record.kind = .check) :
    r ∈ stationReached s i ↔ (r = .opening i ∧ OpeningReached s i) ∨ ∃ g, r = .closing i g ∧ ¬OpeningReached s i ∧
      FirstClosing CheckWindow.closePos CheckWindow.tag s.pos.position g s.stn.stations[i].windows := by
  have opening : ((s.stn.stations[i].opening.bind s.findItem).any fun it =>
      it.openPos s.stn.stations[i].record = s.here) = true ↔ OpeningReached s i := by
    simp only [Option.any_eq_true, cursorItem_iff h, decide_eq_true_eq, OpeningReached, and_assoc]
    rfl
  have closing : ∀ g, FirstClosing CheckWindow.closePos CheckWindow.tag s.pos.position g s.stn.stations[i].windows ↔
      ∃ w, s.stn.stations[i].windows.find? (fun w => w.closePos = s.here) = some w ∧ w.tag = g :=
    fun g => firstClosing_iff _ _ _ g _
  simp only [stationReached, hk, closing]
  by_cases ho : OpeningReached s i
  · simp [opening.2 ho, ho, -Fin.getElem_fin]
  · rw [if_neg (mt opening.1 ho)]
    cases s.stn.stations[i].windows.find? fun w => w.closePos = s.here with
    | none => simp [ho]
    | some w => simp [ho]

/-- R64, R65, R70, R71, R75: the targets of a station. -/
theorem mem_stationReached (h : ItemsOk s) (i : Fin 8) :
    r ∈ stationReached s i ↔
      (r = .fire i ∧ s.stn.stations[i].record.kind ≠ .none ∧ s.stn.stations[i].record.kind ≠ .check ∧
        FireReached s i) ∨
      (r = .opening i ∧ s.stn.stations[i].record.kind = .check ∧ OpeningReached s i) ∨
      ∃ g, r = .closing i g ∧ s.stn.stations[i].record.kind = .check ∧ ¬OpeningReached s i ∧
        FirstClosing CheckWindow.closePos CheckWindow.tag s.pos.position g s.stn.stations[i].windows := by
  by_cases hc : s.stn.stations[i].record.kind = .check
  · rw [mem_stationReached_check r h hc]
    simp [hc, -Fin.getElem_fin]
  · by_cases hn : s.stn.stations[i].record.kind = .none
    · simp [stationReached_none hn, hn, -Fin.getElem_fin]
    · rw [mem_stationReached_fires r h hn hc]
      simp [hn, hc, -Fin.getElem_fin]

/-- R48, R90: the targets of an item. -/
theorem mem_itemReached (it : Item) :
    r ∈ itemReached s it ↔
      (r = .deadline it.tag ∧ it.deadline = some s.pos.position ∧ it.decision = none) ∨
      (r = .retirement it.tag ∧ it.entryPos + s.trk.params.trackEnd = s.pos.position) := by
  unfold itemReached
  rw [List.mem_append, List.mem_ite_nil_right, List.mem_ite_nil_right, List.mem_singleton, List.mem_singleton,
    Option.isNone_iff_eq_none, and_comm, and_comm (b := r = .retirement it.tag)]
  rfl

/-- R96, R99: the target of a LINE source. -/
theorem mem_sourceReached (v : Fin 4) :
    r ∈ sourceReached s v ↔ ∃ g, r = .lineClose v g ∧
      FirstClosing LineWindow.closePos LineWindow.tag s.pos.position g s.vrd.sources[v].windows := by
  have closing : ∀ g, FirstClosing LineWindow.closePos LineWindow.tag s.pos.position g s.vrd.sources[v].windows ↔
      ∃ w, s.vrd.sources[v].windows.find? (fun w => w.closePos = s.here) = some w ∧ w.tag = g :=
    fun g => firstClosing_iff _ _ _ g _
  simp only [sourceReached, closing]
  cases s.vrd.sources[v].windows.find? fun w => w.closePos = s.here with
  | none => simp
  | some w => simp

/-- R8, R65: where items are acted on, the targets that stand reached are those of the Entry Unit, the stations, the
items and the sources. -/
theorem mem_reached_tracks (ht : Tracks s) :
    r ∈ reached s ↔ r ∈ overlengthReached s ∨ (∃ i, r ∈ stationReached s i) ∨
      (∃ it ∈ s.trk.track, r ∈ itemReached s it) ∨ ∃ v, r ∈ sourceReached s v := by
  unfold reached
  rw [if_pos ((tracks_iff s).2 ht)]
  simp

/-- R153: elsewhere only the span of a teach can stand reached. -/
theorem reached_elsewhere (ht : ¬Tracks s) : reached s = spanReached s := by
  unfold reached
  rw [if_neg (by rwa [tracks_iff])]

/-- R130, R153: in ESTOP no teach runs, and nothing stands reached. -/
theorem reached_estop (hz : ZoneInv s) (he : s.zon.zone = .estop) : reached s = [] := by
  obtain ⟨-, -, -, teach, -⟩ := hz
  have idle : s.tch.state = .idle := by
    by_contra hne
    rw [teach hne] at he
    cases he
  rw [reached_elsewhere (by simp [Tracks, he]), spanReached, idle]

end Reached

/-- What it takes for each kind of target to stand reached where items are acted on. -/
def Stands (s : State) : Reach → Prop
  | .overlength =>
    ∃ lead, ∃ it ∈ s.trk.track, s.trk.entry = .measuring it.tag lead ∧
      lead + s.trk.params.maxLength = s.pos.position ∧ it.flags.overlength = false
  | .teachSpan => False
  | .fire i => s.stn.stations[i].record.kind ≠ .none ∧ s.stn.stations[i].record.kind ≠ .check ∧ FireReached s i
  | .opening i => s.stn.stations[i].record.kind = .check ∧ OpeningReached s i
  | .closing i g =>
    s.stn.stations[i].record.kind = .check ∧ ¬OpeningReached s i ∧
      FirstClosing CheckWindow.closePos CheckWindow.tag s.pos.position g s.stn.stations[i].windows
  | .deadline g => ∃ it ∈ s.trk.track, it.tag = g ∧ it.deadline = some s.pos.position ∧ it.decision = none
  | .lineClose v g => FirstClosing LineWindow.closePos LineWindow.tag s.pos.position g s.vrd.sources[v].windows
  | .retirement g => ∃ it ∈ s.trk.track, it.tag = g ∧ it.entryPos + s.trk.params.trackEnd = s.pos.position

/-- R8, R65: which targets stand reached where items are acted on: a kind of target comes from its own owner alone. -/
theorem mem_reached_iff {s : State} (h : ItemsOk s) (ht : Tracks s) (r : Reach) : r ∈ reached s ↔ Stands s r := by
  rw [mem_reached_tracks r ht, mem_overlengthReached r h]
  simp only [mem_stationReached r h, mem_itemReached, mem_sourceReached]
  cases r with
  | overlength | teachSpan | fire i | opening i | closing i g | lineClose v g => simp [Stands]
  | deadline g | retirement g => simp [Stands, eq_comm (a := g)]

/-- R41: the item being measured is flagged, and ENTRY_BLOCKED is reported. -/
theorem overlengthReach_eq {s : State} (h : ItemsOk s) {lead : Pos} {it : Item}
    (he : s.trk.entry = .measuring it.tag lead) (hm : it ∈ s.trk.track) :
    overlengthReach s =
      faultCause .entryBlocked (replaceItem { it with flags := { it.flags with overlength := true } } s) := by
  simp only [overlengthReach, he]
  exact congrArg _
    (modItem_eq_replaceItem h hm (fun x => { x with flags := { x.flags with overlength := true } }) rfl)

/-! ## Timed ends -/

section TimedEnds

variable {s : State} {o : Fin 8} {e : Time}

/-- R107: an ON output whose end time is reached. -/
theorem endOn_reached {x : Output} {w : Owner} {now : Time} (hx : x.state = .on e w) (hr : timeReached e now = true) :
    x.endOn now = { x with state := if x.gap = 0 then .off else .recover (e + x.gap.setWidth 48) w } := by
  unfold Output.endOn
  rw [hx]
  exact if_pos hr

/-- Log 5: an end of ON that is not reached. -/
theorem endOn_early {x : Output} {now : Time} (hx : ∀ e w, x.state = .on e w → ¬timeReached e now = true) :
    x.endOn now = x := by
  unfold Output.endOn
  split
  · rfl
  · rfl
  · rename_i e w he
    exact if_neg (hx e w he)

/-- R107: a RECOVER output whose end time is reached. -/
theorem endRecover_reached {x : Output} {w : Owner} {now : Time} (hx : x.state = .recover e w)
    (hr : timeReached e now = true) : x.endRecover now = { x with state := .off } := by
  unfold Output.endRecover
  rw [hx]
  exact if_pos hr

/-- Log 5: an end of RECOVER that is not reached. -/
theorem endRecover_early {x : Output} {now : Time} (hx : ∀ e w, x.state = .recover e w → ¬timeReached e now = true) :
    x.endRecover now = x := by
  unfold Output.endRecover
  split
  · rfl
  · rfl
  · rename_i e w he
    exact if_neg (hx e w he)

theorem exec_outputOnEnd_eq (f : Output → Output) (h : s.out.outputs[o].endOn s.now = f s.out.outputs[o]) :
    exec (.outputOnEnd o) s = .next (s.modOutput o f) :=
  congrArg Host.Outcome.next (modOutput_congr o s h)

theorem exec_outputOnEnd_early (h : s.out.outputs[o].endOn s.now = s.out.outputs[o]) :
    exec (.outputOnEnd o) s = .next s :=
  congrArg Host.Outcome.next (modOutput_self o s h)

theorem exec_outputRecoverEnd_eq (f : Output → Output) (h : s.out.outputs[o].endRecover s.now = f s.out.outputs[o]) :
    exec (.outputRecoverEnd o) s = .next (s.modOutput o f) :=
  congrArg Host.Outcome.next (modOutput_congr o s h)

theorem exec_outputRecoverEnd_early (h : s.out.outputs[o].endRecover s.now = s.out.outputs[o]) :
    exec (.outputRecoverEnd o) s = .next s :=
  congrArg Host.Outcome.next (modOutput_self o s h)

/-- R11: a wait or a drive whose end time, if it has one, is not reached goes on. -/
theorem waitOver_early {wait : Option Time} {now : Time} (h : ∀ e, wait = some e → ¬timeReached e now = true) :
    waitOver wait now = false := by
  cases wait with
  | none => rfl
  | some e => exact Bool.eq_false_iff.2 (h e rfl)

/-- R15, R118, R119: the filter of a line sees it rise when this unit's drive ends and the rest of the line is high. -/
theorem rewait_release (filter now : Time) (accepted ext : Bool) (wait : Option Time) :
    rewait filter now accepted (ext && false) (ext && true) wait =
      if ext = false then wait else if accepted = true then none else some (now + filter) := by
  cases ext <;> simp [rewait, eq_comm]

/-- R119: the SYNC drive ends RELEASED. -/
theorem setSync_release (z : ZonUnit) (now : Time) (h : z.syncDrive = some e) :
    z.setSync z.sync.ext none now =
      { z with
        syncDrive := none
        sync :=
          { z.sync with
            wait :=
              if z.sync.ext = false then z.sync.wait
              else if z.sync.accepted = true then none
              else some (now + Config.syncFilter) } } := by
  rw [← rewait_release]
  unfold ZonUnit.setSync ZonUnit.syncRaw
  rw [h]
  rfl

/-- R119: the LINE-STOP drive ends RELEASED. -/
theorem setLineStop_release (z : ZonUnit) (now : Time) (h : z.lineStopDrive = some e) :
    z.setLineStop z.lineStop.ext none now =
      { z with
        lineStopDrive := none
        lineStop :=
          { z.lineStop with
            wait :=
              if z.lineStop.ext = false then z.lineStop.wait
              else if z.lineStop.accepted = true then none
              else some (now + Config.lineStopFilter) } } := by
  rw [← rewait_release]
  unfold ZonUnit.setLineStop ZonUnit.lineStopRaw
  rw [h]
  rfl

theorem exec_syncDriveEnd_reached (h : s.zon.syncDrive = some e) (hr : timeReached e s.now = true) :
    exec .syncDriveEnd s = .next (s.modZon fun z => z.setSync z.sync.ext none s.now) :=
  congrArg Host.Outcome.next (if_pos (by rw [h]; exact hr))

theorem exec_syncDriveEnd_early (h : ∀ e, s.zon.syncDrive = some e → ¬timeReached e s.now = true) :
    exec .syncDriveEnd s = .next s :=
  congrArg Host.Outcome.next (if_neg (by simp [waitOver_early h]))

theorem exec_lineStopDriveEnd_reached (h : s.zon.lineStopDrive = some e) (hr : timeReached e s.now = true) :
    exec .lineStopDriveEnd s = .next (s.modZon fun z => z.setLineStop z.lineStop.ext none s.now) :=
  congrArg Host.Outcome.next (if_pos (by rw [h]; exact hr))

theorem exec_lineStopDriveEnd_early (h : ∀ e, s.zon.lineStopDrive = some e → ¬timeReached e s.now = true) :
    exec .lineStopDriveEnd s = .next s :=
  congrArg Host.Outcome.next (if_neg (by simp [waitOver_early h]))

end TimedEnds

/-! ## The obligations -/

/-- Settles O15: each raw level change is its block's update, the wait of a line taken as rewait gives it (R15). -/
theorem rawLevelChanges : Obligations.RawLevelChanges := by
  unfold Obligations.RawLevelChanges
  intro s level after
  have wait : ∀ f a old new w, after f a old new w = rewait f s.now a old new w := fun _ _ _ _ _ => rfl
  simp only [wait]
  exact ⟨rfl, rfl, fun _ => rfl, rfl, rfl, rfl⟩

/-- Settles O9: the four refusals in the order of the checks, then the full form. -/
theorem setEncoderResult : Obligations.SetEncoderResult := by
  unfold Obligations.SetEncoderResult
  intro tag p s taken inForce refused
  have full : p.length = 4 → p ≠ [] := by rintro hp rfl; cases hp
  simp only [refused, exec_setEncoder_taken tag p taken, reqSetEncoder]
  refine ⟨fun hp => ?_, fun hne hlen => ?_, fun hlen hz => ?_, fun a b c d hp hz range => ?_,
    fun m inv en f hp hz => ?_⟩
  · rw [if_pos hp]
    rfl
  · rw [if_neg hne, if_pos hlen]
    rfl
  · rw [if_neg (full hlen), if_neg (not_not.2 hlen), if_pos hz]
    rfl
  · subst hp
    rw [if_neg (by simp), if_neg (by simp), if_neg (not_not.2 hz), encoderOfPayload_none _ range]
    rfl
  · subst hp
    rw [if_neg (by simp), if_neg (by simp), if_neg (not_not.2 hz), encoderOfPayload_codes]
    rfl

/-- Settles O10: each request is answered from the state it leaves as it was. -/
theorem readRequestsChangeNothing : Obligations.ReadRequestsChangeNothing := by
  unfold Obligations.ReadRequestsChangeNothing
  intro tag p s taken
  simp only [exec_readPosition_taken tag p taken, exec_readOutputs_taken tag p taken,
    exec_readInput_taken tag p taken, reqReadPosition, reqReadOutputs, reqReadInput]
  refine ⟨fun hp => ⟨?_, ?_⟩, fun hp => ⟨?_, ?_⟩, fun hlen => ?_, fun b hp range => ?_, fun i hp => ?_⟩
  · rw [if_neg (not_not.2 hp)]
    rfl
  · rw [if_neg (not_not.2 hp)]
    rfl
  · rw [if_pos hp]
    rfl
  · rw [if_pos hp]
    rfl
  · rw [if_pos hlen]
    rfl
  · subst hp
    rw [if_neg (by simp), byteAt_zero, asFin_none range]
    rfl
  · subst hp
    rw [if_neg (by simp), byteAt_zero, asFin_idxByte_8]
    rfl

/-- Settles O11: the decoding tables first, then each outcome of an acceptance moment. -/
theorem encoderAcceptanceResult : Obligations.EncoderAcceptanceResult := by
  unfold Obligations.EncoderAcceptanceResult
  refine ⟨⟨fun a b a' b' => ⟨quadX4_eq a b a' b', quadX2_eq a b a' b', quadX1_eq a b a' b', upDown_eq a b a' b'⟩,
    fun m a b a' b' hm => rawCount_reversal hm a b a' b', rfl, rfl, rfl, rfl⟩, ?_⟩
  intro s ca cb a b accepted decoded count moved
  refine ⟨exec_encoderAcceptance_still, exec_encoderAcceptance_disabled, fun hm he =>
    ⟨fun hc => exec_encoderAcceptance_enabled hm he hc, fun hc => ?_, fun hc => ?_, fun hc => ?_⟩⟩
  · exact ⟨_, exec_encoderAcceptance_enabled hm he hc, (forwardCount_event _).inp, forwardCount_pos _⟩
  · exact ⟨exec_encoderAcceptance_enabled hm he hc, backwardCount_trk _, backwardCount_out _, backwardCount_pos _⟩
  · exact ⟨exec_encoderAcceptance_enabled hm he hc, encoderError_trk _, encoderError_out _, encoderError_pos _⟩

/-- Settles O12: which counts report a cause, then what a cause does by zone state. -/
theorem faultCauses : Obligations.FaultCauses := by
  unfold Obligations.FaultCauses
  refine ⟨fun s => ⟨rfl, ?_⟩, fun s c => ?_⟩
  · intro s1 behind
    have distance : ∀ p, behind p = reverseDistance p := fun p => (reverseDistance_eq p).symm
    rw [distance, distance]
    exact ⟨fun crossing => if_pos crossing, fun crossing => if_neg crossing⟩
  · intro now here one entered noticed
    refine ⟨fun hz => ?_, fun hz => faultCause_joins c hz, faultCause_ignored c⟩
    rw [faultCause_enters c hz]
    have entry : enterFault c s = if s.zon.stopOut then driveLineStop noticed else noticed := rfl
    rw [entry]
    exact ⟨fun hs => if_neg (by simp [hs]), fun hs => if_pos hs⟩

/-- Settles O23: a forward count settles the targets it reaches, and reachBound allows for all that can come. -/
theorem forwardCountReaches : Obligations.ForwardCountReaches := by
  unfold Obligations.ForwardCountReaches
  intro s ca cb a b hm he hc s1
  have count : exec (.encoderAcceptance ca cb) s = .next (settleReaches (reachBound s1) s1) :=
    exec_encoderAcceptance_enabled hm he hc
  rw [count]
  refine ⟨fun none => ?_, fun r one rest => ?_, fun items => ?_⟩
  · rw [settleReaches_none _ none]
  · rw [settleReaches_one (reachBound_pos s1) one rest]
  · have items1 : ItemsOk s1 := items
    exact ⟨_, rfl, settleReaches_many _ _, settleReaches_done _ items1 (targetsLeft_le s1)⟩

/-- Settles O24: membership in `reached` kind by kind, then the owners. -/
theorem reachedTargets : Obligations.ReachedTargets := by
  unfold Obligations.ReachedTargets
  refine ⟨fun s items => ?_, fun s i v g => ?_, ?_⟩
  · intro here opens
    refine ⟨fun tracks => ?_, fun elsewhere r => ?_, reached_estop⟩
    · have stands := mem_reached_iff items tracks
      exact ⟨stands .overlength, fun i => stands (.fire i), fun i => stands (.opening i),
        fun i g => stands (.closing i g), fun g => stands (.deadline g), fun v g => stands (.lineClose v g),
        fun g => stands (.retirement g), (stands .teachSpan).1⟩
    · rw [reached_elsewhere elsewhere]
      exact mem_spanReached r
  · exact ⟨rfl, rfl, rfl, rfl, rfl, handleOpening_spec i⟩
  · rintro s g lead it he hm rfl items
    exact overlengthReach_eq items he hm

/-- Settles O39: the tick, the ends of an output, the ends of the two drives. -/
theorem timedEnds : Obligations.TimedEnds := by
  unfold Obligations.TimedEnds
  intro s reached output
  have hr : ∀ t, reached t ↔ timeReached t s.now = true := fun t => (timeReached_iff t s.now).symm
  simp only [hr]
  refine ⟨rfl, fun o => ⟨fun e w hx he hg => ?_, fun e w hx he hg => ?_, fun early => ?_, fun e w hx he => ?_,
    fun early => ?_⟩, fun e hd he => ?_, exec_syncDriveEnd_early, fun e hd he => ?_, exec_lineStopDriveEnd_early⟩
  · exact exec_outputOnEnd_eq _ (by rw [endOn_reached hx he, if_pos hg])
  · exact exec_outputOnEnd_eq _ (by rw [endOn_reached hx he, if_neg hg])
  · exact exec_outputOnEnd_early (endOn_early early)
  · exact exec_outputRecoverEnd_eq _ (endRecover_reached hx he)
  · exact exec_outputRecoverEnd_early (endRecover_early early)
  · rw [exec_syncDriveEnd_reached hd he]
    exact congrArg (fun z => Host.Outcome.next { s with zon := z }) (setSync_release s.zon s.now hd)
  · rw [exec_lineStopDriveEnd_reached hd he]
    exact congrArg (fun z => Host.Outcome.next { s with zon := z }) (setLineStop_release s.zon s.now hd)

end Sys2Proof.Position
end

section
/-! SUPPORT and CERTIFICATES. Chapter 2 of the T24, sense inputs and probes: SET_INPUT with its reference checks, the
probe requests, what an acceptance does and who receives its edge, and what a CHECK station and a LINE source do with
one. The rules come first, in the order of the definitions they speak of; the obligations they settle last. -/

namespace Sys2Proof.Sensing

open Sys2Proof.Machine Sys2Proof.Safety Sys2Proof.Laws

/-! ## Tables of inputs -/

/-- R85: a LINE source names its input. -/
theorem namesInput_iff (r : SourceRec) (i : Fin 8) :
    r.namesInput i = true ↔ ∃ (k : Fin 8) (w : BitVec 16) (a b : Fin 16), r = .line i k w a b := by
  cases r with
  | message => simp [SourceRec.namesInput]
  | line input k w a b => simp [SourceRec.namesInput]

/-- R153: a teach is running. -/
theorem teaching_iff (s : State) : teaching s = true ↔ ∃ run, s.tch.state.run = some run :=
  Option.isSome_iff_exists

/-- R20: the input is the target of a running teach. -/
theorem isTeachTarget_iff (s : State) (i : Fin 8) :
    isTeachTarget s i = true ↔ ∃ run, s.tch.state.run = some run ∧ run.target = i := by
  simp [isTeachTarget, Option.any_eq_true]

theorem teachState_run_none (t : TeachState) : t.run = none ↔ t = .idle := by
  cases t <;> simp [TeachState.run]

/-- R21, R22: the conflicts of a new role for an input: a second ENTRY input, a role that a CHECK station or a LINE source
needs, the two changes a running teach forbids. -/
def RoleConflict (s : State) (i : Fin 8) (role : Role) : Prop :=
  (role = .entry ∧ ∃ k : Fin 8, k ≠ i ∧ s.inp.inputs[k].role = .entry) ∨
    (role ≠ .check ∧ ∃ k : Fin 8, s.stn.stations[k].record.kind = .check ∧ s.stn.stations[k].record.sense = i) ∨
    (role ≠ .verdict ∧ ∃ (v : Fin 4) (j : Fin 8) (w : BitVec 16) (x y : Fin 16),
      s.vrd.sources[v].record = .line i j w x y) ∨
    ∃ run, s.tch.state.run = some run ∧
      ((s.inp.inputs[i].role = .entry ∧ role ≠ .entry) ∨ (run.target = i ∧ role = .entry))

theorem roleConflict_iff (s : State) (i : Fin 8) (role : Role) :
    roleConflict s i role = true ↔ RoleConflict s i role := by
  simp only [roleConflict, RoleConflict, Bool.or_eq_true, Bool.and_eq_true, decide_eq_true_eq, List.any_eq_true,
    List.mem_finRange, true_and, namesInput_iff, teaching_iff, isTeachTarget_iff, or_assoc]
  refine or_congr_right (or_congr_right (or_congr_right ⟨?_, ?_⟩))
  · rintro (⟨⟨⟨run, hr⟩, he⟩, hn⟩ | ⟨⟨run, hr, ht⟩, he⟩)
    · exact ⟨run, hr, .inl ⟨he, hn⟩⟩
    · exact ⟨run, hr, .inr ⟨ht, he⟩⟩
  · rintro ⟨run, hr, ⟨he, hn⟩ | ⟨ht, he⟩⟩
    · exact .inl ⟨⟨⟨run, hr⟩, he⟩, hn⟩
    · exact .inr ⟨⟨run, hr, ht⟩, he⟩

/-! ## Requests -/

section Requests

variable {s : State} (tag : Byte) (p : List Byte)

theorem exec_setInput_taken (h : Taken s) : exec (.setInput tag p) s = .next (reqSetInput tag p s) :=
  congrArg _ (takeFrame_taken h)

theorem exec_armProbe_taken (h : Taken s) : exec (.armProbe tag p) s = .next (reqArmProbe tag p s) :=
  congrArg _ (takeFrame_taken h)

theorem exec_disarmProbe_taken (h : Taken s) : exec (.disarmProbe tag p) s = .next (reqDisarmProbe tag p s) :=
  congrArg _ (takeFrame_taken h)

end Requests

/-- R23, R163: one field out of range, and the whole full form is refused. -/
theorem inputOfPayload_none {a b c d : Byte} (h : 8 ≤ a.toNat ∨ 5 ≤ b.toNat ∨ 2 ≤ c.toNat ∨ 5 ≤ d.toNat) :
    inputOfPayload [a, b, c, d] = none := by
  rcases h with h | h | h | h
  · simp [inputOfPayload, asFin_none h]
  · simp [inputOfPayload, role_none h]
  · simp [inputOfPayload, asFlag_none h]
  · simp [inputOfPayload, inputFilter_none h]

theorem inputOfPayload_codes (i : Fin 8) (role : Role) (low : Bool) (f : InputFilter) :
    inputOfPayload [idxByte i, role.code, flagByte low, f.code] = some (i, role, low, f) := by
  simp [inputOfPayload]

/-- R23: the settings of an input in range. -/
theorem inputSettings_idxByte (i : Fin 8) (s : State) :
    inputSettings (idxByte i) s =
      [idxByte i, s.inp.inputs[i].role.code, flagByte s.inp.inputs[i].activeLow, s.inp.inputs[i].filter.code] := by
  simp [inputSettings]

theorem inputSettings_none {b : Byte} (h : 8 ≤ b.toNat) (s : State) : inputSettings b s = [b, 0, 0, 0] := by
  simp [inputSettings, asFin_none h]

/-- R26, R163: one field out of range, and ARM_PROBE is refused. -/
theorem armOfPayload_none {a b c : Byte} (h : 8 ≤ a.toNat ∨ 2 ≤ b.toNat ∨ 3 ≤ c.toNat) :
    armOfPayload [a, b, c] = none := by
  rcases h with h | h | h
  · simp [armOfPayload, asFin_none h]
  · simp [armOfPayload, probeMode_none h]
  · simp [armOfPayload, edgeSel_none h]

/-- Table 2-5: the mode of ARM_PROBE. -/
theorem probeMode_flagByte (every : Bool) :
    ProbeState.ofMode (flagByte every) = some (if every then .armedEvery else .armedOnce) := by
  cases every <;> rfl

theorem armOfPayload_codes (i : Fin 8) (every : Bool) (sel : EdgeSel) :
    armOfPayload [idxByte i, flagByte every, sel.code] =
      some (i, if every then .armedEvery else .armedOnce, sel) := by
  simp [armOfPayload, probeMode_flagByte]

/-- R26, R28: a probe request that is taken sets the probe and answers it. -/
theorem probeReply_modInput (kind tag : Byte) (i : Fin 8) (f : Input → Input) (probe : Probe) (s : State)
    (h : f s.inp.inputs[i] = { s.inp.inputs[i] with probe := probe }) :
    probeReply kind tag i (s.modInput i f) =
      replied kind tag .ok (idxByte i :: probe.bytes)
        { s with inp := { s.inp with inputs := modAt s.inp.inputs i fun x => { x with probe := probe } } } := by
  have hm : modAt s.inp.inputs i f = modAt s.inp.inputs i fun x => { x with probe := probe } :=
    Position.modAt_congr _ _ h
  have hp : (s.modInput i f).inp.inputs[i].probe = probe := by
    simp only [modInput_inp, Fin.getElem_fin, modAt_getElem, if_true]
    rw [Fin.getElem_fin] at h
    rw [h]
  rw [probeReply, hp, answer_eq, State.modInput, State.modInp, hm]

/-! ## Probes -/

/-- R27: a probe is armed for a kind of edge. -/
def ArmedFor (p : Probe) (e : EdgeKind) : Prop :=
  (p.state = .armedOnce ∨ p.state = .armedEvery) ∧
    (p.sel = .both ∨ (p.sel = .leading ∧ e = .leading) ∨ (p.sel = .trailing ∧ e = .trailing))

theorem takes_iff (p : Probe) (e : EdgeKind) : p.takes e = true ↔ ArmedFor p e := by
  obtain ⟨state, sel, count, last⟩ := p
  have names : sel.names e = true ↔ sel = .both ∨ (sel = .leading ∧ e = .leading) ∨ (sel = .trailing ∧ e = .trailing) := by
    cases sel <;> cases e <;> decide
  have acts : state.afterCapture.isSome = true ↔ state = .armedOnce ∨ state = .armedEvery := by
    cases state <;> decide
  rw [Probe.takes, Bool.and_eq_true, names, acts, and_comm]
  rfl

/-- R27: the probe record after an armed probe has captured an edge. -/
def captured (p : Probe) (e : EdgeKind) (position : Pos) (time : Time) : Probe :=
  { p with
    state := if p.state = .armedOnce then .spent else p.state
    count := if p.count = 255 then 255 else p.count + 1
    last := some ⟨e, position, time⟩ }

/-- R27: the capture count stays at 255. -/
theorem satInc8_eq (n : BitVec 8) : satInc8 n = if n = 255 then 255 else n + 1 := by
  unfold satInc8
  by_cases h : n = 255#8
  · subst h
    rfl
  · simp [h]

theorem capture_eq {p : Probe} (h : p.state = .armedOnce ∨ p.state = .armedEvery) (e : EdgeKind) (position : Pos)
    (time : Time) : p.capture e position time = captured p e position time := by
  rcases h with h | h <;> simp [Probe.capture, captured, ProbeState.afterCapture, h, satInc8_eq]

/-- R27: all that a capture does. -/
theorem captureProbe_eq (i : Fin 8) (e : EdgeKind) (s : State)
    (h : s.inp.inputs[i].probe.state = .armedOnce ∨ s.inp.inputs[i].probe.state = .armedEvery) :
    captureProbe i e s =
      offer
        (.probe s.pos.timeBase i e s.pos.position (captured s.inp.inputs[i].probe e s.here s.now).count
          (captured s.inp.inputs[i].probe e s.here s.now).state)
        (s.modInput i fun x => { x with probe := captured s.inp.inputs[i].probe e s.here s.now }) := by
  rw [captureProbe, capture_eq h]
  rfl

/-! ## Acceptances -/

/-- R17: the edge that the acceptance of the raw level gives. -/
def edgeOf (x : Input) : EdgeKind := if x.raw != x.activeLow then .leading else .trailing

/-- R15: an input whose raw level has become its accepted level. -/
def acceptedInput (x : Input) : Input := { x with accepted := x.raw, wait := none }

theorem modInput_congr (i : Fin 8) {f g : Input → Input} (s : State) (h : f s.inp.inputs[i] = g s.inp.inputs[i]) :
    s.modInput i f = s.modInput i g :=
  congrArg (fun v => { s with inp := { s.inp with inputs := v } }) (Position.modAt_congr _ _ h)

/-- Two changes of one input, one after the other. -/
theorem modInput_modInput (i : Fin 8) (f g : Input → Input) (s : State) :
    (s.modInput i f).modInput i g = s.modInput i (g ∘ f) := by
  simp [State.modInput, State.modInp, modAt, Vector.set_set]

section Acceptance

variable {s : State} {i : Fin 8}

theorem modInput_self (f : Input → Input) (s : State) : (s.modInput i f).inp.inputs[i] = f s.inp.inputs[i] := by simp

/-- Log 5: before the wait has run out nothing happens. -/
theorem exec_inputAcceptance_early (h : waitOver s.inp.inputs[i].wait s.pos.timeBase = false) :
    exec (.inputAcceptance i) s = .next s :=
  congrArg Host.Outcome.next (if_neg (Bool.not_eq_true _ ▸ h))

theorem exec_inputAcceptance_ended (h : waitOver s.inp.inputs[i].wait s.pos.timeBase = true) :
    exec (.inputAcceptance i) s = .next (acceptInput i s) :=
  congrArg Host.Outcome.next (if_pos h)

/-- R17: an acceptance that changes no level gives no edge. -/
theorem acceptInput_same (h : s.inp.inputs[i].raw = s.inp.inputs[i].accepted) :
    acceptInput i s = s.modInput i acceptedInput := if_pos h

/-- R17: an acceptance that changes the level gives an edge under the polarity in force. -/
theorem acceptInput_edge (h : s.inp.inputs[i].raw ≠ s.inp.inputs[i].accepted) :
    acceptInput i s = deliverEdge i (edgeOf s.inp.inputs[i]) (s.modInput i acceptedInput) := by
  have active : (s.modInput i acceptedInput).inp.inputs[i].active =
      (s.inp.inputs[i].raw != s.inp.inputs[i].activeLow) := by rw [modInput_self]; rfl
  unfold edgeOf
  rw [← active]
  exact if_neg h

end Acceptance

/-! ## Receivers -/

/-- R19, R20, Table 2-3: a receiver acts on an edge of an input. -/
def ActsOn (s : State) (i : Fin 8) (e : EdgeKind) (r : EdgeReceiver) : Prop :=
  match r with
  | .probe => ArmedFor s.inp.inputs[i].probe e
  | .entryUnit => s.inp.inputs[i].role = .entry
  | .teachEntry => s.inp.inputs[i].role = .entry ∧ e = .leading ∧ s.tch.state ≠ .idle
  | .teachTarget => e = .leading ∧ ∃ run, s.tch.state.run = some run ∧ run.target = i
  | .station k =>
    s.inp.inputs[i].role = .check ∧ e = .leading ∧ Tracks s ∧ s.stn.stations[k].record.kind = .check ∧
      s.stn.stations[k].record.sense = i ∧ s.stn.stations[k].record.mode ≠ .disabled
  | .source v =>
    s.inp.inputs[i].role = .verdict ∧ e = .leading ∧ Tracks s ∧
      ∃ (k : Fin 8) (w : BitVec 16) (a b : Fin 16), s.vrd.sources[v].record = .line i k w a b

theorem teaching_ne_idle (s : State) : teaching s = true ↔ s.tch.state ≠ .idle := by
  rw [ne_eq, ← teachState_run_none]
  exact Option.isSome_iff_ne_none

/-- R65, R72: the stations that act on an edge of a CHECK input. -/
theorem mem_checkReceivers (s : State) (i : Fin 8) (r : EdgeReceiver) :
    r ∈ checkReceivers s i ↔ ∃ k, r = .station k ∧ Tracks s ∧ s.stn.stations[k].record.kind = .check ∧
      s.stn.stations[k].record.sense = i ∧ s.stn.stations[k].record.mode ≠ .disabled := by
  simp only [checkReceivers, List.mem_map, List.mem_filter, List.mem_finRange, true_and, Bool.and_eq_true,
    decide_eq_true_eq, Position.tracks_iff, and_assoc]
  exact exists_congr fun k => by rw [eq_comm (a := r)]; tauto

/-- R98: the sources that act on an edge of a VERDICT input. -/
theorem mem_verdictReceivers (s : State) (i : Fin 8) (r : EdgeReceiver) :
    r ∈ verdictReceivers s i ↔ ∃ v, r = .source v ∧ Tracks s ∧
      ∃ (k : Fin 8) (w : BitVec 16) (a b : Fin 16), s.vrd.sources[v].record = .line i k w a b := by
  simp only [verdictReceivers, List.mem_map, List.mem_filter, List.mem_finRange, true_and, Bool.and_eq_true,
    Position.tracks_iff, namesInput_iff]
  exact exists_congr fun v => by rw [eq_comm (a := r), and_comm]

/-- Table 2-3: the receivers of the input's role, by role and kind of edge. -/
theorem mem_roleReceivers (s : State) (i : Fin 8) (e : EdgeKind) (r : EdgeReceiver) :
    r ∈ roleReceivers s i e ↔ r ≠ .probe ∧ r ≠ .teachTarget ∧ ActsOn s i e r := by
  have teach := teaching_ne_idle s
  unfold roleReceivers
  cases hr : s.inp.inputs[i].role with
  | unused | general => cases r <;> simp [ActsOn, hr, -Fin.getElem_fin]
  | entry =>
    cases e with
    | leading =>
      rw [List.mem_cons, List.mem_ite_nil_right, List.mem_singleton, teach]
      cases r <;> simp [ActsOn, hr, -Fin.getElem_fin]
    | trailing => cases r <;> simp [ActsOn, hr, -Fin.getElem_fin]
  | check =>
    cases e with
    | leading =>
      rw [mem_checkReceivers]
      cases r <;> simp [ActsOn, hr, -Fin.getElem_fin]
    | trailing => cases r <;> simp [ActsOn, hr, -Fin.getElem_fin]
  | verdict =>
    cases e with
    | leading =>
      rw [mem_verdictReceivers]
      cases r <;> simp [ActsOn, hr, -Fin.getElem_fin]
    | trailing => cases r <;> simp [ActsOn, hr, -Fin.getElem_fin]

/-- R19, R20: an edge goes to exactly the receivers that act on it. -/
theorem mem_edgeReceivers (s : State) (i : Fin 8) (e : EdgeKind) (r : EdgeReceiver) :
    r ∈ edgeReceivers s i e ↔ ActsOn s i e r := by
  rw [edgeReceivers, List.mem_append, List.mem_append, List.mem_ite_nil_right, List.mem_ite_nil_right,
    List.mem_singleton, List.mem_singleton, takes_iff, mem_roleReceivers, Bool.and_eq_true, decide_eq_true_eq,
    isTeachTarget_iff]
  cases r <;> simp [ActsOn]

/-- R19, R20: the receivers of an edge take it each once, in some order (log 12). -/
theorem deliverEdge_order (s : State) (i : Fin 8) (e : EdgeKind) :
    ∃ order : List (EdgeReceiver × Nat),
      (order.map Prod.fst).Nodup ∧ (∀ r, r ∈ order.map Prod.fst ↔ ActsOn s i e r) ∧
        (order.length ≤ 1 → ∀ r ∈ order, r.2 = s.choice) ∧
        deliverEdge i e s = order.foldl (fun t r => receiveEdge i e r.1 { t with choice := r.2 }) s := by
  obtain ⟨order, perm, single, delivered⟩ := inFreeOrder_eq (receiveEdge i e) _ (edgeReceivers s i e) s (Nat.le_refl _)
  exact ⟨order, perm.nodup_iff.2 (edgeReceivers_nodup s i e), fun r => perm.mem_iff.trans (mem_edgeReceivers s i e r),
    single, delivered⟩

/-- R19: an edge whose only possible receiver is the probe. -/
theorem deliverEdge_probe {s : State} {i : Fin 8} (e : EdgeKind) (h : ∀ r, ActsOn s i e r → r = .probe) :
    (¬ArmedFor s.inp.inputs[i].probe e → deliverEdge i e s = s) ∧
      (ArmedFor s.inp.inputs[i].probe e → deliverEdge i e s = captureProbe i e s) := by
  refine ⟨fun idle => ?_, fun armed => ?_⟩
  · have none : edgeReceivers s i e = [] := List.eq_nil_iff_forall_not_mem.2 fun r hr => by
      have acts := (mem_edgeReceivers s i e r).1 hr
      rw [h r acts] at acts
      exact idle acts
    rw [deliverEdge, none]
    rfl
  · have one : edgeReceivers s i e = [.probe] := List.perm_singleton.1
      ((List.perm_ext_iff_of_nodup (edgeReceivers_nodup s i e) (List.nodup_singleton _)).2 fun r => by
        rw [mem_edgeReceivers, List.mem_singleton]
        exact ⟨h r, fun e => e ▸ armed⟩)
    rw [deliverEdge, one]
    rfl

/-- The receivers of an edge are those before the acceptance: it moves a level and ends a wait. -/
theorem actsOn_accepted (s : State) (i : Fin 8) (e : EdgeKind) (r : EdgeReceiver) :
    ActsOn (s.modInput i acceptedInput) i e r ↔ ActsOn s i e r := by
  cases r <;> simp only [ActsOn, modInput_self] <;> rfl

/-- Table 2-3: on an UNUSED or GENERAL input that is no teach target only the probe can act. -/
theorem actsOn_probe_alone {s : State} {i : Fin 8} (hr : s.inp.inputs[i].role = .unused ∨ s.inp.inputs[i].role = .general)
    (ht : ∀ run, s.tch.state.run = some run → run.target ≠ i) (e : EdgeKind) (r : EdgeReceiver) (h : ActsOn s i e r) :
    r = .probe := by
  have roles : s.inp.inputs[i].role ≠ .entry ∧ s.inp.inputs[i].role ≠ .check ∧ s.inp.inputs[i].role ≠ .verdict := by
    rcases hr with hr | hr <;> rw [hr] <;> decide
  obtain ⟨entry, check, verdict⟩ := roles
  cases r with
  | probe => rfl
  | entryUnit => exact absurd h entry
  | teachEntry => exact absurd h.1 entry
  | teachTarget =>
    obtain ⟨-, run, hrun, target⟩ := h
    exact absurd target (ht run hrun)
  | station k => exact absurd h.1 check
  | source v => exact absurd h.1 verdict

section ProbeAlone

variable {s : State} {i : Fin 8}

/-- R17, R19: the acceptance on an input whose edge no receiver but the probe can act on. -/
theorem deliverEdge_alone (hr : s.inp.inputs[i].role = .unused ∨ s.inp.inputs[i].role = .general)
    (ht : ∀ run, s.tch.state.run = some run → run.target ≠ i) (e : EdgeKind) :
    (¬ArmedFor s.inp.inputs[i].probe e →
        deliverEdge i e (s.modInput i acceptedInput) = s.modInput i acceptedInput) ∧
      (ArmedFor s.inp.inputs[i].probe e →
        deliverEdge i e (s.modInput i acceptedInput) = captureProbe i e (s.modInput i acceptedInput)) := by
  have alone := deliverEdge_probe (s := s.modInput i acceptedInput) e fun r h =>
    actsOn_probe_alone hr ht e r ((actsOn_accepted s i e r).1 h)
  rwa [modInput_self] at alone

theorem exec_inputAcceptance_unprobed (ended : waitOver s.inp.inputs[i].wait s.pos.timeBase = true)
    (moved : s.inp.inputs[i].raw ≠ s.inp.inputs[i].accepted)
    (hr : s.inp.inputs[i].role = .unused ∨ s.inp.inputs[i].role = .general)
    (ht : ∀ run, s.tch.state.run = some run → run.target ≠ i)
    (idle : ¬ArmedFor s.inp.inputs[i].probe (edgeOf s.inp.inputs[i])) :
    exec (.inputAcceptance i) s = .next (s.modInput i fun _ => acceptedInput s.inp.inputs[i]) := by
  rw [exec_inputAcceptance_ended ended, acceptInput_edge moved, (deliverEdge_alone hr ht _).1 idle]
  exact congrArg _ (modInput_congr i s rfl)

theorem exec_inputAcceptance_captured (ended : waitOver s.inp.inputs[i].wait s.pos.timeBase = true)
    (moved : s.inp.inputs[i].raw ≠ s.inp.inputs[i].accepted)
    (hr : s.inp.inputs[i].role = .unused ∨ s.inp.inputs[i].role = .general)
    (ht : ∀ run, s.tch.state.run = some run → run.target ≠ i)
    (armed : ArmedFor s.inp.inputs[i].probe (edgeOf s.inp.inputs[i])) :
    let probe := captured s.inp.inputs[i].probe (edgeOf s.inp.inputs[i]) s.here s.now
    exec (.inputAcceptance i) s =
      .next
        (offer (.probe s.pos.timeBase i (edgeOf s.inp.inputs[i]) s.pos.position probe.count probe.state)
          (s.modInput i fun _ => { acceptedInput s.inp.inputs[i] with probe := probe })) := by
  intro probe
  rw [exec_inputAcceptance_ended ended, acceptInput_edge moved, (deliverEdge_alone hr ht _).2 armed,
    captureProbe_eq i _ _ (by rw [modInput_self]; exact armed.1), modInput_modInput, modInput_self]
  exact congrArg (fun u => Host.Outcome.next (offer _ u)) (modInput_congr i s rfl)

end ProbeAlone

/-! ## Windows -/

section Windows

variable {α : Type} (waits : α → Bool) (key : α → Tag)

/-- The oldest window still waiting for an edge. -/
theorem find?_oldest {older newer : List α} {w : α} (ho : ∀ y ∈ older, waits y = false) (hw : waits w = true) :
    (older ++ w :: newer).find? waits = some w := by
  rw [List.find?_append, List.find?_eq_none.2 fun y hy => by simp [ho y hy], Option.none_or, List.find?_cons_of_pos hw]

/-- Changing the window of a tag changes the one window that carries it. -/
theorem map_window {older newer : List α} {w : α} (f : α → α) (unique : ∀ y ∈ older ++ newer, key y ≠ key w) :
    ((older ++ w :: newer).map fun x => if key x = key w then f x else x) = older ++ f w :: newer := by
  have others : ∀ l : List α, (∀ y ∈ l, key y ≠ key w) → (l.map fun x => if key x = key w then f x else x) = l :=
    fun l hl => (List.map_congr_left fun y hy => if_neg (hl y hy)).trans (List.map_id l)
  rw [List.map_append, List.map_cons, if_pos rfl, others older fun y hy => unique y (List.mem_append_left _ hy),
    others newer fun y hy => unique y (List.mem_append_right _ hy)]

end Windows

theorem modStation_congr (k : Fin 8) {f g : Station → Station} (s : State)
    (h : f s.stn.stations[k] = g s.stn.stations[k]) : s.modStation k f = s.modStation k g :=
  congrArg (fun v => { s with stn := { s.stn with stations := v } }) (Position.modAt_congr _ _ h)

theorem modSource_congr (v : Fin 4) {f g : Source → Source} (s : State)
    (h : f s.vrd.sources[v] = g s.vrd.sources[v]) : s.modSource v f = s.modSource v g :=
  congrArg (fun u => { s with vrd := { s.vrd with sources := u } }) (Position.modAt_congr _ _ h)

/-! ## Edges at a CHECK station -/

section CheckEdge

variable {s : State} {k : Fin 8}

/-- R65, R72: outside TRACKING, HOLD and FAULT, and at a DISABLED station, an edge is ignored. -/
theorem checkEdge_ignored (h : ¬Tracks s ∨ s.stn.stations[k].record.mode = .disabled) : checkEdge k s = s := by
  refine if_neg ?_
  rw [Bool.and_eq_true, Position.tracks_iff, decide_eq_true_eq]
  rintro ⟨ht, hm⟩
  exact h.elim (fun hn => hn ht) hm

theorem checkEdge_active (ht : Tracks s) (hm : s.stn.stations[k].record.mode ≠ .disabled) :
    checkEdge k s =
      match s.stn.stations[k].windows.find? fun w => !w.confirmed with
      | none => offer (.stray s.now (.station k) s.here) s
      | some w => confirmWindow k w s :=
  if_pos (by rw [Bool.and_eq_true, Position.tracks_iff, decide_eq_true_eq]; exact ⟨ht, hm⟩)

/-- R72: with no window waiting the edge is STRAY. -/
theorem checkEdge_stray (ht : Tracks s) (hm : s.stn.stations[k].record.mode ≠ .disabled)
    (hw : ∀ w ∈ s.stn.stations[k].windows, w.confirmed = true) :
    checkEdge k s = offer (.stray s.pos.timeBase (.station k) s.pos.position) s := by
  rw [checkEdge_active ht hm, List.find?_eq_none.2 fun w h => by simp [hw w h]]
  rfl

/-- R73: the state in which a station's windows are `ws`. -/
def withWindows (k : Fin 8) (ws : List CheckWindow) (s : State) : State :=
  s.modStation k fun st => { st with windows := ws }

/-- R74: a confirmed window asks for a correction of its item. -/
def Anchors (s : State) (k : Fin 8) (w : CheckWindow) : Prop :=
  w.mode = .active ∧ s.stn.stations[k].record.anchor = true ∧
    ahead (w.closePos - s.stn.stations[k].record.tolerance.setWidth 32
      - s.stn.stations[k].record.tolerance.setWidth 32) s.pos.position = false

variable {older newer : List CheckWindow} {w : CheckWindow} {it : Item}

/-- R73: what the confirmation of a window does for an item of the track. -/
theorem confirmWindow_eq (items : ItemsOk s) (hw : s.stn.stations[k].windows = older ++ w :: newer)
    (unique : ∀ y ∈ older ++ newer, y.tag ≠ w.tag) (hm : it ∈ s.trk.track) (ht : it.tag = w.tag) :
    let marked := withWindows k (older ++ { w with confirmed := true } :: newer) s
    let confirmed := replaceItem (it.record k .confirmed) marked
    (it.snapshot.hasMember k = false → confirmWindow k w s = marked) ∧
      (it.snapshot.hasMember k = true → ¬Anchors s k w → confirmWindow k w s = confirmed) ∧
      (it.snapshot.hasMember k = true → Anchors s k w →
        confirmWindow k w s =
          requestCorrection w.tag
            (s.pos.position - (w.closePos - s.stn.stations[k].record.tolerance.setWidth 32)).toInt confirmed) := by
  intro marked confirmed
  have mark : (s.modStation k fun st =>
      { st with windows := st.windows.map fun x => if x.tag = w.tag then { x with confirmed := true } else x }) =
        marked := by
    refine modStation_congr k s ?_
    rw [hw, map_window CheckWindow.tag (fun x => { x with confirmed := true }) unique]
  have record : marked.modItem w.tag (fun x => x.record k .confirmed) = confirmed := by
    rw [← ht]
    exact Position.modItem_eq_replaceItem (s := marked) items hm _ rfl
  have anchors : (w.mode = .active && s.stn.stations[k].record.anchor
      && !ahead (w.closePos - s.stn.stations[k].record.tolerance.setWidth 32
        - s.stn.stations[k].record.tolerance.setWidth 32) s.here) = true ↔ Anchors s k w := by
    simp only [Anchors, Bool.and_eq_true, decide_eq_true_eq, Bool.not_eq_true', and_assoc]
    rfl
  have found : s.findItem w.tag = some it := ht ▸ findItem_eq items hm
  unfold confirmWindow
  simp only [mark, record, found]
  refine ⟨fun out => ?_, fun member none => ?_, fun member anchor => ?_⟩
  · rw [if_neg (by simp [out])]
  · rw [if_pos member, if_neg (mt anchors.1 none)]
  · rw [if_pos member, if_pos (anchors.2 anchor)]
    rfl

end CheckEdge

/-! ## Edges at a LINE source -/

section LineEdge

variable {s : State} {v : Fin 4}

/-- R98: outside TRACKING, HOLD and FAULT an edge is ignored. -/
theorem lineEdge_ignored (h : ¬Tracks s) : lineEdge v s = s :=
  if_neg (by rwa [Position.tracks_iff])

theorem lineEdge_active (ht : Tracks s) :
    lineEdge v s =
      match s.vrd.sources[v].windows.find? fun w => !w.edgeSeen with
      | none => offer (.stray s.now (.source v) s.here) s
      | some w =>
        s.modSource v fun src =>
          { src with windows := src.windows.map fun x => if x.tag = w.tag then { x with edgeSeen := true } else x } :=
  if_pos ((Position.tracks_iff s).2 ht)

/-- R98: with no window waiting the edge is STRAY. -/
theorem lineEdge_stray (ht : Tracks s) (hw : ∀ w ∈ s.vrd.sources[v].windows, w.edgeSeen = true) :
    lineEdge v s = offer (.stray s.pos.timeBase (.source v) s.pos.position) s := by
  rw [lineEdge_active ht, List.find?_eq_none.2 fun w h => by simp [hw w h]]
  rfl

/-- R98: the oldest window still waiting sees the edge. -/
theorem lineEdge_seen (ht : Tracks s) {older newer : List LineWindow} {w : LineWindow}
    (hw : s.vrd.sources[v].windows = older ++ w :: newer) (seen : ∀ y ∈ older, y.edgeSeen = true)
    (waits : w.edgeSeen = false) (unique : ∀ y ∈ older ++ newer, y.tag ≠ w.tag) :
    lineEdge v s = s.modSource v fun src => { src with windows := older ++ { w with edgeSeen := true } :: newer } := by
  rw [lineEdge_active ht, hw, find?_oldest _ (fun y hy => by simp [seen y hy]) (by simp [waits])]
  refine modSource_congr v s ?_
  rw [hw, map_window LineWindow.tag (fun x => { x with edgeSeen := true }) unique]

end LineEdge

/-! ## The obligations -/

/-- Settles O13: the query form, then the refusals in the order of the checks, then the two ends of a full form. -/
theorem setInputResult : Obligations.SetInputResult := by
  unfold Obligations.SetInputResult
  intro tag p s taken refused
  simp only [refused, exec_setInput_taken tag p taken, reqSetInput]
  refine ⟨fun i hp => ?_, fun b hp range => ?_, fun h1 h4 => ?_, fun h4 hz => ?_, fun a b c d hp hz range => ?_,
    fun i role low f hp hz => ⟨fun conflict => ?_, fun free => ?_⟩⟩
  · subst hp
    rw [if_pos (by simp), byteAt_zero, asFin_idxByte_8, inputSettings_idxByte]
    rfl
  · subst hp
    rw [if_pos (by simp), byteAt_zero, asFin_none range, inputSettings_none range]
    rfl
  · rw [if_neg h1, if_pos h4]
    rfl
  · rw [if_neg (by omega), if_neg (not_not.2 h4), if_pos hz]
    rfl
  · subst hp
    rw [if_neg (by simp), if_neg (by simp), if_neg (not_not.2 hz), inputOfPayload_none range]
    rfl
  · subst hp
    rw [if_neg (by simp), if_neg (by simp), if_neg (not_not.2 hz), inputOfPayload_codes]
    dsimp only
    rw [if_pos ((roleConflict_iff s i role).2 conflict)]
    rfl
  · subst hp
    rw [if_neg (by simp), if_neg (by simp), if_neg (not_not.2 hz), inputOfPayload_codes]
    dsimp only
    rw [if_neg (mt (roleConflict_iff s i role).1 free), byteAt_zero, inputSettings_idxByte]
    simp only [modInput_inp, Fin.getElem_fin, modAt_getElem, if_true]
    rfl

/-- Settles O14: the refusals and the taken form of each of the two requests. -/
theorem probeRequests : Obligations.ProbeRequests := by
  unfold Obligations.ProbeRequests
  intro tag p s taken
  simp only [exec_armProbe_taken tag p taken, exec_disarmProbe_taken tag p taken, reqArmProbe, reqDisarmProbe]
  refine ⟨fun hlen => ?_, fun a b c hp range => ?_, fun i every sel hp => ?_, fun hlen => ?_, fun b hp range => ?_,
    fun i hp => ?_⟩
  · rw [if_pos hlen]
    rfl
  · subst hp
    rw [if_neg (by simp), armOfPayload_none range]
    rfl
  · subst hp
    rw [if_neg (by simp), armOfPayload_codes]
    exact congrArg _ (probeReply_modInput _ _ _ _ _ _ rfl)
  · rw [if_pos hlen]
    rfl
  · subst hp
    rw [if_neg (by simp), byteAt_zero, asFin_none range]
    rfl
  · subst hp
    rw [if_neg (by simp), byteAt_zero, asFin_idxByte_8]
    exact congrArg _ (probeReply_modInput _ _ _ _ _ _ rfl)

/-- Settles O16: the probe alone, then every receiver, then what each does. -/
theorem inputAcceptanceResult : Obligations.InputAcceptanceResult := by
  unfold Obligations.InputAcceptanceResult
  refine ⟨fun s i => ?_, fun s i => ?_, fun t i edge => ?_⟩
  · exact ⟨exec_inputAcceptance_early, fun ended moved role target =>
      ⟨exec_inputAcceptance_unprobed ended moved role target, exec_inputAcceptance_captured ended moved role target⟩⟩
  · intro x edge s1 acts
    refine ⟨exec_inputAcceptance_early, fun ended same => ?_, fun ended moved => ?_⟩
    · rw [exec_inputAcceptance_ended ended, acceptInput_same same]
      rfl
    · have receivers : ∀ r, acts r ↔ ActsOn (s.modInput i acceptedInput) i edge r := fun r =>
        Iff.trans (by cases r <;> exact Iff.rfl) (actsOn_accepted s i edge r).symm
      obtain ⟨order, nodup, mem, single, delivered⟩ := deliverEdge_order (s.modInput i acceptedInput) i edge
      refine ⟨order, nodup, fun r => (mem r).trans (receivers r).symm, single, ?_⟩
      rw [exec_inputAcceptance_ended ended, acceptInput_edge moved]
      exact congrArg _ delivered
  · exact ⟨captureProbe_eq i edge t, rfl, rfl, rfl, rfl, fun _ => rfl, fun _ => rfl⟩

/-- Settles O18: the station, then the source: ignored, STRAY, or taken by the oldest window still waiting. -/
theorem checkpointAndSourceEdges : Obligations.CheckpointAndSourceEdges := by
  unfold Obligations.CheckpointAndSourceEdges
  refine ⟨fun s k items => ?_, fun s v => ?_⟩
  · refine ⟨checkEdge_ignored, checkEdge_stray, ?_⟩
    intro ht hm older w newer hw confirmed waits unique it hit tag
    have taken : checkEdge k s = confirmWindow k w s := by
      rw [checkEdge_active ht hm, hw, find?_oldest _ (fun y hy => by simp [confirmed y hy]) (by simp [waits])]
    rw [taken]
    exact confirmWindow_eq items hw unique hit tag
  · refine ⟨lineEdge_ignored, lineEdge_stray, ?_⟩
    intro ht older w newer hw seen waits unique
    exact lineEdge_seen ht hw seen waits unique

end Sys2Proof.Sensing
end

section
/-! SUPPORT and CERTIFICATES. The configuration of the T24: what it is made of, the commands that change it under their
checks, and that every other step leaves it alone. -/

namespace Sys2Proof.Configuration

open Sys2Proof.Machine Sys2Proof.Safety Sys2Proof.Laws Sys2Proof.Sensing

/-! ## What the configuration is made of -/

/-- The configuration of `t` is that of `s`: roles, station and source records, zone parameters and stop width; and a
teach that runs in `t` goes on with the target it had. -/
structure SameConfig (s t : State) : Prop where
  roles : ∀ i : Fin 8, t.inp.inputs[i].role = s.inp.inputs[i].role
  stations : ∀ i : Fin 8, t.stn.stations[i].record = s.stn.stations[i].record
  sources : ∀ v : Fin 4, t.vrd.sources[v].record = s.vrd.sources[v].record
  params : t.trk.params = s.trk.params
  stopWidth : t.zon.stopWidth = s.zon.stopWidth
  teach : ∀ run, t.tch.state.run = some run → ∃ run', s.tch.state.run = some run' ∧ run.target = run'.target

theorem SameConfig.trans {s t u : State} (h : SameConfig s t) (k : SameConfig t u) : SameConfig s u where
  roles i := (k.roles i).trans (h.roles i)
  stations i := (k.stations i).trans (h.stations i)
  sources v := (k.sources v).trans (h.sources v)
  params := k.params.trans h.params
  stopWidth := k.stopWidth.trans h.stopWidth
  teach run hr := by
    obtain ⟨r1, h1, e1⟩ := k.teach run hr
    obtain ⟨r2, h2, e2⟩ := h.teach r1 h1
    exact ⟨r2, h2, e1.trans e2⟩

/-- A step that leaves the units that hold the configuration alone. -/
theorem SameConfig.of_units {s t : State} (inp : t.inp = s.inp) (stn : t.stn = s.stn) (vrd : t.vrd = s.vrd)
    (params : t.trk.params = s.trk.params) (stopWidth : t.zon.stopWidth = s.zon.stopWidth) (tch : t.tch = s.tch) :
    SameConfig s t :=
  ⟨fun i => by rw [inp], fun i => by rw [stn], fun v => by rw [vrd], params, stopWidth,
    fun run h => ⟨run, by rw [← tch]; exact h, rfl⟩⟩

theorem SameConfig.refl (s : State) : SameConfig s s := .of_units rfl rfl rfl rfl rfl rfl

/-- Work on items, with what it may do to a running teach, leaves the configuration alone. -/
theorem sameConfig_of_event {s t : State} (h : EventWork s t) : SameConfig s t where
  roles i := by rw [h.inp]
  stations := h.work.stationRecords
  sources := h.work.sourceRecords
  params := h.work.params
  stopWidth := by rw [h.work.zon]
  teach := h.teach

theorem sameConfig_of_work {s t : State} (h : ItemWork s t) : SameConfig s t := sameConfig_of_event h.event

/-- R58: what station validation asks of a record. -/
theorem stationValid_iff (s : State) (i : Fin 8) (r : StationRec) :
    stationValid s i r = true ↔
      zoneFits s.trk.params r = true ∧ (r.kind = .check → s.inp.inputs[r.sense].role = .check) ∧
        ∀ v : Fin 4, suitsSource s.trk.params i r s.vrd.sources[v].record = true := by
  simp only [stationValid, Bool.and_eq_true, Bool.or_eq_true, decide_eq_true_eq, List.all_eq_true, List.mem_finRange,
    forall_const, and_assoc, ← imp_iff_not_or, ne_eq]

/-- R86: what source validation asks of a LINE record. -/
theorem sourceValid_line (s : State) (input trigger : Fin 8) (window : BitVec 16) (a b : Fin 16) :
    sourceValid s (.line input trigger window a b) = true ↔
      s.inp.inputs[input].role = .verdict ∧ s.stn.stations[trigger].record.kind = .trigger ∧
        windowFits s.trk.params s.stn.stations[trigger].record.offset window = true := by
  simp only [sourceValid, Bool.and_eq_true, decide_eq_true_eq, and_assoc]

/-- R58, condition 5. -/
theorem suitsSource_line (z : ZoneParams) (i : Fin 8) (r : StationRec) (input trigger : Fin 8) (window : BitVec 16)
    (a b : Fin 16) :
    suitsSource z i r (.line input trigger window a b) = true ↔
      (trigger = i → r.kind = .trigger ∧ windowFits z r.offset window = true) := by
  unfold suitsSource
  by_cases h : trigger = i <;> simp [h]

theorem SameConfig.stationValid {s t : State} (h : SameConfig s t) (i : Fin 8) (r : StationRec) :
    stationValid t i r = stationValid s i r := by
  rw [Bool.eq_iff_iff, stationValid_iff, stationValid_iff, h.params, h.roles]
  simp only [h.sources]

theorem SameConfig.sourceValid {s t : State} (h : SameConfig s t) (r : SourceRec) : sourceValid t r = sourceValid s r := by
  cases r with
  | message => rfl
  | line input trigger window a b =>
    rw [Bool.eq_iff_iff, sourceValid_line, sourceValid_line, h.params, h.roles, h.stations]

/-- A step that leaves the configuration alone keeps it valid. -/
theorem SameConfig.keeps {s t : State} (h : SameConfig s t) (hs : ConfigInv s) : ConfigInv t := by
  obtain ⟨oneEntry, stations, sources, params, width, teach⟩ := hs
  refine ⟨fun i j => ?_, fun i => ?_, fun v => ?_, ?_, ?_, fun run hr => ?_⟩
  · rw [h.roles, h.roles]
    exact oneEntry i j
  · rw [h.stations, h.stationValid]
    exact stations i
  · rw [h.sources, h.sourceValid]
    exact sources v
  · rwa [h.params]
  · rwa [h.stopWidth]
  · obtain ⟨run', hr', target⟩ := h.teach run hr
    obtain ⟨⟨i, hi⟩, notTarget⟩ := teach run' hr'
    exact ⟨⟨i, by rwa [h.roles]⟩, by rwa [h.roles, target]⟩

/-! ## The changes of the configuration -/

/-- R21, R22, R23: an input takes a role that conflicts with nothing. -/
theorem modInput_config (i : Fin 8) (f : Input → Input) {s : State} (h : ConfigInv s)
    (free : ¬RoleConflict s i (f s.inp.inputs[i]).role) : ConfigInv (s.modInput i f) := by
  obtain ⟨oneEntry, stations, sources, params, width, teach⟩ := h
  simp only [RoleConflict, not_or, not_and, not_exists, ne_eq, not_not] at free
  obtain ⟨entry, check, verdict, teaches⟩ := free
  have role : ∀ k : Fin 8, (s.modInput i f).inp.inputs[k].role =
      if k = i then (f s.inp.inputs[i]).role else s.inp.inputs[k].role := fun k => by
    by_cases hk : k = i
    · subst hk; simp
    · simp [Fin.val_ne_of_ne (Ne.symm hk), hk]
  refine ⟨fun j k hj hk => ?_, fun k => ⟨(stations k).1, ?_⟩, fun v => ?_, params, width, fun run hr => ?_⟩
  · rw [role] at hj hk
    split at hj <;> split at hk
    · simp_all
    · exact absurd hk (entry hj k ‹_›)
    · exact absurd hj (entry hk j ‹_›)
    · exact oneEntry j k hj hk
  · obtain ⟨fits, sense, suits⟩ := (stationValid_iff _ _ _).1 (stations k).2
    refine (stationValid_iff _ _ _).2 ⟨fits, fun hk => ?_, suits⟩
    rw [role]
    split
    · rename_i e
      by_contra hn
      exact check hn k hk e
    · exact sense hk
  · have valid := sources v
    change sourceValid (s.modInput i f) s.vrd.sources[v].record = true
    cases hr : s.vrd.sources[v].record with
    | message => rfl
    | line input trigger window a b =>
      rw [hr, sourceValid_line] at valid
      refine (sourceValid_line _ _ _ _ _ _).2 ⟨?_, valid.2⟩
      rw [role]
      split
      · rename_i e
        subst e
        by_contra hn
        exact verdict hn v trigger window a b hr
      · exact valid.1
  · obtain ⟨⟨k, hk⟩, target⟩ := teach run hr
    obtain ⟨entryKept, targetFree⟩ := teaches run hr
    refine ⟨⟨k, ?_⟩, ?_⟩
    · rw [role]
      split
      · rename_i e
        subst e
        exact entryKept hk
      · exact hk
    · rw [role]
      split
      · exact targetFree ‹_›
      · exact target

/-- R57, R58: a station takes a record that passes both checks. -/
theorem modStation_config (i : Fin 8) (f : Station → Station) {s : State} (h : ConfigInv s)
    (hv : (f s.stn.stations[i]).record.valueOk = true) (hs : stationValid s i (f s.stn.stations[i]).record = true) :
    ConfigInv (s.modStation i f) := by
  obtain ⟨oneEntry, stations, sources, rest⟩ := h
  have record : ∀ k : Fin 8, (s.modStation i f).stn.stations[k].record =
      if k = i then (f s.stn.stations[i]).record else s.stn.stations[k].record := fun k => by
    by_cases hk : k = i
    · subst hk; simp
    · simp [Fin.val_ne_of_ne (Ne.symm hk), hk]
  refine ⟨oneEntry, fun k => ?_, fun v => ?_, rest⟩
  · rw [record]
    split
    · rename_i e
      subst e
      exact ⟨hv, hs⟩
    · exact stations k
  · have valid := sources v
    have suits := ((stationValid_iff _ _ _).1 hs).2.2 v
    change sourceValid (s.modStation i f) s.vrd.sources[v].record = true
    cases hr : s.vrd.sources[v].record with
    | message => rfl
    | line input trigger window a b =>
      rw [hr, sourceValid_line] at valid
      rw [hr, suitsSource_line] at suits
      refine (sourceValid_line _ _ _ _ _ _).2 ⟨valid.1, ?_⟩
      rw [record]
      split
      · exact suits ‹_›
      · exact valid.2

/-- R86: a source takes a record that is valid against the configuration. -/
theorem modSource_config (v : Fin 4) (f : Source → Source) {s : State} (h : ConfigInv s)
    (hs : sourceValid s (f s.vrd.sources[v]).record = true) : ConfigInv (s.modSource v f) := by
  obtain ⟨oneEntry, stations, sources, rest⟩ := h
  have record : ∀ k : Fin 4, (s.modSource v f).vrd.sources[k].record =
      if k = v then (f s.vrd.sources[v]).record else s.vrd.sources[k].record := fun k => by
    by_cases hk : k = v
    · subst hk; simp
    · simp [Fin.val_ne_of_ne (Ne.symm hk), hk]
  refine ⟨oneEntry, fun i => ⟨(stations i).1, ?_⟩, fun k => ?_, rest⟩
  · obtain ⟨fits, sense, suits⟩ := (stationValid_iff _ _ _).1 (stations i).2
    refine (stationValid_iff _ _ _).2 ⟨fits, sense, fun k => ?_⟩
    rw [record]
    split
    · cases hr : (f s.vrd.sources[v]).record with
      | message => rfl
      | line input trigger window a b =>
        rw [hr, sourceValid_line] at hs
        refine (suitsSource_line _ _ _ _ _ _ _ _).2 ?_
        rintro rfl
        exact hs.2
    · exact suits k
  · rw [record]
    split
    · exact hs
    · exact sources k

/-- R52: what zone validation asks. -/
theorem zoneValid_iff (s : State) (z : ZoneParams) :
    zoneValid s z = true ↔ (∀ i : Fin 8, zoneFits z s.stn.stations[i].record = true) ∧
      ∀ v : Fin 4, sourceFits s z s.vrd.sources[v].record = true := by
  simp [zoneValid]

/-- R52: the zone takes parameters under which every station and every LINE source remains valid. -/
theorem setParams_config (z : ZoneParams) {s : State} (h : ConfigInv s) (hz : ParamsOk z) (hv : zoneValid s z = true) :
    ConfigInv (s.modTrk fun t => { t with params := z }) := by
  obtain ⟨oneEntry, stations, sources, -, rest⟩ := h
  obtain ⟨zoneStations, zoneSources⟩ := (zoneValid_iff _ _).1 hv
  refine ⟨oneEntry, fun i => ⟨(stations i).1, ?_⟩, fun v => ?_, hz, rest⟩
  · obtain ⟨-, sense, suits⟩ := (stationValid_iff _ _ _).1 (stations i).2
    refine (stationValid_iff _ _ _).2 ⟨zoneStations i, sense, fun v => ?_⟩
    have suit := suits v
    have fits := zoneSources v
    change suitsSource z i s.stn.stations[i].record s.vrd.sources[v].record = true
    cases hr : s.vrd.sources[v].record with
    | message => rfl
    | line input trigger window a b =>
      rw [hr, suitsSource_line] at suit
      rw [hr] at fits
      refine (suitsSource_line _ _ _ _ _ _ _ _).2 ?_
      rintro rfl
      exact ⟨(suit rfl).1, fits⟩
  · have valid := sources v
    have fits := zoneSources v
    change sourceValid (s.modTrk fun t => { t with params := z }) s.vrd.sources[v].record = true
    cases hr : s.vrd.sources[v].record with
    | message => rfl
    | line input trigger window a b =>
      rw [hr, sourceValid_line] at valid
      rw [hr] at fits
      exact (sourceValid_line _ _ _ _ _ _).2 ⟨valid.1, valid.2.1, fits⟩

/-- R120: the line settings change, the stop width in its range. -/
theorem modZon_config (f : ZonUnit → ZonUnit) {s : State} (h : ConfigInv s)
    (hw : 1 ≤ (f s.zon).stopWidth.toNat ∧ (f s.zon).stopWidth.toNat ≤ 250) : ConfigInv (s.modZon f) := by
  obtain ⟨oneEntry, stations, sources, params, -, teach⟩ := h
  exact ⟨oneEntry, stations, sources, params, hw, teach⟩

/-- R154: a teach starts with an ENTRY input that is not its target. -/
theorem setTeach_config (t : TeachState) {s : State} (h : ConfigInv s)
    (ht : ∀ run, t.run = some run →
      (∃ i : Fin 8, s.inp.inputs[i].role = .entry) ∧ s.inp.inputs[run.target].role ≠ .entry) :
    ConfigInv (setTeach t s) := by
  obtain ⟨oneEntry, stations, sources, params, width, -⟩ := h
  exact ⟨oneEntry, stations, sources, params, width, ht⟩

/-- Table 4-12, R152: after a device reset nothing is configured. -/
theorem atReset_config (p : PinLevels) : ConfigInv (State.atReset p) := by
  have role : ∀ i : Fin 8, (State.atReset p).inp.inputs[i].role = .unused := fun i => by
    simp [State.atReset, Input.atReset]
  have station : ∀ i : Fin 8, (State.atReset p).stn.stations[i].record = .none := fun i => by simp [State.atReset]
  have source : ∀ v : Fin 4, (State.atReset p).vrd.sources[v].record = .message := fun v => by simp [State.atReset]
  refine ⟨fun i j hi => ?_, fun i => ?_, fun v => ?_, ?_, ?_, fun run hr => ?_⟩
  · rw [role] at hi
    cases hi
  · rw [station]
    refine ⟨by decide, (stationValid_iff _ _ _).2 ⟨rfl, fun hk => ?_, fun v => ?_⟩⟩
    · cases hk
    · rw [source]
      rfl
  · rw [source]
    rfl
  · change ParamsOk ⟨10, 10000, 100000, 0, 100, 0⟩
    unfold ParamsOk
    decide
  · change 1 ≤ (20 : BitVec 8).toNat ∧ (20 : BitVec 8).toNat ≤ 250
    decide
  · cases hr

/-- R152: a device reset leaves a valid configuration, whatever came before. -/
theorem deviceReset_config (p : PinLevels) (s : State) : ConfigInv (deviceReset p s) :=
  SameConfig.keeps (.of_units rfl rfl rfl rfl rfl rfl) (atReset_config p)

/-! ## Operands that have passed their checks -/

/-- R57: a station record that is read has passed the value check. -/
theorem stationOfBytes_valueOk {p : List Byte} {k : Nat} {i : Fin 8} {r : StationRec}
    (h : stationOfBytes p k = some (i, r)) : r.valueOk = true := by
  simp only [stationOfBytes, Option.bind_eq_bind, Option.bind_eq_some_iff, Option.ite_none_right_eq_some,
    Option.some.injEq, Prod.mk.injEq] at h
  obtain ⟨_, _, _, _, _, _, _, _, _, _, _, _, _, _, _, _, valueOk, _, rfl⟩ := h
  exact valueOk

/-- R52: zone parameters that are read are in their ranges. -/
theorem zoneOfBytes_paramsOk {p : List Byte} {z : ZoneParams} (h : zoneOfBytes p = some z) : ParamsOk z := by
  simp only [zoneOfBytes, Option.bind_eq_bind, Option.bind_eq_some_iff, Option.ite_none_right_eq_some,
    Option.some.injEq, Bool.and_eq_true, decide_eq_true_eq, and_assoc] at h
  obtain ⟨_, _, h1, h2, h3, h4, h5, h6, rfl⟩ := h
  exact ⟨h1, h2, h3, h4, h5, h6⟩

/-- R120: line settings that are read have a stop width in its range. -/
theorem lineOfPayload_stopWidth {p : List Byte} {z z' : ZonUnit} (h : lineOfPayload p z = some z') :
    1 ≤ z'.stopWidth.toNat ∧ z'.stopWidth.toNat ≤ 250 := by
  simp only [lineOfPayload, Option.bind_eq_bind, Option.bind_eq_some_iff, Option.ite_none_right_eq_some,
    Option.some.injEq, Bool.and_eq_true, decide_eq_true_eq] at h
  obtain ⟨_, _, _, _, _, _, _, _, width, rfl⟩ := h
  exact width

/-- R57: the value check does not look at the mode of a defined station. -/
theorem valueOk_mode {r : StationRec} (h : r.valueOk = true) (hk : r.kind ≠ .none) (m : StationMode) :
    StationRec.valueOk { r with mode := m } = true := by
  obtain ⟨kind, mode, offset, output, pulse, target, sense, tolerance, policy, anchor⟩ := r
  cases kind with
  | none => exact absurd rfl hk
  | eject | mark | trigger | check => exact h

/-- R56: an undefined station is DISABLED. -/
theorem valueOk_none {r : StationRec} (h : r.valueOk = true) (hk : r.kind = .none) : r = .none := by
  unfold StationRec.valueOk at h
  rw [hk] at h
  simpa using h

/-! ## Work that leaves the configuration alone -/

theorem answer_same (kind tag : Byte) (st : Status) (fields : List Byte) (s : State) :
    SameConfig s (answer kind tag st fields s) := .of_units rfl rfl rfl rfl rfl rfl

theorem answer_config {kind tag : Byte} {st : Status} {fields : List Byte} {s : State} (h : ConfigInv s) :
    ConfigInv (answer kind tag st fields s) := (answer_same kind tag st fields s).keeps h

theorem pushReply_config {r : Reply} {s : State} (h : ConfigInv s) : ConfigInv (pushReply r s) :=
  SameConfig.keeps (.of_units rfl rfl rfl rfl rfl rfl) h

theorem modLnk_config {f : LnkUnit → LnkUnit} {s : State} (h : ConfigInv s) : ConfigInv (s.modLnk f) :=
  SameConfig.keeps (.of_units rfl rfl rfl rfl rfl rfl) h

theorem modPos_config {f : PosUnit → PosUnit} {s : State} (h : ConfigInv s) : ConfigInv (s.modPos f) :=
  SameConfig.keeps (.of_units rfl rfl rfl rfl rfl rfl) h

theorem modOut_config {f : OutUnit → OutUnit} {s : State} (h : ConfigInv s) : ConfigInv (s.modOut f) :=
  SameConfig.keeps (.of_units rfl rfl rfl rfl rfl rfl) h

theorem work_config {s t : State} (w : ItemWork s t) (h : ConfigInv s) : ConfigInv t := (sameConfig_of_work w).keeps h

theorem event_config {s t : State} (w : EventWork s t) (h : ConfigInv s) : ConfigInv t := (sameConfig_of_event w).keeps h

/-- A change of an input that keeps its role. -/
theorem modInput_same (i : Fin 8) (f : Input → Input) (s : State) (hf : ∀ x, (f x).role = x.role) :
    SameConfig s (s.modInput i f) where
  roles k := by
    simp only [modInput_inp, Fin.getElem_fin, modAt_getElem]
    split
    · exact hf _
    · rfl
  stations _ := rfl
  sources _ := rfl
  params := rfl
  stopWidth := rfl
  teach run h := ⟨run, h, rfl⟩

/-- A change of the track that keeps the zone parameters. -/
theorem modTrk_same (f : TrkUnit → TrkUnit) (s : State) (hf : (f s.trk).params = s.trk.params) :
    SameConfig s (s.modTrk f) := .of_units rfl rfl rfl hf rfl rfl

/-- A change of the lines and the zone state that keeps the stop width. -/
theorem modZon_same (f : ZonUnit → ZonUnit) (s : State) (hf : (f s.zon).stopWidth = s.zon.stopWidth) :
    SameConfig s (s.modZon f) := .of_units rfl rfl rfl rfl hf rfl

theorem enterZone_same (z : ZoneState) (c : ZoneCause) (s : State) : SameConfig s (enterZone z c s) :=
  .of_units (by simp [enterZone]) (by simp [enterZone]) (by simp [enterZone]) (by simp) (by simp) (by simp [enterZone])

theorem trackingStart_same (c : ZoneCause) (s : State) : SameConfig s (trackingStart c s) := by
  obtain ⟨-, trk, zon, inp, stn, vrd, -, tch, -⟩ := trackingStart_spec c s
  exact .of_units inp stn vrd (by rw [trk]) (by rw [zon]) tch

theorem enterEstop_same (c : ZoneCause) (s : State) : SameConfig s (enterEstop c s) := by
  obtain ⟨zon, -, trk, idle, -, inp, stn, vrd, -⟩ := enterEstop_spec c s
  refine ⟨fun i => by rw [inp], fun i => by rw [stn], fun v => by rw [vrd], by rw [trk], by rw [zon], fun run h => ?_⟩
  rw [idle] at h
  cases h

theorem flushToConfig_same (s : State) : SameConfig s (flushToConfig s) :=
  (sameConfig_of_work (flush_work s)).trans (enterZone_same _ _ _)

/-! ## Edges and teaching -/

/-- R158: a result writes the mean into the station's record only when the record passes both checks. -/
theorem applyTeach_config (run : TeachRun) (stats : TeachStats) {s : State} (h : ConfigInv s) :
    ConfigInv (applyTeach run stats s) := by
  unfold applyTeach
  dsimp only
  split
  · exact event_config (endTeach_event _ _ _ _ _ _) h
  rename_i value
  split
  · exact event_config (endTeach_event _ _ _ _ _ _) h
  · rename_i valid
    simp only [Bool.or_eq_true, Bool.not_eq_true', not_or, Bool.not_eq_false] at value valid
    exact event_config (endTeach_event _ _ _ _ _ _) (modStation_config _ _ h value.2 valid)

theorem finishTeach_config (run : TeachRun) {s : State} (h : ConfigInv s) : ConfigInv (finishTeach run s) := by
  unfold finishTeach
  split
  · exact h
  split
  · exact event_config (endTeach_event _ _ _ _ _ _) h
  split
  · exact applyTeach_config _ _ h
  · exact event_config (endTeach_event _ _ _ _ _ _) h

theorem teachTargetEdge_config {s : State} (h : ConfigInv s) : ConfigInv (teachTargetEdge s) := by
  unfold teachTargetEdge
  split
  · exact h
  · exact h
  rename_i run start span hr
  dsimp only
  have held : ∀ n run1, run1.target = run.target → ConfigInv (offer n (setTeach (.waitEntry run1) s)) :=
    fun n run1 ht => event_config
      ((setTeach_event (.waitEntry run1) s fun r e => ⟨run, by rw [hr]; rfl, by cases e; exact ht⟩).trans
        (offer_work n _).event) h
  split
  · exact finishTeach_config _ (held _ _ rfl)
  · exact held _ _ rfl

theorem createItem_same (s : State) : SameConfig s (createItem s) := by
  have created : ∀ u : State, SameConfig u
      (u.modStn fun x => { x with stations := mapAll x.stations fun _ st => st.itemCreated (newTag s) }) := fun u =>
    ⟨fun _ => rfl, fun i => by simp [Station.itemCreated], fun _ => rfl, rfl, rfl, fun run h => ⟨run, h, rfl⟩⟩
  have entered : SameConfig s (enteredState s) := (modTrk_same _ s rfl).trans (sameConfig_of_work (offer_work _ _))
  rw [createItem_def]
  split
  · exact (entered.trans (sameConfig_of_work (decideItem_work _ _ _))).trans (created _)
  · exact entered.trans (created _)

theorem setEntry_same (e : EntryUnit) (s : State) : SameConfig s (setEntry e s) := modTrk_same _ s rfl

theorem entryLeading_same (s : State) : SameConfig s (entryLeading s) := by
  have attempt : SameConfig s (entryAttempt s) := by
    unfold entryAttempt
    split
    · exact (setEntry_same _ s).trans (sameConfig_of_work (faultCause_work _ _))
    · split
      · exact createItem_same s
      · split
        · exact createItem_same s
        · exact (setEntry_same _ s).trans (sameConfig_of_work (offer_work _ _))
  unfold entryLeading
  split
  · split
    · exact attempt
    · exact attempt
    · exact .refl s
  · exact setEntry_same _ s

theorem entryTrailing_same (s : State) : SameConfig s (entryTrailing s) := by
  unfold entryTrailing
  split
  · exact .refl s
  · exact setEntry_same _ s
  rename_i tag lead _
  dsimp only
  have measured : ∀ len : Dist, SameConfig s
      ((setEntry .clear s).modItem tag fun it => { it with length := some len }) := fun _ =>
    (setEntry_same _ s).trans (modTrk_same _ _ rfl)
  split
  · exact (measured _).trans (sameConfig_of_work (leave_work _ _ _))
  · exact measured _

/-- R19, R20: what a receiver does with an edge. -/
theorem receiveEdge_config (i : Fin 8) (e : EdgeKind) (r : EdgeReceiver) {s : State} (h : ConfigInv s) :
    ConfigInv (receiveEdge i e r s) := by
  cases r with
  | probe =>
    exact ((modInput_same i _ s fun _ => by rfl).trans (sameConfig_of_work (offer_work _ _))).keeps h
  | entryUnit =>
    cases e with
    | leading => exact (entryLeading_same s).keeps h
    | trailing => exact (entryTrailing_same s).keeps h
  | teachEntry => exact event_config (teachEntryEdge_event s) h
  | teachTarget => exact teachTargetEdge_config h
  | station k => exact work_config (checkEdge_work k s) h
  | source v => exact work_config (lineEdge_work v s) h

theorem foldl_config {α : Type} (f : State → α → State) (hf : ∀ s a, ConfigInv s → ConfigInv (f s a)) (l : List α)
    {s : State} (h : ConfigInv s) : ConfigInv (l.foldl f s) := by
  induction l generalizing s with
  | nil => exact h
  | cons a as ih => exact ih (hf s a h)

theorem deliverEdge_config (i : Fin 8) (e : EdgeKind) {s : State} (h : ConfigInv s) : ConfigInv (deliverEdge i e s) := by
  obtain ⟨order, -, -, delivered⟩ := inFreeOrder_eq (receiveEdge i e) _ (edgeReceivers s i e) s (Nat.le_refl _)
  have eq : deliverEdge i e s = _ := delivered
  rw [eq]
  refine foldl_config _ (fun t r ht => receiveEdge_config i e r.1 ?_) order h
  exact SameConfig.keeps (.of_units rfl rfl rfl rfl rfl rfl) ht

theorem acceptInput_config (i : Fin 8) {s : State} (h : ConfigInv s) : ConfigInv (acceptInput i s) := by
  have accepted : ConfigInv (s.modInput i fun x => { x with accepted := x.raw, wait := none }) :=
    (modInput_same i _ s fun _ => by rfl).keeps h
  unfold acceptInput
  dsimp only
  split
  · exact accepted
  · exact deliverEdge_config i _ accepted

/-! ## Requests -/

/-- An operation that leaves a valid configuration valid. -/
def KeepsConfig (f : State → State) : Prop := ∀ s, ConfigInv s → ConfigInv (f s)

section Requests

variable (tag : Byte) (p : List Byte)

theorem reqIdentify_config : KeepsConfig (reqIdentify tag p) := by
  intro s h
  unfold reqIdentify
  split <;> exact answer_config h

theorem reqStatus_config : KeepsConfig (reqStatus tag p) := by
  intro s h
  unfold reqStatus
  split
  · exact answer_config h
  split
  · exact answer_config h
  split
  · exact answer_config (modPos_config (modLnk_config h))
  · exact answer_config h

theorem reqReset_config : KeepsConfig (reqReset tag p) := by
  intro s h
  unfold reqReset
  split
  · exact answer_config h
  · exact pushReply_config (modLnk_config h)

theorem reqSetNotices_config : KeepsConfig (reqSetNotices tag p) := by
  intro s h
  unfold reqSetNotices
  dsimp only
  split
  · exact answer_config h
  split
  · exact answer_config h
  split
  · exact answer_config h
  · exact answer_config (modLnk_config h)

theorem reqSetEncoder_config : KeepsConfig (reqSetEncoder tag p) := by
  intro s h
  unfold reqSetEncoder
  dsimp only
  split
  · exact answer_config h
  split
  · exact answer_config h
  split
  · exact answer_config h
  split
  · exact answer_config h
  · exact answer_config (modPos_config h)

theorem reqReadPosition_config : KeepsConfig (reqReadPosition tag p) := by
  intro s h
  unfold reqReadPosition
  split <;> exact answer_config h

/-- R21, R22: SET_INPUT changes a role only when the change conflicts with nothing. -/
theorem reqSetInput_config : KeepsConfig (reqSetInput tag p) := by
  intro s h
  unfold reqSetInput
  dsimp only
  split
  · exact answer_config h
  split
  · exact answer_config h
  split
  · exact answer_config h
  split
  · exact answer_config h
  split
  · exact answer_config h
  · rename_i free
    exact answer_config (modInput_config _ _ h fun conflict => free ((roleConflict_iff _ _ _).2 conflict))

theorem reqReadInput_config : KeepsConfig (reqReadInput tag p) := by
  intro s h
  unfold reqReadInput
  split
  · exact answer_config h
  · split <;> exact answer_config h

theorem reqArmProbe_config : KeepsConfig (reqArmProbe tag p) := by
  intro s h
  unfold reqArmProbe
  split
  · exact answer_config h
  split
  · exact answer_config h
  · exact answer_config ((modInput_same _ _ s fun _ => by rfl).keeps h)

theorem reqDisarmProbe_config : KeepsConfig (reqDisarmProbe tag p) := by
  intro s h
  unfold reqDisarmProbe
  split
  · exact answer_config h
  split
  · exact answer_config h
  · exact answer_config ((modInput_same _ _ s fun _ => by rfl).keeps h)

/-- R52: SET_ZONE takes parameters only when every station and every LINE source remains valid. -/
theorem reqSetZone_config : KeepsConfig (reqSetZone tag p) := by
  intro s h
  unfold reqSetZone
  dsimp only
  split
  · exact answer_config h
  split
  · exact answer_config h
  split
  · exact answer_config h
  split
  · exact answer_config h
  rename_i z read
  split
  · rename_i valid
    exact answer_config (setParams_config z h (zoneOfBytes_paramsOk read) valid)
  · exact answer_config h

theorem reqReadItem_config : KeepsConfig (reqReadItem tag p) := by
  intro s h
  unfold reqReadItem
  split
  · exact answer_config h
  split
  · exact answer_config h
  · split <;> exact answer_config h

theorem reqDumpTrack_config : KeepsConfig (reqDumpTrack tag p) := by
  intro s h
  unfold reqDumpTrack
  split
  · exact answer_config h
  split
  · exact answer_config h
  · exact pushReply_config (modLnk_config ((modTrk_same _ s rfl).keeps h))

theorem reqRemoveItem_config : KeepsConfig (reqRemoveItem tag p) := by
  intro s h
  unfold reqRemoveItem
  split
  · exact answer_config h
  split
  · exact answer_config h
  split
  · exact answer_config h
  split
  · exact answer_config h
  · exact answer_config (work_config (leave_work _ _ _) h)

/-- R58, R60: a record is applied only when it passes both checks. -/
theorem loadFrom_config (n k : Nat) {s : State} (h : ConfigInv s) : ConfigInv (loadFrom p n k s).state := by
  induction n generalizing k s with
  | zero => exact h
  | succ n ih =>
    unfold loadFrom
    split
    · exact h
    rename_i i r read
    split
    · rename_i valid
      exact ih _ (modStation_config i _ h (stationOfBytes_valueOk read) valid)
    · exact h

theorem reqLoadStations_config : KeepsConfig (reqLoadStations tag p) := by
  intro s h
  unfold reqLoadStations
  dsimp only
  split
  · exact answer_config h
  split
  · exact answer_config h
  split
  · exact answer_config h
  · exact answer_config (loadFrom_config p _ _ h)

/-- R62: the mode of a defined station is free, an undefined station stays DISABLED. -/
theorem changeMode_config (i : Fin 8) (m : StationMode) {s : State} (h : ConfigInv s)
    (hm : s.stn.stations[i].record.kind = .none → m = .disabled) : ConfigInv (changeMode i m s) := by
  have changed : ConfigInv (s.modStation i fun st => { st with record := { st.record with mode := m } }) := by
    obtain ⟨value, valid⟩ := h.2.1 i
    refine modStation_config i _ h ?_ valid
    by_cases hk : s.stn.stations[i].record.kind = .none
    · rw [hm hk, valueOk_none value hk]
      rfl
    · exact valueOk_mode value hk m
  unfold changeMode
  dsimp only
  split
  · exact work_config (disableClose_work _ _) changed
  · exact changed

theorem reqSetStationMode_config : KeepsConfig (reqSetStationMode tag p) := by
  intro s h
  unfold reqSetStationMode
  split
  · exact answer_config h
  split
  · exact answer_config h
  rename_i i m _
  split
  · exact answer_config h
  · rename_i allowed
    refine answer_config (changeMode_config i m h fun hk => ?_)
    by_contra hm
    exact allowed (by simpa [hm] using hk)

theorem reqReadStation_config : KeepsConfig (reqReadStation tag p) := by
  intro s h
  unfold reqReadStation
  split
  · exact answer_config h
  · split <;> exact answer_config h

theorem reqLoadClass_config : KeepsConfig (reqLoadClass tag p) := by
  intro s h
  have loaded : ∀ f : Vector ClassRec 16 → Vector ClassRec 16,
      ConfigInv (s.modVrd fun u => { u with classes := f u.classes }) := fun _ =>
    SameConfig.keeps ⟨fun _ => rfl, fun _ => rfl, fun _ => rfl, rfl, rfl, fun run hr => ⟨run, hr, rfl⟩⟩ h
  unfold reqLoadClass
  dsimp only
  split
  · exact answer_config h
  split
  · exact answer_config h
  split
  · exact answer_config h
  · exact answer_config (loaded fun c => modAt c _ _)

/-- R86: SET_SOURCE takes a record only when it is valid against the configuration. -/
theorem reqSetSource_config : KeepsConfig (reqSetSource tag p) := by
  intro s h
  unfold reqSetSource
  dsimp only
  split
  · exact answer_config h
  split
  · exact answer_config h
  split
  · exact answer_config h
  split
  · exact answer_config h
  split
  · rename_i valid
    exact answer_config (modSource_config _ _ h valid)
  · exact answer_config h

theorem reqVerdict_config : KeepsConfig (reqVerdict tag p) := by
  intro s h
  unfold reqVerdict
  dsimp only
  split
  · exact answer_config h
  split
  · exact answer_config h
  split
  · exact answer_config h
  · exact answer_config h
  split
  · exact answer_config h
  split
  · exact answer_config h
  split
  · exact answer_config h
  split
  · exact answer_config h
  · exact answer_config h
  · exact answer_config (work_config (fillVerdict_work _ _ _ _) h)

theorem applyClassify_same (it : Item) (cls : Fin 16) (s : State) : SameConfig s (applyClassify it cls s) := by
  have dropped : ∀ (g : Tag) (c : ClassRec) (u : State), SameConfig u (dropWindows g c u) := fun g c u =>
    ⟨fun _ => rfl, fun _ => rfl,
      fun v => by simp only [dropWindows, modVrd_vrd, Fin.getElem_fin, mapAll_getElem]; split <;> rfl,
      rfl, rfl, fun run hr => ⟨run, hr, rfl⟩⟩
  have settled : ∀ (jt : Item) (u : State), SameConfig u (settleClassify jt u) := fun jt u => by
    unfold settleClassify
    split
    · exact sameConfig_of_work (decideItem_work _ _ _)
    · split
      · exact sameConfig_of_work (takeDeadline_work _ _)
      · split
        · exact sameConfig_of_work (decideItem_work _ _ _)
        · exact .refl u
  exact ((modTrk_same _ s rfl).trans (dropped _ _ _)).trans (settled _ _)

theorem reqClassify_config : KeepsConfig (reqClassify tag p) := by
  intro s h
  unfold reqClassify
  dsimp only
  split
  · exact answer_config h
  split
  · exact answer_config h
  split
  · exact answer_config h
  split
  · exact answer_config h
  split
  · exact answer_config h
  split
  · exact answer_config h
  · exact answer_config ((applyClassify_same _ _ s).keeps h)

theorem reqSetOutput_config : KeepsConfig (reqSetOutput tag p) := by
  intro s h
  unfold reqSetOutput
  dsimp only
  split
  · exact answer_config h
  split
  · exact answer_config h
  split
  · exact answer_config h
  split
  · exact answer_config h
  · exact answer_config (modOut_config h)

theorem reqPulseOutput_config : KeepsConfig (reqPulseOutput tag p) := by
  intro s h
  unfold reqPulseOutput
  dsimp only
  split
  · exact answer_config h
  split
  · exact answer_config h
  split
  · exact answer_config h
  split
  · exact answer_config h
  · exact answer_config (modOut_config h)

theorem reqReadOutputs_config : KeepsConfig (reqReadOutputs tag p) := by
  intro s h
  unfold reqReadOutputs
  split <;> exact answer_config h

theorem reqStart_config : KeepsConfig (reqStart tag p) := by
  intro s h
  have aborted := event_config (abortTeach_event s) h
  unfold reqStart
  dsimp only
  split
  · exact answer_config h
  split
  · exact answer_config h
  split
  · exact answer_config h
  split
  · exact answer_config h
  split
  · exact answer_config ((enterZone_same _ _ _).keeps aborted)
  · exact answer_config ((trackingStart_same _ _).keeps aborted)

theorem reqSyncPulse_config : KeepsConfig (reqSyncPulse tag p) := by
  intro s h
  unfold reqSyncPulse
  dsimp only
  split
  · exact answer_config h
  split
  · exact answer_config h
  split
  · exact answer_config h
  · exact answer_config ((modZon_same _ s rfl).keeps h)

theorem reqStopLine_config : KeepsConfig (reqStopLine tag p) := by
  intro s h
  unfold reqStopLine
  dsimp only
  split
  · exact answer_config h
  · exact answer_config (work_config (driveLineStop_work s) h)

theorem reqHold_config : KeepsConfig (reqHold tag p) := by
  intro s h
  unfold reqHold
  dsimp only
  split
  · exact answer_config h
  split
  · exact answer_config h
  · exact answer_config ((enterZone_same _ _ s).keeps h)

theorem reqResume_config : KeepsConfig (reqResume tag p) := by
  intro s h
  unfold reqResume
  dsimp only
  generalize (if s.zon.zone = .fault then presentCauses s else .empty) = causes
  split
  · exact answer_config h
  split
  · exact answer_config h
  split
  · exact answer_config h
  · exact answer_config ((enterZone_same _ _ s).keeps h)

theorem reqStop_config : KeepsConfig (reqStop tag p) := by
  intro s h
  unfold reqStop
  dsimp only
  split
  · exact answer_config h
  split
  · exact answer_config h
  · exact answer_config h
  all_goals exact answer_config ((flushToConfig_same s).keeps h)

theorem reqEstop_config : KeepsConfig (reqEstop tag p) := by
  intro s h
  unfold reqEstop
  dsimp only
  split
  · exact answer_config h
  split
  · exact answer_config h
  · exact answer_config ((enterEstop_same _ s).keeps h)

theorem reqClear_config : KeepsConfig (reqClear tag p) := by
  intro s h
  unfold reqClear
  dsimp only
  split
  · exact answer_config h
  split
  · exact answer_config h
  split
  · exact answer_config h
  · exact answer_config ((flushToConfig_same s).keeps h)

/-- R120: SET_LINE takes a stop width only in its range. -/
theorem reqSetLine_config : KeepsConfig (reqSetLine tag p) := by
  intro s h
  unfold reqSetLine
  dsimp only
  split
  · exact answer_config h
  split
  · exact answer_config h
  split
  · exact answer_config h
  · rename_i read
    exact answer_config (modZon_config _ h (lineOfPayload_stopWidth read))

/-- R154, check 5: TEACH starts only with an ENTRY input that is not its target. -/
theorem reqTeach_config : KeepsConfig (reqTeach tag p) := by
  intro s h
  unfold reqTeach
  dsimp only
  split
  · exact answer_config h
  split
  · exact answer_config h
  split
  · exact answer_config h
  rename_i run _
  split
  · exact answer_config h
  split
  · exact answer_config h
  · rename_i free
    refine answer_config (setTeach_config _ h fun run' hr => ?_)
    cases hr
    simp only [teachConflict, hasEntry, Bool.or_eq_true, Bool.not_eq_true', not_or, Bool.not_eq_false,
      List.any_eq_true, List.mem_finRange, true_and, decide_eq_true_eq] at free
    exact free.1

theorem reqTeachAbort_config : KeepsConfig (reqTeachAbort tag p) := by
  intro s h
  unfold reqTeachAbort
  dsimp only
  split
  · exact answer_config h
  split
  · exact answer_config h
  · exact answer_config (event_config (abortTeach_event s) h)

end Requests

/-- R141: whatever request is taken, the configuration stays valid. -/
theorem takeRequest_config (kind tag : Byte) (p : List Byte) : KeepsConfig (takeRequest kind tag p) := by
  unfold takeRequest
  split
  · exact reqIdentify_config tag p
  · exact reqStatus_config tag p
  · exact reqReset_config tag p
  · exact reqSetNotices_config tag p
  · exact reqSetEncoder_config tag p
  · exact reqReadPosition_config tag p
  · exact reqSetInput_config tag p
  · exact reqReadInput_config tag p
  · exact reqArmProbe_config tag p
  · exact reqDisarmProbe_config tag p
  · exact reqSetZone_config tag p
  · exact reqReadItem_config tag p
  · exact reqDumpTrack_config tag p
  · exact reqRemoveItem_config tag p
  · exact reqLoadStations_config tag p
  · exact reqSetStationMode_config tag p
  · exact reqReadStation_config tag p
  · exact reqLoadClass_config tag p
  · exact reqSetSource_config tag p
  · exact reqVerdict_config tag p
  · exact reqClassify_config tag p
  · exact reqSetOutput_config tag p
  · exact reqPulseOutput_config tag p
  · exact reqReadOutputs_config tag p
  · exact reqStart_config tag p
  · exact reqSyncPulse_config tag p
  · exact reqStopLine_config tag p
  · exact reqHold_config tag p
  · exact reqResume_config tag p
  · exact reqStop_config tag p
  · exact reqEstop_config tag p
  · exact reqClear_config tag p
  · exact reqSetLine_config tag p
  · exact reqTeach_config tag p
  · exact reqTeachAbort_config tag p
  · exact fun _ => pushReply_config

theorem takeFrame_config {f : State → State} (hf : KeepsConfig f) : KeepsConfig (takeFrame f) := by
  intro s h
  rcases takeFrame_cases f s with ⟨-, e⟩ | e | e <;> rw [e]
  · exact hf s h
  · exact h
  · exact modLnk_config h

/-- Table 10-3: a command that is a request is the frame of its KIND, TAG and payload. -/
theorem exec_request {c : Instr} {kind tag : Byte} {p : List Byte} (h : requestOf c = some (kind, tag, p)) (s : State) :
    exec c s = .next (takeFrame (takeRequest kind tag p) s) := by
  cases c <;> cases h <;> rfl

/-! ## Events -/

theorem receiveByte_config (b : Byte) (good : Bool) : KeepsConfig (receiveByte b good) := by
  intro s h
  have complete : ∀ len got, ConfigInv (frameComplete len got s) := fun len got => by
    unfold frameComplete
    split
    · exact modLnk_config h
    split
    · exact takeFrame_config (takeRequest_config _ _ _) _ (modLnk_config h)
    · exact modLnk_config h
  unfold receiveByte
  split
  · exact modLnk_config h
  · unfold huntByte
    split
    · exact modLnk_config h
    · exact h
  · unfold headerByte
    split <;> exact modLnk_config h
  · unfold bodyByte
    split
    · exact modLnk_config h
    split
    · exact complete _ _
    · exact modLnk_config h

theorem gapExpiry_config (gapFrom : Time) : KeepsConfig (gapExpiry gapFrom) := by
  intro s h
  unfold gapExpiry
  split
  · exact modLnk_config h
  · exact h

theorem sendNotice_config (completed limit : Nat) : KeepsConfig (sendNotice completed limit) := by
  intro s h
  unfold sendNotice
  split
  · exact modLnk_config h
  · exact modLnk_config (modLnk_config h)

theorem sendDump_config (completed limit : Nat) : KeepsConfig (sendDump completed limit) := by
  intro s h
  unfold sendDump
  split <;> exact modLnk_config h

theorem grant_config : KeepsConfig grant := by
  intro s h
  unfold grant
  split
  · exact modLnk_config (modLnk_config h)
  split
  · unfold grantNotice
    split
    · exact sendNotice_config _ _ s h
    · exact modLnk_config (modLnk_config h)
  split
  · exact sendDump_config _ _ s h
  · exact h

theorem completeFrame_config (mark : FrameMark) : KeepsConfig (completeFrame mark) := by
  intro s h
  cases mark with
  | plain | resetReply => exact h
  | dumpReply | dumpItem => exact modLnk_config h
  | dumpEnd => exact (modTrk_same _ _ rfl).keeps (modLnk_config h)

theorem continueBurst_config (b : Burst) : KeepsConfig (continueBurst b) := by
  intro s h
  unfold continueBurst
  dsimp only
  split
  · exact modLnk_config h
  split
  · exact modLnk_config h
  · exact sendNotice_config _ _ s h
  · exact sendDump_config _ _ s h

theorem applyCount_config (c : RawCount) : KeepsConfig (applyCount c) := by
  intro s h
  cases c with
  | zero => exact h
  | up => exact event_config (forwardCount_event s) (modPos_config h)
  | down => exact event_config (backwardCount_event s) (modPos_config h)
  | error => exact event_config (encoderError_event s) (modPos_config h)

theorem acceptEncoder_config (a b : Bool) : KeepsConfig (acceptEncoder a b) := by
  intro s h
  unfold acceptEncoder
  dsimp only
  split
  · exact applyCount_config _ _ (modPos_config (modPos_config h))
  · exact modPos_config h

theorem acceptSync_config : KeepsConfig acceptSync := by
  intro s h
  have accepted := (modZon_same (fun z => { z with sync := { z.sync with accepted := s.zon.syncRaw, wait := none } }) s
    rfl).keeps h
  unfold acceptSync
  dsimp only
  split
  · unfold syncFall
    split
    · exact (trackingStart_same _ _).keeps accepted
    · exact accepted
  · exact accepted

theorem acceptLineStop_config : KeepsConfig acceptLineStop := by
  intro s h
  have accepted := (modZon_same
    (fun z => { z with lineStop := { z.lineStop with accepted := s.zon.lineStopRaw, wait := none } }) s rfl).keeps h
  unfold acceptLineStop
  dsimp only
  split
  · unfold lineStopFall
    split
    · exact (enterZone_same _ _ _).keeps accepted
    · exact accepted
  · exact accepted

theorem acceptEstop_config : KeepsConfig acceptEstop := by
  intro s h
  have accepted := (modZon_same
    (fun z => { z with estopN := { z.estopN with accepted := s.zon.estopRaw, wait := none } }) s rfl).keeps h
  unfold acceptEstop
  dsimp only
  split
  · exact accepted
  · unfold estopAssert
    split
    · exact accepted
    · exact (enterEstop_same _ _).keeps accepted

/-- An operation that acts only when its time has come. -/
theorem ite_config {c : Prop} [Decidable c] {s t : State} (ht : ConfigInv t) (h : ConfigInv s) :
    ConfigInv (if c then t else s) := by
  split
  · exact ht
  · exact h

/-- Every command leaves a valid configuration valid. -/
theorem exec_config (c : Instr) {s : State} (h : ConfigInv s) : ∃ t, exec c s = .next t ∧ ConfigInv t := by
  cases hr : requestOf c with
  | some r => exact ⟨_, exec_request hr s, takeFrame_config (takeRequest_config _ _ _) s h⟩
  | none =>
    cases c with
    | receiveByte b good => exact ⟨_, rfl, receiveByte_config b good s h⟩
    | gapTimerExpiry =>
      simp only [exec, execGapTimerExpiry]
      split
      · exact ⟨_, rfl, h⟩
      · exact ⟨_, rfl, h⟩
      · exact ⟨_, rfl, gapExpiry_config _ s h⟩
      · exact ⟨_, rfl, gapExpiry_config _ s h⟩
    | settlingIdleExpiry =>
      simp only [exec, execSettlingIdleExpiry]
      split
      · exact ⟨_, rfl, ite_config (modLnk_config h) h⟩
      all_goals exact ⟨_, rfl, h⟩
    | arbiterGrant =>
      simp only [exec, execArbiterGrant]
      split
      · exact ⟨_, rfl, grant_config s h⟩
      · exact ⟨_, rfl, h⟩
    | frameSent straps =>
      simp only [exec, execFrameSent]
      split
      · exact ⟨_, rfl, h⟩
      · exact ⟨_, rfl, ite_config (deviceReset_config _ s) (continueBurst_config _ _ (completeFrame_config _ s h))⟩
    | nrst pins => exact ⟨_, rfl, deviceReset_config pins s⟩
    | powerUp pins => exact ⟨_, rfl, deviceReset_config pins s⟩
    | encoderAcceptance a b => exact ⟨_, rfl, ite_config (acceptEncoder_config _ _ s h) h⟩
    | inputAcceptance i => exact ⟨_, rfl, ite_config (acceptInput_config i h) h⟩
    | lineInputAcceptance line =>
      cases line with
      | sync => exact ⟨_, rfl, ite_config (acceptSync_config s h) h⟩
      | lineStop => exact ⟨_, rfl, ite_config (acceptLineStop_config s h) h⟩
      | estop => exact ⟨_, rfl, ite_config (acceptEstop_config s h) h⟩
    | outputOnEnd o => exact ⟨_, rfl, modOut_config h⟩
    | outputRecoverEnd o => exact ⟨_, rfl, modOut_config h⟩
    | syncDriveEnd => exact ⟨_, rfl, ite_config ((modZon_same _ s rfl).keeps h) h⟩
    | lineStopDriveEnd => exact ⟨_, rfl, ite_config ((modZon_same _ s rfl).keeps h) h⟩
    | encoderRawChange chan level =>
      cases chan with
      | a => exact ⟨_, rfl, modPos_config h⟩
      | b => exact ⟨_, rfl, modPos_config h⟩
    | inputRawChange i level => exact ⟨_, rfl, (modInput_same i _ s fun _ => by rfl).keeps h⟩
    | lineRawChange line level =>
      cases line with
      | sync => exact ⟨_, rfl, (modZon_same _ s rfl).keeps h⟩
      | lineStop => exact ⟨_, rfl, (modZon_same _ s rfl).keeps h⟩
      | estop => exact ⟨_, rfl, (modZon_same _ s rfl).keeps h⟩
    | timeBaseTick => exact ⟨_, rfl, modPos_config h⟩
    | _ => cases hr

/-- Settles O59: on an empty queue nothing happens, and every command leaves a valid configuration valid. -/
theorem configInvariant : Obligations.ConfigInvariant := by
  unfold Obligations.ConfigInvariant
  intro s t h
  unfold step
  split
  · rintro ⟨⟩
    exact h
  · rename_i c rest _
    have popped : ConfigInv { s with pending := rest } := SameConfig.keeps (.of_units rfl rfl rfl rfl rfl rfl) h
    obtain ⟨u, ran, hu⟩ := exec_config c popped
    rw [ran]
    rintro ⟨⟩
    exact hu

end Sys2Proof.Configuration
end

section
/-! SUPPORT and CERTIFICATES. What the T24 sends and reads back (R162, R164, Tables 10-7 to 10-12): the codes, the item
record, the notices, and the records that read back as sent. -/

namespace Sys2Proof.Records

open Sys2Proof.Machine Sys2Proof.Safety Sys2Proof.Laws

/-! ## Fields -/

theorem le_six {w : Nat} (v : BitVec w) :
    le 6 v =
      [v.setWidth 8, (v >>> 8).setWidth 8, (v >>> 16).setWidth 8, (v >>> 24).setWidth 8, (v >>> 32).setWidth 8,
        (v >>> 40).setWidth 8] := by
  simp [le, List.range_succ]

theorem byteAt_append_right (l r : List Byte) (j : Nat) : byteAt (l ++ r) (l.length + j) = byteAt r j := by
  rw [byteAt, byteAt, List.getD_eq_getElem?_getD, List.getD_eq_getElem?_getD,
    List.getElem?_append_right (Nat.le_add_right _ _), Nat.add_sub_cancel_left]

/-- The `n` bytes of a payload from a place on. -/
def field (p : List Byte) (k n : Nat) : List Byte := (p.drop k).take n

theorem byteAt_field (p : List Byte) (k : Nat) {n j : Nat} (h : j < n) : byteAt (field p k n) j = byteAt p (k + j) := by
  simp [byteAt, field, List.getD_eq_getElem?_getD, h]

/-- A 16-bit field read where it was written. -/
theorem u16_of_field {p : List Byte} {k : Nat} {v : BitVec 16} (h : field p k 2 = le 2 v) : u16 p k = v := by
  have moved : u16 p k = u16 (field p k 2) 0 := by
    rw [u16, u16, byteAt_field p k (by decide), byteAt_field p k (by decide)]
    rfl
  rw [moved, h]
  exact u16_head v []

/-- A 32-bit field read where it was written. -/
theorem u32_of_field {p : List Byte} {k : Nat} {v : BitVec 32} (h : field p k 4 = le 4 v) : u32 p k = v := by
  have moved : u32 p k = u32 (field p k 4) 0 := by
    rw [u32, u32, u16, u16, u16, u16, byteAt_field p k (by decide), byteAt_field p k (by decide),
      byteAt_field p k (by decide), byteAt_field p k (by decide)]
    rfl
  rw [moved, h]
  exact u32_head v []

/-- A field of several written one behind the other. -/
theorem field_flatten {ps : List (List Byte)} {j : Nat} {x : List Byte} (h : ps[j]? = some x) (tail : List Byte) :
    field (ps.flatten ++ tail) (ps.take j).flatten.length x.length = x := by
  induction ps generalizing j with
  | nil => simp at h
  | cons p ps ih =>
    cases j with
    | zero =>
      simp only [List.getElem?_cons_zero, Option.some.injEq] at h
      subst h
      simp [field]
    | succ j =>
      have rest := ih (j := j) (by simpa using h)
      rw [List.flatten_cons, List.take_succ_cons, List.flatten_cons, List.length_append, List.append_assoc, field,
        List.drop_length_add_append]
      exact rest

/-- Two bytes for each element of a list, found at the element's place. -/
theorem byteAt_pairs {α : Type} (a b : α → Byte) {l : List α} {k : Nat} {x : α} (h : l[k]? = some x) (tail : List Byte) :
    byteAt (l.flatMap (fun y => [a y, b y]) ++ tail) (2 * k) = a x ∧
      byteAt (l.flatMap (fun y => [a y, b y]) ++ tail) (2 * k + 1) = b x := by
  induction l generalizing k with
  | nil => simp at h
  | cons y ys ih =>
    cases k with
    | zero =>
      simp only [List.getElem?_cons_zero, Option.some.injEq] at h
      subst h
      exact ⟨rfl, rfl⟩
    | succ k => exact ih (by simpa using h)

theorem pairs_length {α : Type} (a b : α → Byte) (l : List α) : (l.flatMap fun y => [a y, b y]).length = 2 * l.length := by
  simp [List.length_flatMap, Nat.mul_comm]

/-! ## Codes -/

/-- A byte is the number it holds. -/
theorem byte_eq_ofNat {b : Byte} {n : Nat} (h : b.toNat = n) : b = BitVec.ofNat 8 n := by
  rw [← h, BitVec.ofNat_toNat, BitVec.setWidth_eq]

theorem disposition_code_toNat (d : Disposition) :
    d.code.toNat = 1 + [Disposition.accept, .rework, .reject].idxOf d := by cases d <;> rfl

theorem reason_code_toNat (r : Reason) :
    r.code.toNat = 1 + [Reason.complete, .deadline, .noneRequired, .atExit].idxOf r := by cases r <;> rfl

theorem exitReason_code_toNat (e : ExitReason) :
    e.code.toNat = [ExitReason.inTrack, .endOfTrack, .short, .dropped, .removed, .flushed].idxOf e := by
  cases e <;> rfl

theorem stationOutcome_code_toNat (o : StationOutcome) :
    o.code.toNat =
      [StationOutcome.pending, .fired, .firedLate, .wouldFire, .notTarget, .suppressed, .refused, .disabled, .notServed,
        .confirmed, .missed].idxOf o := by cases o <;> rfl

theorem zoneState_code_toNat (z : ZoneState) :
    z.code.toNat = [ZoneState.config, .armed, .tracking, .hold, .fault, .estop].idxOf z := by cases z <;> rfl

theorem faultCause_code_toNat (c : FaultCause) :
    c.code.toNat = 5 + [FaultCause.encoder, .reverse, .trackFull, .entryBlocked, .missing].idxOf c := by
  cases c <;> rfl

theorem stationMode_code_toNat (m : StationMode) :
    m.code.toNat = [StationMode.disabled, .observe, .active].idxOf m := by cases m <;> rfl

theorem probeState_code_toNat (p : ProbeState) :
    p.code.toNat = [ProbeState.disarmed, .armedOnce, .armedEvery, .spent].idxOf p := by cases p <;> rfl

theorem edgeSel_code_toNat (e : EdgeSel) : e.code.toNat = [EdgeSel.leading, .trailing, .both].idxOf e := by
  cases e <;> rfl

theorem edgeKind_code_eq (e : EdgeKind) : e.code = if e = .leading then 0 else 1 := by cases e <;> rfl

theorem refusalReason_code_eq (r : RefusalReason) : r.code = if r = .busy then 1 else 2 := by cases r <;> rfl

theorem teachResult_code_toNat (r : TeachResult) :
    r.code.toNat = [TeachResult.done, .failed, .spreadExceeded, .applyRefused, .aborted].idxOf r := by cases r <;> rfl

/-- Table 10-6: the cause of a change of zone state. -/
theorem zoneCause_code_eq {c : ZoneCause} {why : Byte}
    (h : (c = .reset ∧ why = 0) ∨ (c = .request ∧ why = 1) ∨ (c = .sync ∧ why = 2) ∨ (c = .lineStop ∧ why = 3) ∨
      (c = .input ∧ why = 4) ∨ ∃ f, c = .fault f ∧ why = f.code) : c.code = why := by
  rcases h with ⟨rfl, rfl⟩ | ⟨rfl, rfl⟩ | ⟨rfl, rfl⟩ | ⟨rfl, rfl⟩ | ⟨rfl, rfl⟩ | ⟨f, rfl, rfl⟩ <;> rfl

/-- R164: a slot's state in the high half of its byte, its code in the low half. -/
theorem slotState_byte_toNat (st : SlotState) :
    st.byte.toNat = match st with | .pending => 0 | .set c => 16 + c.val | .late c => 32 + c.val | .timedOut => 48 := by
  cases st with
  | pending | timedOut => rfl
  | set c => revert c; decide
  | late c => revert c; decide

theorem bitAt_getLsbD (b : Bool) (w : Byte) (k : Nat) : (bitAt b w).getLsbD k = (b && w.getLsbD k) := by
  cases b <;> simp [bitAt]

/-- Table 10-8: each flag has its bit. -/
theorem itemFlags_byte_bits (f : ItemFlags) (present : Bool) :
    (f.byte present).getLsbD 0 = f.overlength ∧ (f.byte present).getLsbD 1 = f.anchored ∧
      (f.byte present).getLsbD 2 = f.anchorRefused ∧ (f.byte present).getLsbD 3 = f.missing ∧
      (f.byte present).getLsbD 4 = f.reclassified ∧ (f.byte present).getLsbD 5 = f.lateVerdict ∧
      (f.byte present).getLsbD 6 = f.unserved ∧ (f.byte present).getLsbD 7 = present := by
  simp only [ItemFlags.byte, BitVec.getLsbD_or, bitAt_getLsbD]
  simp

/-- R162: fault causes use bit (code − 5). -/
theorem causeSet_byte_eq (cs : CauseSet) :
    cs.byte =
      BitVec.ofNat 8
        ((if cs.encoder then 2 ^ 0 else 0) + (if cs.reverse then 2 ^ 1 else 0) + (if cs.trackFull then 2 ^ 2 else 0) +
          (if cs.entryBlocked then 2 ^ 3 else 0) + if cs.missing then 2 ^ 4 else 0) := by
  obtain ⟨a, b, c, d, e⟩ := cs
  revert a b c d e
  decide

/-! ## The item record -/

/-- Table 10-7: the fixed fields of the item record, in their order. -/
def itemParts (it : Item) : List (List Byte) :=
  [le 2 it.tag, [idxByte it.cls], [it.flags.byte it.length.isSome], le 4 it.entryPos,
    le 4 (BitVec.ofInt 32 it.correction), le 6 it.entryTime, le 4 (it.length.getD 0), [it.snapshot.members],
    [it.snapshot.required.setWidth 8], le 4 (it.deadline.getD 0),
    [(it.decision.map fun d => d.disposition.code).getD 0], [(it.decision.map fun d => d.reason.code).getD 0],
    le 6 ((it.decision.map Decision.time).getD 0), [it.exit.code], [BitVec.ofNat 8 it.slots.length],
    [BitVec.ofNat 8 it.outcomes.length], [flagByte it.deadline.isSome]]

/-- Table 10-7: the slots of the item record. -/
def slotPairs (it : Item) : List Byte := it.slots.flatMap fun sl => [idxByte sl.source, sl.state.byte]

/-- Table 10-7: the outcomes of the item record. -/
def outcomePairs (it : Item) : List Byte := it.outcomes.flatMap fun e => [idxByte e.station, e.outcome.code]

theorem item_bytes_eq (it : Item) : it.bytes = (itemParts it).flatten ++ (slotPairs it ++ outcomePairs it) := by
  simp [Item.bytes, itemParts, slotPairs, outcomePairs]

theorem itemParts_length (it : Item) : (itemParts it).flatten.length = 40 := by simp [itemParts]

section ItemRecord

variable (it : Item)

theorem item_bytes_length : it.bytes.length = 40 + 2 * it.slots.length + 2 * it.outcomes.length := by
  rw [item_bytes_eq, List.length_append, List.length_append, itemParts_length, slotPairs, outcomePairs, pairs_length,
    pairs_length, Nat.add_assoc]

/-- A fixed field of the item record stands behind the fields before it. -/
theorem item_field {j k n : Nat} {x : List Byte} (hx : (itemParts it)[j]? = some x)
    (hk : ((itemParts it).take j).flatten.length = k) (hn : x.length = n) : field it.bytes k n = x := by
  rw [item_bytes_eq, ← hk, ← hn]
  exact field_flatten hx _

theorem item_byte {j k : Nat} {x : Byte} (hx : (itemParts it)[j]? = some [x])
    (hk : ((itemParts it).take j).flatten.length = k) : byteAt it.bytes k = x := by
  have h := byteAt_field it.bytes k (n := 1) (j := 0) (by decide)
  rw [item_field it (n := 1) hx hk rfl] at h
  exact h.symm

theorem item_tag : field it.bytes 0 2 = le 2 it.tag :=
  item_field it (j := 0) rfl (by simp [itemParts]) (le_length _ _)

theorem item_cls : byteAt it.bytes 2 = idxByte it.cls := item_byte it (j := 1) rfl (by simp [itemParts])

theorem item_flags : byteAt it.bytes 3 = it.flags.byte it.length.isSome :=
  item_byte it (j := 2) rfl (by simp [itemParts])

theorem item_entryPos : field it.bytes 4 4 = le 4 it.entryPos :=
  item_field it (j := 3) rfl (by simp [itemParts]) (le_length _ _)

theorem item_correction : field it.bytes 8 4 = le 4 (BitVec.ofInt 32 it.correction) :=
  item_field it (j := 4) rfl (by simp [itemParts]) (le_length _ _)

theorem item_entryTime : field it.bytes 12 6 = le 6 it.entryTime :=
  item_field it (j := 5) rfl (by simp [itemParts]) (le_length _ _)

theorem item_lengthField : field it.bytes 18 4 = le 4 (it.length.getD 0) :=
  item_field it (j := 6) rfl (by simp [itemParts]) (le_length _ _)

theorem item_members : byteAt it.bytes 22 = it.snapshot.members := item_byte it (j := 7) rfl (by simp [itemParts])

theorem item_required : byteAt it.bytes 23 = it.snapshot.required.setWidth 8 :=
  item_byte it (j := 8) rfl (by simp [itemParts])

theorem item_deadline : field it.bytes 24 4 = le 4 (it.deadline.getD 0) :=
  item_field it (j := 9) rfl (by simp [itemParts]) (le_length _ _)

theorem item_disposition : byteAt it.bytes 28 = (it.decision.map fun d => d.disposition.code).getD 0 :=
  item_byte it (j := 10) rfl (by simp [itemParts])

theorem item_reason : byteAt it.bytes 29 = (it.decision.map fun d => d.reason.code).getD 0 :=
  item_byte it (j := 11) rfl (by simp [itemParts])

theorem item_decisionTime : field it.bytes 30 6 = le 6 ((it.decision.map Decision.time).getD 0) :=
  item_field it (j := 12) rfl (by simp [itemParts]) (le_length _ _)

theorem item_exit : byteAt it.bytes 36 = it.exit.code := item_byte it (j := 13) rfl (by simp [itemParts])

theorem item_slotCount : byteAt it.bytes 37 = BitVec.ofNat 8 it.slots.length :=
  item_byte it (j := 14) rfl (by simp [itemParts])

theorem item_outcomeCount : byteAt it.bytes 38 = BitVec.ofNat 8 it.outcomes.length :=
  item_byte it (j := 15) rfl (by simp [itemParts])

theorem item_deadlinePresent : byteAt it.bytes 39 = flagByte it.deadline.isSome :=
  item_byte it (j := 16) rfl (by simp [itemParts])

end ItemRecord

theorem item_slot_bytes {it : Item} {k : Nat} {sl : Slot} (h : it.slots[k]? = some sl) :
    byteAt it.bytes (40 + 2 * k) = idxByte sl.source ∧ byteAt it.bytes (41 + 2 * k) = sl.state.byte := by
  have at40 : ∀ j, byteAt it.bytes (40 + j) = byteAt (slotPairs it ++ outcomePairs it) j := fun j => by
    rw [item_bytes_eq, ← itemParts_length it, byteAt_append_right]
  rw [at40, show 41 + 2 * k = 40 + (2 * k + 1) by omega, at40]
  exact byteAt_pairs (fun sl : Slot => idxByte sl.source) (fun sl => sl.state.byte) h _

theorem item_outcome_bytes {it : Item} {k : Nat} {e : OutcomeEntry} (h : it.outcomes[k]? = some e) :
    byteAt it.bytes (40 + 2 * it.slots.length + 2 * k) = idxByte e.station ∧
      byteAt it.bytes (41 + 2 * it.slots.length + 2 * k) = e.outcome.code := by
  have behind : ∀ j, byteAt it.bytes (40 + 2 * it.slots.length + j) = byteAt (outcomePairs it ++ []) j := fun j => by
    rw [item_bytes_eq, ← itemParts_length it, ← pairs_length (fun sl : Slot => idxByte sl.source) fun sl => sl.state.byte,
      Nat.add_assoc, byteAt_append_right, List.append_nil]
    exact byteAt_append_right (slotPairs it) _ j
  rw [behind, show 41 + 2 * it.slots.length + 2 * k = 40 + 2 * it.slots.length + (2 * k + 1) by omega, behind]
  exact byteAt_pairs (fun e : OutcomeEntry => idxByte e.station) (fun e => e.outcome.code) h _

/-- Table 10-7: what the item record says of an item without a deadline, and of one with. -/
theorem item_deadline_absent {it : Item} (h : it.deadline = none) :
    field it.bytes 24 4 = [0, 0, 0, 0] ∧ (byteAt it.bytes 39).toNat = 0 := by
  rw [item_deadline, item_deadlinePresent, h]
  exact ⟨rfl, rfl⟩

theorem item_deadline_present {it : Item} {d : Pos} (h : it.deadline = some d) :
    field it.bytes 24 4 = le 4 d ∧ (byteAt it.bytes 39).toNat = 1 := by
  rw [item_deadline, item_deadlinePresent, h]
  exact ⟨rfl, rfl⟩

/-- Table 10-7: what the item record says of an UNDECIDED item, and of a decided one. -/
theorem item_undecided {it : Item} (h : it.decision = none) :
    (byteAt it.bytes 28).toNat = 0 ∧ (byteAt it.bytes 29).toNat = 0 ∧ field it.bytes 30 6 = [0, 0, 0, 0, 0, 0] := by
  rw [item_disposition, item_reason, item_decisionTime, h]
  exact ⟨rfl, rfl, rfl⟩

theorem item_decided {it : Item} {d : Decision} (h : it.decision = some d) :
    (byteAt it.bytes 28).toNat = 1 + [Disposition.accept, .rework, .reject].idxOf d.disposition ∧
      (byteAt it.bytes 29).toNat = 1 + [Reason.complete, .deadline, .noneRequired, .atExit].idxOf d.reason ∧
      field it.bytes 30 6 = le 6 d.time := by
  rw [item_disposition, item_reason, item_decisionTime, h, ← disposition_code_toNat, ← reason_code_toNat]
  exact ⟨rfl, rfl, rfl⟩

/-- Table 10-7: a length that has not been measured is sent as 0. -/
theorem item_length_absent {it : Item} (h : it.length = none) : field it.bytes 18 4 = [0, 0, 0, 0] := by
  rw [item_lengthField, h]
  rfl

theorem item_length_present {it : Item} {d : Dist} (h : it.length = some d) : field it.bytes 18 4 = le 4 d := by
  rw [item_lengthField, h]
  rfl

theorem count_toNat {n m : Nat} (h : n ≤ m) (hm : m < 256) : (BitVec.ofNat 8 n).toNat = n := by
  rw [BitVec.toNat_ofNat]
  omega

/-! ## Notices -/

/-- R144: the frame of a notice, from its kind code and its payload. -/
theorem notice_frame {n : Notice} {kind : Byte} {payload : List Byte} (hk : n.kind.code = kind)
    (hp : n.payload = payload) : n.frame = ⟨kind, 0, payload⟩ := by
  rw [Notice.frame, hk, hp]

section Notices

variable (t : Time) (p : Pos) (g : Tag) (i o : Fin 8)

/-- The code of a zone state, as its place in Table 7-1. -/
def zoneByte (z : ZoneState) : Byte :=
  BitVec.ofNat 8 ([ZoneState.config, .armed, .tracking, .hold, .fault, .estop].idxOf z)

/-- The code of a fault cause, by its place in Table 7-7. -/
def causeByte (c : FaultCause) : Byte :=
  BitVec.ofNat 8 (5 + [FaultCause.encoder, .reverse, .trackFull, .entryBlocked, .missing].idxOf c)

theorem zoneState_code_eq (z : ZoneState) : z.code = zoneByte z := byte_eq_ofNat (zoneState_code_toNat z)

theorem faultCause_code_eq (c : FaultCause) : c.code = causeByte c := byte_eq_ofNat (faultCause_code_toNat c)

theorem zoneState_frame (old new : ZoneState) (why : Byte) (c : ZoneCause)
    (h : (c = .reset ∧ why = 0) ∨ (c = .request ∧ why = 1) ∨ (c = .sync ∧ why = 2) ∨ (c = .lineStop ∧ why = 3) ∨
      (c = .input ∧ why = 4) ∨ ∃ f, c = .fault f ∧ why = causeByte f) :
    (Notice.zoneState t old new c p).frame = ⟨0x40, 0, le 6 t ++ ([zoneByte old, zoneByte new, why] ++ le 4 p)⟩ := by
  refine notice_frame rfl ?_
  rw [Notice.payload, zoneState_code_eq, zoneState_code_eq,
    zoneCause_code_eq (by simpa only [faultCause_code_eq] using h), List.append_assoc]

theorem fault_frame (c : FaultCause) (x : Bool) (cs : CauseSet) :
    (Notice.fault t c x cs p).frame =
      ⟨0x41, 0, le 6 t ++ ([causeByte c, if x then 0 else 1,
        BitVec.ofNat 8
          ((if cs.encoder then 2 ^ 0 else 0) + (if cs.reverse then 2 ^ 1 else 0) + (if cs.trackFull then 2 ^ 2 else 0) +
            (if cs.entryBlocked then 2 ^ 3 else 0) + if cs.missing then 2 ^ 4 else 0)] ++ le 4 p)⟩ := by
  have secondary : flagByte (!x) = if x then 0 else 1 := by cases x <;> rfl
  refine notice_frame rfl ?_
  rw [Notice.payload, faultCause_code_eq, causeSet_byte_eq, secondary, List.append_assoc]

theorem entry_frame (cls : Fin 16) :
    (Notice.entry t g cls p).frame = ⟨0x42, 0, le 6 t ++ (le 2 g ++ [BitVec.ofNat 8 cls.val] ++ le 4 p)⟩ :=
  notice_frame rfl (by simp only [Notice.payload, idxByte, List.append_assoc])

theorem decision_frame (d : Disposition) (r : Reason) :
    (Notice.decision t g d r p).frame =
      ⟨0x43, 0, le 6 t ++ (le 2 g
        ++ [BitVec.ofNat 8 (1 + [Disposition.accept, .rework, .reject].idxOf d),
          BitVec.ofNat 8 (1 + [Reason.complete, .deadline, .noneRequired, .atExit].idxOf r)] ++ le 4 p)⟩ := by
  rw [← byte_eq_ofNat (disposition_code_toNat d), ← byte_eq_ofNat (reason_code_toNat r)]
  exact notice_frame rfl (by simp only [Notice.payload, List.append_assoc])

theorem itemDone_frame (it : Item) :
    (Notice.itemDone t p it).frame = ⟨0x44, 0, le 6 t ++ (le 4 p ++ it.bytes)⟩ :=
  notice_frame rfl (by simp only [Notice.payload, List.append_assoc])

theorem missing_frame (m : StationMode) :
    (Notice.missing t i g p m).frame =
      ⟨0x45, 0, le 6 t ++ ([BitVec.ofNat 8 i.val] ++ le 2 g ++ le 4 p
        ++ [BitVec.ofNat 8 ([StationMode.disabled, .observe, .active].idxOf m)])⟩ := by
  rw [← byte_eq_ofNat (stationMode_code_toNat m)]
  exact notice_frame rfl (by simp only [Notice.payload, idxByte, List.append_assoc])

theorem stray_frame (origin : StrayOrigin) :
    (Notice.stray t origin p).frame = ⟨0x46, 0, le 6 t ++ (origin.bytes ++ le 4 p)⟩ :=
  notice_frame rfl (by simp only [Notice.payload, List.append_assoc])

theorem fireRefused_frame (r : RefusalReason) :
    (Notice.fireRefused t i g o r).frame =
      ⟨0x47, 0, le 6 t ++ ([BitVec.ofNat 8 i.val] ++ le 2 g
        ++ [BitVec.ofNat 8 o.val, if r = .busy then 1 else 2])⟩ := by
  rw [← refusalReason_code_eq]
  exact notice_frame rfl (by simp only [Notice.payload, idxByte, List.append_assoc])

theorem probe_frame (e : EdgeKind) (c : BitVec 8) (st : ProbeState) :
    (Notice.probe t i e p c st).frame =
      ⟨0x48, 0, le 6 t ++ ([BitVec.ofNat 8 i.val, if e = .leading then 0 else 1] ++ le 4 p
        ++ [c, BitVec.ofNat 8 ([ProbeState.disarmed, .armedOnce, .armedEvery, .spent].idxOf st)])⟩ := by
  rw [← byte_eq_ofNat (probeState_code_toNat st), ← edgeKind_code_eq]
  exact notice_frame rfl (by simp only [Notice.payload, idxByte, List.append_assoc])

theorem teachSample_frame (outcome : SampleOutcome) (d : Option Dist) (held failures : Nat) :
    (Notice.teachSample t outcome p d held failures).frame =
      ⟨0x49, 0, le 6 t ++ ([outcome.code, flagByte d.isSome] ++ le 4 p ++ le 4 (d.getD 0)
        ++ [BitVec.ofNat 8 held, BitVec.ofNat 8 failures])⟩ :=
  notice_frame rfl (by simp only [Notice.payload, List.append_assoc])

/-- R158: the flags byte has bit 0 for statistics, bit 1 for a mean applied, bit 2 for a validation status; absent
statistics and an absent status are sent as 0. -/
theorem teachResult_frame (r : TeachResult) (held : Nat) {stats : Option TeachStats} {applied : Bool}
    {validation : Option Status} {flags code : Byte} {st : TeachStats} (hs : stats.getD ⟨0, 0, 0⟩ = st)
    (hf : bitAt stats.isSome 1 ||| bitAt applied 2 ||| bitAt validation.isSome 4 = flags)
    (hc : (validation.map Status.code).getD 0 = code) :
    (Notice.teachResult t r held stats i applied validation).frame =
      ⟨0x4A, 0, le 6 t ++ ([BitVec.ofNat 8
            ([TeachResult.done, .failed, .spreadExceeded, .applyRefused, .aborted].idxOf r), BitVec.ofNat 8 held, flags]
        ++ le 4 st.mean ++ le 4 st.least ++ le 4 st.greatest ++ [BitVec.ofNat 8 i.val, code])⟩ := by
  subst hs hf hc
  rw [← byte_eq_ofNat (teachResult_code_toNat r)]
  exact notice_frame rfl (by simp only [Notice.payload, idxByte, List.append_assoc])

/-- R158: a result without statistics. -/
theorem teachResult_frame_none (r : TeachResult) (held : Nat) :
    (Notice.teachResult t r held none i false none).frame =
      ⟨0x4A, 0, le 6 t ++ ([BitVec.ofNat 8
            ([TeachResult.done, .failed, .spreadExceeded, .applyRefused, .aborted].idxOf r), BitVec.ofNat 8 held, 0]
        ++ List.replicate 12 0 ++ [BitVec.ofNat 8 i.val, 0])⟩ := by
  have zeros : List.replicate 12 (0 : Byte) = le 4 (0 : Dist) ++ (le 4 (0 : Dist) ++ le 4 (0 : Dist)) := rfl
  rw [zeros, ← List.append_assoc, ← List.append_assoc]
  exact teachResult_frame t i r held (st := ⟨0, 0, 0⟩) rfl rfl rfl

end Notices

/-! ## Probe records -/

/-- R25: the part of a probe record that is always meant. -/
theorem probe_head (p : Probe) :
    [p.state.code, p.sel.code, p.count] =
      [BitVec.ofNat 8 ([ProbeState.disarmed, .armedOnce, .armedEvery, .spent].idxOf p.state),
        BitVec.ofNat 8 ([EdgeSel.leading, .trailing, .both].idxOf p.sel), p.count] := by
  rw [← byte_eq_ofNat (probeState_code_toNat p.state), ← byte_eq_ofNat (edgeSel_code_toNat p.sel)]

theorem probe_bytes_none {p : Probe} (h : p.last = none) :
    p.bytes = [p.state.code, p.sel.code, p.count] ++ List.replicate 12 0 := by
  rw [Probe.bytes, h]
  rfl

theorem probe_bytes_some {p : Probe} {c : Capture} (h : p.last = some c) :
    p.bytes =
      [p.state.code, p.sel.code, p.count] ++ [1, if c.edge = .leading then 0 else 1] ++ le 4 c.position
        ++ le 6 c.time := by
  rw [Probe.bytes, h, ← edgeKind_code_eq]
  rfl

/-! ## Records that read back -/

theorem outputOfByte_code (o : Option (Fin 8)) : outputOfByte ((o.map idxByte).getD 0xFF) = some o := by
  cases o with
  | none => rfl
  | some o => revert o; decide

theorem targetOfByte_code (d : Option Disposition) : targetOfByte ((d.map Disposition.code).getD 0) = some d := by
  cases d with
  | none => rfl
  | some d => cases d <;> rfl

/-- Table 10-9: a station record reads back as sent. -/
theorem stationOfBytes_stationBytes (i : Fin 8) {r : StationRec} (h : r.valueOk = true) :
    stationOfBytes (stationBytes (idxByte i) r) 0 = some (i, r) := by
  have offset : u32 (stationBytes (idxByte i) r) (0 + 4) = r.offset := u32_of_field rfl
  have pulse : u16 (stationBytes (idxByte i) r) (0 + 8) = r.pulse := u16_of_field rfl
  have tolerance : u16 (stationBytes (idxByte i) r) (0 + 12) = r.tolerance := u16_of_field rfl
  have b0 : byteAt (stationBytes (idxByte i) r) 0 = idxByte i := rfl
  have b1 : byteAt (stationBytes (idxByte i) r) (0 + 1) = r.kind.code := rfl
  have b2 : byteAt (stationBytes (idxByte i) r) (0 + 2) = r.mode.code := rfl
  have b3 : byteAt (stationBytes (idxByte i) r) (0 + 3) = (r.output.map idxByte).getD 0xFF := rfl
  have b10 : byteAt (stationBytes (idxByte i) r) (0 + 10) = (r.target.map Disposition.code).getD 0 := rfl
  have b11 : byteAt (stationBytes (idxByte i) r) (0 + 11) = idxByte r.sense := rfl
  have b14 : byteAt (stationBytes (idxByte i) r) (0 + 14) = r.policy.code := rfl
  have b15 : byteAt (stationBytes (idxByte i) r) (0 + 15) = flagByte r.anchor := rfl
  unfold stationOfBytes
  rw [offset, pulse, tolerance, b0, b1, b2, b3, b10, b11, b14, b15, outputOfByte_code, targetOfByte_code]
  simp [h]

/-- Table 3-6: zone parameters in their ranges read back as sent. -/
theorem zoneOfBytes_bytes {z : ZoneParams} (h : ParamsOk z) : zoneOfBytes z.bytes = some z := by
  have minLength : u16 z.bytes 0 = z.minLength := u16_of_field rfl
  have maxLength : u32 z.bytes 2 = z.maxLength := u32_of_field rfl
  have trackEnd : u32 z.bytes 6 = z.trackEnd := u32_of_field rfl
  have decisionLead : u16 z.bytes 10 = z.decisionLead := u16_of_field rfl
  have reverseLimit : u16 z.bytes 12 = z.reverseLimit := u16_of_field rfl
  have defaultClass : byteAt z.bytes 14 = idxByte z.defaultClass := rfl
  unfold zoneOfBytes
  rw [minLength, maxLength, trackEnd, decisionLead, reverseLimit, defaultClass]
  obtain ⟨h1, h2, h3, h4, h5, h6⟩ := h
  simp [Config.maxMaxLength, Config.maxOffset, *]

/-- Table 10-11: a source record reads back as sent. -/
theorem sourceOfBytes_sourceBytes (v : Fin 4) {r : SourceRec} (h : ∀ i k w a b, r = .line i k w a b → w ≠ 0) :
    sourceOfBytes (sourceBytes (idxByte v) r) = some (v, r) := by
  cases r with
  | message =>
    have kind : asFlag (byteAt (sourceBytes (idxByte v) .message) 1) = some false := rfl
    unfold sourceOfBytes
    rw [kind]
    simp [sourceBytes]
  | line input trigger window pulse noPulse =>
    have nonzero : ¬window = 0 := h _ _ _ _ _ rfl
    have kind : asFlag (byteAt (sourceBytes (idxByte v) (.line input trigger window pulse noPulse)) 1) = some true := rfl
    have width : u16 (sourceBytes (idxByte v) (.line input trigger window pulse noPulse)) 4 = window := u16_of_field rfl
    have read : lineOfBytes (sourceBytes (idxByte v) (.line input trigger window pulse noPulse)) =
        some (.line input trigger window pulse noPulse) := by
      unfold lineOfBytes
      rw [width]
      simpa [sourceBytes, le_two] using nonzero
    unfold sourceOfBytes
    rw [kind, read]
    simp [sourceBytes]

theorem foldl_or_getLsbD {α : Type} (f : α → BitVec 32) (l : List α) (w : BitVec 32) (j : Nat) :
    (l.foldl (fun w k => w ||| f k) w).getLsbD j = (w.getLsbD j || l.any fun k => (f k).getLsbD j) := by
  induction l generalizing w with
  | nil => simp
  | cons k ks ih => rw [List.foldl_cons, ih, BitVec.getLsbD_or, List.any_cons, Bool.or_assoc]

/-- A disposition code has two bits. -/
theorem disposition_code_bit {d : Disposition} {j : Nat} (h : d.code.getLsbD j = true) : j < 2 := by
  by_contra hj
  have small : d.code.toNat < 2 ^ j :=
    calc d.code.toNat < 2 ^ 2 := by cases d <;> decide
      _ ≤ 2 ^ j := Nat.pow_le_pow_right (by decide) (by omega)
  have zero : d.code.getLsbD j = false := Nat.testBit_lt_two_pow small
  exact Bool.false_ne_true (zero.symm.trans h)

/-- Table 10-10: the two bits of an entry of a code map are those of its code, whatever the other entries are. -/
theorem codeMapWord_bits (m : Vector Disposition 16) (k : Fin 16) {b : Nat} (hb : b < 2) :
    (codeMapWord m).getLsbD (2 * k.val + b) = m[k].code.getLsbD b := by
  have hk := k.isLt
  have zero : (0 : BitVec 32).getLsbD (2 * k.val + b) = false := BitVec.getLsbD_zero
  unfold codeMapWord
  rw [foldl_or_getLsbD, zero, Bool.false_or, Bool.eq_iff_iff, List.any_eq_true]
  simp only [List.mem_finRange, true_and, BitVec.getLsbD_shiftLeft, BitVec.getLsbD_setWidth, Bool.and_eq_true,
    decide_eq_true_eq, Bool.not_eq_true', decide_eq_false_iff_not]
  constructor
  · rintro ⟨j, ⟨-, above⟩, -, bit⟩
    have within := disposition_code_bit bit
    obtain rfl : j = k := Fin.ext (by omega)
    rwa [Nat.add_sub_cancel_left] at bit
  · intro bit
    refine ⟨k, ⟨by omega, by omega⟩, by omega, ?_⟩
    rwa [Nat.add_sub_cancel_left]

theorem codeMapEntry_codeMapWord (m : Vector Disposition 16) (k : Fin 16) :
    codeMapEntry (codeMapWord m) k.val = some m[k] := by
  have entry : (codeMapWord m >>> (2 * k.val)).setWidth 2 = m[k].code.setWidth 2 := by
    ext b hb
    simp [codeMapWord_bits m k hb]
  have value := congrArg BitVec.toNat entry
  rw [BitVec.toNat_setWidth, BitVec.toNat_setWidth] at value
  have small : m[k].code.toNat % 2 ^ 2 = m[k].code.toNat := by cases m[k] <;> rfl
  unfold codeMapEntry
  rw [show 4 = 2 ^ 2 from rfl, value, small, disposition_code]

theorem codeMapOf_codeMapWord (m : Vector Disposition 16) : codeMapOf (codeMapWord m) = some m := by
  have entries : ((List.range 16).all fun k => (codeMapEntry (codeMapWord m) k).isSome) = true := by
    rw [List.all_eq_true]
    intro k hk
    rw [codeMapEntry_codeMapWord m ⟨k, List.mem_range.1 hk⟩]
    rfl
  unfold codeMapOf
  rw [if_pos entries]
  refine congrArg some (Vector.ext fun k hk => ?_)
  rw [Vector.getElem_ofFn, codeMapEntry_codeMapWord m ⟨k, hk⟩]
  rfl

theorem setWidth_eq_idxByte (x : BitVec 4) : x.setWidth 8 = idxByte x.toFin := BitVec.eq_of_toNat_eq (by simp [idxByte])

/-- Table 10-10: a class record reads back as sent. -/
theorem classOfBytes_classBytes (i : Fin 16) (c : ClassRec) : classOfBytes (classBytes (idxByte i) c) = some (i, c) := by
  have word : u32 (classBytes (idxByte i) c) 4 = codeMapWord c.codeMap := u32_of_field rfl
  have required : asFin 16 (byteAt (classBytes (idxByte i) c) 2) = some c.required.toFin :=
    (congrArg (asFin 16) (setWidth_eq_idxByte c.required)).trans (asFin_idxByte_16 c.required.toFin)
  have fallback : byteAt (classBytes (idxByte i) c) 3 = c.fallback.code := rfl
  unfold classOfBytes
  rw [word, codeMapOf_codeMapWord, required, fallback, disposition_code]
  simp [classBytes]

/-! ## The obligation -/

/-- Settles O53: the fields of an item record, of the notices and of a probe record, then the records that read back. -/
theorem recordsOnTheLink : Obligations.RecordsOnTheLink := by
  unfold Obligations.RecordsOnTheLink
  refine ⟨fun p q r => ⟨le_two p, le_four q, le_six r⟩, fun it => ?_, fun t p g i o v cls it x => ?_, fun p => ?_,
    fun i r h => stationOfBytes_stationBytes i h, classOfBytes_classBytes, fun v r h => sourceOfBytes_sourceBytes v h,
    fun z h => zoneOfBytes_bytes h⟩
  · intro b _ flag n
    refine ⟨item_bytes_length it, item_tag it, ?_, ?_, item_entryPos it, item_correction it, item_entryTime it,
      item_length_absent, fun d => item_length_present, item_members it, ?_, item_deadline_absent,
      fun d => item_deadline_present, item_undecided, fun d => item_decided, ?_, fun h => ?_, fun h => ?_,
      fun k sl h => ?_, fun k e h => ?_⟩
    · exact (congrArg BitVec.toNat (item_cls it)).trans (idxByte_toNat _ (by decide))
    · simp only [flag, item_flags]
      exact itemFlags_byte_bits it.flags it.length.isSome
    · exact (congrArg BitVec.toNat (item_required it)).trans (BitVec.toNat_setWidth_of_le (by decide))
    · exact (congrArg BitVec.toNat (item_exit it)).trans (exitReason_code_toNat _)
    · exact (congrArg BitVec.toNat (item_slotCount it)).trans (count_toNat h (by decide))
    · exact (congrArg BitVec.toNat (item_outcomeCount it)).trans (count_toNat h (by decide))
    · obtain ⟨source, state⟩ := item_slot_bytes h
      simp only [b, source, state]
      exact ⟨idxByte_toNat _ (by decide), slotState_byte_toNat _⟩
    · obtain ⟨station, outcome⟩ := item_outcome_bytes h
      simp only [b, n, station, outcome]
      exact ⟨idxByte_toNat _ (by decide), stationOutcome_code_toNat _⟩
  · refine ⟨zoneState_frame t p, fun c cs => fault_frame t p c x cs, entry_frame t p g cls, decision_frame t p g,
      itemDone_frame t p it, missing_frame t p g i, stray_frame t p .entry, stray_frame t p (.station i),
      stray_frame t p (.source v), fireRefused_frame t g i o, probe_frame t p i, fun d held failures => ?_,
      fun r held mean least greatest status => ?_⟩
    · exact ⟨teachSample_frame t p .taken (some d) held failures, teachSample_frame t p .overlapped none held failures,
        teachSample_frame t p .span none held failures⟩
    · have validated : bitAt true 1 ||| bitAt false 2 ||| bitAt true 4 = 5 := by decide
      have applied : bitAt true 1 ||| bitAt x 2 ||| bitAt false 4 = if x then 3 else 1 := by cases x <;> rfl
      exact ⟨teachResult_frame t i r held (stats := some ⟨mean, least, greatest⟩) (validation := none)
          (st := ⟨mean, least, greatest⟩) (code := 0) rfl applied rfl,
        teachResult_frame t i r held (stats := some ⟨mean, least, greatest⟩) (validation := some status)
          (st := ⟨mean, least, greatest⟩) (flags := 5) rfl validated rfl,
        teachResult_frame_none t i r held⟩
  · intro head
    exact ⟨fun h => (probe_bytes_none h).trans (by rw [probe_head]),
      fun c h => (probe_bytes_some h).trans (by rw [probe_head])⟩

end Sys2Proof.Records
end

section
/-! SUPPORT and CERTIFICATES. Chapter 4 of the T24, stations, and CLASSIFY of chapter 5: the requests of the station
table, the processing of an item at a station that fires, checkpoint windows, a new class for an item. The rules come
first; the obligations they settle last. -/

namespace Sys2Proof.Stations

open Sys2Proof.Machine Sys2Proof.Safety Sys2Proof.Laws

/-! ## Changing stations and items -/

theorem modStation_modStation (i : Fin 8) (f g : Station → Station) (s : State) :
    (s.modStation i f).modStation i g = s.modStation i (g ∘ f) := by
  simp [State.modStation, State.modStn, modAt, Vector.set_set]

theorem modTrk_modStation (i : Fin 8) (f : TrkUnit → TrkUnit) (g : Station → Station) (s : State) :
    (s.modStation i g).modTrk f = (s.modTrk f).modStation i g := rfl

theorem modStation_same (i : Fin 8) (f : Station → Station) (s : State) :
    (s.modStation i f).stn.stations[i] = f s.stn.stations[i] := by simp

/-- Changing items by the tags of a list, one after another, changes each item of the track by itself. -/
theorem foldl_modItem {α : Type} (key : α → Tag) (f : α → Item → Item) (l : List α) (s : State) :
    l.foldl (fun s a => s.modItem (key a) (f a)) s =
      s.modTrk fun t =>
        { t with track := t.track.map fun it => l.foldl (fun x a => if x.tag = key a then f a x else x) it } := by
  induction l generalizing s with
  | nil => simp [State.modTrk]
  | cons a l ih =>
    rw [List.foldl_cons, ih]
    simp only [State.modItem, State.modTrk, List.map_map, List.foldl_cons]
    rfl

/-- R66: an entry that holds an outcome keeps it. -/
theorem record_record (it : Item) (i : Fin 8) {o : StationOutcome} (ho : o ≠ .pending) (o' : StationOutcome) :
    (it.record i o).record i o' = it.record i o := by
  unfold Item.record
  simp only [List.map_map]
  congr 1
  refine List.map_congr_left fun e _ => ?_
  by_cases he : e.station = i ∧ e.outcome = .pending
  · simp [he, ho]
  · simp [he]

/-! ## An item in its place in the track -/

section Place

variable {s : State} {older newer : List Item} {it : Item}

theorem mem_of_place (h : s.trk.track = older ++ it :: newer) : it ∈ s.trk.track := by
  rw [h]
  exact List.mem_append_right _ List.mem_cons_self

/-- R36: no other item of the track has the item's tag. -/
theorem tag_ne_of_place (items : ItemsOk s) (h : s.trk.track = older ++ it :: newer) :
    ∀ x ∈ older ++ newer, x.tag ≠ it.tag := by
  obtain ⟨-, nodup, -⟩ := items
  rw [tags, h, List.map_append, List.map_cons, List.nodup_middle, List.nodup_cons, ← List.map_append] at nodup
  exact fun x hx e => nodup.1 (e ▸ List.mem_map_of_mem hx)

theorem newerThan_append (h : ∀ x ∈ older, x.tag ≠ it.tag) :
    newerThan it.tag (older ++ it :: newer) = newer.head?.map Item.tag := by
  induction older with
  | nil => exact if_pos rfl
  | cons x older ih =>
    rw [List.cons_append, newerThan, if_neg (h x List.mem_cons_self)]
    exact ih fun y hy => h y (List.mem_cons_of_mem _ hy)

/-- 03 section 3.1: the next newer item. -/
theorem newerThan_place (items : ItemsOk s) (h : s.trk.track = older ++ it :: newer) :
    newerThan it.tag s.trk.track = newer.head?.map Item.tag := by
  rw [h]
  exact newerThan_append fun x hx => tag_ne_of_place items h x (List.mem_append_left _ hx)

end Place

/-! ## Replacing and deciding an item (R89 to R91) -/

section Replace

variable {s : State} {it jt : Item}

theorem replaceItem_tags (it : Item) (s : State) : tags (replaceItem it s) = tags s := by
  unfold tags replaceItem
  rw [List.map_map]
  refine List.map_congr_left fun x _ => ?_
  simp only [Function.comp]
  split
  · exact Eq.symm ‹_›
  · rfl

theorem replaceItem_self (items : ItemsOk s) (hm : it ∈ s.trk.track) : replaceItem it s = s :=
  (Position.modItem_eq_replaceItem items hm id rfl).symm.trans (by simp [State.modItem, State.modTrk])

theorem replaceItem_replaceItem (h : jt.tag = it.tag) : replaceItem jt (replaceItem it s) = replaceItem jt s := by
  have twice : ((s.trk.track.map fun x => if x.tag = it.tag then it else x).map fun x =>
      if x.tag = jt.tag then jt else x) = s.trk.track.map fun x => if x.tag = jt.tag then jt else x := by
    rw [List.map_map, h]
    refine List.map_congr_left fun x _ => ?_
    by_cases e : x.tag = it.tag <;> simp [e]
  exact congrArg (fun l => { s with trk := { s.trk with track := l } }) twice

theorem mem_replaceItem (hm : it ∈ s.trk.track) (h : jt.tag = it.tag) : jt ∈ (replaceItem jt s).trk.track :=
  List.mem_map.2 ⟨it, hm, if_pos h.symm⟩

theorem itemsOk_replaceItem (items : ItemsOk s) (hm : it ∈ s.trk.track) (tag : jt.tag = it.tag)
    (exit : jt.exit = it.exit) : ItemsOk (replaceItem jt s) := by
  obtain ⟨few, nodup, each, next⟩ := items
  refine ⟨by simpa [replaceItem] using few, by rwa [replaceItem_tags], fun x hx => ?_, next⟩
  obtain ⟨y, hy, rfl⟩ := List.mem_map.1 hx
  split
  · rw [tag, exit]
    exact each it hm
  · exact each y hy

theorem findItem_replaceItem (items : ItemsOk s) (hm : it ∈ s.trk.track) (tag : jt.tag = it.tag)
    (exit : jt.exit = it.exit) : (replaceItem jt s).findItem it.tag = some jt :=
  tag ▸ findItem_eq (itemsOk_replaceItem items hm tag exit) (mem_replaceItem hm tag)

end Replace

@[simp] theorem announceDecision_trk (it : Item) (r : Reason) (s : State) : (announceDecision it r s).trk = s.trk := by
  unfold announceDecision
  split <;> simp

theorem decidedItem_kept (it : Item) (r : Reason) (now : Time) :
    (decidedItem it r now).tag = it.tag ∧ (decidedItem it r now).exit = it.exit ∧
      (decidedItem it r now).snapshot = it.snapshot ∧ (decidedItem it r now).decision ≠ none := by
  unfold decidedItem
  split
  · exact ⟨rfl, rfl, rfl, nofun⟩
  · exact ⟨rfl, rfl, rfl, ‹_›⟩

/-- R89: all that a decision does. -/
theorem decideItem_eq {s : State} (items : ItemsOk s) {it : Item} (hm : it ∈ s.trk.track) (r : Reason) :
    decideItem it.tag r s = announceDecision it r (replaceItem (decidedItem it r s.now) s) := by
  unfold decideItem announceDecision decidedItem
  rw [findItem_eq items hm]
  dsimp only
  by_cases h : it.decision = none
  · rw [if_neg (by simp [h]), if_pos h, if_pos h,
      Position.modItem_eq_replaceItem items hm (fun x => { x with decision := some ⟨x.combine r, r, s.now⟩ }) rfl]
    rfl
  · rw [if_pos (Option.isSome_iff_ne_none.2 h), if_neg h, if_neg h, replaceItem_self items hm]

/-- R89: a decision on an item that has just been replaced. -/
theorem decideItem_replaceItem {s : State} (items : ItemsOk s) {it jt : Item} (hm : it ∈ s.trk.track)
    (tag : jt.tag = it.tag) (exit : jt.exit = it.exit) (r : Reason) :
    decideItem jt.tag r (replaceItem jt s) = announceDecision jt r (replaceItem (decidedItem jt r s.now) s) := by
  refine (decideItem_eq (itemsOk_replaceItem items hm tag exit) (mem_replaceItem hm tag) r).trans ?_
  rw [replaceItem_replaceItem (decidedItem_kept _ _ _).1]
  rfl

/-- R90: the item with every PENDING slot timed out. -/
def timeOutSlots (it : Item) : Item := { it with slots := it.slots.map Slot.timeOut }

theorem timeOutSlots_eq (it : Item) :
    timeOutSlots it =
      { it with
        slots := it.slots.map fun sl => if sl.state = .pending then { sl with state := .timedOut } else sl } := by
  refine congrArg (fun slots => { it with slots := slots }) (List.map_congr_left fun sl _ => ?_)
  unfold Slot.timeOut
  cases sl.state <;> simp

/-- R90, R91: a deadline that finds its item decided does nothing. -/
theorem takeDeadline_decided {s : State} (items : ItemsOk s) {it : Item} (hm : it ∈ s.trk.track)
    (h : it.decision ≠ none) : takeDeadline it.tag s = s := by
  unfold takeDeadline
  rw [findItem_eq items hm]
  exact if_pos (Option.isSome_iff_ne_none.2 h)

/-- R90: all that a deadline does to an undecided item. -/
theorem takeDeadline_undecided {s : State} (items : ItemsOk s) {it : Item} (hm : it ∈ s.trk.track)
    (h : it.decision = none) :
    takeDeadline it.tag s =
      announceDecision (timeOutSlots it) .deadline (replaceItem (decidedItem (timeOutSlots it) .deadline s.now) s) := by
  have slots : s.modItem it.tag (fun it => { it with slots := it.slots.map Slot.timeOut }) =
      replaceItem (timeOutSlots it) s := Position.modItem_eq_replaceItem items hm timeOutSlots rfl
  unfold takeDeadline
  rw [findItem_eq items hm]
  dsimp only
  rw [if_neg (by simp [h]), slots]
  exact decideItem_replaceItem (jt := timeOutSlots it) items hm rfl rfl .deadline

/-- R90: a deadline of an item that has just been replaced. -/
theorem takeDeadline_replaceItem {s : State} (items : ItemsOk s) {it jt : Item} (hm : it ∈ s.trk.track)
    (tag : jt.tag = it.tag) (exit : jt.exit = it.exit) (h : jt.decision = none) :
    takeDeadline jt.tag (replaceItem jt s) =
      announceDecision (timeOutSlots jt) .deadline (replaceItem (decidedItem (timeOutSlots jt) .deadline s.now) s) := by
  refine (takeDeadline_undecided (itemsOk_replaceItem items hm tag exit) (mem_replaceItem hm tag) h).trans ?_
  rw [replaceItem_replaceItem (it := jt) (decidedItem_kept (timeOutSlots jt) _ _).1]
  rfl

/-- R90: the item is decided once its deadline has been taken; its tag and its class snapshot stay. -/
theorem takeDeadline_leaves {s : State} (items : ItemsOk s) {it : Item} (hm : it ∈ s.trk.track)
    (h : it.decision = none) :
    ∃ jt ∈ (takeDeadline it.tag s).trk.track,
      jt.tag = it.tag ∧ jt.snapshot = it.snapshot ∧ jt.decision ≠ none := by
  obtain ⟨tag, -, snapshot, decided⟩ := decidedItem_kept (timeOutSlots it) .deadline s.now
  refine ⟨_, ?_, tag, snapshot, decided⟩
  rw [takeDeadline_undecided items hm h, announceDecision_trk]
  exact mem_replaceItem hm tag

/-! ## Requests -/

section Requests

variable {s : State} (tag : Byte) (p : List Byte)

theorem exec_loadStations_taken (h : Taken s) : exec (.loadStations tag p) s = .next (reqLoadStations tag p s) :=
  congrArg _ (takeFrame_taken h)

theorem exec_setStationMode_taken (h : Taken s) : exec (.setStationMode tag p) s = .next (reqSetStationMode tag p s) :=
  congrArg _ (takeFrame_taken h)

theorem exec_readStation_taken (h : Taken s) : exec (.readStation tag p) s = .next (reqReadStation tag p s) :=
  congrArg _ (takeFrame_taken h)

theorem exec_classify_taken (h : Taken s) : exec (.classify tag p) s = .next (reqClassify tag p s) :=
  congrArg _ (takeFrame_taken h)

end Requests

/-! ## Reading a station record (R57) -/

/-- The fault that refutes O26: in `StationKind.ofByte` the `none` of the last arm is the kind NONE, so that a kind code
above 4, which R57 refuses, reads as kind NONE. -/
theorem stationKind_beyond {b : Byte} (h : 5 ≤ b.toNat) : StationKind.ofByte b = some .none := by
  unfold StationKind.ofByte
  split
  case h_6 => rfl
  all_goals omega

/-- The record NONE of station 0, its kind code replaced by 5. -/
def kindFive : List Byte := [0, 5, 0, 255] ++ List.replicate 12 0

theorem stationOfBytes_kindFive : stationOfBytes kindFive 0 = some (0, .none) := by
  have kind : StationKind.ofByte (byteAt kindFive 1) = some .none := stationKind_beyond (by decide)
  unfold stationOfBytes
  rw [kind]
  rfl

/-! ## LOAD_STATIONS (R59 to R61) -/

/-- R60: the record in force for an index, as a reply carries it. -/
theorem stationReply_some {b : Byte} {i : Fin 8} (h : asFin 8 b = some i) (s : State) :
    stationReply b s = stationBytes (idxByte i) s.stn.stations[i].record := by
  rw [stationReply, h, idxByte_of_asFin h]

/-- R60: zeros behind an index out of range. -/
theorem stationReply_none {b : Byte} (h : asFin 8 b = none) (s : State) :
    stationReply b s = b :: List.replicate 15 0 := by
  rw [stationReply, h]

/-- R60: the record at place `k` of a payload passes both checks in `s`, and `t` is the state once it is applied. -/
def Applies (p : List Byte) (k : Nat) (s t : State) : Prop :=
  ∃ i r, stationOfBytes p (16 * k) = some (i, r) ∧ stationValid s i r = true ∧ t = installStation i r s

/-- R60: the record at place `k` of a payload fails in `s` with status `bad`. -/
def Fails (p : List Byte) (k : Nat) (s : State) (bad : Status) : Prop :=
  (bad = .badValue ∧ stationOfBytes p (16 * k) = none) ∨
    (bad = .conflict ∧ ∃ i r, stationOfBytes p (16 * k) = some (i, r) ∧ stationValid s i r = false)

section Load

variable {p : List Byte} {k : Nat} {s t : State}

theorem loadFrom_applies (h : Applies p k s t) (n : Nat) : loadFrom p (n + 1) k s = loadFrom p n (k + 1) t := by
  obtain ⟨i, r, read, valid, rfl⟩ := h
  simp only [loadFrom, read, if_pos valid]

theorem loadFrom_fails {bad : Status} (h : Fails p k s bad) (n : Nat) :
    loadFrom p (n + 1) k s = ⟨s, k, some (k, bad)⟩ := by
  obtain ⟨rfl, read⟩ | ⟨rfl, i, r, read, invalid⟩ := h
  · simp only [loadFrom, read]
  · simp only [loadFrom, read, if_neg (Bool.eq_false_iff.1 invalid)]

/-- R60: the records up to place `m` are applied one after another. -/
theorem loadFrom_run {st : Nat → State} {m : Nat} (h : ∀ k < m, Applies p k (st k) (st (k + 1))) (n : Nat) :
    loadFrom p (m + n) 0 (st 0) = loadFrom p n m (st m) := by
  induction m generalizing n with
  | zero => rw [Nat.zero_add]
  | succ m ih =>
    rw [Nat.add_right_comm, Nat.add_assoc, ih (fun k hk => h k (Nat.lt_succ_of_lt hk)) (n + 1)]
    exact loadFrom_applies (h m m.lt_succ_self) n

end Load

/-- R59: a full form carries one to eight records. -/
theorem loadLengthOk_iff (len : Nat) : loadLengthOk len = true ↔ ∃ n, len = 16 * n ∧ 1 ≤ n ∧ n ≤ 8 := by
  simp only [loadLengthOk, Bool.and_eq_true, decide_eq_true_eq]
  constructor
  · rintro ⟨⟨whole, least⟩, most⟩
    exact ⟨len / 16, by omega, least, most⟩
  · rintro ⟨n, rfl, least, most⟩
    omega

/-! ## SET_STATION_MODE (R62, R77, R78) -/

theorem modeOfPayload_none {a b : Byte} (h : 8 ≤ a.toNat ∨ 3 ≤ b.toNat) : modeOfPayload [a, b] = none := by
  obtain h | h := h
  · simp [modeOfPayload, asFin_none h]
  · simp [modeOfPayload, stationMode_none h]

theorem modeOfPayload_codes (i : Fin 8) (m : StationMode) : modeOfPayload [idxByte i, m.code] = some (i, m) := by
  simp [modeOfPayload]

/-- R77: what the close of its window by a change to DISABLED records in an item. -/
def disabledBy (i : Fin 8) (w : CheckWindow) (it : Item) : Item :=
  if it.snapshot.hasMember i then it.record i (if w.confirmed then .confirmed else .disabled) else it

theorem disabledBy_disabledBy (i : Fin 8) (w w' : CheckWindow) (it : Item) :
    disabledBy i w' (disabledBy i w it) = disabledBy i w it := by
  unfold disabledBy
  by_cases member : it.snapshot.hasMember i = true
  · rw [if_pos member, if_pos (by exact member), record_record it i (by split <;> simp)]
  · rw [if_neg member, if_neg member]

/-- R77: what the closes of a station's windows record in an item: the oldest of its windows gives the outcome. -/
def closedBy (i : Fin 8) (ws : List CheckWindow) (it : Item) : Item :=
  ((ws.find? fun w => w.tag = it.tag).map fun w => disabledBy i w it).getD it

theorem foldl_disabledBy (i : Fin 8) (ws : List CheckWindow) (it : Item) :
    ws.foldl (fun x w => if x.tag = w.tag then disabledBy i w x else x) it = closedBy i ws it := by
  have absorbed : ∀ (ws : List CheckWindow) (w : CheckWindow),
      ws.foldl (fun x w => if x.tag = w.tag then disabledBy i w x else x) (disabledBy i w it) = disabledBy i w it := by
    intro ws w
    induction ws with
    | nil => rfl
    | cons w' ws ih => rw [List.foldl_cons, disabledBy_disabledBy, ite_self, ih]
  unfold closedBy
  induction ws with
  | nil => rfl
  | cons w ws ih =>
    by_cases h : it.tag = w.tag
    · rw [List.foldl_cons, if_pos h, absorbed, List.find?_cons_of_pos (by simp [h])]
      rfl
    · rw [List.foldl_cons, if_neg h, ih, List.find?_cons_of_neg (by simp [Ne.symm h])]

/-- R77: all that the closes of a change to DISABLED do. -/
theorem disableClose_eq (i : Fin 8) (s : State) :
    disableClose i s =
      (s.modTrk fun t => { t with track := t.track.map (closedBy i s.stn.stations[i].windows) }).modStation i
        fun st => { st with windows := [] } := by
  have folded : closedBy i s.stn.stations[i].windows = _ := funext fun it => (foldl_disabledBy i _ it).symm
  rw [folded, ← foldl_modItem CheckWindow.tag (disabledBy i)]
  rfl

/-- R77: a change of mode to `m` closes the windows of a station. -/
def ModeCloses (s : State) (i : Fin 8) (m : StationMode) : Prop :=
  s.stn.stations[i].record.kind = .check ∧ s.stn.stations[i].record.mode ≠ .disabled ∧ m = .disabled ∧ Tracks s

theorem modeCloses_iff (s : State) (i : Fin 8) (m : StationMode) :
    (s.stn.stations[i].record.kind = .check && s.stn.stations[i].record.mode ≠ .disabled && m = .disabled
      && s.zon.zone.tracks) = true ↔ ModeCloses s i m := by
  simp only [Bool.and_eq_true, decide_eq_true_eq, Position.tracks_iff, and_assoc, ModeCloses]

/-- R62: all that a change of mode does when it closes no window. -/
theorem changeMode_quiet {i : Fin 8} {m : StationMode} {s : State} (h : ¬ModeCloses s i m) :
    changeMode i m s = s.modStation i fun st => { st with record := { st.record with mode := m } } :=
  if_neg (mt (modeCloses_iff s i m).1 h)

/-- R62, R77: all that a change of mode does when it closes the windows. -/
theorem changeMode_closes {i : Fin 8} {m : StationMode} {s : State} (h : ModeCloses s i m) :
    changeMode i m s =
      (s.modTrk fun t => { t with track := t.track.map (closedBy i s.stn.stations[i].windows) }).modStation i
        fun st => { st with record := { st.record with mode := m }, windows := [] } := by
  have closes : changeMode i m s =
      disableClose i (s.modStation i fun st => { st with record := { st.record with mode := m } }) :=
    if_pos ((modeCloses_iff s i m).2 h)
  rw [closes, disableClose_eq, modStation_same, modTrk_modStation, modStation_modStation]
  rfl

/-- R62: a station of kind NONE takes no mode but DISABLED. -/
theorem reqSetStationMode_conflict (tag : Byte) {i : Fin 8} {m : StationMode} {s : State}
    (h : m ≠ .disabled ∧ s.stn.stations[i].record.kind = .none) :
    reqSetStationMode tag [idxByte i, m.code] s = answer 0x15 tag .conflict [] s := by
  unfold reqSetStationMode
  rw [if_neg (by simp), modeOfPayload_codes]
  dsimp only
  rw [if_pos (by simpa using h)]

/-- R62: the reply to a taken SET_STATION_MODE carries the kind in force and the new mode. -/
theorem reqSetStationMode_taken (tag : Byte) {i : Fin 8} {m : StationMode} {s : State}
    (h : ¬(m ≠ .disabled ∧ s.stn.stations[i].record.kind = .none)) :
    reqSetStationMode tag [idxByte i, m.code] s =
      answer 0x15 tag .ok [idxByte i, s.stn.stations[i].record.kind.code, m.code] (changeMode i m s) := by
  have record : (changeMode i m s).stn.stations[i].record = { s.stn.stations[i].record with mode := m } := by
    unfold changeMode
    dsimp only
    split
    · rw [(disableClose_work i _).stationRecords, modStation_same]
    · rw [modStation_same]
  unfold reqSetStationMode
  rw [if_neg (by simp), modeOfPayload_codes]
  dsimp only
  rw [if_neg (by simpa using h), record]

/-! ## READ_STATION (R63, R70) -/

theorem optTag_none : optTag none = [0, 0, 0] := rfl

theorem optTag_some (g : Tag) : optTag (some g) = 1 :: le 2 g := rfl

/-! ## What a station does with a member item (R67, Table 4-4) -/

section Choice

variable {r : StationRec} {d : Option Disposition} {z : ZoneState} {h : HoldPolicy}

theorem sorts_iff (k : StationKind) : k.sorts = true ↔ k = .eject ∨ k = .mark := by
  simp [StationKind.sorts]

theorem fireChoice_disabled (mode : r.mode = .disabled) : fireChoice r d z h = .record .disabled := if_pos mode

variable (kind : (r.kind = .eject ∨ r.kind = .mark) ∨ r.kind = .trigger)

include kind

/-- Table 4-4: a TRIGGER station acts on every disposition, an EJECT or MARK station on its target. -/
theorem notTarget_iff : (r.kind.sorts && d ≠ r.target) = true ↔ ¬(r.kind = .trigger ∨ d = r.target) := by
  rw [Bool.and_eq_true, sorts_iff, decide_eq_true_eq]
  obtain (kind | kind) | kind := kind <;> simp [kind]

theorem fireChoice_notTarget (mode : r.mode ≠ .disabled) (other : ¬(r.kind = .trigger ∨ d = r.target)) :
    fireChoice r d z h = .record .notTarget := by
  rw [fireChoice, if_neg mode, if_pos ((notTarget_iff kind).2 other)]

theorem fireChoice_wouldFire (mode : r.mode = .observe) (target : r.kind = .trigger ∨ d = r.target) :
    fireChoice r d z h = .record .wouldFire := by
  rw [fireChoice, if_neg (by simp [mode]), if_neg (mt (notTarget_iff kind).1 (not_not.2 target)), if_pos mode]

theorem fireChoice_active (mode : r.mode = .active) (target : r.kind = .trigger ∨ d = r.target) :
    fireChoice r d z h = if z = .fault ∨ (z = .hold ∧ h = .safe) then .record .suppressed else .claim := by
  rw [fireChoice, if_neg (by simp [mode]), if_neg (mt (notTarget_iff kind).1 (not_not.2 target)),
    if_neg (by simp [mode])]
  simp only [Bool.or_eq_true, Bool.and_eq_true, decide_eq_true_eq]

end Choice

/-! ## Processing at a station that fires (R64 to R69) -/

section Process

variable {s : State} {i : Fin 8} {late : Bool} {older newer : List Item} {it : Item}

/-- R64: the cursor advances to the next newer item of the track as it stands. -/
theorem advanceCursor_place {t : State} (items : ItemsOk s) (h : s.trk.track = older ++ it :: newer)
    (same : tags t = tags s) :
    advanceCursor i it.tag t = t.modStation i fun st => { st with cursor := newer.head?.map Item.tag } := by
  unfold advanceCursor
  rw [newerThan_tags it.tag same, newerThan_place items h]

theorem deadlineFirst_sorts (h : s.stn.stations[i].record.kind = .eject ∨ s.stn.stations[i].record.kind = .mark)
    (tag : Tag) : deadlineFirst i tag s = takeDeadline tag s :=
  if_pos ((sorts_iff _).2 h)

/-- R66: an item that is not a member is skipped. -/
theorem processStation_skips (items : ItemsOk s) (hm : it ∈ s.trk.track)
    (cursor : s.stn.stations[i].cursor = some it.tag) (out : it.snapshot.hasMember i = false) :
    processStation i late s = advanceCursor i it.tag s := by
  simp only [processStation, cursor, findItem_eq items hm]
  exact if_neg (by simp [out])

/-- R66: a member item has its deadline taken first and is then given its outcome. -/
theorem processStation_member (items : ItemsOk s) (hm : it ∈ s.trk.track)
    (cursor : s.stn.stations[i].cursor = some it.tag) (member : it.snapshot.hasMember i = true) :
    processStation i late s =
      advanceCursor i it.tag
        (stationOutcome i (((deadlineFirst i it.tag s).findItem it.tag).getD it) late (deadlineFirst i it.tag s)) := by
  simp only [processStation, cursor, findItem_eq items hm]
  exact if_pos member

/-- R66: an item that needs no deadline taken is given its outcome at once, and the cursor advances. -/
theorem processStation_settled (items : ItemsOk s) (h : s.trk.track = older ++ it :: newer)
    (cursor : s.stn.stations[i].cursor = some it.tag) (member : it.snapshot.hasMember i = true)
    (settled : s.stn.stations[i].record.kind.sorts = true → it.decision ≠ none) :
    processStation i late s =
      (stationOutcome i it late s).modStation i fun st => { st with cursor := newer.head?.map Item.tag } := by
  have hm := mem_of_place h
  have first : deadlineFirst i it.tag s = s := by
    unfold deadlineFirst
    split
    · exact takeDeadline_decided items hm (settled ‹_›)
    · rfl
  rw [processStation_member items hm cursor member, first, findItem_eq items hm]
  exact advanceCursor_place items h (stationOutcome_fires i it late items).sameTags

/-- R66: once the deadline of an undecided item has been taken, the station goes on as it does with a decided one. -/
theorem processStation_deadline (items : ItemsOk s) (hm : it ∈ s.trk.track)
    (cursor : s.stn.stations[i].cursor = some it.tag) (member : it.snapshot.hasMember i = true)
    (sorts : s.stn.stations[i].record.kind = .eject ∨ s.stn.stations[i].record.kind = .mark)
    (undecided : it.decision = none) :
    processStation i late s = processStation i late (takeDeadline it.tag s) := by
  obtain ⟨jt, there, tag, snapshot, decided⟩ := takeDeadline_leaves items hm undecided
  obtain ⟨items1, stations⟩ : ItemsOk (takeDeadline it.tag s) ∧ (takeDeadline it.tag s).stn = s.stn :=
    have fires := takeDeadline_fires (i := i) it.tag items
    ⟨fires.ok, fires.stations⟩
  have found : (takeDeadline it.tag s).findItem it.tag = some jt := tag ▸ findItem_eq items1 there
  have again : takeDeadline it.tag (takeDeadline it.tag s) = takeDeadline it.tag s :=
    tag ▸ takeDeadline_decided items1 there decided
  have next : processStation i late (takeDeadline it.tag s) =
      advanceCursor i it.tag (stationOutcome i jt late (takeDeadline it.tag s)) := by
    rw [processStation_member items1 there (by rw [stations, cursor, tag]) (by rw [snapshot, member]), tag,
      deadlineFirst_sorts (by rwa [stations]), again, found]
    rfl
  rw [next, processStation_member items hm cursor member, deadlineFirst_sorts sorts, found]
  rfl

/-! ## The outcome of an item at a station (R67 to R69) -/

/-- R67: what a station does with an item, in the state as it stands. -/
def choiceFor (s : State) (i : Fin 8) (it : Item) : FireChoice :=
  fireChoice s.stn.stations[i].record (it.decision.map Decision.disposition) s.zon.zone s.zon.holdPolicy

/-- R67: an outcome other than SUPPRESSED is recorded and nothing else happens. -/
theorem stationOutcome_records (items : ItemsOk s) (hm : it ∈ s.trk.track) {o : StationOutcome}
    (choice : choiceFor s i it = .record o) (ho : o ≠ .suppressed) :
    stationOutcome i it late s = replaceItem (it.record i o) s := by
  have recorded : s.modItem it.tag (fun x => x.record i o) = replaceItem (it.record i o) s :=
    Position.modItem_eq_replaceItem items hm _ rfl
  unfold choiceFor at choice
  rw [stationOutcome, choice, ← recorded]
  cases o
  case suppressed => contradiction
  all_goals rfl

/-- R67: a SUPPRESSED item is flagged UNSERVED. -/
theorem stationOutcome_suppresses (items : ItemsOk s) (hm : it ∈ s.trk.track)
    (choice : choiceFor s i it = .record .suppressed) :
    stationOutcome i it late s =
      replaceItem { it.record i .suppressed with flags := { it.flags with unserved := true } } s := by
  unfold choiceFor at choice
  rw [stationOutcome, choice]
  exact Position.modItem_eq_replaceItem items hm
    (fun x => { x.record i .suppressed with flags := { x.flags with unserved := true } }) rfl

/-- R68: an item that a station fires for has the station's output claimed. -/
theorem stationOutcome_claims (choice : choiceFor s i it = .claim) :
    stationOutcome i it late s = fireStation i it late s := by
  unfold choiceFor at choice
  rw [stationOutcome, choice]

section Fire

variable {o : Fin 8}

/-- R108: OUT's answer to the claim of a station for an item. -/
def claimFor (s : State) (i : Fin 8) (it : Item) (o : Fin 8) : Output × Option RefusalReason :=
  s.out.outputs[o].claim s.stn.stations[i].record.pulse (.station i it.tag) s.pos.timeBase

/-- R108: the state once OUT has answered. -/
def claimed (s : State) (i : Fin 8) (it : Item) (o : Fin 8) : State := s.modOutput o fun _ => (claimFor s i it o).1

/-- R68: a refused claim is recorded and noticed. -/
theorem fireStation_refused (items : ItemsOk s) (hm : it ∈ s.trk.track)
    (output : s.stn.stations[i].record.output = some o) {reason : RefusalReason}
    (h : (claimFor s i it o).2 = some reason) :
    fireStation i it late s =
      offer (.fireRefused s.pos.timeBase i it.tag o reason)
        (replaceItem (it.record i .refused) (claimed s i it o)) := by
  have answer : (claimOutput o s.stn.stations[i].record.pulse (.station i it.tag) s).2 = some reason := h
  unfold fireStation
  simp only [output, answer]
  exact congrArg _ (Position.modItem_eq_replaceItem (s := claimed s i it o) items hm (fun x => x.record i .refused) rfl)

/-- R68, R69: a claim that is not refused is recorded, and a TRIGGER hands the item to VRD. -/
theorem fireStation_fires (items : ItemsOk s) (hm : it ∈ s.trk.track)
    (output : s.stn.stations[i].record.output = some o) (h : (claimFor s i it o).2 = none) :
    let fired := replaceItem (it.record i (if late then .firedLate else .fired)) (claimed s i it o)
    fireStation i it late s =
      if s.stn.stations[i].record.kind = .trigger then
        openLineWindows i it.tag (it.entryPos + s.stn.stations[i].record.offset) fired
      else fired := by
  intro fired
  have answer : (claimOutput o s.stn.stations[i].record.pulse (.station i it.tag) s).2 = none := h
  have record : (claimed s i it o).modItem it.tag (fun x => x.record i (if late then .firedLate else .fired)) = fired :=
    Position.modItem_eq_replaceItem (s := claimed s i it o) items hm _ rfl
  unfold fireStation
  simp only [output, answer]
  rw [← record]
  rfl

end Fire

end Process

/-! ## Checkpoint windows (R71, R75, R76) -/

section Checkpoint

variable {s : State} {i : Fin 8} {older newer : List Item} {it : Item}

/-- R71: the opening cursor advances to the next newer item. -/
def openingTo (newer : List Item) (st : Station) : Station := { st with opening := newer.head?.map Item.tag }

/-- R71: at a DISABLED station an opening records DISABLED for a member and opens no window. -/
theorem openOne_disabled (items : ItemsOk s) (h : s.trk.track = older ++ it :: newer)
    (cursor : s.stn.stations[i].opening = some it.tag) (mode : s.stn.stations[i].record.mode = .disabled) :
    openOne i s =
      (if it.snapshot.hasMember i then replaceItem (it.record i .disabled) s else s).modStation i
        (openingTo newer) := by
  have hm := mem_of_place h
  simp only [openOne, cursor, findItem_eq items hm, newerThan_place items h]
  rw [if_pos mode, Position.modItem_eq_replaceItem items hm (fun x => x.record i .disabled) rfl]
  rfl

/-- R71: elsewhere an opening appends a window. -/
theorem openOne_opens (items : ItemsOk s) (h : s.trk.track = older ++ it :: newer)
    (cursor : s.stn.stations[i].opening = some it.tag) (mode : s.stn.stations[i].record.mode ≠ .disabled) :
    openOne i s =
      s.modStation i fun st =>
        openingTo newer
          { st with
            windows := st.windows ++
              [⟨it.tag, it.entryPos + s.stn.stations[i].record.offset
                  + s.stn.stations[i].record.tolerance.setWidth 32, false, s.stn.stations[i].record.mode⟩] } := by
  simp only [openOne, cursor, findItem_eq items (mem_of_place h), newerThan_place items h]
  rw [if_neg mode, modStation_modStation]
  rfl

/-- R75: the window of an item is gone. -/
def withoutWindow (i : Fin 8) (tag : Tag) (s : State) : State :=
  s.modStation i fun st => { st with windows := st.windows.filter fun x => x.tag ≠ tag }

theorem withoutWindow_record (i : Fin 8) (tag : Tag) (s : State) :
    (withoutWindow i tag s).stn.stations[i].record = s.stn.stations[i].record := by
  rw [withoutWindow, modStation_same]

/-- R75: the one window of an item is the one its close finds. -/
theorem find?_unique {ws : List CheckWindow} {w : CheckWindow} (hw : w ∈ ws)
    (unique : ∀ x ∈ ws, x.tag = w.tag → x = w) : (ws.find? fun x => x.tag = w.tag) = some w := by
  cases found : ws.find? fun x => x.tag = w.tag with
  | none => simpa using List.find?_eq_none.1 found w hw
  | some x => rw [unique x (List.mem_of_find?_eq_some found) (by simpa using List.find?_some found)]

/-- R75: what the close of an item's window does. -/
theorem closeWindow_eq (items : ItemsOk s) (hm : it ∈ s.trk.track) {w : CheckWindow}
    (hw : w ∈ s.stn.stations[i].windows) (tag : w.tag = it.tag)
    (unique : ∀ x ∈ s.stn.stations[i].windows, x.tag = it.tag → x = w) :
    closeWindow i it.tag s =
      if it.snapshot.hasMember i = true ∧ it.outcomeAt i = some .pending then
        if w.confirmed then replaceItem (it.record i .confirmed) (withoutWindow i it.tag s)
        else missItem i w (withoutWindow i it.tag s)
      else withoutWindow i it.tag s := by
  have found : (s.stn.stations[i].windows.find? fun x => x.tag = it.tag) = some w :=
    tag ▸ find?_unique hw (tag ▸ unique)
  have confirmed : (withoutWindow i it.tag s).modItem it.tag (fun x => x.record i .confirmed) =
      replaceItem (it.record i .confirmed) (withoutWindow i it.tag s) :=
    Position.modItem_eq_replaceItem (s := withoutWindow i it.tag s) items hm _ rfl
  simp only [closeWindow, found, findItem_eq items hm, Bool.and_eq_true, decide_eq_true_eq]
  rw [← confirmed]
  rfl

/-- R75, R76: a missed item is flagged and noticed, and the policy of the station acts for an ACTIVE window. -/
theorem missItem_eq (items : ItemsOk s) (hm : it ∈ s.trk.track) {w : CheckWindow} (tag : w.tag = it.tag) :
    let missed := offer (.missing s.now i it.tag (w.closePos - s.stn.stations[i].record.tolerance.setWidth 32) w.mode)
      (replaceItem { it.record i .missed with flags := { it.flags with missing := true } } s)
    missItem i w s =
      if w.mode = .active then missingPolicy s.stn.stations[i].record.policy it.tag missed else missed := by
  have recorded : s.modItem it.tag (fun x => { x.record i .missed with flags := { x.flags with missing := true } }) =
      replaceItem { it.record i .missed with flags := { it.flags with missing := true } } s :=
    Position.modItem_eq_replaceItem items hm _ rfl
  rw [← recorded, missItem, tag]

end Checkpoint

/-! ## CLASSIFY (R80, R100 to R103) -/

/-- R80: a cursor on a newer item has passed an item. -/
theorem olderInTrack_iff {older newer : List Item} {it : Item} (h : ((older ++ it :: newer).map Item.tag).Nodup)
    (g : Tag) :
    olderInTrack it.tag g (older ++ it :: newer) = true ↔ ∃ x ∈ newer, g = x.tag := by
  induction older with
  | nil =>
    have itself : it.tag ∉ newer.map Item.tag := (List.nodup_cons.1 h).1
    rw [List.nil_append, olderInTrack]
    by_cases e : it.tag = g
    · subst e
      simpa [eq_comm] using itself
    · rw [if_neg e, if_pos rfl, List.any_eq_true]
      simp only [decide_eq_true_eq, eq_comm (a := g)]
  | cons y older ih =>
    obtain ⟨first, rest⟩ := List.nodup_cons.1 h
    rw [List.cons_append, olderInTrack]
    by_cases e : y.tag = g
    · subst e
      rw [if_pos rfl]
      refine iff_of_false Bool.false_ne_true ?_
      rintro ⟨x, hx, e⟩
      exact first (e ▸ List.mem_map_of_mem (List.mem_append_right _ (List.mem_cons_of_mem _ hx)))
    · have other : y.tag ≠ it.tag := fun e =>
        first (e ▸ List.mem_map_of_mem (List.mem_append_right _ List.mem_cons_self))
      rw [if_neg e, if_neg other]
      exact ih rest

/-- R80: a cursor has passed an item when it holds none or stands on a newer one. -/
theorem cursorPassed_iff {s : State} (items : ItemsOk s) {older newer : List Item} {it : Item}
    (h : s.trk.track = older ++ it :: newer) (cursor : Option Tag) :
    cursorPassed s.trk.track it.tag cursor = true ↔ cursor = none ∨ ∃ x ∈ newer, cursor = some x.tag := by
  cases cursor with
  | none => simp [cursorPassed]
  | some g =>
    obtain ⟨-, nodup, -⟩ := items
    rw [tags, h] at nodup
    rw [h]
    simpa [cursorPassed] using olderInTrack_iff nodup g

/-- R80: a CHECK station has passed an item when its opening cursor has and no window of the item is open. -/
theorem passed_iff (st : Station) (track : List Item) (tag : Tag) :
    st.passed track tag = true ↔
      (st.record.kind = .check → cursorPassed track tag st.opening = true ∧ ∀ w ∈ st.windows, w.tag ≠ tag) ∧
        (st.record.kind ≠ .check → cursorPassed track tag st.cursor = true) := by
  unfold Station.passed
  by_cases check : st.record.kind = .check <;> simp [check]

theorem defined_eq (r : StationRec) : r.defined = (r.kind != .none) := by
  unfold StationRec.defined
  cases r.kind <;> rfl

section Classify

variable {s : State} {it : Item} {p : List Byte}

/-- R100: the fields of a reply for an item of the track. -/
theorem classifyFields_found (h : s.findItem (u16 p 0) = some it) :
    classifyFields p s = classifyEcho p ++ idxByte it.cls :: decisionBytes it.decision := by
  simp only [classifyFields, h]

/-- R103: the deadline of an item is reached. -/
def DeadlineDue (it : Item) (here : Pos) : Prop := ∃ d, it.deadline = some d ∧ ahead d here = false

theorem deadlineDue_iff (it : Item) (here : Pos) :
    (it.deadline.any fun d => !ahead d here) = true ↔ DeadlineDue it here := by
  unfold DeadlineDue
  cases it.deadline <;> simp

section Decision

variable {cls : Fin 16} {it1 : Item} {s1 : State} (items : ItemsOk s) (hm : it ∈ s.trk.track)
  (rebuilt : reclassified s cls it = it1) (dropped : dropWindows it.tag s.vrd.classes[cls] s = s1)

include items hm rebuilt dropped

/-- R101, R102: the rebuilt item is in the track before the decision of R103 is looked for. -/
theorem applyClassify_eq : applyClassify it cls s = settleClassify it1 (replaceItem it1 s1) := by
  subst rebuilt dropped
  have replaced : s.modItem it.tag (fun _ => reclassified s cls it) = replaceItem (reclassified s cls it) s :=
    Position.modItem_eq_replaceItem items hm _ rfl
  unfold applyClassify
  dsimp only
  rw [replaced]
  rfl

/-- R89, R103: a decision on the rebuilt item. -/
theorem decideItem_rebuilt (r : Reason) :
    decideItem it1.tag r (replaceItem it1 s1) = announceDecision it1 r (replaceItem (decidedItem it1 r s.now) s1) := by
  subst rebuilt dropped
  exact decideItem_replaceItem (s := dropWindows it.tag s.vrd.classes[cls] s) (jt := reclassified s cls it) items hm
    rfl rfl r

/-- R90, R103: a deadline of the rebuilt item. -/
theorem takeDeadline_rebuilt (undecided : it.decision = none) :
    takeDeadline it1.tag (replaceItem it1 s1) =
      announceDecision (timeOutSlots it1) .deadline
        (replaceItem (decidedItem (timeOutSlots it1) .deadline s.now) s1) := by
  subst rebuilt dropped
  exact takeDeadline_replaceItem (s := dropWindows it.tag s.vrd.classes[cls] s) (jt := reclassified s cls it) items hm
    rfl rfl undecided

/-- R103: a class that requires no verdict decides the item at once. -/
theorem applyClassify_noneRequired (required : it1.snapshot.required = 0) :
    applyClassify it cls s =
      announceDecision it1 .noneRequired (replaceItem (decidedItem it1 .noneRequired s.now) s1) := by
  rw [applyClassify_eq items hm rebuilt dropped, settleClassify, if_pos required]
  exact decideItem_rebuilt items hm rebuilt dropped _

variable (required : it1.snapshot.required ≠ 0)

include required

/-- R103: else a deadline that is already reached is taken. -/
theorem applyClassify_deadline (undecided : it.decision = none) (due : DeadlineDue it1 s1.here) :
    applyClassify it cls s =
      announceDecision (timeOutSlots it1) .deadline
        (replaceItem (decidedItem (timeOutSlots it1) .deadline s.now) s1) := by
  rw [applyClassify_eq items hm rebuilt dropped, settleClassify, if_neg required]
  refine (if_pos ((deadlineDue_iff _ _).2 due)).trans ?_
  exact takeDeadline_rebuilt items hm rebuilt dropped undecided

variable (early : ¬DeadlineDue it1 s1.here)

include early

/-- R103: else an item all of whose slots are set is complete. -/
theorem applyClassify_complete (set : it1.allSet = true) :
    applyClassify it cls s = announceDecision it1 .complete (replaceItem (decidedItem it1 .complete s.now) s1) := by
  rw [applyClassify_eq items hm rebuilt dropped, settleClassify, if_neg required]
  refine ((if_neg (mt (deadlineDue_iff _ _).1 early)).trans (if_pos set)).trans ?_
  exact decideItem_rebuilt items hm rebuilt dropped _

/-- R103: else the item stays UNDECIDED. -/
theorem applyClassify_undecided (unset : it1.allSet = false) : applyClassify it cls s = replaceItem it1 s1 := by
  rw [applyClassify_eq items hm rebuilt dropped, settleClassify, if_neg required]
  exact (if_neg (mt (deadlineDue_iff _ _).1 early)).trans (if_neg (by simp [unset]))

end Decision

/-- R100, R89: what the reply to a CLASSIFY that has brought a decision about says of the item. -/
theorem findItem_announced {jt : Item} (items : ItemsOk s) (hm : it ∈ s.trk.track) (tag : jt.tag = it.tag)
    (exit : jt.exit = it.exit) (r : Reason) (now : Time) :
    (announceDecision jt r (replaceItem (decidedItem jt r now) s)).findItem it.tag = some (decidedItem jt r now) := by
  obtain ⟨tagD, exitD, -, -⟩ := decidedItem_kept jt r now
  have found := findItem_replaceItem items hm (tagD.trans tag) (exitD.trans exit)
  unfold State.findItem at *
  rwa [announceDecision_trk]

end Classify

section Checks

variable (tag : Byte) {p : List Byte} {s : State} (len : p.length = 3) (tracks : Tracks s)

include len tracks

/-- R100: a tag of 0, or a class out of range. -/
theorem reqClassify_badValue (range : u16 p 0 = 0 ∨ 16 ≤ (byteAt p 2).toNat) :
    reqClassify tag p s = answer 0x1B tag .badValue (classifyEcho p ++ [0, 0, 0]) s := by
  unfold reqClassify
  dsimp only
  rw [if_neg (not_not.2 len), if_neg (by simp [(Position.tracks_iff s).2 tracks])]
  obtain zero | large := range
  · cases asFin 16 (byteAt p 2) with
    | none => rfl
    | some cls => exact if_pos zero
  · rw [asFin_none large]

variable {cls : Fin 16} (code : byteAt p 2 = idxByte cls) (tagged : u16 p 0 ≠ 0)

include code tagged

/-- R100: past the checks of the payload, CLASSIFY looks for the item. -/
theorem reqClassify_lookup :
    reqClassify tag p s =
      ((s.findItem (u16 p 0)).map fun it =>
        if it.decision.isSome then answer 0x1B tag .decided (classifyFields p s) s
        else answer 0x1B tag .ok (classifyFields p (applyClassify it cls s)) (applyClassify it cls s)).getD
        (answer 0x1B tag .unknownItem (classifyEcho p ++ [0, 0, 0]) s) := by
  unfold reqClassify
  dsimp only
  rw [if_neg (not_not.2 len), if_neg (by simp [(Position.tracks_iff s).2 tracks]), code, asFin_idxByte_16]
  dsimp only
  rw [if_neg tagged]
  cases s.findItem (u16 p 0) <;> rfl

theorem reqClassify_unknown (unknown : u16 p 0 ∉ tags s) :
    reqClassify tag p s = answer 0x1B tag .unknownItem (classifyEcho p ++ [0, 0, 0]) s := by
  have missing : s.findItem (u16 p 0) = none := by
    rw [← Option.not_isSome_iff_eq_none, Option.isSome_iff_exists]
    exact fun ⟨it, found⟩ => unknown (findItem_mem_tags found)
  rw [reqClassify_lookup tag len tracks code tagged, missing]
  rfl

variable {it : Item} (found : s.findItem (u16 p 0) = some it)

include found

theorem reqClassify_decided (decided : it.decision ≠ none) :
    reqClassify tag p s = answer 0x1B tag .decided (classifyFields p s) s := by
  rw [reqClassify_lookup tag len tracks code tagged, found]
  exact if_pos (Option.isSome_iff_ne_none.2 decided)

theorem reqClassify_taken (undecided : it.decision = none) :
    reqClassify tag p s =
      answer 0x1B tag .ok (classifyFields p (applyClassify it cls s)) (applyClassify it cls s) := by
  rw [reqClassify_lookup tag len tracks code tagged, found]
  exact if_neg (by simp [undecided])

end Checks

/-! ## The obligations -/

/-- Refutes O26: the statement lists a kind code above 4 among what reads as nothing, as R57 does, and the record with
kind code 5 reads as the record NONE. -/
theorem not_stationChecks : ¬ Obligations.StationChecks := by
  unfold Obligations.StationChecks
  rintro ⟨valueCheck, -⟩
  have refused : stationOfBytes kindFive 0 = none := (valueCheck kindFive 0).2 (.inr (.inl (by decide)))
  rw [stationOfBytes_kindFive] at refused
  cases refused

/-- Settles O27: the query form, the bad lengths, the other zone states, then the run of records up to the first that
fails. -/
theorem loadStationsResult : Obligations.LoadStationsResult := by
  unfold Obligations.LoadStationsResult
  intro tag p s taken inForce records query
  have force : ∀ b t, inForce b t = stationReply b t := by
    intro b t
    simp only [inForce]
    cases index : asFin 8 b with
    | none => exact (stationReply_none index t).symm
    | some i => exact (stationReply_some index t).symm
  have request : exec (.loadStations tag p) s = .next (reqLoadStations tag p s) := exec_loadStations_taken tag p taken
  simp only [query, force, request, reqLoadStations]
  refine ⟨fun i hp => ?_, fun b hp range => ?_, fun one whole => ?_, fun n hp least most => ?_⟩
  · subst hp
    rw [if_pos (by simp), byteAt_zero, asFin_idxByte_8]
    rfl
  · subst hp
    rw [if_pos (by simp), byteAt_zero, asFin_none range]
    rfl
  · have bad : ¬loadLengthOk p.length = true := by
      rw [loadLengthOk_iff]
      rintro ⟨n, hn, least, most⟩
      have := whole n hn
      omega
    rw [if_neg one, if_pos (by simpa using bad)]
    rfl
  · have len : loadLengthOk p.length = true := (loadLengthOk_iff _).2 ⟨n, hp, least, most⟩
    have count : p.length / 16 = n := by omega
    have fields : ∀ r : LoadResult, loadFields p r =
        [BitVec.ofNat 8 r.applied, flagByte r.failing.isSome, BitVec.ofNat 8 ((r.failing.map Prod.fst).getD 0),
            (r.failing.map fun f => f.2.code).getD 0] ++ records n r.state := by
      intro r
      simp only [loadFields, count, records, force]
    rw [if_neg (by omega), if_neg (by simp [len])]
    refine ⟨fun zone => ?_, fun zone m st hm start applied => ?_⟩
    · rw [if_pos zone, fields]
      rfl
    · subst start
      rw [if_neg (not_not.2 zone), count]
      have run := loadFrom_run (p := p) (st := st) (m := m) applied
      refine ⟨fun all => ?_, fun short bad fails => ?_⟩
      · subst all
        have loaded : loadFrom p m 0 (st 0) = ⟨st m, m, none⟩ := run 0
        rw [loaded, fields]
        rfl
      · have loaded : loadFrom p n 0 (st 0) = ⟨st m, m, some (m, bad)⟩ := by
          obtain ⟨d, rfl⟩ := Nat.exists_eq_add_of_lt short
          rw [Nat.add_assoc, run (d + 1), loadFrom_fails fails d]
        rw [loaded, fields]
        rfl

/-- Settles O28: the refusals of the two requests in the order of their checks, then the taken forms. -/
theorem stationRequests : Obligations.StationRequests := by
  unfold Obligations.StationRequests
  refine ⟨fun tag p s taken => ?_, fun tag p s taken => ?_⟩
  · intro refused
    have request : exec (.setStationMode tag p) s = .next (reqSetStationMode tag p s) :=
      exec_setStationMode_taken tag p taken
    refine ⟨fun len => request.trans ?_, fun a b hp range => request.trans ?_, fun i m hp => ?_⟩
    · rw [reqSetStationMode, if_pos len]
      rfl
    · subst hp
      rw [reqSetStationMode, if_neg (by simp), modeOfPayload_none range]
      rfl
    · intro st answers set closes
      subst hp
      refine ⟨fun conflict => request.trans ?_, fun allowed quiet => request.trans ?_,
        fun closing => request.trans ?_⟩
      · rw [reqSetStationMode_conflict tag conflict]
        rfl
      · have kept : changeMode i m s = set st.windows :=
          (changeMode_quiet quiet).trans (Sensing.modStation_congr i s rfl)
        rw [reqSetStationMode_taken tag allowed, kept]
        rfl
      · have ⟨_, _, disabled, _⟩ := closing
        have allowed : ¬(m ≠ .disabled ∧ st.record.kind = .none) := fun h => h.1 disabled
        rw [reqSetStationMode_taken tag allowed, changeMode_closes closing]
        refine congrArg (fun track => Host.Outcome.next (replied 0x15 tag .ok _ { set [] with
          trk := { s.trk with track := track } })) (List.map_congr_left fun it _ => ?_)
        change Option.getD (Option.map _ (st.windows.find? _)) it = _
        cases st.windows.find? fun w => w.tag = it.tag with
        | none => rfl
        | some w => rfl
  · refine ⟨fun len => ?_, fun b hp range => ?_, fun i hp => ?_⟩
    · rw [exec_readStation_taken tag p taken, reqReadStation, if_pos len]
      rfl
    · subst hp
      rw [exec_readStation_taken tag _ taken, reqReadStation, if_neg (by simp), byteAt_zero, asFin_none range]
      rfl
    · intro st present cursor
      subst hp
      have presence : ∀ t, optTag t = present t := by
        rintro (_ | g)
        · exact optTag_none
        · exact optTag_some g
      have reported : st.reportedCursor = cursor := by
        simp only [Station.reportedCursor, cursor]
        cases st.windows <;> rfl
      rw [exec_readStation_taken tag _ taken, reqReadStation, if_neg (by simp), byteAt_zero, asFin_idxByte_8]
      simp only [← presence, ← reported]
      rfl

/-- Settles O29: skipped, the deadline first, then the cases of Table 4-4 one after another. -/
theorem stationProcessing : Obligations.StationProcessing := by
  unfold Obligations.StationProcessing
  intro s i late older newer it0 items place r sorts cursor kind advanced
  have hm := mem_of_place place
  refine ⟨fun out => ?_, fun member sorts undecided s1 taken => ?_, fun member settled => ?_⟩
  · rw [processStation_skips items hm cursor out, advanceCursor_place items place rfl]
    rfl
  · rw [← taken]
    exact processStation_deadline items hm cursor member sorts undecided
  · intro recorded target held
    have outcome : processStation i late s = advanced (stationOutcome i it0 late s) :=
      processStation_settled items place cursor member fun h undecided => settled ⟨(sorts_iff _).1 h, undecided⟩
    rw [outcome]
    refine ⟨fun mode => ?_, fun mode other => ?_, fun mode acts => ?_, fun mode acts holds => ?_,
      fun mode acts free o output => ?_⟩
    · exact congrArg advanced (stationOutcome_records items hm (fireChoice_disabled mode) nofun)
    · exact congrArg advanced (stationOutcome_records items hm (fireChoice_notTarget kind mode other) nofun)
    · exact congrArg advanced (stationOutcome_records items hm (fireChoice_wouldFire kind mode acts) nofun)
    · exact congrArg advanced
        (stationOutcome_suppresses items hm ((fireChoice_active kind mode acts).trans (if_pos holds)))
    · intro claim claimed
      rw [stationOutcome_claims ((fireChoice_active kind mode acts).trans (if_neg free))]
      refine ⟨fun reason refused => ?_, fun granted sorting => ?_, fun granted trigger => ?_⟩
      · exact congrArg advanced (fireStation_refused items hm output refused)
      · have quiet : r.kind ≠ .trigger := by obtain h | h := sorting <;> simp [h]
        exact congrArg advanced ((fireStation_fires items hm output granted).trans (if_neg quiet))
      · exact congrArg advanced ((fireStation_fires items hm output granted).trans (if_pos trigger))

/-- Settles O30: the opening by the mode of the station, then the close by what the window has seen. -/
theorem checkpointWindowRules : Obligations.CheckpointWindowRules := by
  unfold Obligations.CheckpointWindowRules
  intro s i older newer it items place st r tol change
  have hm := mem_of_place place
  refine ⟨fun cursor => ?_, fun w hw tag unique => ?_⟩
  · intro moved
    refine ⟨fun mode member => ?_, fun mode out => ?_, fun mode => openOne_opens items place cursor mode⟩
    · rw [openOne_disabled items place cursor mode, if_pos member]
      rfl
    · rw [openOne_disabled items place cursor mode, if_neg (by simp [out])]
      rfl
  · intro closed awaited missed
    have close := closeWindow_eq items hm hw tag unique
    have miss : missItem i w closed =
        if w.mode = .active then missingPolicy r.policy it.tag missed else missed := by
      have eq := missItem_eq (s := withoutWindow i it.tag s) (i := i) items hm tag
      rw [withoutWindow_record] at eq
      exact eq
    refine ⟨fun settled => ?_, fun waits seen => ?_, fun waits unseen quiet => ?_, fun waits unseen active drop => ?_,
      fun waits unseen active fault => ?_⟩
    · exact close.trans (if_neg settled)
    · rw [close, if_pos waits, if_pos seen]
      rfl
    · have noted : missItem i w closed = missed := by
        rw [miss]
        obtain inactive | note := quiet
        · exact if_neg inactive
        · rw [note]
          exact ite_self _
      rw [close, if_pos waits, if_neg (by simp [unseen])]
      exact noted
    · rw [close, if_pos waits, if_neg (by simp [unseen])]
      refine miss.trans ?_
      rw [if_pos active, drop]
      rfl
    · rw [close, if_pos waits, if_neg (by simp [unseen])]
      refine miss.trans ?_
      rw [if_pos active, fault]
      rfl

/-- Settles O36: the refusals in the order of the checks, then what a station has passed, then the decision that the new
class calls for. -/
theorem classifyResult : Obligations.ClassifyResult := by
  unfold Obligations.ClassifyResult
  intro tag p s taken items g reply refused fields
  have request : exec (.classify tag p) s = .next (reqClassify tag p s) := exec_classify_taken tag p taken
  refine ⟨fun len => request.trans ?_, fun len elsewhere => request.trans ?_,
    fun len tracks range => request.trans ?_, fun cls hp tagged tracks => ?_⟩
  · rw [reqClassify, if_pos len]
    rfl
  · rw [reqClassify, if_neg (not_not.2 len), if_pos (by simpa using mt (Position.tracks_iff s).1 elsewhere)]
    rfl
  · rw [reqClassify_badValue tag len tracks range]
    rfl
  · have len : p.length = 3 := (congrArg List.length hp).trans (by simp)
    have code : byteAt p 2 = idxByte cls := congrArg (byteAt · 2) hp
    refine ⟨fun unknown => request.trans ?_, fun older it newer place tagIt => ?_⟩
    · rw [reqClassify_unknown tag len tracks code tagged unknown]
      rfl
    · intro c it1 s1 timedOut late done
      have hm := mem_of_place place
      refine ⟨fun i => ?_, fun decided => request.trans ?_, fun undecided => ?_⟩
      · intro passedBy st _ _
        have passes : ∀ cur, cursorPassed s.trk.track it.tag cur = true ↔ passedBy cur :=
          cursorPassed_iff items place
        rw [passed_iff, passes, passes]
      · have found : s.findItem g = some it := tagIt ▸ findItem_eq items hm
        rw [reqClassify_decided tag len tracks code tagged found decided, classifyFields_found found]
        rfl
      · have found : s.findItem g = some it := tagIt ▸ findItem_eq items hm
        have rebuilt : reclassified s cls it = it1 := by
          simp only [it1, c, reclassified, reslot, reoutcome, defined_eq]
        have dropped : dropWindows it.tag c s = s1 := rfl
        have expired : timeOutSlots it1 = timedOut := timeOutSlots_eq it1
        have classified : reqClassify tag p s =
            answer 0x1B tag .ok (classifyFields p (applyClassify it cls s)) (applyClassify it cls s) :=
          reqClassify_taken tag len tracks code tagged found undecided
        have decides : ∀ (jt : Item) (r : Reason), jt.tag = it.tag → jt.exit = it.exit →
            applyClassify it cls s = announceDecision jt r (replaceItem (decidedItem jt r s.pos.timeBase) s1) →
            done jt r := by
          intro jt r tag exit settled
          refine request.trans ?_
          rw [classified, settled, classifyFields_found (tagIt ▸ findItem_announced (s := s1) items hm tag exit r _)]
          rfl
        refine ⟨fun required => decides it1 .noneRequired rfl rfl ?_,
          fun required due => decides timedOut .deadline rfl rfl ?_,
          fun required early set => decides it1 .complete rfl rfl ?_,
          fun required early unset => request.trans ?_⟩
        · exact applyClassify_noneRequired items hm rebuilt dropped required
        · rw [← expired]
          exact applyClassify_deadline items hm rebuilt dropped required undecided due
        · exact applyClassify_complete items hm rebuilt dropped required early set
        · have found1 : (replaceItem it1 s1).findItem g = some it1 :=
            tagIt ▸ findItem_replaceItem (s := s1) (jt := it1) items hm rfl rfl
          rw [classified, applyClassify_undecided items hm rebuilt dropped required early unset,
            classifyFields_found found1]
          rfl

end Sys2Proof.Stations
end

section
/-! SUPPORT and CERTIFICATES. Chapter 5 of the T24, classes, verdicts and dispositions: LOAD_CLASS, SET_SOURCE, VERDICT
and the windows of LINE sources. The rules come first; the obligations they settle last. -/

namespace Sys2Proof.Verdicts

open Sys2Proof.Machine Sys2Proof.Safety Sys2Proof.Laws

/-! ## Requests -/

section Requests

variable {s : State} (tag : Byte) (p : List Byte)

theorem exec_loadClass_taken (h : Taken s) : exec (.loadClass tag p) s = .next (reqLoadClass tag p s) :=
  congrArg _ (takeFrame_taken h)

theorem exec_setSource_taken (h : Taken s) : exec (.setSource tag p) s = .next (reqSetSource tag p s) :=
  congrArg _ (takeFrame_taken h)

theorem exec_verdict_taken (h : Taken s) : exec (.verdict tag p) s = .next (reqVerdict tag p s) :=
  congrArg _ (takeFrame_taken h)

end Requests

/-! ## LOAD_CLASS (R82, R84) -/

/-- R84: the record in force for an index, as a reply carries it. -/
theorem classReply_idxByte (i : Fin 16) (s : State) :
    classReply (idxByte i) s = classBytes (idxByte i) s.vrd.classes[i] := by
  rw [classReply, asFin_idxByte_16]

/-- R84: zeros behind an index out of range. -/
theorem classReply_none {b : Byte} (h : 16 ≤ b.toNat) (s : State) : classReply b s = b :: List.replicate 7 0 := by
  rw [classReply, asFin_none h]

/-- Table 10-10: code 0, UNDECIDED, is the one entry of a code map that reads as nothing. -/
theorem codeMapOf_undecided {w : BitVec 32} {k : Fin 16} (h : w.toNat / 4 ^ k.val % 4 = 0) : codeMapOf w = none := by
  have entry : codeMapEntry w k.val = none := by
    rw [codeMapEntry, BitVec.toNat_ushiftRight, Nat.shiftRight_eq_div_pow, pow_mul]
    exact congrArg Disposition.ofCode h
  refine if_neg fun all => ?_
  have decided := List.all_eq_true.1 all k.val (List.mem_range.2 k.isLt)
  rw [entry] at decided
  cases decided

theorem dispositionOfCode_none {b : Byte} (h : b = 0 ∨ 4 ≤ b.toNat) : Disposition.ofCode b.toNat = none := by
  obtain rfl | h := h
  · rfl
  · unfold Disposition.ofCode
    split
    case h_4 => rfl
    all_goals omega

/-- R84: one field out of range, and the whole class record is refused. -/
theorem classOfBytes_none {p : List Byte}
    (h : 16 ≤ (byteAt p 0).toNat ∨ 16 ≤ (byteAt p 2).toNat ∨ byteAt p 3 = 0 ∨ 4 ≤ (byteAt p 3).toNat ∨
      ∃ k : Fin 16, (u32 p 4).toNat / 4 ^ k.val % 4 = 0) : classOfBytes p = none := by
  rw [← or_assoc (a := byteAt p 3 = 0)] at h
  unfold classOfBytes
  obtain index | required | fallback | ⟨k, entry⟩ := h
  · simp [asFin_none index]
  · simp [asFin_none required]
  · simp [dispositionOfCode_none fallback]
  · simp [codeMapOf_undecided entry]

/-! ## SET_SOURCE (R85, R86) -/

/-- R86: the record in force for an index, as a reply carries it. -/
theorem sourceReply_idxByte (v : Fin 4) (s : State) :
    sourceReply (idxByte v) s = sourceBytes (idxByte v) s.vrd.sources[v].record := by
  rw [sourceReply, asFin_idxByte_4]

/-- R86: zeros behind an index out of range. -/
theorem sourceReply_none {b : Byte} (h : 4 ≤ b.toNat) (s : State) : sourceReply b s = b :: List.replicate 7 0 := by
  rw [sourceReply, asFin_none h]

/-- R86: a field of a LINE record out of range. -/
theorem lineOfBytes_none {a b c d e f g h : Byte}
    (range : 8 ≤ c.toNat ∨ 8 ≤ d.toNat ∨ (e = 0 ∧ f = 0) ∨ 16 ≤ g.toNat ∨ 16 ≤ h.toNat) :
    lineOfBytes [a, b, c, d, e, f, g, h] = none := by
  unfold lineOfBytes
  obtain input | trigger | ⟨rfl, rfl⟩ | pulse | noPulse := range
  · simp [asFin_none input]
  · simp [asFin_none trigger]
  · have zero : (0#8 : Byte) ++ (0#8 : Byte) = 0#16 := by decide
    have window : u16 [a, b, c, d, 0#8, 0#8, g, h] 4 = 0#16 := zero
    simp [window]
  · simp [asFin_none pulse]
  · simp [asFin_none noPulse]

/-- R86: one field out of range, and the whole source record is refused. -/
theorem sourceOfBytes_none {a b c d e f g h : Byte}
    (range : 4 ≤ a.toNat ∨ 2 ≤ b.toNat ∨ (b = 0 ∧ ¬(c = 0 ∧ d = 0 ∧ e = 0 ∧ f = 0 ∧ g = 0 ∧ h = 0)) ∨
      (b = 1 ∧ (8 ≤ c.toNat ∨ 8 ≤ d.toNat ∨ (e = 0 ∧ f = 0) ∨ 16 ≤ g.toNat ∨ 16 ≤ h.toNat))) :
    sourceOfBytes [a, b, c, d, e, f, g, h] = none := by
  unfold sourceOfBytes
  obtain index | kind | ⟨rfl, fields⟩ | ⟨rfl, fields⟩ := range
  · simp [asFin_none index]
  · simp [asFlag_none kind]
  · have message : asFlag 0#8 = some false := rfl
    simpa [message] using fun _ _ => fields
  · have line : asFlag 1#8 = some true := rfl
    simp [line, lineOfBytes_none fields]

/-- R86, check 4: what a LINE record asks of the configuration. -/
def SuitsLine (s : State) (r : SourceRec) : Prop :=
  ∀ i k w a b, r = .line i k w a b →
    s.inp.inputs[i].role = .verdict ∧ s.stn.stations[k].record.kind = .trigger ∧
      s.stn.stations[k].record.offset.toNat + w.toNat < s.trk.params.trackEnd.toNat

theorem sourceValid_iff (s : State) (r : SourceRec) : sourceValid s r = true ↔ SuitsLine s r := by
  cases r with
  | message => exact ⟨fun _ => nofun, fun _ => rfl⟩
  | line i k w a b =>
    rw [Configuration.sourceValid_line, windowFits, decide_eq_true_eq]
    constructor
    · rintro valid _ _ _ _ _ ⟨⟩
      exact valid
    · exact fun suits => suits i k w a b rfl

/-! ## Codes that arrive at a slot (R93, R94, R99) -/

section Fill

variable {s : State} {it : Item} {v : Fin 4}

/-- R93, R94: the slot that a code arrives at, once it has arrived. -/
theorem slotAt_fillSlot {st : SlotState} (h : it.slotAt v = some st) (code : Fin 16) :
    (it.fillSlot v code).slotAt v = some (Slot.fill code ⟨v, st⟩).state := by
  have source : ∀ sl : Slot, (sl.fill code).source = sl.source := fun sl => by
    unfold Slot.fill
    split <;> rfl
  have state : ∀ sl : Slot, sl.state = st → (sl.fill code).state = (Slot.fill code ⟨v, st⟩).state := by
    rintro ⟨_, state⟩ rfl
    cases state <;> rfl
  obtain ⟨sl, found, slot⟩ := Option.map_eq_some_iff.1 h
  have this : sl.source = v := by simpa using List.find?_some found
  have same : ((fun x : Slot => decide (x.source = v)) ∘ fun x => if x.source = v then x.fill code else x) =
      fun x => decide (x.source = v) := by
    funext x
    simp only [Function.comp]
    split <;> simp [*]
  unfold Item.slotAt Item.fillSlot
  rw [List.find?_map, same, found]
  simp only [Option.map_some, if_pos this, state sl slot]

/-- R89: a decision leaves the slots as they are. -/
theorem decidedItem_slotAt (it : Item) (r : Reason) (now : Time) (v : Fin 4) :
    (decidedItem it r now).slotAt v = it.slotAt v := by
  unfold decidedItem
  split <;> rfl

variable (items : ItemsOk s) (hm : it ∈ s.trk.track) (code : Fin 16)

include items hm

/-- R94: a code that arrives at a TIMED_OUT slot. -/
theorem fillVerdict_timedOut (slot : it.slotAt v = some .timedOut) :
    fillVerdict it.tag v code s = replaceItem (it.fillSlot v code) s := by
  simp only [fillVerdict, findItem_eq items hm, slot]
  exact Position.modItem_eq_replaceItem items hm _ rfl

/-- R93: a code that arrives at a PENDING slot, and the decision it brings about when every slot is then SET. -/
theorem fillVerdict_pending (slot : it.slotAt v = some .pending) :
    fillVerdict it.tag v code s =
      if (it.fillSlot v code).allSet then
        announceDecision (it.fillSlot v code) .complete
          (replaceItem (decidedItem (it.fillSlot v code) .complete s.pos.timeBase) s)
      else replaceItem (it.fillSlot v code) s := by
  have filled : s.modItem it.tag (Item.fillSlot v code) = replaceItem (it.fillSlot v code) s :=
    Position.modItem_eq_replaceItem items hm _ rfl
  have decided : decideItem it.tag .complete (replaceItem (it.fillSlot v code) s) = _ :=
    Stations.decideItem_replaceItem (jt := it.fillSlot v code) items hm rfl rfl .complete
  simp only [fillVerdict, findItem_eq items hm, slot, filled, decided]
  rfl

/-- R93: an item that still waits for another slot stays undecided by the code. -/
theorem fillVerdict_waits (slot : it.slotAt v = some .pending) (waits : (it.fillSlot v code).allSet = false) :
    fillVerdict it.tag v code s = replaceItem (it.fillSlot v code) s := by
  rw [fillVerdict_pending items hm code slot, if_neg (by simp [waits])]

/-- R93: the code that fills the last slot completes the item. -/
theorem fillVerdict_completes (slot : it.slotAt v = some .pending) (all : (it.fillSlot v code).allSet = true) :
    fillVerdict it.tag v code s =
      announceDecision (it.fillSlot v code) .complete
        (replaceItem (decidedItem (it.fillSlot v code) .complete s.pos.timeBase) s) := by
  rw [fillVerdict_pending items hm code slot, if_pos all]

end Fill

/-! ## VERDICT (R92 to R94) -/

/-- R92, checks 7 to 9: the status of a VERDICT by the state of the slot it is for. -/
def slotStatus (slot : SlotState) : Status :=
  match slot with
  | .pending => .ok
  | .set _ => .alreadySet
  | .late _ => .alreadySet
  | .timedOut => .late

theorem verdictStatus_required {it : Item} {v : Fin 4} {slot : SlotState} (required : it.snapshot.requires v = true)
    (held : it.slotAt v = some slot) : verdictStatus it v = slotStatus slot := by
  rw [verdictStatus, if_neg (by simp [required]), held]
  cases slot <;> rfl

section Verdict

variable (tag : Byte) {p : List Byte} {s : State}

/-- R92: the fields of a reply for an item of the track. -/
theorem verdictFields_found {it : Item} (v : Fin 4) (found : s.findItem (u16 p 0) = some it) :
    verdictFields p v s = verdictEcho p ++ slotBytes (it.slotAt v) ++ decisionBytes it.decision := by
  rw [verdictFields, found]

variable (len : p.length = 4) (tracks : Tracks s)

include len tracks

/-- R92, check 3: a tag of 0, a source or a code out of range. -/
theorem reqVerdict_badValue (range : u16 p 0 = 0 ∨ 4 ≤ (byteAt p 2).toNat ∨ 16 ≤ (byteAt p 3).toNat) :
    reqVerdict tag p s = answer 0x1A tag .badValue (verdictEcho p ++ [0, 0, 0, 0]) s := by
  unfold reqVerdict
  dsimp only
  rw [if_neg (not_not.2 len), if_neg (by simp [(Position.tracks_iff s).2 tracks])]
  obtain zero | source | code := range
  · cases asFin 4 (byteAt p 2) with
    | none => rfl
    | some v =>
      cases asFin 16 (byteAt p 3) with
      | none => rfl
      | some code => exact if_pos zero
  · rw [asFin_none source]
  · rw [asFin_none code]
    cases asFin 4 (byteAt p 2) <;> rfl

variable {v : Fin 4} {code : Fin 16} (source : byteAt p 2 = idxByte v) (coded : byteAt p 3 = idxByte code)
  (tagged : u16 p 0 ≠ 0)

include source coded tagged

/-- R92: past the checks of the payload, VERDICT looks at the source, then for the item, then at the item's slot. -/
theorem reqVerdict_lookup :
    reqVerdict tag p s =
      if s.vrd.sources[v].record ≠ .message then answer 0x1A tag .conflict (verdictEcho p ++ [0, 0, 0, 0]) s
      else
        ((s.findItem (u16 p 0)).map fun it =>
          if verdictStatus it v = .notRequired then answer 0x1A tag .notRequired (verdictEcho p ++ [0, 0, 0, 0]) s
          else if verdictStatus it v = .alreadySet then answer 0x1A tag .alreadySet (verdictFields p v s) s
          else
            answer 0x1A tag (verdictStatus it v) (verdictFields p v (fillVerdict (u16 p 0) v code s))
              (fillVerdict (u16 p 0) v code s)).getD
          (answer 0x1A tag .unknownItem (verdictEcho p ++ [0, 0, 0, 0]) s) := by
  unfold reqVerdict
  dsimp only
  rw [if_neg (not_not.2 len), if_neg (by simp [(Position.tracks_iff s).2 tracks]), source, asFin_idxByte_4, coded,
    asFin_idxByte_16]
  dsimp only
  rw [if_neg tagged]
  split
  · rfl
  · cases s.findItem (u16 p 0) with
    | none => rfl
    | some it =>
      dsimp only [Option.map_some, Option.getD_some]
      cases verdictStatus it v <;> rfl

theorem reqVerdict_conflict (line : s.vrd.sources[v].record ≠ .message) :
    reqVerdict tag p s = answer 0x1A tag .conflict (verdictEcho p ++ [0, 0, 0, 0]) s := by
  rw [reqVerdict_lookup tag len tracks source coded tagged, if_pos line]

variable (message : s.vrd.sources[v].record = .message)

include message

theorem reqVerdict_unknown (unknown : u16 p 0 ∉ tags s) :
    reqVerdict tag p s = answer 0x1A tag .unknownItem (verdictEcho p ++ [0, 0, 0, 0]) s := by
  have missing : s.findItem (u16 p 0) = none := by
    rw [← Option.not_isSome_iff_eq_none, Option.isSome_iff_exists]
    exact fun ⟨it, found⟩ => unknown (findItem_mem_tags found)
  rw [reqVerdict_lookup tag len tracks source coded tagged, if_neg (not_not.2 message), missing]
  rfl

variable {it : Item} (found : s.findItem (u16 p 0) = some it)

include found

/-- R92, check 6: the item has no slot for the source. -/
theorem reqVerdict_notRequired (out : it.snapshot.requires v = false) :
    reqVerdict tag p s = answer 0x1A tag .notRequired (verdictEcho p ++ [0, 0, 0, 0]) s := by
  have status : verdictStatus it v = .notRequired := by simp [verdictStatus, out]
  rw [reqVerdict_lookup tag len tracks source coded tagged, if_neg (not_not.2 message), found]
  exact if_pos status

variable (required : it.snapshot.requires v = true) {slot : SlotState} (held : it.slotAt v = some slot)

include required held

/-- R92, check 7: the slot holds a code. -/
theorem reqVerdict_alreadySet (holds : slotStatus slot = .alreadySet) :
    reqVerdict tag p s =
      answer 0x1A tag .alreadySet (verdictEcho p ++ slotBytes (some slot) ++ decisionBytes it.decision) s := by
  have status := (verdictStatus_required required held).trans holds
  rw [reqVerdict_lookup tag len tracks source coded tagged, if_neg (not_not.2 message), ← held,
    ← verdictFields_found v found, found]
  exact (if_neg (by simp [status])).trans (if_pos status)

/-- R93, R94: the code comes to the slot, and the reply shows the item as the code leaves it. -/
theorem reqVerdict_fills (free : slotStatus slot ≠ .alreadySet) {t : State} {jt : Item} {now : SlotState}
    (filled : fillVerdict (u16 p 0) v code s = t) (there : t.findItem (u16 p 0) = some jt)
    (holds : jt.slotAt v = some now) :
    reqVerdict tag p s =
      answer 0x1A tag (slotStatus slot) (verdictEcho p ++ slotBytes (some now) ++ decisionBytes jt.decision) t := by
  have status := verdictStatus_required required held
  have hasSlot : slotStatus slot ≠ .notRequired := by cases slot <;> nofun
  rw [reqVerdict_lookup tag len tracks source coded tagged, if_neg (not_not.2 message), ← holds,
    ← verdictFields_found v there, found, ← filled, ← status]
  exact (if_neg (by rwa [status])).trans (if_neg (by rwa [status]))

end Verdict

/-! ## Windows of LINE sources (R97, R99) -/

section Windows

variable {s : State} {v : Fin 4} {it : Item} {input k : Fin 8} {len : BitVec 16} {pulse noPulse : Fin 16}

/-- R97: a source opens a window of an item. -/
def withLineWindow (v : Fin 4) (tag : Tag) (closePos : Pos) (s : State) : State :=
  s.modSource v fun src => { src with windows := src.windows ++ [⟨tag, closePos, false⟩] }

/-- R99: the window of an item is gone. -/
def withoutLineWindow (v : Fin 4) (tag : Tag) (s : State) : State :=
  s.modSource v fun src => { src with windows := src.windows.filter fun x => x.tag ≠ tag }

/-- R97: all that a trigger does at a LINE source. -/
theorem openLineWindow_eq (items : ItemsOk s) (hm : it ∈ s.trk.track)
    (record : s.vrd.sources[v].record = .line input k len pulse noPulse) (i : Fin 8) (fire : Pos) :
    openLineWindow i it.tag fire s v =
      if k = i ∧ it.snapshot.requires v = true then
        if ahead (fire + len.setWidth 32) s.pos.position then
          withLineWindow v it.tag (fire + len.setWidth 32) s
        else closeLineWindow v it.tag (withLineWindow v it.tag (fire + len.setWidth 32) s)
      else s := by
  simp only [openLineWindow, record, findItem_eq items hm, Bool.and_eq_true, decide_eq_true_eq]
  rfl

/-- The one entry of a list that carries a tag is the one a search for the tag finds. -/
theorem find?_onlyTag {α : Type} (key : α → Tag) {ws : List α} {w : α} (hw : w ∈ ws)
    (unique : ∀ x ∈ ws, key x = key w → x = w) : (ws.find? fun x => key x = key w) = some w := by
  have carried : (ws.find? fun x => key x = key w).isSome = true := List.find?_isSome.2 ⟨w, hw, by simp⟩
  obtain ⟨x, found⟩ := Option.isSome_iff_exists.1 carried
  rw [found, unique x (List.mem_of_find?_eq_some found) (by simpa using List.find?_some found)]

/-- R99: what the close of an item's window does. -/
theorem closeLineWindow_eq (record : s.vrd.sources[v].record = .line input k len pulse noPulse) {tag : Tag}
    {w : LineWindow} (hw : w ∈ s.vrd.sources[v].windows) (tagged : w.tag = tag)
    (unique : ∀ x ∈ s.vrd.sources[v].windows, x.tag = tag → x = w) :
    closeLineWindow v tag s =
      fillVerdict tag v (if w.edgeSeen then pulse else noPulse) (withoutLineWindow v tag s) := by
  subst tagged
  have found : (s.vrd.sources[v].windows.find? fun x => x.tag = w.tag) = some w :=
    find?_onlyTag LineWindow.tag hw unique
  simp only [closeLineWindow, found, record]
  rfl

end Windows

/-! ## The obligations -/

/-- Settles O31: the query form, the refusals in the order of the checks, then the taken form. -/
theorem loadClassResult : Obligations.LoadClassResult := by
  unfold Obligations.LoadClassResult
  intro tag p s taken refused
  have request : exec (.loadClass tag p) s = .next (reqLoadClass tag p s) := exec_loadClass_taken tag p taken
  have refuses : ∀ st, reqLoadClass tag p s = answer 0x18 tag st (classReply (byteAt p 0) s) s → refused st := by
    intro st answers
    refine ⟨fun i index => ?_, fun range => ?_⟩
    · rw [request, answers, index, classReply_idxByte]
      rfl
    · rw [request, answers, classReply_none range]
      rfl
  refine ⟨fun one index => refuses _ ?_, fun one range => refuses _ ?_, fun one eight => refuses _ ?_,
    fun eight range => refuses _ ?_, fun i c hp => request.trans ?_⟩
  · simp only [reqLoadClass, if_pos one, asFin_some index, Option.isSome_some, if_true]
  · simp only [reqLoadClass, if_pos one, asFin_none range, Option.isSome_none, Bool.false_eq_true, if_false]
  · simp only [reqLoadClass, if_neg one, if_pos eight]
  · simp only [reqLoadClass, if_neg (show p.length ≠ 1 by omega), if_neg (not_not.2 eight), classOfBytes_none range]
  · have eight : p.length = 8 := (congrArg List.length hp).trans (by simp [classBytes])
    have index : byteAt p 0 = idxByte i := congrArg (byteAt · 0) hp
    have read : classOfBytes p = some (i, c) := hp ▸ Records.classOfBytes_classBytes i c
    simp only [reqLoadClass, if_neg (show p.length ≠ 1 by omega), if_neg (not_not.2 eight), read, index,
      classReply_idxByte, modVrd_vrd, Fin.getElem_fin, modAt_getElem, if_true, ← hp]
    rfl

/-- Settles O32: the query form, the refusals in the order of the checks, then the taken form. -/
theorem setSourceResult : Obligations.SetSourceResult := by
  unfold Obligations.SetSourceResult
  intro tag p s taken refused
  have request : exec (.setSource tag p) s = .next (reqSetSource tag p s) := exec_setSource_taken tag p taken
  have refuses : ∀ st, reqSetSource tag p s = answer 0x19 tag st (sourceReply (byteAt p 0) s) s → refused st := by
    intro st answers
    refine ⟨fun v index => ?_, fun range => ?_⟩
    · rw [request, answers, index, sourceReply_idxByte]
      rfl
    · rw [request, answers, sourceReply_none range]
      rfl
  refine ⟨fun one index => refuses _ ?_, fun one range => refuses _ ?_, fun one eight => refuses _ ?_,
    fun eight elsewhere => refuses _ ?_, fun a b c d e f g h hp config range => refuses _ ?_,
    fun v r hp config nonzero => ?_⟩
  · simp only [reqSetSource, if_pos one, asFin_some index, Option.isSome_some, if_true]
  · simp only [reqSetSource, if_pos one, asFin_none range, Option.isSome_none, Bool.false_eq_true, if_false]
  · simp only [reqSetSource, if_neg one, if_pos eight]
  · simp only [reqSetSource, if_neg (show p.length ≠ 1 by omega), if_neg (not_not.2 eight), if_pos elsewhere]
  · have eight : p.length = 8 := congrArg List.length hp
    have read : sourceOfBytes p = none := hp ▸ sourceOfBytes_none range
    simp only [reqSetSource, if_neg (show p.length ≠ 1 by omega), if_neg (not_not.2 eight),
      if_neg (not_not.2 config), read]
  · intro valid
    have eight : p.length = 8 := (congrArg List.length hp).trans (by cases r <;> simp [sourceBytes])
    have index : byteAt p 0 = idxByte v := (congrArg (byteAt · 0) hp).trans (by cases r <;> rfl)
    have read : sourceOfBytes p = some (v, r) := hp ▸ Records.sourceOfBytes_sourceBytes v nonzero
    refine ⟨fun suits => request.trans ?_, fun unsuited => refuses _ ?_⟩
    · simp only [reqSetSource, if_neg (show p.length ≠ 1 by omega), if_neg (not_not.2 eight),
        if_neg (not_not.2 config), read, if_pos ((sourceValid_iff s r).2 suits), index, sourceReply_idxByte,
        modSource_vrd, Fin.getElem_fin, modAt_getElem, if_true, ← hp]
      rfl
    · simp only [reqSetSource, if_neg (show p.length ≠ 1 by omega), if_neg (not_not.2 eight),
        if_neg (not_not.2 config), read, if_neg (mt (sourceValid_iff s r).1 unsuited)]

/-- Settles O33: the refusals in the order of the checks, then what the slot of the item holds. -/
theorem verdictResult : Obligations.VerdictResult := by
  unfold Obligations.VerdictResult
  intro tag p s taken items g reply refused
  have request : exec (.verdict tag p) s = .next (reqVerdict tag p s) := exec_verdict_taken tag p taken
  have refuses : ∀ st, reqVerdict tag p s = answer 0x1A tag st (verdictEcho p ++ [0, 0, 0, 0]) s → refused st := by
    intro st answers
    refine request.trans ?_
    rw [answers]
    rfl
  refine ⟨fun len => refuses _ ?_, fun len elsewhere => refuses _ ?_,
    fun len tracks range => refuses _ (reqVerdict_badValue tag len tracks range), fun v code hp tagged tracks => ?_⟩
  · rw [reqVerdict, if_pos len]
  · rw [reqVerdict, if_neg (not_not.2 len), if_pos (by simpa using mt (Position.tracks_iff s).1 elsewhere)]
  · have len : p.length = 4 := (congrArg List.length hp).trans (by simp)
    have source : byteAt p 2 = idxByte v := congrArg (byteAt · 2) hp
    have coded : byteAt p 3 = idxByte code := congrArg (byteAt · 3) hp
    refine ⟨fun line => refuses _ (reqVerdict_conflict tag len tracks source coded tagged line),
      fun message unknown => refuses _ (reqVerdict_unknown tag len tracks source coded tagged message unknown),
      fun it hm tagIt message => ?_⟩
    intro filled
    have found : s.findItem g = some it := tagIt ▸ findItem_eq items hm
    have holds : ∀ {slot : SlotState}, it.snapshot.requires v = true → it.slotAt v = some slot →
        slotStatus slot = .alreadySet → reply .alreadySet (slotBytes (some slot)) it.decision s :=
      fun required held set => request.trans <| congrArg _ <|
        reqVerdict_alreadySet tag len tracks source coded tagged message found required held set
    have fills : ∀ {slot : SlotState} {t : State} {jt : Item}, it.snapshot.requires v = true →
        it.slotAt v = some slot → slotStatus slot ≠ .alreadySet → fillVerdict it.tag v code s = t →
          t.findItem it.tag = some jt → jt.slotAt v = filled.slotAt v →
            reply (slotStatus slot) (slotBytes (some (Slot.fill code ⟨v, slot⟩).state)) jt.decision t := by
      intro slot t jt required held free becomes there same
      rw [tagIt] at becomes there
      exact request.trans <| congrArg _ <|
        reqVerdict_fills tag len tracks source coded tagged message found required held free becomes there
          (same.trans (slotAt_fillSlot held code))
    have replaced := Stations.findItem_replaceItem (jt := filled) items hm rfl rfl
    have decided := Stations.findItem_announced (jt := filled) items hm rfl rfl .complete s.pos.timeBase
    exact ⟨fun out => refuses _ (reqVerdict_notRequired tag len tracks source coded tagged message found out),
      fun required => ⟨fun c held => holds required held rfl, fun c held => holds required held rfl,
        fun held => fills (jt := filled) required held nofun (fillVerdict_timedOut items hm code held)
          replaced rfl,
        fun held waits => fills (jt := filled) required held nofun (fillVerdict_waits items hm code held waits)
          replaced rfl,
        fun held all => fills required held nofun (fillVerdict_completes items hm code held all) decided
          (decidedItem_slotAt filled _ _ v)⟩⟩

/-- Settles O35: the opening by the item's class and the close position, then the close by what the slot holds. -/
theorem lineWindowRules : Obligations.LineWindowRules := by
  unfold Obligations.LineWindowRules
  intro s v input k len pulse noPulse it items hm record change
  refine ⟨fun i fire => ?_, fun w hw tagged unique => ?_⟩
  · intro closePos opened
    have opening := openLineWindow_eq items hm record i fire
    refine ⟨fun idle => ?_, fun trigger required early => ?_, fun trigger required due => ?_⟩
    · rw [opening, if_neg idle]
    · rw [opening, if_pos ⟨trigger, required⟩, if_pos early]
      rfl
    · rw [opening, if_pos ⟨trigger, required⟩, if_neg (Bool.eq_false_iff.1 due)]
      rfl
  · intro closed filled
    have close : closeLineWindow v it.tag s = fillVerdict it.tag v (if w.edgeSeen then pulse else noPulse) closed :=
      closeLineWindow_eq record hw tagged unique
    rw [close]
    exact ⟨fillVerdict_timedOut (s := closed) items hm _, fillVerdict_waits (s := closed) items hm _,
      fillVerdict_completes (s := closed) items hm _⟩

end Sys2Proof.Verdicts
end

section
/-! SUPPORT and CERTIFICATES. Chapter 6 of the T24, action outputs, and the entry to ESTOP that cuts them: SET_OUTPUT, fire
claims and PULSE_OUTPUT, ESTOP. The rules come first, in the order of the definitions they speak of; the obligations they
settle last. -/

namespace Sys2Proof.Outputs

open Sys2Proof.Machine Sys2Proof.Safety Sys2Proof.Laws

/-! ## Requests -/

section Requests

variable {s : State} (tag : Byte) (p : List Byte)

theorem exec_setOutput_taken (h : Taken s) : exec (.setOutput tag p) s = .next (reqSetOutput tag p s) :=
  congrArg _ (takeFrame_taken h)

theorem exec_pulseOutput_taken (h : Taken s) : exec (.pulseOutput tag p) s = .next (reqPulseOutput tag p s) :=
  congrArg _ (takeFrame_taken h)

theorem exec_estop_taken (h : Taken s) : exec (.estop tag p) s = .next (reqEstop tag p s) :=
  congrArg _ (takeFrame_taken h)

end Requests

/-! ## SET_OUTPUT and the pin (R106, R113) -/

/-- R113: the settings in force for an index, as a reply carries them. -/
theorem outputSettings_idxByte (o : Fin 8) (s : State) :
    outputSettings (idxByte o) s =
      [idxByte o, flagByte s.out.outputs[o].activeLow, s.out.outputs[o].collision.code] ++
        le 2 s.out.outputs[o].gap := by
  rw [outputSettings, asFin_idxByte_8]
  rfl

/-- R113: zeros behind an index out of range. -/
theorem outputSettings_none {b : Byte} (h : 8 ≤ b.toNat) (s : State) : outputSettings b s = [b, 0, 0, 0, 0] := by
  rw [outputSettings, asFin_none h]

/-- R113, R163: one field out of range, and the whole full form is refused. -/
theorem outputOfPayload_none {p : List Byte}
    (h : 8 ≤ (byteAt p 0).toNat ∨ 2 ≤ (byteAt p 1).toNat ∨ 2 ≤ (byteAt p 2).toNat) : outputOfPayload p = none := by
  rcases h with h | h | h
  · simp [outputOfPayload, asFin_none h]
  · simp [outputOfPayload, asFlag_none h]
  · simp [outputOfPayload, collision_none h]

theorem outputOfPayload_codes (o : Fin 8) (low : Bool) (c : Collision) (gap : BitVec 16) :
    outputOfPayload ([idxByte o, flagByte low, c.code] ++ le 2 gap) = some (o, low, c, gap) := by
  have width : u16 ([idxByte o, flagByte low, c.code] ++ le 2 gap) 3 = gap := Records.u16_of_field rfl
  rw [outputOfPayload, width]
  simp

/-- R106: the pin is at its active level in ON. -/
theorem pin_on {o : Output} {e : Time} {w : Owner} (h : o.state = .on e w) : o.pin = !o.activeLow := by
  rw [Output.pin, h]

/-- R106: the pin is at its inactive level in OFF. -/
theorem pin_off {o : Output} (h : o.state = .off) : o.pin = o.activeLow := by
  rw [Output.pin, h]

/-- R106: the pin is at its inactive level in RECOVER. -/
theorem pin_recover {o : Output} {e : Time} {w : Owner} (h : o.state = .recover e w) : o.pin = o.activeLow := by
  rw [Output.pin, h]

/-! ## Fire claims and PULSE_OUTPUT (R107, R108, R112) -/

/-- R107: an end time is ahead of another by less than half the circle. -/
theorem aheadTime_iff (t u : Time) : aheadTime t u = true ↔ 1 ≤ (t - u).toNat ∧ (t - u).toNat < 2 ^ 47 := by
  simp only [aheadTime, Bool.and_eq_true, decide_eq_true_eq]

section Claims

variable {o : Output} {e : Time} {w : Owner} (len : BitVec 16) (owner : Owner) (now : Time)

/-- R108: a claim on an OFF output. -/
theorem claim_off (h : o.state = .off) :
    o.claim len owner now = ({ o with state := .on (now + len.setWidth 48) owner }, none) := by
  simp only [Output.claim, h]

/-- R108: under EXTEND a claim on an ON output leaves the later of the two end times. -/
theorem claim_extend (h : o.state = .on e w) (hc : o.collision = .extend) :
    o.claim len owner now =
      ({ o with state := .on (if aheadTime e (now + len.setWidth 48) then e else now + len.setWidth 48) owner },
        none) := by
  simp only [Output.claim, h, hc]

/-- R108: under REFUSE a claim on an ON output is refused. -/
theorem claim_busy (h : o.state = .on e w) (hc : o.collision = .refuse) :
    o.claim len owner now = (o, some .busy) := by
  simp only [Output.claim, h, hc]

/-- R108: a claim on an output in RECOVER is refused, whatever its collision mode. -/
theorem claim_recovering (h : o.state = .recover e w) : o.claim len owner now = (o, some .recovering) := by
  simp only [Output.claim, h]

end Claims

section ClaimOutput

variable (o : Fin 8) (len : BitVec 16) (owner : Owner) {s : State}

/-- R108: a refused claim on an output changes nothing. -/
theorem claimOutput_refused {reason : RefusalReason} (h : (s.out.outputs[o].claim len owner s.now).2 = some reason) :
    claimOutput o len owner s = (s, some reason) :=
  Prod.ext (Position.modOutput_self o s (claim_refused _ _ _ _ _ h)) h

/-- R108: a claim that is taken changes its output alone. -/
theorem claimOutput_taken (h : (s.out.outputs[o].claim len owner s.now).2 = none) :
    claimOutput o len owner s = (s.modOutput o fun _ => (s.out.outputs[o].claim len owner s.now).1, none) :=
  Prod.ext rfl h

end ClaimOutput

/-- R112: a full form of PULSE_OUTPUT in its ranges is answered as its claim is. -/
theorem reqPulseOutput_claims (tag : Byte) (o : Fin 8) {len : BitVec 16} {s : State} (config : s.zon.zone = .config)
    (long : 50 ≤ len.toNat) :
    reqPulseOutput tag (idxByte o :: le 2 len) s =
      answer 0x21 tag (if (claimOutput o len .test s).2.isSome then .busy else .ok)
        ([idxByte o, ((claimOutput o len .test s).2.map RefusalReason.code).getD 0] ++
          (claimOutput o len .test s).1.out.outputs[o].bytes s.now)
        (claimOutput o len .test s).1 := by
  have width : u16 (idxByte o :: le 2 len) 1 = len := Records.u16_of_field rfl
  have least : ¬len.toNat < Config.minPulse := not_lt.2 long
  simp only [reqPulseOutput, List.length_cons, le_length, config, width, least, byteAt_zero, asFin_idxByte_8, ne_eq,
    not_true_eq_false, if_false]

/-- R112: an index or a pulse length out of range. -/
theorem reqPulseOutput_badValue (tag : Byte) {p : List Byte} {s : State} (full : p.length = 3)
    (config : s.zon.zone = .config) (range : 8 ≤ (byteAt p 0).toNat ∨ (u16 p 1).toNat < 50) :
    reqPulseOutput tag p s = answer 0x21 tag .badValue (byteAt p 0 :: List.replicate 8 0) s := by
  rw [reqPulseOutput, if_neg (not_not.2 full), if_neg (not_not.2 config)]
  obtain index | short := range
  · rw [asFin_none index]
  · cases asFin 8 (byteAt p 0) with
    | none => rfl
    | some o => exact if_pos short

/-! ## The entry to ESTOP (R42, R111, R131, R159) -/

/-- R42: the level of the ENTRY input, as the model looks for it among the inputs. -/
theorem entryByLevel_eq (s : State) : entryByLevel s = levelEntry s := by
  simp only [entryByLevel, levelEntry, List.any_eq_true, List.mem_finRange, true_and, Bool.and_eq_true,
    decide_eq_true_eq, Input.active, bne_iff_ne]

/-- R144: offering a notice does not look at the zone. -/
theorem offer_modZon (n : Notice) (f : ZonUnit → ZonUnit) (s : State) :
    (offer n s).modZon f = offer n (s.modZon f) := by
  unfold offer
  by_cases enabled : s.lnk.settings[n.kind.index].enabled = true
  · exact (congrArg (State.modZon f) (if_pos enabled)).trans (if_pos enabled).symm
  · exact (congrArg (State.modZon f) (if_neg enabled)).trans (if_neg enabled).symm

@[simp] theorem announceAbort_pos (t : TeachState) (s : State) : (announceAbort t s).pos = s.pos := by
  unfold announceAbort
  split
  · rfl
  · exact offer_pos _ _

@[simp] theorem announceAbort_zon (t : TeachState) (s : State) : (announceAbort t s).zon = s.zon := by
  unfold announceAbort
  split
  · rfl
  · exact offer_zon _ _

theorem announceAbort_modZon (t : TeachState) (f : ZonUnit → ZonUnit) (s : State) :
    (announceAbort t s).modZon f = announceAbort t (s.modZon f) := by
  unfold announceAbort
  split
  · rfl
  · exact offer_modZon _ f s

/-- R159: a running teach ends ABORTED; with none running nothing happens. -/
theorem abortTeach_eq (s : State) :
    abortTeach s = announceAbort s.tch.state { s with tch := { s.tch with state := .idle } } := by
  unfold abortTeach announceAbort
  cases running : s.tch.state.run with
  | none =>
    have idle : s.tch = { s.tch with state := .idle } :=
      congrArg TchUnit.mk ((Sensing.teachState_run_none s.tch.state).1 running)
    exact congrArg (fun u => { s with tch := u }) idle
  | some run => rfl

/-- R117: a change of zone state after an abort, both notices in order. -/
theorem enterZone_abortTeach (z : ZoneState) (cause : ZoneCause) (s : State) :
    enterZone z cause (abortTeach s) =
      offer (.zoneState s.now s.zon.zone z cause s.here)
        (announceAbort s.tch.state
          { s with tch := { s.tch with state := .idle }, zon := { s.zon with zone := z } }) := by
  rw [enterZone, abortTeach_eq, announceAbort_modZon]
  simp only [State.now, State.here, announceAbort_pos, announceAbort_zon]
  rfl

/-- R131: all that an entry to ESTOP does. -/
theorem enterEstop_eq (cause : ZoneCause) (s : State) :
    enterEstop cause s =
      offer (.zoneState s.now s.zon.zone .estop cause s.here)
        (announceAbort s.tch.state
          { s with
            out := { s.out with outputs := mapAll s.out.outputs fun _ o => { o with state := .off } }
            trk := { s.trk with entry := levelEntry s }
            tch := { s.tch with state := .idle }
            zon := { s.zon with zone := .estop } }) := by
  rw [enterEstop, enterZone_abortTeach, entryByLevel_eq]
  rfl

/-! ## The obligations -/

/-- Settles O37: the query form, the refusals in the order of the checks, the taken form, then the pin by the state. -/
theorem setOutputResult : Obligations.SetOutputResult := by
  unfold Obligations.SetOutputResult
  refine ⟨fun tag p s taken => ?_, fun o => ⟨fun _ _ => pin_on, pin_off, fun _ _ => pin_recover⟩⟩
  intro refused
  have request : exec (.setOutput tag p) s = .next (reqSetOutput tag p s) := exec_setOutput_taken tag p taken
  have refuses : ∀ st, reqSetOutput tag p s = answer 0x20 tag st (outputSettings (byteAt p 0) s) s → refused st := by
    intro st answers
    refine ⟨fun o index => ?_, fun range => ?_⟩
    · rw [request, answers, index, outputSettings_idxByte]
      rfl
    · rw [request, answers, outputSettings_none range]
      rfl
  refine ⟨fun one index => refuses _ ?_, fun one range => refuses _ ?_, fun one five => refuses _ ?_,
    fun five elsewhere => refuses _ ?_, fun five config range => refuses _ ?_,
    fun o low c gap hp config => request.trans ?_⟩
  · simp only [reqSetOutput, if_pos one, asFin_some index, Option.isSome_some, if_true]
  · simp only [reqSetOutput, if_pos one, asFin_none range, Option.isSome_none, Bool.false_eq_true, if_false]
  · simp only [reqSetOutput, if_neg one, if_pos five]
  · simp only [reqSetOutput, if_neg (show p.length ≠ 1 by omega), if_neg (not_not.2 five), if_pos elsewhere]
  · simp only [reqSetOutput, if_neg (show p.length ≠ 1 by omega), if_neg (not_not.2 five), if_neg (not_not.2 config),
      outputOfPayload_none range]
  · have five : p.length = 5 := (congrArg List.length hp).trans (by simp)
    have index : byteAt p 0 = idxByte o := congrArg (byteAt · 0) hp
    have read : outputOfPayload p = some (o, low, c, gap) := hp ▸ outputOfPayload_codes o low c gap
    simp only [reqSetOutput, if_neg (show p.length ≠ 1 by omega), if_neg (not_not.2 five), if_neg (not_not.2 config),
      read, index, outputSettings_idxByte, modOutput_out, Fin.getElem_fin, modAt_getElem, if_true, ← hp]
    rfl

/-- Settles O38: OUT's four answers to a claim, the refusals of PULSE_OUTPUT in the order of the checks, then the two ends
of its claim. -/
theorem claimsAndTestPulses : Obligations.ClaimsAndTestPulses := by
  unfold Obligations.ClaimsAndTestPulses
  refine ⟨fun o len owner now => ?_, fun tag p s taken => ?_⟩
  · intro t
    refine ⟨claim_off len owner now, fun e w on extend => ?_, fun e w => claim_busy len owner now,
      fun e w => claim_recovering len owner now⟩
    simpa only [aheadTime_iff] using claim_extend len owner now on extend
  · simp only [exec_pulseOutput_taken tag p taken]
    refine ⟨fun short => ?_, fun full elsewhere => ?_, fun full config range => ?_, fun o len hp config long => ?_⟩
    · rw [reqPulseOutput, if_pos short]
      rfl
    · rw [reqPulseOutput, if_neg (not_not.2 full), if_pos elsewhere]
      rfl
    · rw [reqPulseOutput_badValue tag full config range]
      rfl
    · subst hp
      rw [reqPulseOutput_claims tag o config long]
      refine ⟨fun free => ?_, fun reason refusal => ?_⟩
      · rw [claimOutput_taken o len .test free]
        simp only [modOutput_out, Fin.getElem_fin, modAt_getElem, if_true]
        rfl
      · rw [claimOutput_refused o len .test refusal]
        rfl

/-- Settles O45: the wrong length, ESTOP already entered, then the entry. -/
theorem estopResult : Obligations.EstopResult := by
  unfold Obligations.EstopResult
  intro tag p s taken
  simp only [exec_estop_taken tag p taken, reqEstop]
  refine ⟨fun payload => ?_, fun empty entered => ?_, fun empty outside => ?_⟩
  · rw [if_pos payload]
    rfl
  · rw [if_neg (not_not.2 empty), if_pos entered, entered]
    rfl
  · obtain ⟨zone, -⟩ := enterEstop_spec .request s
    rw [if_neg (not_not.2 empty), if_neg outside, zone, enterEstop_eq]
    rfl

end Sys2Proof.Outputs
end

section
/-! SUPPORT and CERTIFICATES. Chapter 7 of the T24, the zone and the shared lines: START, HOLD and RESUME, SYNC_PULSE,
STOP_LINE and SET_LINE, STATUS, accepted changes of the line inputs; and the device resets that set every register
(R152). The rules come first; the obligations they settle last. -/

namespace Sys2Proof.ZoneControl

open Sys2Proof.Machine Sys2Proof.Safety Sys2Proof.Laws

/-! ## Requests -/

section Requests

variable {s : State} (tag : Byte) (p : List Byte)

theorem exec_status_taken (h : Taken s) : exec (.status tag p) s = .next (reqStatus tag p s) :=
  congrArg _ (takeFrame_taken h)

theorem exec_reset_taken (h : Taken s) : exec (.reset tag p) s = .next (reqReset tag p s) :=
  congrArg _ (takeFrame_taken h)

/-- R121: both rows of START are one request. -/
theorem exec_start_taken {c : Instr} (start : c = .startSync tag p ∨ c = .startLocal tag p) (h : Taken s) :
    exec c s = .next (reqStart tag p s) := by
  obtain rfl | rfl := start
  · exact congrArg _ (takeFrame_taken h)
  · exact congrArg _ (takeFrame_taken h)

theorem exec_syncPulse_taken (h : Taken s) : exec (.syncPulse tag p) s = .next (reqSyncPulse tag p s) :=
  congrArg _ (takeFrame_taken h)

theorem exec_stopLine_taken (h : Taken s) : exec (.stopLine tag p) s = .next (reqStopLine tag p s) :=
  congrArg _ (takeFrame_taken h)

theorem exec_hold_taken (h : Taken s) : exec (.hold tag p) s = .next (reqHold tag p s) :=
  congrArg _ (takeFrame_taken h)

theorem exec_resume_taken (h : Taken s) : exec (.resume tag p) s = .next (reqResume tag p s) :=
  congrArg _ (takeFrame_taken h)

theorem exec_setLine_taken (h : Taken s) : exec (.setLine tag p) s = .next (reqSetLine tag p s) :=
  congrArg _ (takeFrame_taken h)

end Requests

/-! ## SET_LINE (R120) -/

/-- R120, R163: one field out of range, and the whole full form is refused. -/
theorem lineOfPayload_none {a b c d e : Byte} (z : ZonUnit)
    (h : 2 ≤ a.toNat ∨ 2 ≤ b.toNat ∨ 2 ≤ c.toNat ∨ 2 ≤ d.toNat ∨ e = 0 ∨ 250 < e.toNat) :
    lineOfPayload [a, b, c, d, e] z = none := by
  rcases h with h | h | h | h | rfl | h
  · simp [lineOfPayload, asFlag_none h]
  · simp [lineOfPayload, asFlag_none h]
  · simp [lineOfPayload, asFlag_none h]
  · simp [lineOfPayload, holdPolicy_none h]
  · simp [lineOfPayload]
  · simp [lineOfPayload, not_le.2 h]

theorem lineOfPayload_codes (stopIn stopOut syncIn : Bool) (h : HoldPolicy) {w : BitVec 8} (z : ZonUnit)
    (least : 1 ≤ w.toNat) (greatest : w.toNat ≤ 250) :
    lineOfPayload [flagByte stopIn, flagByte stopOut, flagByte syncIn, h.code, w] z =
      some { z with stopIn, stopOut, syncIn, holdPolicy := h, stopWidth := w } := by
  simp [lineOfPayload, least, greatest]

/-! ## The drives of the shared lines (R119, R124, R125) -/

/-- R15, R118: the filter of a line sees it fall when this unit begins to drive it and nothing else held it low. -/
theorem rewait_drive (filter now : Time) (accepted ext released : Bool) (wait : Option Time) :
    rewait filter now accepted (ext && released) false wait =
      if ext = false ∨ released = false then wait else if accepted = false then none else some (now + filter) := by
  cases ext <;> cases released <;> simp [rewait, eq_comm]

/-- A wait left as it is leaves its line input as it is. -/
theorem lineIn_wait_ite (c : Prop) [Decidable c] (x : LineIn) (w : Option Time) :
    { x with wait := if c then x.wait else w } = if c then x else { x with wait := w } := by
  split <;> rfl

/-- R124, R119: a SYNC line that this unit begins or goes on to drive. -/
theorem setSync_drive (z : ZonUnit) (now e : Time) :
    z.setSync z.sync.ext (some e) now =
      { z with
        syncDrive := some e
        sync :=
          if z.sync.ext = false ∨ z.syncDrive.isSome = true then z.sync
          else
            { z.sync with wait := if z.sync.accepted = false then none else some (now + Config.syncFilter) } } := by
  have wait := rewait_drive Config.syncFilter now z.sync.accepted z.sync.ext z.syncDrive.isNone z.sync.wait
  rw [← lineIn_wait_ite]
  simp only [ZonUnit.setSync, ZonUnit.syncRaw, Option.isNone_some, Bool.and_false, wait, Option.isNone_eq_false_iff]

/-- R125, R119: a LINE-STOP line that this unit begins or goes on to drive. -/
theorem setLineStop_drive (z : ZonUnit) (now e : Time) :
    z.setLineStop z.lineStop.ext (some e) now =
      { z with
        lineStopDrive := some e
        lineStop :=
          if z.lineStop.ext = false ∨ z.lineStopDrive.isSome = true then z.lineStop
          else
            { z.lineStop with
              wait := if z.lineStop.accepted = false then none else some (now + Config.lineStopFilter) } } := by
  have wait :=
    rewait_drive Config.lineStopFilter now z.lineStop.accepted z.lineStop.ext z.lineStopDrive.isNone z.lineStop.wait
  rw [← lineIn_wait_ite]
  simp only [ZonUnit.setLineStop, ZonUnit.lineStopRaw, Option.isNone_some, Bool.and_false, wait,
    Option.isNone_eq_false_iff]

/-- R125: the remaining time of a drive that starts now, less than half the circle long. -/
theorem driveRemaining_start (now : Time) {n : Nat} (h : n < 2 ^ 32) :
    driveRemaining (some (now + BitVec.ofNat 48 n)) now = BitVec.ofNat 32 n := by
  have length : now + BitVec.ofNat 48 n - now = BitVec.ofNat 48 n := by
    rw [add_sub_cancel_left]
  have whole : (BitVec.ofNat 48 n).toNat = n := Nat.mod_eq_of_lt (by omega)
  simp only [driveRemaining, aheadTime, length, whole]
  obtain rfl | positive := Nat.eq_zero_or_pos n
  · rfl
  · rw [if_pos (by simp only [Bool.and_eq_true, decide_eq_true_eq]; omega)]
    exact BitVec.setWidth_ofNat_of_le (by decide) n

/-! ## START (R121 to R123) -/

/-- R121, check 2. -/
theorem startAllowed_iff (form : Byte) (z : ZoneState) :
    startAllowed form z = true ↔ z = .config ∨ (z = .armed ∧ form ≠ 0) := by
  simp only [startAllowed, Bool.or_eq_true, Bool.and_eq_true, decide_eq_true_eq]

/-- R21: some input has role ENTRY. -/
theorem hasEntry_iff (s : State) : hasEntry s = true ↔ ∃ i : Fin 8, s.inp.inputs[i].role = .entry := by
  simp only [hasEntry, List.any_eq_true, List.mem_finRange, true_and, decide_eq_true_eq]

/-- R123: all that a tracking start does before its notice. -/
def startedTracking (s : State) : State :=
  { s with
    pos := { s.pos with position := 0, highWater := 0 }
    trk := { s.trk with nextTag := 1, entry := levelEntry s }
    zon := { s.zon with zone := .tracking, firstCause := none, causes := .empty } }

/-- R123: a tracking start, its notice last (log 29). -/
theorem trackingStart_eq (cause : ZoneCause) (s : State) :
    trackingStart cause s = offer (.zoneState s.now s.zon.zone .tracking cause 0) (startedTracking s) := by
  rw [trackingStart, Outputs.entryByLevel_eq]
  rfl

/-- R144: offering a notice does not look at what a tracking start changes. -/
theorem startedTracking_offer (n : Notice) (s : State) :
    startedTracking (offer n s) = offer n (startedTracking s) := by
  unfold offer
  by_cases enabled : s.lnk.settings[n.kind.index].enabled = true
  · exact (congrArg startedTracking (if_pos enabled)).trans (if_pos enabled).symm
  · exact (congrArg startedTracking (if_neg enabled)).trans (if_neg enabled).symm

theorem startedTracking_announceAbort (t : TeachState) (s : State) :
    startedTracking (announceAbort t s) = announceAbort t (startedTracking s) := by
  unfold announceAbort
  split
  · rfl
  · exact startedTracking_offer _ s

/-- R121, R123, R159: a tracking start after an abort, both notices in order. -/
theorem trackingStart_abortTeach (cause : ZoneCause) (s : State) :
    trackingStart cause (abortTeach s) =
      offer (.zoneState s.now s.zon.zone .tracking cause 0)
        (announceAbort s.tch.state (startedTracking { s with tch := { s.tch with state := .idle } })) := by
  rw [Outputs.abortTeach_eq, trackingStart_eq, startedTracking_announceAbort]
  simp only [State.now, Outputs.announceAbort_pos, Outputs.announceAbort_zon]

section StartChecks

variable (tag b : Byte) {s : State}

/-- R121, check 2: START in a zone state in which its form is not accepted. -/
theorem reqStart_wrongState (zone : ¬(s.zon.zone = .config ∨ (s.zon.zone = .armed ∧ b ≠ 0))) :
    reqStart tag [b] s = answer 0x24 tag .wrongState [s.zon.zone.code] s := by
  have refused : (!startAllowed b s.zon.zone) = true := by
    rw [Bool.not_eq_true', ← Bool.not_eq_true, startAllowed_iff]
    exact zone
  rw [reqStart, if_neg (by simp), byteAt_zero, if_pos refused]

variable (allowed : startAllowed b s.zon.zone = true)

include allowed

/-- R121, check 3: a form out of range. -/
theorem reqStart_badValue (range : 2 ≤ b.toNat) :
    reqStart tag [b] s = answer 0x24 tag .badValue [s.zon.zone.code] s := by
  rw [reqStart, if_neg (by simp), byteAt_zero, if_neg (by simp [allowed]), if_pos (show 1 < b.toNat from range)]

/-- R121, check 4: START in CONFIG with no input of role ENTRY. -/
theorem reqStart_conflict (form : b.toNat ≤ 1) (config : s.zon.zone = .config) (noEntry : hasEntry s = false) :
    reqStart tag [b] s = answer 0x24 tag .conflict [s.zon.zone.code] s := by
  rw [reqStart, if_neg (by simp), byteAt_zero, if_neg (by simp [allowed]), if_neg (not_lt.2 form),
    if_pos (by simp [config, noEntry])]

end StartChecks

/-- R121: the form SYNC past its checks. -/
theorem reqStart_sync (tag : Byte) {s : State} (config : s.zon.zone = .config) (entry : hasEntry s = true) :
    reqStart tag [0] s = answer 0x24 tag .ok [1] (enterZone .armed .request (abortTeach s)) := by
  have zone : (enterZone .armed .request (abortTeach s)).zon.zone = .armed := by rw [enterZone_zon]
  simp only [reqStart, zone, config, entry]
  rfl

/-- R121: the form LOCAL past its checks. -/
theorem reqStart_local (tag : Byte) {s : State}
    (h : (s.zon.zone = .config ∧ hasEntry s = true) ∨ s.zon.zone = .armed) :
    reqStart tag [1] s = answer 0x24 tag .ok [2] (trackingStart .request (abortTeach s)) := by
  have zone : (trackingStart .request (abortTeach s)).zon.zone = .tracking := by rw [(trackingStart_spec _ _).2.2.1]
  obtain ⟨config, entry⟩ | armed := h
  · simp only [reqStart, zone, config, entry]
    rfl
  · simp only [reqStart, zone, armed]
    rfl

/-! ## RESUME (R128) -/

/-- Table 7-8: the item being measured is overlong. -/
def MeasuresOverlength (s : State) : Prop :=
  ∃ g lead it, s.trk.entry = .measuring g lead ∧ it ∈ s.trk.track ∧ it.tag = g ∧ it.flags.overlength = true

/-- Table 7-8, as the model looks for the item of the tag being measured. -/
theorem presentCauses_entryBlocked {s : State} (items : ItemsOk s) :
    (presentCauses s).entryBlocked = true ↔ s.zon.causes.entryBlocked = true ∧ MeasuresOverlength s := by
  refine Bool.and_eq_true_iff.trans (and_congr_right fun _ => ?_)
  unfold MeasuresOverlength
  cases entry : s.trk.entry with
  | clear => simp
  | untracked => simp
  | measuring g lead =>
    refine ⟨fun overlong => ?_, ?_⟩
    · obtain found | ⟨it, found⟩ := (s.findItem g).eq_none_or_eq_some
      · simp [found] at overlong
      · obtain ⟨member, same⟩ := findItem_some found
        exact ⟨g, lead, it, rfl, member, same, by simpa [found] using overlong⟩
    · rintro ⟨_, _, it, measured, member, rfl, overlong⟩
      cases measured
      simpa [findItem_eq items member] using overlong

/-- Table 7-8: the causes of the set that are present, cause by cause. -/
theorem presentCauses_unique {s : State} (items : ItemsOk s) {present : CauseSet} (encoder : present.encoder = false)
    (missing : present.missing = false)
    (reverse : present.reverse = true ↔
      s.zon.causes.reverse = true ∧ s.trk.params.reverseLimit.toNat < reverseDistance s.pos)
    (trackFull : present.trackFull = true ↔ s.zon.causes.trackFull = true ∧ 64 ≤ s.trk.track.length)
    (entryBlocked : present.entryBlocked = true ↔ s.zon.causes.entryBlocked = true ∧ MeasuresOverlength s) :
    presentCauses s = present := by
  have hr : (presentCauses s).reverse = present.reverse :=
    Bool.eq_iff_iff.2 (Bool.and_eq_true_iff.trans ((and_congr_right fun _ => decide_eq_true_iff).trans reverse.symm))
  have ht : (presentCauses s).trackFull = present.trackFull :=
    Bool.eq_iff_iff.2 (Bool.and_eq_true_iff.trans ((and_congr_right fun _ => decide_eq_true_iff).trans trackFull.symm))
  have hb : (presentCauses s).entryBlocked = present.entryBlocked :=
    Bool.eq_iff_iff.2 ((presentCauses_entryBlocked items).trans entryBlocked.symm)
  obtain ⟨_, _, _, _, _⟩ := present
  exact CauseSet.mk.injEq .. ▸ ⟨encoder.symm, hr, ht, hb, missing.symm⟩

/-- R128, check 2, in the zone states in which RESUME is accepted. -/
theorem not_elsewhere_of_stopped {z : ZoneState} (stopped : z = .hold ∨ z = .fault) :
    ¬(z ≠ .hold && z ≠ .fault) = true := by
  obtain rfl | rfl := stopped <;> decide

section Resume

variable (tag : Byte) {s : State} (stopped : s.zon.zone = .hold ∨ s.zon.zone = .fault) {causes : CauseSet}
  (found : (if s.zon.zone = .fault then presentCauses s else .empty) = causes)

include stopped found

/-- R128: RESUME past its checks of length and state is refused for the line or for a cause. -/
theorem reqResume_refused (h : lineHeld s = true ∨ causes ≠ .empty) :
    reqResume tag [] s =
      answer 0x28 tag .causePresent [s.zon.zone.code, flagByte (lineHeld s), causes.byte] s := by
  simp only [reqResume, found]
  rw [if_neg (by simp), if_neg (not_elsewhere_of_stopped stopped), if_pos (by simpa using h)]

/-- R128: RESUME with the line released and no cause present enters TRACKING. -/
theorem reqResume_enters (line : lineHeld s = false) (absent : causes = .empty) :
    reqResume tag [] s =
      answer 0x28 tag .ok [ZoneState.code .tracking, flagByte false, CauseSet.byte .empty]
        (enterZone .tracking .request s) := by
  simp only [reqResume, found, enterZone_zon]
  rw [if_neg (by simp), if_neg (not_elsewhere_of_stopped stopped), if_neg (by simp [line, absent])]

end Resume

/-! ## Accepted changes of the line inputs (R118, R122, R126, R130) -/

section LineAcceptance

variable {s : State}

theorem exec_lineInputAcceptance_sync_ended (h : waitOver s.zon.sync.wait s.pos.timeBase = true) :
    exec (.lineInputAcceptance .sync) s = .next (acceptSync s) :=
  congrArg Host.Outcome.next (if_pos h)

theorem exec_lineInputAcceptance_lineStop_ended (h : waitOver s.zon.lineStop.wait s.pos.timeBase = true) :
    exec (.lineInputAcceptance .lineStop) s = .next (acceptLineStop s) :=
  congrArg Host.Outcome.next (if_pos h)

theorem exec_lineInputAcceptance_estop_ended (h : waitOver s.zon.estopN.wait s.pos.timeBase = true) :
    exec (.lineInputAcceptance .estop) s = .next (acceptEstop s) :=
  congrArg Host.Outcome.next (if_pos h)

end LineAcceptance

/-- R122: what an accepted change of SYNC does, besides moving the accepted level, and when. -/
theorem acceptSync_eq (s : State) :
    let moved := s.modZon fun z => { z with sync := { z.sync with accepted := s.zon.syncRaw, wait := none } }
    acceptSync s =
      if s.zon.sync.accepted = true ∧ s.zon.syncRaw = false ∧ s.zon.zone = .armed ∧ s.zon.syncIn = true then
        trackingStart .sync moved
      else moved := by
  simp only [acceptSync, syncFall, ← ite_and, Bool.and_eq_true, Bool.not_eq_true', decide_eq_true_eq, and_assoc]
  rfl

/-- R126: what an accepted change of LINE-STOP does, besides moving the accepted level, and when. -/
theorem acceptLineStop_eq (s : State) :
    let moved :=
      s.modZon fun z => { z with lineStop := { z.lineStop with accepted := s.zon.lineStopRaw, wait := none } }
    acceptLineStop s =
      if s.zon.lineStop.accepted = true ∧ s.zon.lineStopRaw = false ∧ s.zon.zone = .tracking ∧ s.zon.stopIn = true then
        enterZone .hold .lineStop moved
      else moved := by
  simp only [acceptLineStop, lineStopFall, ← ite_and, Bool.and_eq_true, Bool.not_eq_true', decide_eq_true_eq,
    and_assoc]
  rfl

/-- R130: what an accepted change of ESTOP_N does, besides moving the accepted level, and when. -/
theorem acceptEstop_eq (s : State) :
    let moved := s.modZon fun z => { z with estopN := { z.estopN with accepted := s.zon.estopRaw, wait := none } }
    acceptEstop s = if s.zon.estopRaw = true ∨ s.zon.zone = .estop then moved else enterEstop .input moved := by
  simp only [acceptEstop, estopAssert, ite_or]
  rfl

/-! ## Device reset (R151, R152) -/

/-- R151: the levels a RESET request's reset finds. -/
theorem pinsNow_eq {s : State} {p : PinLevels} (encA : p.encA = s.pos.chanA.raw) (encB : p.encB = s.pos.chanB.raw)
    (sense : ∀ i : Fin 8, p.sense[i] = s.inp.inputs[i].raw) (sync : p.sync = s.zon.sync.ext)
    (lineStop : p.lineStop = s.zon.lineStop.ext) (estopN : p.estopN = s.zon.estopN.ext) :
    pinsNow p.straps s = p := by
  have levels : (Vector.ofFn fun i : Fin 8 => s.inp.inputs[i].raw) = p.sense :=
    Vector.ext fun i h => (Vector.getElem_ofFn h).trans (sense ⟨i, h⟩).symm
  rw [pinsNow, levels, ← encA, ← encB, ← sync, ← lineStop, ← estopN]

/-- R151: the end of the reply to RESET is a device reset. -/
theorem exec_frameSent_resetReply {s : State} {b : Burst} (straps : Straps) (sending : s.lnk.tx = .sending b)
    (mark : b.mark = .resetReply) : exec (.frameSent straps) s = .next (deviceReset (pinsNow straps s) s) := by
  simp only [exec, execFrameSent, sending, mark, if_true]

/-! ## The obligations -/

/-- Settles O40: the query form, the refusals in the order of the checks, the full form. -/
theorem setLineResult : Obligations.SetLineResult := by
  unfold Obligations.SetLineResult
  intro tag p s taken refused
  simp only [refused, exec_setLine_taken tag p taken, reqSetLine]
  refine ⟨fun query => ?_, fun form short => ?_, fun a b c d e hp range => ?_,
    fun stopIn stopOut syncIn h w hp least greatest => ?_⟩
  · rw [if_pos query]
    rfl
  · rw [if_neg form, if_pos short]
    rfl
  · subst hp
    rw [if_neg (by simp), if_neg (by simp), lineOfPayload_none _ range]
    rfl
  · subst hp
    rw [if_neg (by simp), if_neg (by simp), lineOfPayload_codes stopIn stopOut syncIn h _ least greatest]
    rfl

/-- Settles O41: the refusals of both requests, then the two drives, each with the fall its line's filter sees. -/
theorem sharedLineRequests : Obligations.SharedLineRequests := by
  unfold Obligations.SharedLineRequests
  intro tag p s taken now left fall sync
  simp only [sync, exec_syncPulse_taken tag p taken, exec_stopLine_taken tag p taken, reqSyncPulse, reqStopLine]
  refine ⟨fun payload => ⟨?_, ?_⟩, fun empty estop => ?_, fun empty zone driving => ?_, fun empty zone released => ?_,
    fun empty => ⟨?_, ?_⟩⟩
  · rw [if_pos payload]
    rfl
  · rw [if_pos payload]
    rfl
  · rw [if_neg (not_not.2 empty), if_pos estop]
    rfl
  · have busy : s.zon.syncDrive.isSome = true := Option.isSome_iff_ne_none.2 driving
    rw [if_neg (not_not.2 empty), if_neg zone, if_pos busy, driveByte, busy]
    rfl
  · rw [if_neg (not_not.2 empty), if_neg zone, if_neg (by simp [released])]
    simp only [State.modZon, setSync_drive, released]
    rfl
  · have width : s.zon.stopWidth.toNat * 1000 < 2 ^ 32 := by omega
    rw [if_neg (not_not.2 empty)]
    simp only [driveLineStop, State.modZon, setLineStop_drive, State.now, driveRemaining_start _ width]
    rfl
  · simp only [driveLineStop, State.modZon, setLineStop_drive]
    rfl

/-- Settles O42: the refusals in the order of the checks, then the two forms. -/
theorem startResult : Obligations.StartResult := by
  unfold Obligations.StartResult
  intro tag p s c taken start refused entry now idle
  simp only [refused, exec_start_taken tag p start taken]
  have entryIff : entry s ↔ hasEntry s = true := (hasEntry_iff s).symm
  refine ⟨fun short => ?_, fun b hp zone => ?_, fun b hp zone range => ?_, fun form config lacking => ?_,
    fun form config present => ?_, fun form zone => ?_⟩
  · rw [reqStart, if_pos short]
    rfl
  · rw [hp, reqStart_wrongState tag b zone]
    rfl
  · have allowed : startAllowed b s.zon.zone = true :=
      (startAllowed_iff b _).2 (zone.imp_right fun armed => ⟨armed, by rintro rfl; simp at range⟩)
    rw [hp, reqStart_badValue tag b allowed range]
    rfl
  · have noEntry : hasEntry s = false := Bool.eq_false_iff.2 fun present => lacking (entryIff.2 present)
    have allowed : ∀ b, startAllowed b s.zon.zone = true := fun b => (startAllowed_iff b _).2 (.inl config)
    obtain rfl | rfl := form
    · rw [reqStart_conflict tag 0 (allowed 0) (by decide) config noEntry]
      rfl
    · rw [reqStart_conflict tag 1 (allowed 1) (by decide) config noEntry]
      rfl
  · rw [form, reqStart_sync tag config (entryIff.1 present), Outputs.enterZone_abortTeach, config]
    rfl
  · rw [form, reqStart_local tag (by rwa [← entryIff]), trackingStart_abortTeach]
    rfl

/-- Settles O43: the refusals in the order of the checks, HOLD taken, then RESUME by the causes found present. -/
theorem holdResumeResult : Obligations.HoldResumeResult := by
  unfold Obligations.HoldResumeResult
  intro tag p s taken hold resume enter lineLow behind blocked
  have distance : behind = reverseDistance s.pos := (Position.reverseDistance_eq s.pos).symm
  simp only [hold, resume, exec_hold_taken tag p taken, exec_resume_taken tag p taken]
  refine ⟨fun payload => ⟨?_, ?_⟩, fun empty zone => ?_, fun empty zone => ?_, fun empty notHold notFault => ?_,
    fun empty zone => ?_, fun empty zone items present encoder missing reverse trackFull entryBlocked => ?_⟩
  · rw [reqHold, if_pos payload]
    rfl
  · rw [reqResume, if_pos payload]
    rfl
  · rw [reqHold, if_neg (not_not.2 empty), if_pos zone]
    rfl
  · simp only [reqHold, enterZone_zon]
    rw [if_neg (not_not.2 empty), if_neg (not_not.2 zone)]
    rfl
  · rw [reqResume, if_neg (not_not.2 empty), if_pos (by simp [notHold, notFault])]
    rfl
  · subst empty
    have found : (if s.zon.zone = .fault then presentCauses s else .empty) = CauseSet.empty := if_neg (by simp [zone])
    refine ⟨fun low => ?_, fun released => ?_⟩
    · rw [reqResume_refused tag (.inl zone) found (.inl low), zone, show lineHeld s = true from low]
      rfl
    · rw [reqResume_enters tag (.inl zone) found released rfl]
      rfl
  · subst empty
    have found : (if s.zon.zone = .fault then presentCauses s else .empty) = present := by
      rw [if_pos zone]
      exact presentCauses_unique items encoder missing (distance ▸ reverse) trackFull entryBlocked
    refine ⟨fun refusal => ?_, fun released absent => ?_⟩
    · rw [reqResume_refused tag (.inr zone) found refusal, zone]
      rfl
    · rw [reqResume_enters tag (.inr zone) found released absent]
      rfl

/-- Settles O46: waits that have not run out, then each line by whether its edge acts. -/
theorem lineInputAcceptanceResult : Obligations.LineInputAcceptanceResult := by
  unfold Obligations.LineInputAcceptanceResult
  intro s now z syncLevel stopLevel sync stop estop
  have early : ∀ {wait : Option Time} {t : State}, waitOver wait now = false →
      (Host.Outcome.next (if waitOver wait now then t else s) : Answer) = .next s :=
    fun h => congrArg Host.Outcome.next (if_neg (by simp [h]))
  refine ⟨early, early, early, fun ended => ⟨fun stays => ?_, fun starts => ?_⟩,
    fun ended => ⟨fun stays => ?_, fun holds => ?_⟩, fun ended => ⟨fun stays => ?_, fun low outside => ?_⟩⟩
  · exact (exec_lineInputAcceptance_sync_ended ended).trans (congrArg _ ((acceptSync_eq s).trans (if_neg stays)))
  · refine (exec_lineInputAcceptance_sync_ended ended).trans
      (congrArg _ ((acceptSync_eq s).trans ((if_pos starts).trans ?_)))
    obtain ⟨-, -, armed, -⟩ := starts
    rw [trackingStart_eq, ← armed]
    rfl
  · exact (exec_lineInputAcceptance_lineStop_ended ended).trans
      (congrArg _ ((acceptLineStop_eq s).trans (if_neg stays)))
  · refine (exec_lineInputAcceptance_lineStop_ended ended).trans
      (congrArg _ ((acceptLineStop_eq s).trans ((if_pos holds).trans ?_)))
    obtain ⟨-, -, tracking, -⟩ := holds
    rw [enterZone_eq, ← tracking]
    rfl
  · exact (exec_lineInputAcceptance_estop_ended ended).trans (congrArg _ ((acceptEstop_eq s).trans (if_pos stays)))
  · refine (exec_lineInputAcceptance_estop_ended ended).trans
      (congrArg _ ((acceptEstop_eq s).trans ((if_neg (not_or.2 ⟨Bool.eq_false_iff.1 low, outside⟩)).trans ?_)))
    rw [Outputs.enterEstop_eq]
    rfl

/-- Settles O7: the refusals, then the reply with and without the clearing. -/
theorem statusResult : Obligations.StatusResult := by
  unfold Obligations.StatusResult
  intro tag p s taken measured fields
  have bytes : statusBytes s = fields := by
    simp only [statusBytes, optTag, List.append_assoc, List.cons_append, List.nil_append, fields, measured]
    cases s.trk.entry <;> rfl
  simp only [exec_status_taken tag p taken, reqStatus]
  refine ⟨fun short => ?_, fun b hp range => ?_, fun hp => ?_, fun hp => ?_⟩
  · rw [if_pos short]
    rfl
  · subst hp
    rw [if_neg (by simp), byteAt_zero, asFlag_none range]
    rfl
  · subst hp
    rw [bytes]
    rfl
  · subst hp
    rw [bytes]
    rfl

/-- Settles O52: RESET answered, then the three ends of a reset, each to the reset values of its levels. -/
theorem resetResult : Obligations.ResetResult := by
  unfold Obligations.ResetResult
  refine ⟨fun tag p s taken => ?_, fun s p => ?_⟩
  · simp only [exec_reset_taken tag p taken, reqReset]
    refine ⟨fun payload => ?_, fun empty => ?_⟩
    · rw [if_pos payload]
      rfl
    · rw [if_neg (not_not.2 empty)]
      rfl
  · intro zone cleared
    refine ⟨rfl, rfl, fun b sending mark encA encB sense sync lineStop estopN => ?_⟩
    rw [exec_frameSent_resetReply p.straps sending mark, pinsNow_eq encA encB sense sync lineStop estopN]
    rfl

end Sys2Proof.ZoneControl
end

section
/-! SUPPORT and CERTIFICATES. Chapter 8 of the T24, the host link: what every step keeps of the link, frames and bytes
on the wire, the requests IDENTIFY and SET_NOTICES, the notice queue, the arbiter and its bursts. The rules come first;
the obligations they settle last. -/

namespace Sys2Proof.HostLink

open Sys2Proof.Machine Sys2Proof.Safety Sys2Proof.Laws

/-! ## What the link invariant is made of -/

/-- What the link invariant says of `s` it says of `t`, the transmitter apart: replies, settings and a pending RESET
are those of `s`, the notice queue keeps its laws, and a stream that is not active leaves no snapshot. -/
structure LinkKept (s t : State) : Prop where
  replies : t.lnk.replies = s.lnk.replies
  settings : t.lnk.settings = s.lnk.settings
  resetPending : t.lnk.resetPending = s.lnk.resetPending
  notices : NoticesOk s.lnk → NoticesOk t.lnk
  dump : (s.lnk.dump = none → s.trk.snapshot.records = []) → t.lnk.dump = none → t.trk.snapshot.records = []

/-- `LinkKept`, with a transmitter that sends what it sent. -/
structure SameLink (s t : State) : Prop extends LinkKept s t where
  tx : t.lnk.tx = s.lnk.tx

theorem LinkKept.trans {s t u : State} (h : LinkKept s t) (k : LinkKept t u) : LinkKept s u where
  replies := k.replies.trans h.replies
  settings := k.settings.trans h.settings
  resetPending := k.resetPending.trans h.resetPending
  notices hs := k.notices (h.notices hs)
  dump hs := k.dump (h.dump hs)

theorem SameLink.trans {s t u : State} (h : SameLink s t) (k : SameLink t u) : SameLink s u :=
  ⟨h.toLinkKept.trans k.toLinkKept, k.tx.trans h.tx⟩

/-- A step that leaves the link and the snapshot alone. -/
theorem SameLink.of_units {s t : State} (lnk : t.lnk = s.lnk := by rfl)
    (snapshot : t.trk.snapshot = s.trk.snapshot := by rfl) : SameLink s t :=
  ⟨⟨by rw [lnk], by rw [lnk], by rw [lnk], by rw [lnk]; exact id, by rw [lnk, snapshot]; exact id⟩, by rw [lnk]⟩

theorem SameLink.refl (s : State) : SameLink s s := .of_units

/-- A step from a state `t` that has the link and the snapshot of `s`. -/
theorem SameLink.after {s t u : State} (h : SameLink t u) (lnk : t.lnk = s.lnk := by rfl)
    (snapshot : t.trk.snapshot = s.trk.snapshot := by rfl) : SameLink s u :=
  (SameLink.of_units lnk snapshot).trans h

/-- A step that acts only when its time has come. -/
theorem SameLink.ite {s t : State} (h : SameLink s t) (c : Prop) [Decidable c] : SameLink s (if c then t else s) := by
  split
  · exact h
  · exact .refl s

/-- Work on items offers notices and leaves the rest of the link alone. -/
theorem sameLink_of_work {s t : State} (h : ItemWork s t) : SameLink s t where
  replies := by rw [h.lnk]
  settings := by rw [h.lnk]
  resetPending := by rw [h.lnk]
  notices := h.notices
  dump := by rw [h.lnk, h.snapshot]; exact id
  tx := by rw [h.lnk]

theorem sameLink_of_event {s t : State} (h : EventWork s t) : SameLink s t :=
  (sameLink_of_work h.work).after

theorem offer_sameLink (n : Notice) (s : State) : SameLink s (offer n s) := sameLink_of_work (offer_work n s)

theorem SameLink.keeps {s t : State} (h : SameLink s t) (hs : LinkInv s) : LinkInv t := by
  obtain ⟨room, queue, zoneState, fault, stream, reset⟩ := hs
  refine ⟨by rwa [h.replies], h.notices queue, by rwa [h.settings], by rwa [h.settings], h.dump stream, ?_⟩
  rw [h.resetPending, h.replies, h.tx]
  exact reset

/-- R151: a pending RESET whose reply still waits in the reply queue. -/
def ResetQueued (s : State) : Prop := s.lnk.resetPending = true → ∃ r ∈ s.lnk.replies, r.mark = .resetReply

/-- R151: the reply to a pending RESET is in the queue while the transmitter does not send it. -/
theorem resetQueued_of_linkInv {s : State} (hs : LinkInv s) (h : ∀ b, s.lnk.tx = .sending b → b.mark ≠ .resetReply) :
    ResetQueued s := by
  obtain ⟨-, -, -, -, -, reset⟩ := hs
  intro pending
  obtain queued | ⟨b, sending, mark⟩ := reset pending
  · exact queued
  · exact absurd mark (h b sending)

/-- The transmitter is free to move while the reply to a pending RESET waits in the queue. -/
theorem LinkKept.keeps {s t : State} (h : LinkKept s t) (queued : ResetQueued s) (hs : LinkInv s) : LinkInv t := by
  obtain ⟨room, queue, zoneState, fault, stream, -⟩ := hs
  refine ⟨by rwa [h.replies], h.notices queue, by rwa [h.settings], by rwa [h.settings], h.dump stream, ?_⟩
  rw [h.resetPending, h.replies]
  exact fun pending => .inl (queued pending)

theorem noticesOk_tail {l : LnkUnit} {q : QueuedNotice} {rest : List QueuedNotice} (h : NoticesOk l)
    (hq : l.notices = q :: rest) : NoticesOk { l with notices := rest } := by
  obtain ⟨room, sorted⟩ := h
  rw [hq] at room sorted
  exact ⟨(Nat.le_succ _).trans room, (List.pairwise_cons.1 sorted).2⟩

/-- R152: after a device reset one notice waits and nothing else. -/
theorem deviceReset_link (p : PinLevels) (s : State) : LinkInv (deviceReset p s) :=
  ⟨Nat.zero_le _, ⟨Nat.le_of_ble_eq_true rfl, List.pairwise_singleton _ _⟩, rfl, rfl, fun _ => rfl,
    fun pending => by cases pending⟩

/-! ## What leaves the link alone -/

theorem enterZone_sameLink (z : ZoneState) (c : ZoneCause) (s : State) : SameLink s (enterZone z c s) :=
  (offer_sameLink _ _).after

theorem trackingStart_sameLink (c : ZoneCause) (s : State) : SameLink s (trackingStart c s) :=
  (enterZone_sameLink .tracking c _).after

theorem abortTeach_sameLink (s : State) : SameLink s (abortTeach s) := sameLink_of_event (abortTeach_event s)

theorem enterEstop_sameLink (c : ZoneCause) (s : State) : SameLink s (enterEstop c s) :=
  ((abortTeach_sameLink _).trans (enterZone_sameLink _ _ _)).after

theorem flushToConfig_sameLink (s : State) : SameLink s (flushToConfig s) :=
  (sameLink_of_work (flush_work s)).trans (enterZone_sameLink _ _ _)

theorem endTeach_sameLink (run : TeachRun) (r : TeachResult) (stats : Option TeachStats) (applied : Bool)
    (validation : Option Status) (s : State) : SameLink s (endTeach run r stats applied validation s) :=
  sameLink_of_event (endTeach_event run r stats applied validation s)

theorem finishTeach_sameLink (run : TeachRun) (s : State) : SameLink s (finishTeach run s) := by
  have applied : ∀ stats, SameLink s (applyTeach run stats s) := fun stats => by
    unfold applyTeach
    dsimp only
    split
    · exact endTeach_sameLink _ _ _ _ _ s
    split
    · exact endTeach_sameLink _ _ _ _ _ s
    · exact (endTeach_sameLink _ _ _ _ _ _).after
  unfold finishTeach
  split
  · exact .refl s
  split
  · exact endTeach_sameLink _ _ _ _ _ s
  split
  · exact applied _
  · exact endTeach_sameLink _ _ _ _ _ s

theorem teachTargetEdge_sameLink (s : State) : SameLink s (teachTargetEdge s) := by
  unfold teachTargetEdge
  split
  · exact .refl s
  · exact .refl s
  dsimp only
  have sampled : ∀ n run, SameLink s (offer n (setTeach (.waitEntry run) s)) := fun n run =>
    (offer_sameLink n _).after
  split
  · exact (sampled _ _).trans (finishTeach_sameLink _ _)
  · exact sampled _ _

theorem createItem_sameLink (s : State) : SameLink s (createItem s) := by
  have entered : SameLink s (enteredState s) := (offer_sameLink _ _).after
  rw [createItem_def]
  split
  · exact (entered.trans (sameLink_of_work (decideItem_work _ _ _))).trans (.of_units)
  · exact entered.trans (.of_units)

theorem entryLeading_sameLink (s : State) : SameLink s (entryLeading s) := by
  have untracked : SameLink s (setEntry .untracked s) := .of_units
  have attempt : SameLink s (entryAttempt s) := by
    unfold entryAttempt
    split
    · exact untracked.trans (sameLink_of_work (faultCause_work _ _))
    split
    · exact createItem_sameLink s
    split
    · exact createItem_sameLink s
    · exact untracked.trans (offer_sameLink _ _)
  unfold entryLeading
  split
  · split
    · exact attempt
    · exact attempt
    · exact .refl s
  · exact untracked

theorem entryTrailing_sameLink (s : State) : SameLink s (entryTrailing s) := by
  unfold entryTrailing
  split
  · exact .refl s
  · exact .of_units
  dsimp only
  split
  · exact (sameLink_of_work (leave_work _ _ _)).after
  · exact .of_units

/-- R19, R20: a receiver of an edge offers notices and leaves the rest of the link alone. -/
theorem receiveEdge_sameLink (i : Fin 8) (e : EdgeKind) (r : EdgeReceiver) (s : State) :
    SameLink s (receiveEdge i e r s) := by
  cases r with
  | probe => exact (offer_sameLink _ _).after
  | entryUnit =>
    cases e with
    | leading => exact entryLeading_sameLink s
    | trailing => exact entryTrailing_sameLink s
  | teachEntry => exact sameLink_of_event (teachEntryEdge_event s)
  | teachTarget => exact teachTargetEdge_sameLink s
  | station k => exact sameLink_of_work (checkEdge_work k s)
  | source v => exact sameLink_of_work (lineEdge_work v s)

theorem foldl_sameLink {α : Type} (f : State → α → State) (hf : ∀ s a, SameLink s (f s a)) (l : List α) (s : State) :
    SameLink s (l.foldl f s) := by
  induction l generalizing s with
  | nil => exact .refl s
  | cons a as ih => exact (hf s a).trans (ih _)

theorem acceptInput_sameLink (i : Fin 8) (s : State) : SameLink s (acceptInput i s) := by
  have delivered : ∀ e u, SameLink u (deliverEdge i e u) := fun e u => by
    obtain ⟨order, -, -, eq⟩ := inFreeOrder_eq (receiveEdge i e) _ (edgeReceivers u i e) u (Nat.le_refl _)
    have unfolded : deliverEdge i e u = _ := eq
    rw [unfolded]
    refine foldl_sameLink _ (fun t r => ?_) order u
    exact (receiveEdge_sameLink i e r.1 _).after
  unfold acceptInput
  dsimp only
  split
  · exact .of_units
  · exact (delivered _ _).after

theorem acceptEncoder_sameLink (a b : Bool) (s : State) : SameLink s (acceptEncoder a b s) := by
  have counted : ∀ c u, SameLink u (applyCount c u) := fun c u => by
    cases c with
    | zero => exact .refl u
    | up => exact (sameLink_of_event (forwardCount_event u)).after
    | down => exact (sameLink_of_event (backwardCount_event u)).after
    | error => exact (sameLink_of_event (encoderError_event u)).after
  unfold acceptEncoder
  dsimp only
  split
  · exact (counted _ _).after
  · exact .of_units

/-- R118: an accepted change of a line input, by its line. -/
theorem acceptLine_sameLink (s : State) :
    SameLink s (acceptSync s) ∧ SameLink s (acceptLineStop s) ∧ SameLink s (acceptEstop s) := by
  rw [ZoneControl.acceptSync_eq, ZoneControl.acceptLineStop_eq, ZoneControl.acceptEstop_eq]
  refine ⟨?_, ?_, ?_⟩
  · split
    · exact (trackingStart_sameLink _ _).after
    · exact .of_units
  · split
    · exact (enterZone_sameLink _ _ _).after
    · exact .of_units
  · split
    · exact .of_units
    · exact (enterEstop_sameLink _ _).after

/-! ## Requests that answer and leave the link alone -/

/-- R141: `t` is a state with the link of `s` and one reply more. -/
def Answered (s t : State) : Prop := ∃ u r, SameLink s u ∧ t = pushReply r u

/-- R141, R143: one reply more, after a request that was taken. -/
theorem Answered.keeps {s t : State} (h : Answered s t) (taken : Taken s) (hs : LinkInv s) : LinkInv t := by
  obtain ⟨u, r, same, rfl⟩ := h
  obtain ⟨noReset, room⟩ := taken
  obtain ⟨-, queue, zoneState, fault, stream, -⟩ := same.keeps hs
  have pending : (pushReply r u).lnk.resetPending = false := same.resetPending.trans noReset
  refine ⟨?_, queue, zoneState, fault, stream, fun reset => ?_⟩
  · simpa [pushReply, same.replies] using Nat.succ_le_of_lt room
  · rw [pending] at reset
    cases reset

theorem Answered.taken {s u : State} {kind tag : Byte} {st : Status} {fields : List Byte} (h : SameLink s u) :
    Answered s (answer kind tag st fields u) := ⟨u, _, h, rfl⟩

theorem Answered.refusal {s : State} {kind tag : Byte} {st : Status} {fields : List Byte} :
    Answered s (answer kind tag st fields s) := .taken (.refl s)

/-- R141: a check that refuses the request, before what else the request does. -/
theorem Answered.refusal_or {c : Prop} [Decidable c] {s t : State} {kind tag : Byte} {st : Status}
    {fields : List Byte} (h : Answered s t) : Answered s (if c then answer kind tag st fields s else t) := by
  split
  · exact .refusal
  · exact h

/-- A request that answers every time and leaves the rest of the link alone. -/
def Answers (f : State → State) : Prop := ∀ s, Answered s (f s)

section Requests

variable (tag : Byte) (p : List Byte)

theorem reqIdentify_answers : Answers (reqIdentify tag p) := fun _ => .refusal_or .refusal

theorem reqStatus_answers : Answers (reqStatus tag p) := fun s => by
  have cleared : SameLink s (clearCounters s) := ⟨⟨rfl, rfl, rfl, id, id⟩, rfl⟩
  refine .refusal_or ?_
  split
  · exact .refusal
  · exact .taken (cleared.ite _)

theorem reqSetEncoder_answers : Answers (reqSetEncoder tag p) := fun s => by
  refine .refusal_or <| .refusal_or <| .refusal_or ?_
  split
  · exact .refusal
  · exact .taken .of_units

theorem reqReadPosition_answers : Answers (reqReadPosition tag p) := fun _ => .refusal_or .refusal

theorem reqSetInput_answers : Answers (reqSetInput tag p) := fun s => by
  refine .refusal_or <| .refusal_or <| .refusal_or ?_
  split
  · exact .refusal
  · exact .refusal_or (.taken .of_units)

theorem reqReadInput_answers : Answers (reqReadInput tag p) := fun s => by
  refine .refusal_or ?_
  split
  · exact .refusal
  · exact .refusal

theorem reqArmProbe_answers : Answers (reqArmProbe tag p) := fun s => by
  refine .refusal_or ?_
  split
  · exact .refusal
  · exact .taken .of_units

theorem reqDisarmProbe_answers : Answers (reqDisarmProbe tag p) := fun s => by
  refine .refusal_or ?_
  split
  · exact .refusal
  · exact .taken .of_units

theorem reqSetZone_answers : Answers (reqSetZone tag p) := fun s => by
  refine .refusal_or <| .refusal_or <| .refusal_or ?_
  split
  · exact .refusal
  split
  · exact .taken .of_units
  · exact .refusal

theorem reqReadItem_answers : Answers (reqReadItem tag p) := fun s => by
  refine .refusal_or <| .refusal_or ?_
  split
  · exact .refusal
  · exact .refusal

theorem reqRemoveItem_answers : Answers (reqRemoveItem tag p) := fun s => by
  refine .refusal_or <| .refusal_or <| .refusal_or ?_
  split
  · exact .refusal
  · exact .taken (sameLink_of_work (leave_work _ _ s))

theorem loadFrom_sameLink (n k : Nat) (s : State) : SameLink s (loadFrom p n k s).state := by
  induction n generalizing k s with
  | zero => exact .refl s
  | succ n ih =>
    unfold loadFrom
    split
    · exact .refl s
    split
    · exact (ih _ _).after
    · exact .refl s

theorem reqLoadStations_answers : Answers (reqLoadStations tag p) := fun s =>
  .refusal_or <| .refusal_or <| .refusal_or <| .taken (loadFrom_sameLink p _ _ s)

theorem reqSetStationMode_answers : Answers (reqSetStationMode tag p) := fun s => by
  have changed : ∀ i m, SameLink s (changeMode i m s) := fun i m => by
    unfold changeMode
    dsimp only
    split
    · exact (sameLink_of_work (disableClose_work _ _)).after
    · exact .of_units
  refine .refusal_or ?_
  split
  · exact .refusal
  · exact .refusal_or (.taken (changed _ _))

theorem reqReadStation_answers : Answers (reqReadStation tag p) := fun s => by
  refine .refusal_or ?_
  split
  · exact .refusal
  · exact .refusal

theorem reqLoadClass_answers : Answers (reqLoadClass tag p) := fun s => by
  refine .refusal_or <| .refusal_or ?_
  split
  · exact .refusal
  · exact .taken .of_units

theorem reqSetSource_answers : Answers (reqSetSource tag p) := fun s => by
  refine .refusal_or <| .refusal_or <| .refusal_or ?_
  split
  · exact .refusal
  split
  · exact .taken .of_units
  · exact .refusal

theorem reqVerdict_answers : Answers (reqVerdict tag p) := fun s => by
  refine .refusal_or <| .refusal_or ?_
  split
  · exact .refusal
  · exact .refusal
  refine .refusal_or <| .refusal_or ?_
  split
  · exact .refusal
  split
  · exact .refusal
  · exact .refusal
  · exact .taken (sameLink_of_work (fillVerdict_work _ _ _ s))

theorem applyClassify_sameLink (it : Item) (cls : Fin 16) (s : State) : SameLink s (applyClassify it cls s) := by
  have settled : ∀ (jt : Item) (u : State), SameLink u (settleClassify jt u) := fun jt u => by
    unfold settleClassify
    split
    · exact sameLink_of_work (decideItem_work _ _ _)
    split
    · exact sameLink_of_work (takeDeadline_work _ _)
    · exact (sameLink_of_work (decideItem_work _ _ _)).ite _
  exact (settled _ _).after

theorem reqClassify_answers : Answers (reqClassify tag p) := fun s => by
  refine .refusal_or <| .refusal_or ?_
  split
  · exact .refusal
  refine .refusal_or ?_
  split
  · exact .refusal
  · exact .refusal_or (.taken (applyClassify_sameLink _ _ s))

theorem reqSetOutput_answers : Answers (reqSetOutput tag p) := fun s => by
  refine .refusal_or <| .refusal_or <| .refusal_or ?_
  split
  · exact .refusal
  · exact .taken .of_units

theorem reqPulseOutput_answers : Answers (reqPulseOutput tag p) := fun s => by
  refine .refusal_or <| .refusal_or ?_
  split
  · exact .refusal
  · exact .refusal_or (.taken .of_units)

theorem reqReadOutputs_answers : Answers (reqReadOutputs tag p) := fun _ => .refusal_or .refusal

theorem reqStart_answers : Answers (reqStart tag p) := fun s => by
  refine .refusal_or <| .refusal_or <| .refusal_or <| .refusal_or ?_
  split
  · exact .taken ((abortTeach_sameLink s).trans (enterZone_sameLink _ _ _))
  · exact .taken ((abortTeach_sameLink s).trans (trackingStart_sameLink _ _))

theorem reqSyncPulse_answers : Answers (reqSyncPulse tag p) := fun s =>
  .refusal_or <| .refusal_or <| .refusal_or <| .taken .of_units

theorem reqStopLine_answers : Answers (reqStopLine tag p) := fun s => .refusal_or <| .taken .of_units

theorem reqHold_answers : Answers (reqHold tag p) := fun s =>
  .refusal_or <| .refusal_or <| .taken (enterZone_sameLink _ _ s)

theorem reqResume_answers : Answers (reqResume tag p) := fun s =>
  .refusal_or <| .refusal_or <| .refusal_or <| .taken (enterZone_sameLink _ _ s)

theorem reqStop_answers : Answers (reqStop tag p) := fun s => by
  refine .refusal_or ?_
  split
  · exact .refusal
  · exact .refusal
  all_goals exact .taken (flushToConfig_sameLink s)

theorem reqEstop_answers : Answers (reqEstop tag p) := fun s =>
  .refusal_or <| .refusal_or <| .taken (enterEstop_sameLink _ s)

theorem reqClear_answers : Answers (reqClear tag p) := fun s =>
  .refusal_or <| .refusal_or <| .refusal_or <| .taken (flushToConfig_sameLink s)

theorem reqSetLine_answers : Answers (reqSetLine tag p) := fun s => by
  refine .refusal_or <| .refusal_or ?_
  split
  · exact .refusal
  · exact .taken .of_units

theorem reqTeach_answers : Answers (reqTeach tag p) := fun s => by
  refine .refusal_or <| .refusal_or ?_
  split
  · exact .refusal
  · exact .refusal_or <| .refusal_or (.taken .of_units)

theorem reqTeachAbort_answers : Answers (reqTeachAbort tag p) := fun s =>
  .refusal_or <| .refusal_or <| .taken (abortTeach_sameLink s)

theorem reqDumpTrack_answers : Answers (reqDumpTrack tag p) := fun s =>
  .refusal_or <| .refusal_or ⟨startDump tag s, _, ⟨⟨rfl, rfl, rfl, id, fun _ active => by cases active⟩, rfl⟩, rfl⟩

theorem reqUnknown_answers (kind : Byte) : Answers (reqUnknown kind tag) := fun s => ⟨s, _, .refl s, rfl⟩

end Requests

/-! ## The requests that change the link, and taking a request -/

/-- A request that keeps the link invariant whenever it is taken. -/
def KeepsLink (f : State → State) : Prop := ∀ s, Taken s → LinkInv s → LinkInv (f s)

theorem Answers.keepsLink {f : State → State} (h : Answers f) : KeepsLink f := fun s taken hs => (h s).keeps taken hs

/-- R151: a pending RESET has its reply in the queue. -/
theorem reqReset_keepsLink (tag : Byte) (p : List Byte) : KeepsLink (reqReset tag p) := by
  intro s taken hs
  unfold reqReset
  split
  · exact Answered.refusal.keeps taken hs
  · obtain ⟨-, queue, zoneState, fault, stream, -⟩ := hs
    obtain ⟨-, room⟩ := taken
    refine ⟨?_, queue, zoneState, fault, stream, fun _ => .inl ⟨_, List.mem_append_right _ List.mem_cons_self, rfl⟩⟩
    simpa [pushReply] using Nat.succ_le_of_lt room

/-- R146: the full form of SET_NOTICES leaves ZONE_STATE and FAULT enabled. -/
theorem noticesOfPayload_enabled {p : List Byte} {k : Fin 11} {x : NoticeSetting}
    (h : noticesOfPayload p = some (k, x)) (hk : k.val ≤ 1) : x.enabled = true := by
  simp only [noticesOfPayload, Option.bind_eq_bind, Option.bind_eq_some_iff] at h
  obtain ⟨k', -, enabled, -, level, -, h⟩ := h
  split at h
  · cases h
  · rename_i allowed
    cases h
    simpa [hk] using allowed

theorem reqSetNotices_keepsLink (tag : Byte) (p : List Byte) : KeepsLink (reqSetNotices tag p) := by
  intro s taken hs
  unfold reqSetNotices
  dsimp only
  split
  · exact Answered.refusal.keeps taken hs
  split
  · exact Answered.refusal.keeps taken hs
  split
  · exact Answered.refusal.keeps taken hs
  · rename_i k x read
    obtain ⟨room, queue, zoneState, fault, stream, reset⟩ := hs
    have enabled : ∀ j : Fin 11, j.val ≤ 1 → s.lnk.settings[j].enabled = true →
        (modAt s.lnk.settings k fun _ => x)[j].enabled = true := fun j low was => by
      simp only [Fin.getElem_fin, modAt_getElem]
      split
      · rename_i same
        exact noticesOfPayload_enabled read (same ▸ low)
      · exact was
    exact Answered.refusal.keeps taken
      ⟨room, queue, enabled 0 (by decide) zoneState, enabled 1 (by decide) fault, stream, reset⟩

/-- R141: whatever request is taken, the link keeps its invariant. -/
theorem takeRequest_keepsLink (kind tag : Byte) (p : List Byte) : KeepsLink (takeRequest kind tag p) := by
  unfold takeRequest
  split
  · exact (reqIdentify_answers tag p).keepsLink
  · exact (reqStatus_answers tag p).keepsLink
  · exact reqReset_keepsLink tag p
  · exact reqSetNotices_keepsLink tag p
  · exact (reqSetEncoder_answers tag p).keepsLink
  · exact (reqReadPosition_answers tag p).keepsLink
  · exact (reqSetInput_answers tag p).keepsLink
  · exact (reqReadInput_answers tag p).keepsLink
  · exact (reqArmProbe_answers tag p).keepsLink
  · exact (reqDisarmProbe_answers tag p).keepsLink
  · exact (reqSetZone_answers tag p).keepsLink
  · exact (reqReadItem_answers tag p).keepsLink
  · exact (reqDumpTrack_answers tag p).keepsLink
  · exact (reqRemoveItem_answers tag p).keepsLink
  · exact (reqLoadStations_answers tag p).keepsLink
  · exact (reqSetStationMode_answers tag p).keepsLink
  · exact (reqReadStation_answers tag p).keepsLink
  · exact (reqLoadClass_answers tag p).keepsLink
  · exact (reqSetSource_answers tag p).keepsLink
  · exact (reqVerdict_answers tag p).keepsLink
  · exact (reqClassify_answers tag p).keepsLink
  · exact (reqSetOutput_answers tag p).keepsLink
  · exact (reqPulseOutput_answers tag p).keepsLink
  · exact (reqReadOutputs_answers tag p).keepsLink
  · exact (reqStart_answers tag p).keepsLink
  · exact (reqSyncPulse_answers tag p).keepsLink
  · exact (reqStopLine_answers tag p).keepsLink
  · exact (reqHold_answers tag p).keepsLink
  · exact (reqResume_answers tag p).keepsLink
  · exact (reqStop_answers tag p).keepsLink
  · exact (reqEstop_answers tag p).keepsLink
  · exact (reqClear_answers tag p).keepsLink
  · exact (reqSetLine_answers tag p).keepsLink
  · exact (reqTeach_answers tag p).keepsLink
  · exact (reqTeachAbort_answers tag p).keepsLink
  · exact (reqUnknown_answers tag kind).keepsLink

/-- R139, R151: a frame that completes, taken or not. -/
theorem takeFrame_link {f : State → State} (hf : KeepsLink f) {s : State} (hs : LinkInv s) :
    LinkInv (takeFrame f s) := by
  obtain ⟨taken, eq⟩ | eq | eq := takeFrame_cases f s
  · rw [eq]
    exact hf s taken hs
  · rwa [eq]
  · rw [eq]
    exact SameLink.keeps ⟨⟨rfl, rfl, rfl, id, id⟩, rfl⟩ hs

/-! ## The receiver and the transmitter -/

theorem setReceiver_sameLink (r : Receiver) (s : State) : SameLink s (setReceiver r s) :=
  ⟨⟨rfl, rfl, rfl, id, id⟩, rfl⟩

theorem frameError_sameLink (s : State) : SameLink s (frameError s) := ⟨⟨rfl, rfl, rfl, id, id⟩, rfl⟩

theorem gapExpiry_sameLink (since : Time) (s : State) : SameLink s (gapExpiry since s) := by
  have discarded : SameLink s (gapDiscard s) := ⟨⟨rfl, rfl, rfl, id, id⟩, rfl⟩
  exact discarded.ite _

/-- R136 to R139: a byte moves the receiver, is a frame error, or completes a frame. -/
theorem receiveByte_link (b : Byte) (good : Bool) {s : State} (hs : LinkInv s) : LinkInv (receiveByte b good s) := by
  have moved : ∀ r, LinkInv (setReceiver r s) := fun r => (setReceiver_sameLink r s).keeps hs
  have error : LinkInv (frameError s) := (frameError_sameLink s).keeps hs
  have complete : ∀ len got, LinkInv (frameComplete len got s) := fun len got => by
    unfold frameComplete
    split
    · exact moved _
    split
    · exact takeFrame_link (takeRequest_keepsLink _ _ _) (moved _)
    · exact error
  unfold receiveByte
  split
  · exact moved _
  · unfold huntByte
    split
    · exact moved _
    · exact hs
  · unfold headerByte
    split
    · exact moved _
    · exact error
  · unfold bodyByte
    split
    · exact error
    split
    · exact complete _ _
    · exact moved _

theorem stopSending_kept (s : State) : LinkKept s (stopSending s) := ⟨rfl, rfl, rfl, id, id⟩

theorem startFrame_kept (source : TxSource) (completed limit : Nat) (frame : Frame) (mark : FrameMark) (s : State) :
    LinkKept s (startFrame source completed limit frame mark s) := ⟨rfl, rfl, rfl, id, id⟩

theorem sendNotice_kept (completed limit : Nat) (s : State) : LinkKept s (sendNotice completed limit s) := by
  unfold sendNotice
  split
  · exact stopSending_kept s
  · rename_i q rest hq
    exact LinkKept.trans (t := s.modLnk fun l => { l with notices := rest })
      ⟨rfl, rfl, rfl, fun h => noticesOk_tail h hq, id⟩ (startFrame_kept _ _ _ _ _ _)

theorem sendDump_kept (completed limit : Nat) (s : State) : LinkKept s (sendDump completed limit s) := by
  unfold sendDump
  split
  · exact stopSending_kept s
  · exact startFrame_kept _ _ _ _ _ s

theorem grantNotice_kept (s : State) : LinkKept s (grantNotice s) := by
  unfold grantNotice
  split
  · exact sendNotice_kept _ _ s
  · exact ⟨rfl, rfl, rfl, id, id⟩

/-- R143, R147: a reply leaves the queue as its frame starts; the reply to RESET is then the frame that is sent. -/
theorem sendReply_link {s : State} {r : Reply} {rest : List Reply} (hs : LinkInv s) (idle : s.lnk.tx = .idle)
    (hr : s.lnk.replies = r :: rest) :
    LinkInv (startFrame .reply 0 1 r.frame r.mark (s.modLnk fun l => { l with replies := rest })) := by
  have queued : ResetQueued s := resetQueued_of_linkInv hs fun b sending => by rw [idle] at sending; cases sending
  obtain ⟨room, queue, zoneState, fault, stream, -⟩ := hs
  rw [hr] at room
  refine ⟨(Nat.le_succ _).trans room, queue, zoneState, fault, stream, fun pending => ?_⟩
  obtain ⟨r', member, mark⟩ := queued pending
  rw [hr] at member
  obtain rfl | member := List.mem_cons.1 member
  · exact .inr ⟨_, rfl, mark⟩
  · exact .inl ⟨r', member, mark⟩

theorem grant_link {s : State} (hs : LinkInv s) (idle : s.lnk.tx = .idle) : LinkInv (grant s) := by
  have queued : ResetQueued s := resetQueued_of_linkInv hs fun b sending => by rw [idle] at sending; cases sending
  unfold grant
  split
  · exact sendReply_link hs idle ‹_›
  split
  · exact (grantNotice_kept s).keeps queued hs
  split
  · exact (sendDump_kept _ _ s).keeps queued hs
  · exact hs

/-- R149: a completed frame of the dump keeps the stream active until DUMP_END, which empties the snapshot. -/
theorem completeFrame_sameLink (mark : FrameMark) (s : State) : SameLink s (completeFrame mark s) := by
  have mapped : ∀ f, SameLink s (s.modLnk fun l => { l with dump := l.dump.map f }) := fun f =>
    ⟨⟨rfl, rfl, rfl, id, fun hs inactive => hs (Option.map_eq_none_iff.1 inactive)⟩, rfl⟩
  cases mark with
  | plain | resetReply => exact .refl s
  | dumpReply | dumpItem => exact mapped _
  | dumpEnd => exact ⟨⟨rfl, rfl, rfl, id, fun _ _ => rfl⟩, rfl⟩

theorem continueBurst_kept (b : Burst) (s : State) : LinkKept s (continueBurst b s) := by
  unfold continueBurst
  dsimp only
  split
  · exact stopSending_kept s
  split
  · exact stopSending_kept s
  · exact sendNotice_kept _ _ s
  · exact sendDump_kept _ _ s

/-- R148, R149: the end of a frame that is not the reply to RESET. -/
theorem frameSent_link {s : State} {b : Burst} (hs : LinkInv s) (sending : s.lnk.tx = .sending b)
    (mark : b.mark ≠ .resetReply) : LinkInv (continueBurst b (completeFrame b.mark s)) := by
  have completed := completeFrame_sameLink b.mark s
  have hc : LinkInv (completeFrame b.mark s) := completed.keeps hs
  refine (continueBurst_kept b _).keeps (resetQueued_of_linkInv hc fun b' sending' => ?_) hc
  rw [completed.tx, sending] at sending'
  cases sending'
  exact mark

/-- Every command keeps the link invariant. -/
theorem exec_link (c : Instr) {s : State} (hs : LinkInv s) : ∃ t, exec c s = .next t ∧ LinkInv t := by
  have same : ∀ {t : State}, SameLink s t → exec c s = .next t → ∃ t, exec c s = .next t ∧ LinkInv t :=
    fun h run => ⟨_, run, h.keeps hs⟩
  cases hr : requestOf c with
  | some r => exact ⟨_, Configuration.exec_request hr s, takeFrame_link (takeRequest_keepsLink _ _ _) hs⟩
  | none =>
    cases c with
    | receiveByte b good => exact ⟨_, rfl, receiveByte_link b good hs⟩
    | gapTimerExpiry =>
      simp only [exec, execGapTimerExpiry]
      split
      · exact ⟨_, rfl, hs⟩
      · exact ⟨_, rfl, hs⟩
      · exact ⟨_, rfl, (gapExpiry_sameLink _ s).keeps hs⟩
      · exact ⟨_, rfl, (gapExpiry_sameLink _ s).keeps hs⟩
    | settlingIdleExpiry =>
      simp only [exec, execSettlingIdleExpiry]
      split
      · exact ⟨_, rfl, ((setReceiver_sameLink _ s).ite _).keeps hs⟩
      all_goals exact ⟨_, rfl, hs⟩
    | arbiterGrant =>
      simp only [exec, execArbiterGrant]
      split
      · exact ⟨_, rfl, grant_link hs ‹_›⟩
      · exact ⟨_, rfl, hs⟩
    | frameSent straps =>
      simp only [exec, execFrameSent]
      split
      · exact ⟨_, rfl, hs⟩
      · rename_i b sending
        refine ⟨_, rfl, ?_⟩
        split
        · exact deviceReset_link _ s
        · exact frameSent_link hs sending ‹_›
    | nrst pins => exact ⟨_, rfl, deviceReset_link pins s⟩
    | powerUp pins => exact ⟨_, rfl, deviceReset_link pins s⟩
    | encoderAcceptance a b => exact same ((acceptEncoder_sameLink _ _ s).ite _) rfl
    | inputAcceptance i => exact same ((acceptInput_sameLink i s).ite _) rfl
    | lineInputAcceptance line =>
      obtain ⟨sync, lineStop, estop⟩ := acceptLine_sameLink s
      cases line with
      | sync => exact same (sync.ite _) rfl
      | lineStop => exact same (lineStop.ite _) rfl
      | estop => exact same (estop.ite _) rfl
    | outputOnEnd o | outputRecoverEnd o => exact same .of_units rfl
    | syncDriveEnd => exact same (.ite .of_units _) rfl
    | lineStopDriveEnd => exact same (.ite .of_units _) rfl
    | encoderRawChange chan level =>
      cases chan with
      | a | b => exact same .of_units rfl
    | inputRawChange i level => exact same .of_units rfl
    | lineRawChange line level =>
      cases line with
      | sync | lineStop | estop => exact same .of_units rfl
    | timeBaseTick => exact same .of_units rfl
    | _ => cases hr

/-! ## Frames on the wire (R137, R139, R141, R161) -/

section Wire

variable {s : State} {len k t : Byte} {p : List Byte}

/-- R137: the last CRC byte of a frame, good, completes it. -/
theorem exec_receiveByte_last {got : List Byte} {last : Byte} {since : Time}
    (body : s.lnk.receiver = .body len got since) (full : (got ++ [last]).length = len.toNat + 2) :
    exec (.receiveByte last true) s = .next (frameComplete len (got ++ [last]) s) := by
  simp only [exec, execReceiveByte, receiveByte, body, bodyByte, full]
  rfl

variable (fits : len.toNat = p.length + 2)

include fits

/-- R161: the bytes of a frame that the CRC covers, LEN apart. -/
theorem frame_covered (c : BitVec 16) : (k :: t :: p ++ le 2 c).take len.toNat = k :: t :: p :=
  List.take_left' fits.symm

/-- R139, R161: the CRC check compares what a frame carries behind its covered bytes, low byte first. -/
theorem crcHolds_frame (c : BitVec 16) :
    crcHolds len (k :: t :: p ++ le 2 c) = true ↔ crc (len :: k :: t :: p) = c := by
  have carried : u16 (k :: t :: p ++ le 2 c) len.toNat = c := by
    refine Records.u16_of_field ?_
    rw [fits]
    simp [Records.field]
  rw [crcHolds, frame_covered fits, carried, decide_eq_true_eq]

/-- R139, R151: a frame whose CRC holds is its request, with the receiver in HUNT. -/
theorem frameComplete_holds :
    frameComplete len (k :: t :: p ++ le 2 (crc (len :: k :: t :: p))) s =
      takeFrame (takeRequest k t p) (setReceiver .hunt s) := by
  unfold frameComplete
  split
  · rename_i pending
    exact (takeFrame_pending (s := setReceiver .hunt s) pending).symm
  · rw [if_pos ((crcHolds_frame fits _).2 rfl), frame_covered fits]
    rfl

/-- R139, R151: a frame whose CRC differs is a frame error, uncounted while a RESET is pending (log 21). -/
theorem frameComplete_differs {c : BitVec 16} (bad : c ≠ crc (len :: k :: t :: p)) :
    frameComplete len (k :: t :: p ++ le 2 c) s = if s.lnk.resetPending then setReceiver .hunt s else frameError s := by
  rw [frameComplete, if_neg (mt (crcHolds_frame fits c).1 bad.symm)]

end Wire

/-- R161: the check value of the CRC, by the register after each digit. -/
theorem crc_check_value : crc [0x31, 0x32, 0x33, 0x34, 0x35, 0x36, 0x37, 0x38, 0x39] = 0x29B1 := by
  simp only [crc, List.foldl_cons, List.foldl_nil,
    show crcByte 0xFFFF 0x31 = 0xC782 by decide, show crcByte 0xC782 0x32 = 0x3DBA by decide,
    show crcByte 0x3DBA 0x33 = 0x5BCE by decide, show crcByte 0x5BCE 0x34 = 0x5349 by decide,
    show crcByte 0x5349 0x35 = 0x4560 by decide, show crcByte 0x4560 0x36 = 0x2EF4 by decide,
    show crcByte 0x2EF4 0x37 = 0x7718 by decide, show crcByte 0x7718 0x38 = 0xA12B by decide,
    show crcByte 0xA12B 0x39 = 0x29B1 by decide]

/-! ## Bytes and timers (R135 to R138) -/

/-- The entries of a range up to the first that fails. -/
theorem takeWhile_range_length {q : Nat → Bool} {m n : Nat} (hm : m ≤ n) (holds : ∀ k < m, q k = true)
    (fails : m < n → q m = false) : ((List.range n).takeWhile q).length = m := by
  obtain ⟨d, rfl⟩ := Nat.exists_eq_add_of_le hm
  rw [List.range_add, List.takeWhile_append_of_pos (by simpa using holds)]
  cases d with
  | zero => simp
  | succ d =>
    rw [List.range_succ_eq_map, List.map_cons, List.takeWhile_cons_of_neg (by simp [fails])]
    simp

/-- R136: the stop bit and the data bits of value 1 sent last of a good byte. -/
theorem highBitsAtEnd_good {b : Byte} {ones : Nat} (few : ones ≤ 8) (high : ∀ k < ones, b.getLsbD (7 - k) = true)
    (low : ones < 8 → b.getLsbD (7 - ones) = false) : highBitsAtEnd b true = 1 + ones := by
  rw [highBitsAtEnd, if_pos rfl, takeWhile_range_length few high low]

/-- R136, R138, log 8: the bit times that a timer waits have passed. -/
theorem bitsElapsed_iff (s : State) (bits : Nat) (since : Time) :
    bitsElapsed s.lnk.rateCode bits since s.now = true ↔
      bits * 1000000 / Config.baud s.lnk.rateCode ≤ (s.pos.timeBase - since).toNat := decide_eq_true_iff

section Receiver

variable {s : State} {since : Time}

theorem exec_receiveByte_settling (b : Byte) (good : Bool) {bits : Nat} (h : s.lnk.receiver = .settling since bits) :
    exec (.receiveByte b good) s =
      .next (setReceiver (.settling s.now (Config.idleBits - highBitsAtEnd b good)) s) := by
  simp only [exec, execReceiveByte, receiveByte, h]

theorem exec_receiveByte_hunt (b : Byte) (good : Bool) (h : s.lnk.receiver = .hunt) :
    exec (.receiveByte b good) s = .next (if good && b = 0xA5 then setReceiver (.header s.now) s else s) := by
  simp only [exec, execReceiveByte, receiveByte, h]
  rfl

theorem exec_receiveByte_header (b : Byte) (good : Bool) (h : s.lnk.receiver = .header since) :
    exec (.receiveByte b good) s =
      .next (if good && 2 ≤ b.toNat && b.toNat ≤ 250 then setReceiver (.body b [] s.now) s else frameError s) := by
  simp only [exec, execReceiveByte, receiveByte, h]
  rfl

theorem exec_receiveByte_body (b : Byte) (good : Bool) {len : Byte} {got : List Byte}
    (h : s.lnk.receiver = .body len got since) :
    exec (.receiveByte b good) s = .next (bodyByte len got b good s) := by
  simp only [exec, execReceiveByte, receiveByte, h]

/-- R138: the gap timer of a frame in assembly, expired early or not. -/
theorem exec_gapTimerExpiry_running
    (h : s.lnk.receiver = .header since ∨ ∃ len got, s.lnk.receiver = .body len got since) :
    exec .gapTimerExpiry s = .next (gapExpiry since s) := by
  obtain h | ⟨len, got, h⟩ := h
  · simp only [exec, execGapTimerExpiry, h]
  · simp only [exec, execGapTimerExpiry, h]

theorem exec_gapTimerExpiry_stopped (h : s.lnk.receiver = .hunt ∨ ∃ bits, s.lnk.receiver = .settling since bits) :
    exec .gapTimerExpiry s = .next s := by
  obtain h | ⟨bits, h⟩ := h
  · simp only [exec, execGapTimerExpiry, h]
  · simp only [exec, execGapTimerExpiry, h]

/-- R136: outside SETTLING there is no idle count. -/
theorem exec_settlingIdleExpiry_stopped (h : ∀ since bits, s.lnk.receiver ≠ .settling since bits) :
    exec .settlingIdleExpiry s = .next s := by
  simp only [exec, execSettlingIdleExpiry]
  split
  · exact absurd ‹_› (h _ _)
  all_goals rfl

theorem exec_settlingIdleExpiry_running {bits : Nat} (h : s.lnk.receiver = .settling since bits) :
    exec .settlingIdleExpiry s =
      .next (if bitsElapsed s.lnk.rateCode bits since s.now then setReceiver .hunt s else s) := by
  simp only [exec, execSettlingIdleExpiry, h]

end Receiver

/-! ## IDENTIFY, SET_NOTICES and requests of an unknown kind (R141, R146, R150) -/

section Requests

variable {s : State} (tag : Byte) (p : List Byte)

theorem exec_identify_taken (h : Taken s) : exec (.identify tag p) s = .next (reqIdentify tag p s) :=
  congrArg _ (takeFrame_taken h)

theorem exec_setNotices_taken (h : Taken s) : exec (.setNotices tag p) s = .next (reqSetNotices tag p s) :=
  congrArg _ (takeFrame_taken h)

/-- R141: the kinds of Table 10-3 are the only ones handed to a block. -/
theorem takeRequest_unknown {k : Byte} (h : k ∉ Config.requestKinds) : takeRequest k tag p = reqUnknown k tag := by
  have other : ∀ n, BitVec.ofNat 8 n ∈ Config.requestKinds → k.toNat ≠ n := by
    rintro _ known rfl
    exact h (by rwa [BitVec.ofNat_toNat, BitVec.setWidth_eq] at known)
  unfold takeRequest
  split
  case h_36 => rfl
  all_goals exact absurd ‹_› (other _ (by decide))

end Requests

/-- R146: the code of a notice kind. -/
def noticeCode (k : Fin 11) : Byte := 0x40 + BitVec.ofNat 8 k.val

theorem noticeIndex_code (k : Fin 11) : noticeIndex (noticeCode k) = some k := by
  revert k
  decide

theorem noticeIndex_none {b : Byte} (h : b.toNat < 0x40 ∨ 0x4A < b.toNat) : noticeIndex b = none := by
  unfold noticeIndex
  split
  · exact asFin_none (by bv_omega)
  · rfl

theorem noticeReply_code (k : Fin 11) (s : State) :
    noticeReply (noticeCode k) s =
      [noticeCode k, flagByte s.lnk.settings[k].enabled, idxByte s.lnk.settings[k].level] := by
  rw [noticeReply, noticeIndex_code]

theorem noticeReply_outside {b : Byte} (h : b.toNat < 0x40 ∨ 0x4A < b.toNat) (s : State) :
    noticeReply b s = [b, 0, 0] := by
  rw [noticeReply, noticeIndex_none h]

/-- R146, check 2: a kind outside 0x40 to 0x4A. -/
theorem noticesOfPayload_outside {b : Byte} (h : b.toNat < 0x40 ∨ 0x4A < b.toNat) (e l : Byte) :
    noticesOfPayload [b, e, l] = none := by
  simp [noticesOfPayload, noticeIndex_none h]

/-- R146, checks 2 and 3: a flag or level out of range, ZONE_STATE or FAULT disabled. -/
theorem noticesOfPayload_refused (k : Fin 11) {e l : Byte} (h : 2 ≤ e.toNat ∨ 4 ≤ l.toNat ∨ (e = 0 ∧ k.val ≤ 1)) :
    noticesOfPayload [noticeCode k, e, l] = none := by
  obtain flag | level | ⟨rfl, kind⟩ := h
  · simp [noticesOfPayload, asFlag_none flag]
  · simp [noticesOfPayload, asFin_none level]
  · simp [noticesOfPayload, noticeIndex_code, show asFlag 0#8 = some false from rfl, kind]

theorem noticesOfPayload_codes (k : Fin 11) (e : Bool) (l : Fin 4) (allowed : e = true ∨ 2 ≤ k.val) :
    noticesOfPayload [noticeCode k, flagByte e, idxByte l] = some (k, ⟨e, l⟩) := by
  have kept : e = false → 1 < k.val := fun disabled => allowed.resolve_left (by simp [disabled])
  simpa [noticesOfPayload, noticeIndex_code] using kept

/-- R146: the query form. -/
theorem reqSetNotices_query (tag b : Byte) (s : State) :
    reqSetNotices tag [b] s =
      answer 0x04 tag (if (noticeIndex b).isSome then .ok else .badValue) (noticeReply b s) s := by
  rw [reqSetNotices, if_pos (by simp)]
  rfl

theorem reqSetNotices_badLength (tag : Byte) {p : List Byte} (s : State) (query : p.length ≠ 1) (full : p.length ≠ 3) :
    reqSetNotices tag p s = answer 0x04 tag .badLength (noticeReply (byteAt p 0) s) s := by
  rw [reqSetNotices, if_neg query, if_pos full]

theorem reqSetNotices_badValue (tag : Byte) {b e l : Byte} (s : State) (h : noticesOfPayload [b, e, l] = none) :
    reqSetNotices tag [b, e, l] s = answer 0x04 tag .badValue (noticeReply b s) s := by
  rw [reqSetNotices, if_neg (by simp), if_neg (by simp), h]
  rfl

/-- R146: the full form sets one kind, and the reply carries what it set. -/
theorem reqSetNotices_full (tag : Byte) (s : State) (k : Fin 11) (e : Bool) (l : Fin 4)
    (allowed : e = true ∨ 2 ≤ k.val) :
    reqSetNotices tag [noticeCode k, flagByte e, idxByte l] s =
      answer 0x04 tag .ok [noticeCode k, flagByte e, idxByte l]
        (s.modLnk fun u => { u with settings := modAt u.settings k fun _ => ⟨e, l⟩ }) := by
  rw [reqSetNotices, if_neg (by simp), if_neg (by simp), noticesOfPayload_codes k e l allowed]
  simp only [byteAt_zero, noticeReply_code]
  simp

/-! ## The notice queue (R144, R145) -/

theorem offer_enabled {n : Notice} {s : State} (h : s.lnk.settings[n.kind.index].enabled = true) :
    offer n s = s.modLnk (LnkUnit.enqueue ⟨s.lnk.settings[n.kind.index].level, n⟩) := if_pos h

theorem offer_disabled {n : Notice} {s : State} (h : s.lnk.settings[n.kind.index].enabled = false) : offer n s = s :=
  if_neg (Bool.eq_false_iff.1 h)

section Queue

variable {q : QueuedNotice} {high low : List QueuedNotice} (above : ∀ x ∈ high, q.level ≤ x.level)
  (below : ∀ x ∈ low, x.level < q.level)

include above below

/-- R144: a notice enters behind the notices of its level and above, ahead of those below. -/
theorem insertNotice_between : insertNotice q (high ++ low) = high ++ q :: low := by
  induction high with
  | nil =>
    cases low with
    | nil => rfl
    | cons y ys => exact if_pos (below y List.mem_cons_self)
  | cons x xs ih =>
    rw [List.cons_append, insertNotice, if_neg (not_lt.2 (above x List.mem_cons_self)),
      ih fun y hy => above y (List.mem_cons_of_mem x hy)]
    rfl

variable {l : LnkUnit} (parts : l.notices = high ++ low)

include parts

/-- R144: a notice offered with room in the queue. -/
theorem enqueue_enters (room : l.notices.length < 32) :
    l.enqueue q = { l with notices := high ++ q :: low } := by
  rw [LnkUnit.enqueue, if_pos (show _ < Config.noticeCapacity from room), parts, insertNotice_between above below]

/-- R145: a notice offered to a full queue that holds a lower one takes the place of the newest of the lowest. -/
theorem enqueue_displaces (full : l.notices.length = 32) (lower : low ≠ []) :
    l.enqueue q = { l with notices := high ++ q :: low.dropLast, lostCount := satInc l.lostCount } := by
  have newest : l.notices.getLast? = some (low.getLast lower) := by
    rw [parts, List.getLast?_append_of_ne_nil _ lower, List.getLast?_eq_some_getLast lower]
  have kept : l.notices.dropLast = high ++ low.dropLast := by rw [parts, List.dropLast_append_of_ne_nil lower]
  rw [LnkUnit.enqueue, if_neg (by simp [full, Config.noticeCapacity]), newest, kept,
    insertNotice_between above fun x hx => below x (List.mem_of_mem_dropLast hx)]
  exact if_pos (below _ (List.getLast_mem lower))

end Queue

/-- R145: a notice offered to a full queue that holds no lower one is lost. -/
theorem enqueue_loses {q : QueuedNotice} {l : LnkUnit} (full : l.notices.length = 32)
    (noLower : ∀ x ∈ l.notices, q.level ≤ x.level) : l.enqueue q = { l with lostCount := satInc l.lostCount } := by
  rw [LnkUnit.enqueue, if_neg (by simp [full, Config.noticeCapacity])]
  split
  · rfl
  · exact if_neg (not_lt.2 (noLower _ (List.mem_of_getLast? ‹_›)))

/-! ## The arbiter (R147 to R149) -/

theorem noticeReady_iff (l : LnkUnit) : l.noticeReady = true ↔ l.notices ≠ [] ∨ l.lostCount ≠ 0 := by
  simp [LnkUnit.noticeReady]

theorem hostWaiting_iff (l : LnkUnit) :
    l.hostWaiting = true ↔ l.replies ≠ [] ∨ l.notices ≠ [] ∨ l.lostCount ≠ 0 := by
  simp [LnkUnit.hostWaiting, LnkUnit.noticeReady]

section Arbiter

variable {s : State}

theorem exec_arbiterGrant_idle (idle : s.lnk.tx = .idle) : exec .arbiterGrant s = .next (grant s) := by
  simp only [exec, execArbiterGrant, idle]

theorem exec_arbiterGrant_sending {b : Burst} (sending : s.lnk.tx = .sending b) : exec .arbiterGrant s = .next s := by
  simp only [exec, execArbiterGrant, sending]

theorem grant_reply {r : Reply} {rest : List Reply} (h : s.lnk.replies = r :: rest) :
    grant s = startFrame .reply 0 1 r.frame r.mark (s.modLnk fun l => { l with replies := rest }) := by
  simp only [grant, h]

theorem grant_notice (replies : s.lnk.replies = []) (ready : s.lnk.notices ≠ [] ∨ s.lnk.lostCount ≠ 0) :
    grant s = grantNotice s := by
  simp only [grant, replies, (noticeReady_iff s.lnk).2 ready, if_true]

/-- R147: with neither reply nor notice ready only the dump stream may be granted. -/
theorem grant_quiet (replies : s.lnk.replies = []) (lost : s.lnk.lostCount = 0) (notices : s.lnk.notices = []) :
    grant s = if s.lnk.dumpReady then sendDump 0 Config.dumpBurstShort s else s := by
  simp only [grant, replies]
  rw [if_neg (by simp [noticeReady_iff, lost, notices])]

theorem sendNotice_next (completed limit : Nat) {q : QueuedNotice} {rest : List QueuedNotice}
    (h : s.lnk.notices = q :: rest) :
    sendNotice completed limit s =
      startFrame .notice completed limit q.notice.frame .plain (s.modLnk fun l => { l with notices := rest }) := by
  simp only [sendNotice, h]

theorem sendNotice_none (completed limit : Nat) (h : s.lnk.notices = []) :
    sendNotice completed limit s = stopSending s := by
  simp only [sendNotice, h]

/-- R149: the dump stream sends the record at its index. -/
theorem sendDump_item (completed limit : Nat) {d : DumpStream} {it : Item} (h : s.lnk.dump = some d)
    (record : s.trk.snapshot.records[d.next]? = some it) :
    sendDump completed limit s = startFrame .dump completed limit (dumpItemFrame d.tag d.next it) .dumpItem s := by
  simp only [sendDump, h, dumpFrame, record]

/-- R149: the dump stream sends DUMP_END behind the last record. -/
theorem sendDump_end (completed limit : Nat) {d : DumpStream} (h : s.lnk.dump = some d)
    (record : s.trk.snapshot.records[d.next]? = none) :
    sendDump completed limit s =
      startFrame .dump completed limit (dumpEndFrame d.tag s.trk.snapshot) .dumpEnd s := by
  simp only [sendDump, h, dumpFrame, record]

theorem sendDump_none (completed limit : Nat) (h : s.lnk.dump = none) :
    sendDump completed limit s = stopSending s := by
  simp only [sendDump, h]

/-! ## The end of a frame (R148, R149) -/

theorem exec_frameSent_idle (straps : Straps) (idle : s.lnk.tx = .idle) : exec (.frameSent straps) s = .next s := by
  simp only [exec, execFrameSent, idle]

theorem exec_frameSent_sending (straps : Straps) {b : Burst} {mark : FrameMark} (sending : s.lnk.tx = .sending b)
    (marked : b.mark = mark) (noReset : mark ≠ .resetReply) :
    exec (.frameSent straps) s = .next (continueBurst b (completeFrame mark s)) := by
  simp only [exec, execFrameSent, sending, marked, if_neg noReset]

/-- R148: the limit of a DUMP burst, looked at anew when its 7th frame completes. -/
theorem burstLimit_dump {b : Burst} {completed limit : Nat} {l : LnkUnit} (dump : b.source = .dump)
    (other : completed ≠ 7 → limit = b.limit)
    (look : completed = 7 → (l.replies ≠ [] ∨ l.notices ≠ [] ∨ l.lostCount ≠ 0 → limit = 8) ∧
      (¬(l.replies ≠ [] ∨ l.notices ≠ [] ∨ l.lostCount ≠ 0) → limit = 16)) :
    burstLimit b completed l = limit := by
  simp only [burstLimit, dump]
  split
  · rename_i seventh
    obtain ⟨waiting, quiet⟩ := look seventh
    split
    · exact (waiting ((hostWaiting_iff l).1 ‹_›)).symm
    · exact (quiet (mt (hostWaiting_iff l).2 ‹_›)).symm
  · exact (other ‹_›).symm

theorem completeFrame_plain (s : State) : completeFrame .plain s = s := rfl

/-- R149: the state with another active dump stream. -/
def withStream (d : DumpStream) (s : State) : State := { s with lnk := { s.lnk with dump := some d } }

/-- R149: a completed DUMP_ITEM moves the stream to the next record. -/
theorem completeFrame_dumpItem {d : DumpStream} (h : s.lnk.dump = some d) :
    completeFrame .dumpItem s = withStream { d with next := d.next + 1 } s := by
  simp only [completeFrame, State.modLnk, h, Option.map_some]
  rfl

theorem continueBurst_ends {b : Burst} {limit : Nat} (hl : burstLimit b (b.completed + 1) s.lnk = limit)
    (reached : limit ≤ b.completed + 1) : continueBurst b s = stopSending s := by
  rw [continueBurst, hl]
  exact if_pos reached

theorem continueBurst_reply {b : Burst} (reply : b.source = .reply) : continueBurst b s = stopSending s := by
  simp only [continueBurst, reply, ite_self]

theorem continueBurst_notice {b : Burst} (notice : b.source = .notice) (more : b.completed + 1 < b.limit) :
    continueBurst b s = sendNotice (b.completed + 1) b.limit s := by
  simp only [continueBurst, burstLimit, notice]
  exact if_neg (not_le.2 more)

theorem continueBurst_dump {b : Burst} {limit : Nat} (dump : b.source = .dump)
    (hl : burstLimit b (b.completed + 1) s.lnk = limit) (more : b.completed + 1 < limit) :
    continueBurst b s = sendDump (b.completed + 1) limit s := by
  simp only [continueBurst, hl, dump]
  exact if_neg (not_le.2 more)

/-- R148: a DUMP burst whose stream is no longer active ends. -/
theorem continueBurst_inactive {b : Burst} (dump : b.source = .dump) (inactive : s.lnk.dump = none) :
    continueBurst b s = stopSending s := by
  simp only [continueBurst, dump, sendDump_none _ _ inactive, ite_self]

end Arbiter

/-! ## The obligations -/

/-- Settles O55: on an empty queue nothing happens, and every command keeps the link invariant. -/
theorem linkInvariant : Obligations.LinkInvariant := by
  unfold Obligations.LinkInvariant
  intro s t hs
  unfold step
  split
  · rintro ⟨⟩
    exact hs
  · rename_i c rest _
    have popped : LinkInv { s with pending := rest } := SameLink.keeps .of_units hs
    obtain ⟨u, ran, hu⟩ := exec_link c popped
    rw [ran]
    rintro ⟨⟩
    exact hu

/-- Settles O3: every request command is its frame, and the two gates refuse a frame before its request acts. -/
theorem untakenRequests : Obligations.UntakenRequests := by
  unfold Obligations.UntakenRequests
  intro c s k t p request
  rw [Configuration.exec_request request]
  refine ⟨fun pending => by rw [takeFrame_pending pending], fun pending full => ?_⟩
  rw [takeFrame_full pending full, ← Position.satInc_eq]
  rfl

/-- Settles O4: the frame's CRC check, met and missed, then the check value and the envelope. -/
theorem framesOnTheWire : Obligations.FramesOnTheWire := by
  unfold Obligations.FramesOnTheWire
  refine ⟨fun s len k t last p got since body fits => ?_, crc_check_value, fun f _ => ?_⟩
  · have whole : ∀ c : BitVec 16, got ++ [last] = k :: t :: p ++ le 2 c →
        exec (.receiveByte last true) s = .next (frameComplete len (k :: t :: p ++ le 2 c) s) := fun c frame => by
      rw [← frame]
      exact exec_receiveByte_last body (by rw [frame]; simp [fits])
    refine ⟨fun c request frame => ?_, fun bad differs frame => ?_⟩
    · rw [whole _ frame, frameComplete_holds fits, Configuration.exec_request request]
      rfl
    · rw [whole _ frame, frameComplete_differs fits differs]
      split
      · rfl
      · rfl
  · rw [Frame.wire, Frame.body, le_two]

/-- Settles O5: a byte in each state of the receiver, then the two timers in each state. -/
theorem receiverBytesAndTimers : Obligations.ReceiverBytesAndTimers := by
  unfold Obligations.ReceiverBytesAndTimers
  refine ⟨?_, ?_⟩
  · intro s b good moved error
    refine ⟨fun since bits settling => ⟨?_, ?_⟩, fun hunt => ⟨?_, ?_⟩, fun since header => ⟨?_, ?_⟩,
      fun len got since body => ⟨?_, ?_⟩⟩
    · rintro rfl
      rw [exec_receiveByte_settling b _ settling]
      rfl
    · rintro ones few rfl high low
      rw [exec_receiveByte_settling b _ settling, highBitsAtEnd_good few high low]
      rfl
    · intro sync
      rw [exec_receiveByte_hunt b _ hunt, if_pos (by simpa using sync)]
      rfl
    · intro other
      rw [exec_receiveByte_hunt b _ hunt, if_neg (by simpa using other)]
    · intro length
      rw [exec_receiveByte_header b _ header, if_pos (by simpa [and_assoc] using length)]
      rfl
    · intro other
      rw [exec_receiveByte_header b _ header, if_neg (by simpa [and_assoc] using other)]
      rfl
    · rintro rfl
      rw [exec_receiveByte_body b _ body]
      rfl
    · rintro rfl short
      rw [exec_receiveByte_body b _ body, bodyByte, if_neg (by simp), if_neg (by simpa using short)]
      rfl
  · intro s passed discarded
    have gap : ∀ since, (s.lnk.receiver = .header since ∨ ∃ len got, s.lnk.receiver = .body len got since) →
        exec .settlingIdleExpiry s = .next s ∧ (passed 160 since → exec .gapTimerExpiry s = discarded) ∧
          (¬passed 160 since → exec .gapTimerExpiry s = .next s) := fun since running => by
      rw [exec_gapTimerExpiry_running running]
      refine ⟨exec_settlingIdleExpiry_stopped fun _ _ settling => ?_, fun late => ?_, fun early => ?_⟩
      · simp [settling] at running
      · rw [gapExpiry, if_pos ((bitsElapsed_iff s Config.gapBits since).2 late)]
        rfl
      · rw [gapExpiry, if_neg (mt (bitsElapsed_iff s Config.gapBits since).1 early)]
    refine ⟨fun since header => gap since (.inl header), fun len got since body => gap since (.inr ⟨len, got, body⟩),
      fun hunt => ⟨exec_gapTimerExpiry_stopped (since := 0) (.inl hunt), exec_settlingIdleExpiry_stopped ?_⟩,
      fun since bits settling => ⟨exec_gapTimerExpiry_stopped (.inr ⟨bits, settling⟩), ?_⟩⟩
    · simp [hunt]
    · rw [exec_settlingIdleExpiry_running settling]
      refine ⟨fun late => ?_, fun early => ?_⟩
      · rw [if_pos ((bitsElapsed_iff s _ since).2 late)]
        rfl
      · rw [if_neg (mt (bitsElapsed_iff s _ since).1 early)]

/-- Settles O6: the two answers of IDENTIFY, then the kinds outside Table 10-3. -/
theorem identifyAndUnknownKind : Obligations.IdentifyAndUnknownKind := by
  unfold Obligations.IdentifyAndUnknownKind
  intro tag p s taken
  rw [exec_identify_taken tag p taken]
  refine ⟨?_, fun payload => ?_, fun k unknown => ?_⟩
  · rintro rfl
    rfl
  · rw [reqIdentify, if_pos payload]
    rfl
  · have run : exec (.requestOfUnknownKind k tag p) s = .next (takeRequest k tag p s) :=
      congrArg _ (takeFrame_taken taken)
    rw [run, takeRequest_unknown tag p unknown]
    rfl

/-- Settles O8: the query form, the refusals in the order of the checks, the full form. -/
theorem setNoticesResult : Obligations.SetNoticesResult := by
  unfold Obligations.SetNoticesResult
  intro tag p s taken code inForce outside
  rw [exec_setNotices_taken tag p taken]
  refine ⟨fun k hp => ?_, fun b hp out => ?_, fun query full => ⟨fun k kind => ?_, fun out => ?_⟩,
    fun b e l hp out => ?_, fun k e l hp refused => ?_, fun k e l hp allowed => ?_⟩
  · obtain rfl : p = [noticeCode k] := hp
    rw [reqSetNotices_query, noticeIndex_code, noticeReply_code]
    rfl
  · rw [hp, reqSetNotices_query, noticeIndex_none out, noticeReply_outside out]
    rfl
  · rw [reqSetNotices_badLength tag s query full, show byteAt p 0 = noticeCode k from kind, noticeReply_code]
    rfl
  · rw [reqSetNotices_badLength tag s query full, noticeReply_outside out]
    rfl
  · rw [hp, reqSetNotices_badValue tag s (noticesOfPayload_outside out e l), noticeReply_outside out]
    rfl
  · obtain rfl : p = [noticeCode k, e, l] := hp
    rw [reqSetNotices_badValue tag s (noticesOfPayload_refused k refused), noticeReply_code]
    rfl
  · obtain rfl : p = [noticeCode k, flagByte e, idxByte l] := hp
    rw [reqSetNotices_full tag s k e l allowed]
    rfl

/-- Settles O49: a disabled kind, then a queue with room, a full one with a lower notice, a full one with none. -/
theorem noticeQueueRule : Obligations.NoticeQueueRule := by
  unfold Obligations.NoticeQueueRule
  intro n s setting q lost after
  have counted : lost = satInc s.lnk.lostCount := (Position.satInc_eq _).symm
  refine ⟨offer_disabled, fun enabled _ high low parts above below => ⟨fun room => ?_, fun full lower => ?_,
    fun full noLower => ?_⟩⟩
  · rw [offer_enabled enabled, State.modLnk, enqueue_enters above below parts room]
  · rw [offer_enabled enabled, State.modLnk, enqueue_displaces above below parts full lower, counted]
  · have lowest : ∀ x ∈ s.lnk.notices, setting.level ≤ x.level := by
      rw [parts, noLower, List.append_nil]
      exact above
    rw [offer_enabled enabled, State.modLnk, enqueue_loses full lowest, counted]

/-- Settles O50: a transmitter that sends, then the sources in the order of R147, then none ready. -/
theorem arbiterGrantResult : Obligations.ArbiterGrantResult := by
  unfold Obligations.ArbiterGrantResult
  intro s sends
  refine ⟨fun b => exec_arbiterGrant_sending, fun idle => ?_⟩
  simp only [sends, exec_arbiterGrant_idle idle]
  refine ⟨fun r rest reply => ?_, fun replies lost => ?_, fun q rest replies lost notices => ?_,
    fun replies lost notices d active ready => ?_, fun replies lost notices unready => ?_⟩
  · rw [grant_reply reply]
    rfl
  · rw [grant_notice replies (.inr lost), grantNotice, if_neg lost]
    rfl
  · rw [grant_notice replies (.inl (by simp [notices])), grantNotice, if_pos lost, sendNotice_next _ _ notices]
    rfl
  · rw [grant_quiet replies lost notices, if_pos (by simp [LnkUnit.dumpReady, active, ready])]
    refine ⟨fun it record => ?_, fun behind => ?_⟩
    · rw [sendDump_item _ _ active record]
      rfl
    · rw [sendDump_end _ _ active behind]
      rfl
  · have stopped : ¬s.lnk.dumpReady = true := by
      simp only [LnkUnit.dumpReady, Option.any_eq_true, not_exists, not_and]
      exact fun d active => by simp [unready d active]
    rw [grant_quiet replies lost notices, if_neg stopped]

/-- Settles O51: a completion while idle, then the end of a frame by its source and its mark. -/
theorem frameSentResult : Obligations.FrameSentResult := by
  unfold Obligations.FrameSentResult
  intro s straps answers
  refine ⟨exec_frameSent_idle straps, fun b sending => ⟨fun reply plain => ?_, fun reply dumpReply => ?_,
    fun notice plain => ?_, fun d dump item active => ?_, fun dump ending => ?_⟩⟩
  · simp only [answers, exec_frameSent_sending straps sending plain (by decide), continueBurst_reply reply]
    rfl
  · simp only [answers, exec_frameSent_sending straps sending dumpReply (by decide), continueBurst_reply reply]
    rfl
  · have limit : burstLimit b (b.completed + 1) s.lnk = b.limit := by simp only [burstLimit, notice]
    simp only [answers, exec_frameSent_sending straps sending plain (by decide), completeFrame_plain]
    refine ⟨fun last => ?_, fun q rest more queued => ?_⟩
    · by_cases reached : b.limit ≤ b.completed + 1
      · rw [continueBurst_ends limit reached]
        rfl
      · rw [continueBurst_notice notice (not_le.1 reached), sendNotice_none _ _ (last.resolve_left reached)]
        rfl
    · rw [continueBurst_notice notice more, sendNotice_next _ _ queued]
      rfl
  · intro waiting next limit other look
    simp only [answers, exec_frameSent_sending straps sending item (by decide), completeFrame_dumpItem active]
    have limited : burstLimit b (b.completed + 1) (withStream next s).lnk = limit :=
      burstLimit_dump dump other look
    refine ⟨fun reached => ?_, fun more => ⟨fun it record => ?_, fun behind => ?_⟩⟩
    · rw [continueBurst_ends limited reached]
      rfl
    · rw [continueBurst_dump dump limited more, sendDump_item _ _ rfl record]
      rfl
    · rw [continueBurst_dump dump limited more, sendDump_end _ _ rfl behind]
      rfl
  · rw [exec_frameSent_sending straps sending ending (by decide), continueBurst_inactive dump rfl]
    rfl

end Sys2Proof.HostLink
end

section
/-! SUPPORT and CERTIFICATES. Chapter 9 of the T24, teach and commissioning: TEACH and TEACH_ABORT, the edges and the span
reach of a running teach, its statistics and its results. The rules come first, in the order of the definitions they speak
of; the obligations they settle last. -/

namespace Sys2Proof.Teaching

open Sys2Proof.Machine Sys2Proof.Safety Sys2Proof.Laws

/-! ## TEACH (R154) -/

section Requests

variable {s : State} (tag : Byte) (p : List Byte)

theorem exec_teach_taken (h : Taken s) : exec (.teach tag p) s = .next (reqTeach tag p s) :=
  congrArg _ (takeFrame_taken h)

theorem exec_teachAbort_taken (h : Taken s) : exec (.teachAbort tag p) s = .next (reqTeachAbort tag p s) :=
  congrArg _ (takeFrame_taken h)

end Requests

/-- R57, R154: the distances an offset or a span can be. -/
theorem offsetOk_iff (d : BitVec 32) : offsetOk d = true ↔ 1 ≤ d.toNat ∧ d.toNat ≤ 4000000 := by
  rw [offsetOk, Bool.and_eq_true, decide_eq_true_eq, decide_eq_true_eq]
  rfl

theorem offsetOk_out {d : BitVec 32} (h : d = 0 ∨ 4000000 < d.toNat) : offsetOk d = false := by
  obtain rfl | far := h
  · rfl
  · exact Bool.eq_false_iff.2 fun ok => not_le.2 far ((offsetOk_iff d).1 ok).2

/-- R163: a flag byte of value 0. -/
theorem asFlag_zero {b : Byte} (h : b.toNat = 0) : asFlag b = some false := by
  obtain rfl : b = 0 := BitVec.eq_of_toNat_eq h
  rfl

/-- R154, check 3: one field out of range, or a station to a teach that applies nothing, and TEACH is refused. -/
theorem teachOfBytes_none {p : List Byte}
    (h : 8 ≤ (byteAt p 0).toNat ∨ (byteAt p 1).toNat = 0 ∨ 8 < (byteAt p 1).toNat ∨ u32 p 2 = 0 ∨
      4000000 < (u32 p 2).toNat ∨ 2 ≤ (byteAt p 8).toNat ∨ 8 ≤ (byteAt p 9).toNat ∨
        ((byteAt p 8).toNat = 0 ∧ (byteAt p 9).toNat ≠ 0)) : teachOfBytes p = none := by
  unfold teachOfBytes
  obtain target | zero | many | span | far | flag | station | ⟨plain, named⟩ := h
  · simp [asFin_none target]
  · simp [zero]
  · simp [not_le.2 many]
  · simp [offsetOk_out (.inl span)]
  · simp [offsetOk_out (.inr far)]
  · simp [asFlag_none flag]
  · simp [asFin_none station]
  · cases station : asFin 8 (byteAt p 9) with
    | none => simp
    | some i =>
      have nonzero : i ≠ 0 := by
        rintro rfl
        exact named (congrArg BitVec.toNat (idxByte_of_asFin station).symm)
      simp [asFlag_zero plain, nonzero]

/-- Table 10-2: the payload of a TEACH. -/
def teachPayload (target : Fin 8) (n : Byte) (span : Dist) (spread : BitVec 16) (apply : Bool) (station : Fin 8) :
    List Byte :=
  [idxByte target, n] ++ le 4 span ++ le 2 spread ++ [flagByte apply, idxByte station]

section Payload

variable (target station : Fin 8) {n : Byte} {span : Dist} (spread : BitVec 16) {apply : Bool}

theorem teachPayload_length : (teachPayload target n span spread apply station).length = 10 := by
  simp [teachPayload]

/-- R154: a TEACH payload in range reads as the parameters it was written from. -/
theorem teachOfBytes_payload (least : 1 ≤ n.toNat) (most : n.toNat ≤ 8) (spanOk : offsetOk span = true)
    (named : apply = true ∨ station = 0) :
    teachOfBytes (teachPayload target n span spread apply station) =
      some ⟨target, n.toNat, span, spread, apply, station, [], 0⟩ := by
  have readTarget : byteAt (teachPayload target n span spread apply station) 0 = idxByte target := rfl
  have readCount : byteAt (teachPayload target n span spread apply station) 1 = n := rfl
  have readSpan : u32 (teachPayload target n span spread apply station) 2 = span := Records.u32_of_field rfl
  have readSpread : u16 (teachPayload target n span spread apply station) 6 = spread := Records.u16_of_field rfl
  have readApply : byteAt (teachPayload target n span spread apply station) 8 = flagByte apply := rfl
  have readStation : byteAt (teachPayload target n span spread apply station) 9 = idxByte station := rfl
  simp [teachOfBytes, readTarget, readCount, readSpan, readSpread, readApply, readStation, least, most, spanOk, named]

end Payload

/-- R154, check 5: no ENTRY input, the ENTRY input as the target, a station of kind NONE to apply to. -/
theorem teachConflict_iff (s : State) (run : TeachRun) :
    teachConflict s run = true ↔
      (∀ i : Fin 8, s.inp.inputs[i].role ≠ .entry) ∨ s.inp.inputs[run.target].role = .entry ∨
        (run.apply = true ∧ s.stn.stations[run.station].record.kind = .none) := by
  have noEntry : hasEntry s = false ↔ ∀ i : Fin 8, s.inp.inputs[i].role ≠ .entry := by
    rw [Bool.eq_false_iff, Ne, ZoneControl.hasEntry_iff, not_exists]
  simp only [teachConflict, Bool.or_eq_true, Bool.and_eq_true, Bool.not_eq_true', decide_eq_true_eq, noEntry, or_assoc]

section Teach

variable {tag : Byte} {p : List Byte} {s : State}

theorem reqTeach_badLength (length : p.length ≠ 10) :
    reqTeach tag p s = replied 0x2E tag .badLength [s.tch.state.code] s := by
  rw [reqTeach, if_pos length]
  rfl

theorem reqTeach_wrongState (length : p.length = 10) (outside : s.zon.zone ≠ .config) :
    reqTeach tag p s = replied 0x2E tag .wrongState [s.tch.state.code] s := by
  rw [reqTeach, if_neg (not_not.2 length), if_pos outside]
  rfl

section Config

variable (length : p.length = 10) (config : s.zon.zone = .config)
include length config

theorem reqTeach_badValue (unread : teachOfBytes p = none) :
    reqTeach tag p s = replied 0x2E tag .badValue [s.tch.state.code] s := by
  simp only [reqTeach, if_neg (not_not.2 length), if_neg (not_not.2 config), unread]
  rfl

variable {run : TeachRun} (read : teachOfBytes p = some run)
include read

theorem reqTeach_busy (running : s.tch.state ≠ .idle) :
    reqTeach tag p s = replied 0x2E tag .busy [s.tch.state.code] s := by
  simp only [reqTeach, if_neg (not_not.2 length), if_neg (not_not.2 config), read, if_pos running]
  rfl

theorem reqTeach_conflict (idle : s.tch.state = .idle) (conflict : teachConflict s run = true) :
    reqTeach tag p s = replied 0x2E tag .conflict [s.tch.state.code] s := by
  simp only [reqTeach, if_neg (not_not.2 length), if_neg (not_not.2 config), read, if_neg (not_not.2 idle),
    if_pos conflict]
  rfl

theorem reqTeach_starts (idle : s.tch.state = .idle) (free : ¬teachConflict s run = true) :
    reqTeach tag p s =
      replied 0x2E tag .ok [1] { s with tch := { s.tch with state := .waitEntry run } } := by
  simp only [reqTeach, if_neg (not_not.2 length), if_neg (not_not.2 config), read, if_neg (not_not.2 idle),
    if_neg free]
  rfl

end Config

end Teach

/-! ## TEACH_ABORT (R159) -/

section Abort

variable {tag : Byte} {p : List Byte} {s : State}

theorem reqTeachAbort_badLength (payload : p ≠ []) :
    reqTeachAbort tag p s = replied 0x2F tag .badLength [s.tch.state.code] s :=
  if_pos payload

theorem reqTeachAbort_wrongState (idle : s.tch.state = .idle) :
    reqTeachAbort tag [] s = replied 0x2F tag .wrongState [0] s := by
  simp only [reqTeachAbort, ne_eq, not_true_eq_false, if_false, idle]
  rfl

theorem reqTeachAbort_aborts (running : s.tch.state ≠ .idle) :
    reqTeachAbort tag [] s =
      replied 0x2F tag .ok [0] (announceAbort s.tch.state { s with tch := { s.tch with state := .idle } }) := by
  rw [← Outputs.abortTeach_eq]
  simp only [reqTeachAbort, ne_eq, not_true_eq_false, if_false, if_neg running, abortTeach_idle]
  rfl

end Abort

/-! ## Edges and the span reach (R155 to R157) -/

/-- R144: offering a notice does not look at the Teach Unit. -/
theorem setTeach_offer (t : TeachState) (n : Notice) (s : State) :
    setTeach t (offer n s) = offer n (setTeach t s) := by
  unfold offer
  by_cases enabled : s.lnk.settings[n.kind.index].enabled = true
  · exact (congrArg (setTeach t) (if_pos enabled)).trans (if_pos enabled).symm
  · exact (congrArg (setTeach t) (if_neg enabled)).trans (if_neg enabled).symm

/-- R156: the run once a sample is taken; the failures in a row start again. -/
def sampledRun (run : TeachRun) (start here : Pos) : TeachRun :=
  { run with samples := run.samples ++ [serialDist start here], failures := 0 }

theorem sampledRun_length (run : TeachRun) (start here : Pos) :
    (sampledRun run start here).samples.length = run.samples.length + 1 := by
  simp [sampledRun]

/-- R156: the state once a sample is taken and its notice offered. -/
def sampledState (run : TeachRun) (start : Pos) (s : State) : State :=
  offer (.teachSample s.now .taken start (some (serialDist start s.here)) (run.samples.length + 1) 0)
    (setTeach (.waitEntry (sampledRun run start s.here)) s)

/-- R157: the run once its span has been passed without a target edge. -/
def failedRun (run : TeachRun) : TeachRun := { run with failures := run.failures + 1 }

/-- R157: the state a span failure leaves, its notice offered. -/
def spannedState (run : TeachRun) (start : Pos) (t : TeachState) (s : State) : State :=
  offer (.teachSample s.now .span start none run.samples.length (run.failures + 1)) (setTeach t s)

section Edges

variable {s : State}

/-- R153: with no teach running the edges and the span do nothing. -/
theorem teach_idle (idle : s.tch.state = .idle) :
    teachEntryEdge s = s ∧ teachTargetEdge s = s ∧ teachSpanReach s = s := by
  refine ⟨?_, ?_, ?_⟩
  · rw [teachEntryEdge, idle]
  · rw [teachTargetEdge, idle]
  · rw [teachSpanReach, idle]

/-- R155: while an entry is waited for, only an entry edge does something: it starts a sample. -/
theorem teach_waitEntry {run : TeachRun} (waiting : s.tch.state = .waitEntry run) :
    teachEntryEdge s = setTeach (.waitTarget run s.here (s.here + run.span)) s ∧ teachTargetEdge s = s ∧
      teachSpanReach s = s := by
  refine ⟨?_, ?_, ?_⟩
  · rw [teachEntryEdge, waiting]
  · rw [teachTargetEdge, waiting]
  · rw [teachSpanReach, waiting]

variable {run : TeachRun} {start spanPos : Pos} (waiting : s.tch.state = .waitTarget run start spanPos)

include waiting

theorem teachEntryEdge_overlaps :
    teachEntryEdge s =
      offer (.teachSample s.now .overlapped start none run.samples.length run.failures)
        (setTeach (.waitTarget run s.here (s.here + run.span)) s) := by
  rw [teachEntryEdge, waiting]

theorem teachTargetEdge_waitTarget :
    teachTargetEdge s =
      if run.wanted ≤ run.samples.length + 1 then
        finishTeach (sampledRun run start s.here) (sampledState run start s)
      else sampledState run start s := by
  rw [sampledState, ← sampledRun_length run start s.here, teachTargetEdge, waiting]
  rfl

theorem teachSpanReach_waitTarget :
    teachSpanReach s =
      if 3 ≤ run.failures + 1 then
        offer (.teachResult s.now .failed run.samples.length none run.station false none)
          (spannedState run start .idle s)
      else spannedState run start (.waitEntry (failedRun run)) s := by
  have ends : endTeach (failedRun run) .failed none false none (spannedState run start (.waitEntry (failedRun run)) s) =
      offer (.teachResult s.now .failed run.samples.length none run.station false none)
        (spannedState run start .idle s) := by
    rw [endTeach, spannedState, setTeach_offer, offer_now]
    rfl
  rw [← ends, teachSpanReach, waiting]
  rfl

end Edges

/-! ## Results (R158) -/

section Results

variable {run : TeachRun} {stats : TeachStats} (held : run.stats = some stats) (s : State)

/-- R158: the station's record with the mean as its offset. -/
def taughtRecord (run : TeachRun) (stats : TeachStats) (s : State) : StationRec :=
  { s.stn.stations[run.station].record with offset := stats.mean }

theorem applyTeach_badValue (h : stats.mean = 0 ∨ (taughtRecord run stats s).valueOk = false) :
    applyTeach run stats s = endTeach run .applyRefused (some stats) false (some .badValue) s := by
  refine if_pos ?_
  obtain zero | refused := h
  · rw [offsetOk_out (.inl zero)]
    rfl
  · exact Bool.or_eq_true_iff.2 (.inr (congrArg not refused))

section Value

variable (offset : offsetOk stats.mean = true) (value : (taughtRecord run stats s).valueOk = true)
include offset value

/-- R158: the first of the two checks passes. -/
theorem taught_passes : ¬(!offsetOk stats.mean || !(taughtRecord run stats s).valueOk) = true := by
  simp [offset, value]

theorem applyTeach_conflict (invalid : stationValid s run.station (taughtRecord run stats s) = false) :
    applyTeach run stats s = endTeach run .applyRefused (some stats) false (some .conflict) s :=
  (if_neg (taught_passes s offset value)).trans (if_pos (congrArg not invalid))

theorem applyTeach_done (valid : stationValid s run.station (taughtRecord run stats s) = true) :
    applyTeach run stats s =
      endTeach run .done (some stats) true none
        (s.modStation run.station fun st => { st with record := taughtRecord run stats s }) :=
  (if_neg (taught_passes s offset value)).trans (if_neg (Bool.eq_false_iff.1 (congrArg not valid)))

end Value

include held

theorem finishTeach_wide (wide : run.spread.toNat < (stats.greatest - stats.least).toNat) :
    finishTeach run s = endTeach run .spreadExceeded (some stats) false none s := by
  simp only [finishTeach, held, if_pos wide]

section Narrow

variable (narrow : ¬run.spread.toNat < (stats.greatest - stats.least).toNat)
include narrow

theorem finishTeach_measures (apply : run.apply = false) :
    finishTeach run s = endTeach run .done (some stats) false none s := by
  simp only [finishTeach, held, if_neg narrow, apply, Bool.false_eq_true, if_false]

theorem finishTeach_applies (apply : run.apply = true) : finishTeach run s = applyTeach run stats s := by
  simp only [finishTeach, held, if_neg narrow, apply, if_true]

end Narrow

end Results

/-! ## Statistics (R158) -/

/-- A mean of 32-bit samples is a 32-bit value. -/
theorem sum_div_length_lt (ds : List Dist) : (ds.map BitVec.toNat).sum / ds.length < 2 ^ 32 := by
  have bound : (ds.map BitVec.toNat).sum ≤ ds.length * (2 ^ 32 - 1) := by
    have each : ∀ x ∈ ds.map BitVec.toNat, x ≤ 2 ^ 32 - 1 := by
      rintro x member
      obtain ⟨d, -, rfl⟩ := List.mem_map.1 member
      exact Nat.le_sub_one_of_lt d.isLt
    simpa using List.sum_le_card_nsmul _ _ each
  have := Nat.div_le_of_le_mul bound
  omega

/-- The value of one of the samples, as a sample. -/
theorem ofNat_mem {ds : List Dist} {m : Nat} (h : m ∈ ds.map BitVec.toNat) :
    BitVec.ofNat 32 m ∈ ds ∧ (BitVec.ofNat 32 m).toNat = m := by
  obtain ⟨d, member, rfl⟩ := List.mem_map.1 h
  rw [BitVec.ofNat_toNat, BitVec.setWidth_eq]
  exact ⟨member, rfl⟩

theorem stats_nil {run : TeachRun} (h : run.samples = []) : run.stats = none := by
  rw [TeachRun.stats, h]
  rfl

/-- The statistics of samples held. -/
theorem stats_eq {run : TeachRun} (h : run.samples ≠ []) :
    ∃ least greatest, (run.samples.map BitVec.toNat).min? = some least ∧
      (run.samples.map BitVec.toNat).max? = some greatest ∧
      run.stats = some
        { mean := BitVec.ofNat 32 ((run.samples.map BitVec.toNat).sum / run.samples.length)
          least := BitVec.ofNat 32 least
          greatest := BitVec.ofNat 32 greatest } := by
  obtain ⟨d, ds, samples⟩ := List.exists_cons_of_ne_nil h
  refine ⟨(ds.map BitVec.toNat).foldl Nat.min d.toNat, (ds.map BitVec.toNat).foldl Nat.max d.toNat, ?_, ?_, ?_⟩
  · rw [samples]
    rfl
  · rw [samples]
    rfl
  · rw [TeachRun.stats, samples, ← List.length_map (f := BitVec.toNat)]
    rfl

/-! ## The obligations -/

/-- Settles O47: TEACH in the order of its checks, then TEACH_ABORT. -/
theorem teachRequestsResult : Obligations.TeachRequestsResult := by
  unfold Obligations.TeachRequestsResult
  intro tag p s taken
  simp only [exec_teach_taken tag p taken, exec_teachAbort_taken tag p taken]
  refine ⟨fun length => ?_, fun length outside => ?_, fun length config out => ?_,
    fun target station n span spread apply payload config least most spanLeast spanMost named => ?_, fun payload => ?_,
    fun empty idle => ?_, fun empty running => ?_⟩
  · rw [reqTeach_badLength length]
  · rw [reqTeach_wrongState length outside]
  · rw [reqTeach_badValue length config (teachOfBytes_none out)]
  · have spanOk : offsetOk span = true := (offsetOk_iff span).2 ⟨spanLeast, spanMost⟩
    have read := teachOfBytes_payload target station spread least most spanOk named
    obtain rfl : p = teachPayload target n span spread apply station := payload
    have length := teachPayload_length target station (n := n) (span := span) spread (apply := apply)
    rw [← teachConflict_iff s ⟨target, n.toNat, span, spread, apply, station, [], 0⟩]
    refine ⟨fun running => ?_, fun idle conflict => ?_, fun idle free => ?_⟩
    · rw [reqTeach_busy length config read running]
    · rw [reqTeach_conflict length config read idle conflict]
    · rw [reqTeach_starts length config read idle free]
  · rw [reqTeachAbort_badLength payload]
  · rw [empty, reqTeachAbort_wrongState idle]
  · rw [empty, reqTeachAbort_aborts running]

/-- Settles O48: the edges and the span in each teach state, the results of a full set of samples, the statistics. -/
theorem teachRules : Obligations.TeachRules := by
  unfold Obligations.TeachRules
  refine ⟨fun s run => ⟨teach_idle, teach_waitEntry, fun start spanPos waiting => ?_, fun stats held => ?_⟩,
    fun run => ⟨stats_nil, fun nonempty _ => ?_⟩⟩
  · refine ⟨teachEntryEdge_overlaps waiting, fun more => ?_, fun full => ?_, fun few => ?_, fun third => ?_⟩
    · exact (teachTargetEdge_waitTarget waiting).trans (if_neg (not_le.2 more))
    · exact (teachTargetEdge_waitTarget waiting).trans (if_pos full)
    · exact (teachSpanReach_waitTarget waiting).trans (if_neg (not_le.2 few))
    · exact (teachSpanReach_waitTarget waiting).trans (if_pos third)
  · refine ⟨finishTeach_wide held s, finishTeach_measures held s, fun narrow apply refused => ?_,
      fun narrow apply least most value => ?_⟩
    · rw [finishTeach_applies held s narrow apply, applyTeach_badValue s refused]
      rfl
    · have offset : offsetOk stats.mean = true := (offsetOk_iff _).2 ⟨least, most⟩
      rw [finishTeach_applies held s narrow apply]
      exact ⟨applyTeach_conflict s offset value, applyTeach_done s offset value⟩
  · obtain ⟨least, greatest, isMin, isMax, stats⟩ := stats_eq nonempty
    obtain ⟨leastHeld, below⟩ := List.min?_eq_some_iff.1 isMin
    obtain ⟨greatestHeld, above⟩ := List.max?_eq_some_iff.1 isMax
    obtain ⟨leastMem, leastValue⟩ := ofNat_mem leastHeld
    obtain ⟨greatestMem, greatestValue⟩ := ofNat_mem greatestHeld
    refine ⟨_, stats, ?_, leastMem, greatestMem, fun d member => ?_⟩
    · rw [BitVec.toNat_ofNat, Nat.mod_eq_of_lt (sum_div_length_lt run.samples)]
    · rw [leastValue, greatestValue]
      have value := List.mem_map_of_mem (f := BitVec.toNat) member
      exact ⟨below _ value, above _ value⟩

end Sys2Proof.Teaching
end

section
/-! SUPPORT and CERTIFICATES. A step and the queue of waiting commands: a step runs the command at the front (log 2);
every command has a next state in every state (log 28), and none touches the queue. The rules come first, the
obligations they settle last. -/

namespace Sys2Proof.Queue

open Sys2Proof.Machine Sys2Proof.Safety Sys2Proof.Laws

/-! ## States with one queue of waiting commands -/

/-- The commands that wait in `t` are those that wait in `s`. -/
def SameQueue (s t : State) : Prop := t.pending = s.pending

theorem SameQueue.refl (s : State) : SameQueue s s := rfl

theorem SameQueue.trans {s t u : State} (h : SameQueue s t) (k : SameQueue t u) : SameQueue s u := Eq.trans k h

/-- A step from a state `t` in which the commands of `s` wait. -/
theorem SameQueue.after {s t u : State} (h : SameQueue t u) (k : t.pending = s.pending) : SameQueue s u :=
  SameQueue.trans k h

/-- A step that acts only when its time has come. -/
theorem SameQueue.ite {s t : State} (h : SameQueue s t) (c : Prop) [Decidable c] :
    SameQueue s (if c then t else s) := by
  split
  · exact h
  · exact .refl s

theorem foldl_queue {α : Type} (f : State → α → State) (h : ∀ s a, SameQueue s (f s a)) (l : List α)
    (s : State) : SameQueue s (l.foldl f s) := by
  induction l generalizing s with
  | nil => exact .refl s
  | cons a as ih => exact (h s a).trans (ih _)

theorem sameQueue_of_work {s t : State} (h : ItemWork s t) : SameQueue s t := h.pending

theorem sameQueue_of_event {s t : State} (h : EventWork s t) : SameQueue s t := h.pending

/-! ## Shared operations -/

theorem modZon_queue (f : ZonUnit → ZonUnit) (s : State) : SameQueue s (s.modZon f) := rfl

theorem offer_queue (n : Notice) (s : State) : SameQueue s (offer n s) := offer_pending n s

theorem enterZone_queue (z : ZoneState) (c : ZoneCause) (s : State) : SameQueue s (enterZone z c s) :=
  enterZone_pending z c s

theorem trackingStart_queue (c : ZoneCause) (s : State) : SameQueue s (trackingStart c s) :=
  (enterZone_queue .tracking c _).after rfl

theorem abortTeach_queue (s : State) : SameQueue s (abortTeach s) := sameQueue_of_event (abortTeach_event s)

theorem enterEstop_queue (c : ZoneCause) (s : State) : SameQueue s (enterEstop c s) :=
  ((abortTeach_queue _).trans (enterZone_queue .estop c _)).after rfl

theorem flushToConfig_queue (s : State) : SameQueue s (flushToConfig s) :=
  (sameQueue_of_work (flush_work s)).trans (enterZone_queue .config .request _)

theorem endTeach_queue (run : TeachRun) (r : TeachResult) (stats : Option TeachStats) (applied : Bool)
    (validation : Option Status) (s : State) : SameQueue s (endTeach run r stats applied validation s) :=
  sameQueue_of_event (endTeach_event run r stats applied validation s)

/-! ## Edges (R17 to R20) -/

theorem applyTeach_queue (run : TeachRun) (stats : TeachStats) (s : State) : SameQueue s (applyTeach run stats s) := by
  unfold applyTeach
  dsimp only
  split
  · exact endTeach_queue _ _ _ _ _ s
  split
  · exact endTeach_queue _ _ _ _ _ s
  · exact (endTeach_queue _ _ _ _ _ _).after rfl

theorem finishTeach_queue (run : TeachRun) (s : State) : SameQueue s (finishTeach run s) := by
  unfold finishTeach
  split
  · exact .refl s
  split
  · exact endTeach_queue _ _ _ _ _ s
  split
  · exact applyTeach_queue run _ s
  · exact endTeach_queue _ _ _ _ _ s

theorem teachTargetEdge_queue (s : State) : SameQueue s (teachTargetEdge s) := by
  have sampled : ∀ n run, SameQueue s (offer n (setTeach (.waitEntry run) s)) := fun n _ =>
    (offer_queue n _).after rfl
  unfold teachTargetEdge
  split
  · exact .refl s
  · exact .refl s
  dsimp only
  split
  · exact (sampled _ _).trans (finishTeach_queue _ _)
  · exact sampled _ _

theorem createItem_queue (s : State) : SameQueue s (createItem s) := by
  have entered : SameQueue s (enteredState s) := (offer_queue _ _).after rfl
  rw [createItem_def]
  split
  · exact (entered.trans (sameQueue_of_work (decideItem_work _ _ _))).trans rfl
  · exact entered.trans rfl

theorem entryAttempt_queue (s : State) : SameQueue s (entryAttempt s) := by
  unfold entryAttempt
  split
  · exact (sameQueue_of_work (faultCause_work _ _)).after rfl
  split
  · exact createItem_queue s
  split
  · exact createItem_queue s
  · exact (offer_queue _ _).after rfl

theorem entryLeading_queue (s : State) : SameQueue s (entryLeading s) := by
  unfold entryLeading
  split
  · split
    · exact entryAttempt_queue s
    · exact entryAttempt_queue s
    · exact .refl s
  · exact rfl

theorem entryTrailing_queue (s : State) : SameQueue s (entryTrailing s) := by
  unfold entryTrailing
  split
  · exact .refl s
  · exact rfl
  dsimp only
  split
  · exact (sameQueue_of_work (leave_work _ _ _)).after rfl
  · exact rfl

/-- R19, R20: no receiver of an edge touches the queue. -/
theorem receiveEdge_queue (i : Fin 8) (e : EdgeKind) (r : EdgeReceiver) (s : State) :
    SameQueue s (receiveEdge i e r s) := by
  cases r with
  | probe => exact (offer_queue _ _).after rfl
  | entryUnit =>
    cases e with
    | leading => exact entryLeading_queue s
    | trailing => exact entryTrailing_queue s
  | teachEntry => exact sameQueue_of_event (teachEntryEdge_event s)
  | teachTarget => exact teachTargetEdge_queue s
  | station k => exact sameQueue_of_work (checkEdge_work k s)
  | source v => exact sameQueue_of_work (lineEdge_work v s)

theorem deliverEdge_queue (i : Fin 8) (e : EdgeKind) (s : State) : SameQueue s (deliverEdge i e s) := by
  obtain ⟨order, -, -, delivered⟩ := inFreeOrder_eq (receiveEdge i e) _ (edgeReceivers s i e) s le_rfl
  have folded : deliverEdge i e s = _ := delivered
  rw [folded]
  refine foldl_queue _ (fun t r => ?_) order s
  exact (receiveEdge_queue i e r.1 _).after rfl

/-! ## Accepted changes -/

theorem acceptInput_queue (i : Fin 8) (s : State) : SameQueue s (acceptInput i s) := by
  unfold acceptInput
  dsimp only
  split
  · exact rfl
  · exact (deliverEdge_queue i _ _).after rfl

theorem applyCount_queue (c : RawCount) (s : State) : SameQueue s (applyCount c s) := by
  cases c with
  | zero => exact .refl s
  | up => exact (sameQueue_of_event (forwardCount_event s)).after rfl
  | down => exact (sameQueue_of_event (backwardCount_event s)).after rfl
  | error => exact (sameQueue_of_event (encoderError_event s)).after rfl

theorem acceptEncoder_queue (a b : Bool) (s : State) : SameQueue s (acceptEncoder a b s) := by
  unfold acceptEncoder
  dsimp only
  split
  · exact (applyCount_queue _ _).after rfl
  · exact rfl

theorem acceptSync_queue (s : State) : SameQueue s (acceptSync s) := by
  rw [ZoneControl.acceptSync_eq]
  split
  · exact (trackingStart_queue _ _).after rfl
  · exact rfl

theorem acceptLineStop_queue (s : State) : SameQueue s (acceptLineStop s) := by
  rw [ZoneControl.acceptLineStop_eq]
  split
  · exact (enterZone_queue _ _ _).after rfl
  · exact rfl

theorem acceptEstop_queue (s : State) : SameQueue s (acceptEstop s) := by
  rw [ZoneControl.acceptEstop_eq]
  split
  · exact rfl
  · exact (enterEstop_queue _ _).after rfl

/-! ## Requests -/

/-- R141: a request is answered, whatever it has done. -/
theorem SameQueue.answered {s t : State} {kind tag : Byte} {st : Status} {fields : List Byte} (h : SameQueue s t) :
    SameQueue s (answer kind tag st fields t) := h

/-- R141: a check that refuses the request, before what else the request does. -/
theorem SameQueue.refusal_or {s t : State} {c : Prop} [Decidable c] {kind tag : Byte} {st : Status}
    {fields : List Byte} (h : SameQueue s t) : SameQueue s (if c then answer kind tag st fields s else t) := by
  split
  · exact rfl
  · exact h

/-- An operation that leaves the queue as it is. -/
def KeepsQueue (f : State → State) : Prop := ∀ s, SameQueue s (f s)

section Requests

variable (tag : Byte) (p : List Byte)

theorem reqIdentify_queue : KeepsQueue (reqIdentify tag p) := fun _ => .refusal_or rfl

theorem clearCounters_queue (s : State) : SameQueue s (clearCounters s) := rfl

theorem reqStatus_queue : KeepsQueue (reqStatus tag p) := fun s => by
  refine .refusal_or ?_
  split
  · exact rfl
  · exact (clearCounters_queue s).ite _

theorem reqReset_queue : KeepsQueue (reqReset tag p) := fun _ => .refusal_or rfl

theorem reqSetNotices_queue : KeepsQueue (reqSetNotices tag p) := fun s => by
  refine .refusal_or <| .refusal_or ?_
  split <;> exact rfl

theorem reqSetEncoder_queue : KeepsQueue (reqSetEncoder tag p) := fun s => by
  refine .refusal_or <| .refusal_or <| .refusal_or ?_
  split <;> exact rfl

theorem reqReadPosition_queue : KeepsQueue (reqReadPosition tag p) := fun _ => .refusal_or rfl

theorem reqSetInput_queue : KeepsQueue (reqSetInput tag p) := fun s => by
  refine .refusal_or <| .refusal_or <| .refusal_or ?_
  split
  · exact rfl
  · exact .refusal_or rfl

theorem reqReadInput_queue : KeepsQueue (reqReadInput tag p) := fun s => by
  refine .refusal_or ?_
  split <;> exact rfl

theorem reqArmProbe_queue : KeepsQueue (reqArmProbe tag p) := fun s => by
  refine .refusal_or ?_
  split <;> exact rfl

theorem reqDisarmProbe_queue : KeepsQueue (reqDisarmProbe tag p) := fun s => by
  refine .refusal_or ?_
  split <;> exact rfl

theorem reqSetZone_queue : KeepsQueue (reqSetZone tag p) := fun s => by
  refine .refusal_or <| .refusal_or <| .refusal_or ?_
  split
  · exact rfl
  split <;> exact rfl

theorem reqReadItem_queue : KeepsQueue (reqReadItem tag p) := fun s => by
  refine .refusal_or <| .refusal_or ?_
  split <;> exact rfl

theorem reqDumpTrack_queue : KeepsQueue (reqDumpTrack tag p) := fun _ => .refusal_or <| .refusal_or rfl

theorem reqRemoveItem_queue : KeepsQueue (reqRemoveItem tag p) := fun s => by
  refine .refusal_or <| .refusal_or <| .refusal_or ?_
  split
  · exact rfl
  · exact (sameQueue_of_work (leave_work _ _ s)).answered

theorem loadFrom_queue (n k : Nat) (s : State) : SameQueue s (loadFrom p n k s).state := by
  induction n generalizing k s with
  | zero => exact .refl s
  | succ n ih =>
    unfold loadFrom
    split
    · exact .refl s
    split
    · exact (ih _ (installStation _ _ s)).after rfl
    · exact .refl s

theorem reqLoadStations_queue : KeepsQueue (reqLoadStations tag p) := fun s =>
  .refusal_or <| .refusal_or <| .refusal_or <| (loadFrom_queue p _ _ s).answered

theorem changeMode_queue (i : Fin 8) (m : StationMode) (s : State) : SameQueue s (changeMode i m s) := by
  unfold changeMode
  dsimp only
  split
  · exact (sameQueue_of_work (disableClose_work i _)).after rfl
  · exact rfl

theorem reqSetStationMode_queue : KeepsQueue (reqSetStationMode tag p) := fun s => by
  refine .refusal_or ?_
  split
  · exact rfl
  · exact .refusal_or (changeMode_queue _ _ s).answered

theorem reqReadStation_queue : KeepsQueue (reqReadStation tag p) := fun s => by
  refine .refusal_or ?_
  split <;> exact rfl

theorem reqLoadClass_queue : KeepsQueue (reqLoadClass tag p) := fun s => by
  refine .refusal_or <| .refusal_or ?_
  split <;> exact rfl

theorem reqSetSource_queue : KeepsQueue (reqSetSource tag p) := fun s => by
  refine .refusal_or <| .refusal_or <| .refusal_or ?_
  split
  · exact rfl
  split <;> exact rfl

theorem reqVerdict_queue : KeepsQueue (reqVerdict tag p) := fun s => by
  refine .refusal_or <| .refusal_or ?_
  split
  · exact rfl
  · exact rfl
  refine .refusal_or <| .refusal_or ?_
  split
  · exact rfl
  split
  · exact rfl
  · exact rfl
  · exact (sameQueue_of_work (fillVerdict_work _ _ _ s)).answered

theorem settleClassify_queue (it : Item) (s : State) : SameQueue s (settleClassify it s) := by
  unfold settleClassify
  split
  · exact sameQueue_of_work (decideItem_work _ _ s)
  split
  · exact sameQueue_of_work (takeDeadline_work _ s)
  · exact (sameQueue_of_work (decideItem_work _ _ s)).ite _

theorem reqClassify_queue : KeepsQueue (reqClassify tag p) := fun s => by
  have applied : ∀ it cls, SameQueue s (applyClassify it cls s) := fun _ _ => (settleClassify_queue _ _).after rfl
  refine .refusal_or <| .refusal_or ?_
  split
  · exact rfl
  refine .refusal_or ?_
  split
  · exact rfl
  · exact .refusal_or (applied _ _).answered

theorem reqSetOutput_queue : KeepsQueue (reqSetOutput tag p) := fun s => by
  refine .refusal_or <| .refusal_or <| .refusal_or ?_
  split <;> exact rfl

theorem reqPulseOutput_queue : KeepsQueue (reqPulseOutput tag p) := fun s => by
  refine .refusal_or <| .refusal_or ?_
  split
  · exact rfl
  · exact .refusal_or rfl

theorem reqReadOutputs_queue : KeepsQueue (reqReadOutputs tag p) := fun _ => .refusal_or rfl

theorem reqStart_queue : KeepsQueue (reqStart tag p) := fun s => by
  refine .refusal_or <| .refusal_or <| .refusal_or <| .refusal_or ?_
  split
  · exact ((abortTeach_queue s).trans (enterZone_queue _ _ _)).answered
  · exact ((abortTeach_queue s).trans (trackingStart_queue _ _)).answered

theorem reqSyncPulse_queue : KeepsQueue (reqSyncPulse tag p) := fun _ =>
  .refusal_or <| .refusal_or <| .refusal_or rfl

theorem reqStopLine_queue : KeepsQueue (reqStopLine tag p) := fun _ => .refusal_or rfl

theorem reqHold_queue : KeepsQueue (reqHold tag p) := fun s =>
  .refusal_or <| .refusal_or <| (enterZone_queue _ _ s).answered

theorem reqResume_queue : KeepsQueue (reqResume tag p) := fun s =>
  .refusal_or <| .refusal_or <| .refusal_or <| (enterZone_queue _ _ s).answered

theorem reqStop_queue : KeepsQueue (reqStop tag p) := fun s => by
  refine .refusal_or ?_
  split
  · exact rfl
  · exact rfl
  all_goals exact (flushToConfig_queue s).answered

theorem reqEstop_queue : KeepsQueue (reqEstop tag p) := fun s =>
  .refusal_or <| .refusal_or <| (enterEstop_queue _ s).answered

theorem reqClear_queue : KeepsQueue (reqClear tag p) := fun s =>
  .refusal_or <| .refusal_or <| .refusal_or <| (flushToConfig_queue s).answered

theorem reqSetLine_queue : KeepsQueue (reqSetLine tag p) := fun s => by
  refine .refusal_or <| .refusal_or ?_
  split <;> exact rfl

theorem reqTeach_queue : KeepsQueue (reqTeach tag p) := fun s => by
  refine .refusal_or <| .refusal_or ?_
  split
  · exact rfl
  · exact .refusal_or <| .refusal_or rfl

theorem reqTeachAbort_queue : KeepsQueue (reqTeachAbort tag p) := fun s =>
  .refusal_or <| .refusal_or <| (abortTeach_queue s).answered

theorem reqUnknown_queue (kind : Byte) : KeepsQueue (reqUnknown kind tag) := fun _ => rfl

end Requests

/-- R141: whatever request is taken, the queue stays as it is. -/
theorem takeRequest_queue (kind tag : Byte) (p : List Byte) : KeepsQueue (takeRequest kind tag p) := by
  unfold takeRequest
  split
  · exact reqIdentify_queue tag p
  · exact reqStatus_queue tag p
  · exact reqReset_queue tag p
  · exact reqSetNotices_queue tag p
  · exact reqSetEncoder_queue tag p
  · exact reqReadPosition_queue tag p
  · exact reqSetInput_queue tag p
  · exact reqReadInput_queue tag p
  · exact reqArmProbe_queue tag p
  · exact reqDisarmProbe_queue tag p
  · exact reqSetZone_queue tag p
  · exact reqReadItem_queue tag p
  · exact reqDumpTrack_queue tag p
  · exact reqRemoveItem_queue tag p
  · exact reqLoadStations_queue tag p
  · exact reqSetStationMode_queue tag p
  · exact reqReadStation_queue tag p
  · exact reqLoadClass_queue tag p
  · exact reqSetSource_queue tag p
  · exact reqVerdict_queue tag p
  · exact reqClassify_queue tag p
  · exact reqSetOutput_queue tag p
  · exact reqPulseOutput_queue tag p
  · exact reqReadOutputs_queue tag p
  · exact reqStart_queue tag p
  · exact reqSyncPulse_queue tag p
  · exact reqStopLine_queue tag p
  · exact reqHold_queue tag p
  · exact reqResume_queue tag p
  · exact reqStop_queue tag p
  · exact reqEstop_queue tag p
  · exact reqClear_queue tag p
  · exact reqSetLine_queue tag p
  · exact reqTeach_queue tag p
  · exact reqTeachAbort_queue tag p
  · exact reqUnknown_queue tag kind

/-- R139, R151: a frame that completes, taken or not. -/
theorem takeFrame_queue {f : State → State} (hf : KeepsQueue f) : KeepsQueue (takeFrame f) := fun s => by
  obtain ⟨-, eq⟩ | eq | eq := takeFrame_cases f s
  · rw [eq]
    exact hf s
  · rw [eq]
    exact .refl s
  · rw [eq]
    exact rfl

/-! ## The receiver and the transmitter -/

theorem setReceiver_queue (r : Receiver) (s : State) : SameQueue s (setReceiver r s) := rfl

theorem frameComplete_queue (len : Byte) (got : List Byte) (s : State) : SameQueue s (frameComplete len got s) := by
  unfold frameComplete
  split
  · exact rfl
  split
  · exact (takeFrame_queue (takeRequest_queue _ _ _) _).after rfl
  · exact rfl

/-- R136 to R139: a byte moves the receiver, is a frame error, or completes a frame. -/
theorem receiveByte_queue (b : Byte) (good : Bool) (s : State) : SameQueue s (receiveByte b good s) := by
  unfold receiveByte
  split
  · exact rfl
  · exact (setReceiver_queue _ s).ite _
  · unfold headerByte
    split
    · exact rfl
    · exact rfl
  · unfold bodyByte
    split
    · exact rfl
    split
    · exact frameComplete_queue _ _ s
    · exact rfl

theorem gapExpiry_queue (since : Time) (s : State) : SameQueue s (gapExpiry since s) := by
  have discarded : SameQueue s (gapDiscard s) := rfl
  exact discarded.ite _

theorem sendNotice_queue (completed limit : Nat) (s : State) : SameQueue s (sendNotice completed limit s) := by
  unfold sendNotice
  split <;> exact rfl

theorem sendDump_queue (completed limit : Nat) (s : State) : SameQueue s (sendDump completed limit s) := by
  unfold sendDump
  split <;> exact rfl

theorem grantNotice_queue (s : State) : SameQueue s (grantNotice s) := by
  unfold grantNotice
  split
  · exact sendNotice_queue _ _ s
  · exact rfl

theorem grant_queue (s : State) : SameQueue s (grant s) := by
  unfold grant
  split
  · exact rfl
  split
  · exact grantNotice_queue s
  · exact (sendDump_queue _ _ s).ite _

theorem completeFrame_queue (mark : FrameMark) (s : State) : SameQueue s (completeFrame mark s) := by
  cases mark with
  | plain | resetReply | dumpReply | dumpItem | dumpEnd => exact rfl

theorem continueBurst_queue (b : Burst) (s : State) : SameQueue s (continueBurst b s) := by
  unfold continueBurst
  dsimp only
  split
  · exact rfl
  split
  · exact rfl
  · exact sendNotice_queue _ _ s
  · exact sendDump_queue _ _ s

/-- R152: the queue of commands is not the part's, so a device reset leaves it as it is. -/
theorem deviceReset_queue (pins : PinLevels) (s : State) : SameQueue s (deviceReset pins s) := rfl

/-! ## Commands -/

/-- The outcome is a next state in which the commands of `s` wait. -/
def NextWithQueue (s : State) (o : Answer) : Prop := ∃ t, o = .next t ∧ t.pending = s.pending

theorem SameQueue.next {s t : State} (h : SameQueue s t) : NextWithQueue s (.next t) := ⟨t, rfl, h⟩

/-- R138: the gap timer is looked at in HEADER and BODY. -/
theorem execGapTimerExpiry_next (s : State) : NextWithQueue s (execGapTimerExpiry s) := by
  unfold execGapTimerExpiry
  split
  · exact (SameQueue.refl s).next
  · exact (SameQueue.refl s).next
  · exact (gapExpiry_queue _ s).next
  · exact (gapExpiry_queue _ s).next

/-- R136: the idle count is looked at in SETTLING. -/
theorem execSettlingIdleExpiry_next (s : State) : NextWithQueue s (execSettlingIdleExpiry s) := by
  unfold execSettlingIdleExpiry
  split
  · exact ((setReceiver_queue .hunt s).ite _).next
  all_goals exact (SameQueue.refl s).next

theorem execArbiterGrant_next (s : State) : NextWithQueue s (execArbiterGrant s) := by
  unfold execArbiterGrant
  split
  · exact (grant_queue s).next
  · exact (SameQueue.refl s).next

/-- R149, R151: the end of the reply to RESET is the device reset, every other end goes on with the burst. -/
theorem execFrameSent_next (straps : Straps) (s : State) : NextWithQueue s (execFrameSent straps s) := by
  unfold execFrameSent
  split
  · exact (SameQueue.refl s).next
  refine SameQueue.next ?_
  split
  · exact deviceReset_queue _ s
  · exact (completeFrame_queue _ s).trans (continueBurst_queue _ _)

theorem execLineInputAcceptance_next (line : LinePin) (s : State) :
    NextWithQueue s (execLineInputAcceptance line s) := by
  cases line with
  | sync => exact ((acceptSync_queue s).ite _).next
  | lineStop => exact ((acceptLineStop_queue s).ite _).next
  | estop => exact ((acceptEstop_queue s).ite _).next

/-- Log 28: every command answers a next state, with the queue as it was. -/
theorem exec_next (c : Instr) (s : State) : NextWithQueue s (exec c s) := by
  cases request : requestOf c with
  | some r =>
    rw [Configuration.exec_request request]
    exact (takeFrame_queue (takeRequest_queue _ _ _) s).next
  | none =>
    cases c with
    | receiveByte b good => exact (receiveByte_queue b good s).next
    | gapTimerExpiry => exact execGapTimerExpiry_next s
    | settlingIdleExpiry => exact execSettlingIdleExpiry_next s
    | arbiterGrant => exact execArbiterGrant_next s
    | frameSent straps => exact execFrameSent_next straps s
    | nrst pins | powerUp pins => exact (deviceReset_queue pins s).next
    | encoderAcceptance a b => exact SameQueue.next (.ite (acceptEncoder_queue _ _ s) _)
    | inputAcceptance i => exact SameQueue.next (.ite (acceptInput_queue i s) _)
    | lineInputAcceptance line => exact execLineInputAcceptance_next line s
    | syncDriveEnd => exact SameQueue.next (.ite (modZon_queue _ s) _)
    | lineStopDriveEnd => exact SameQueue.next (.ite (modZon_queue _ s) _)
    | encoderRawChange chan level =>
      cases chan with
      | a | b => exact SameQueue.next rfl
    | lineRawChange line level =>
      cases line with
      | sync | lineStop | estop => exact SameQueue.next rfl
    | outputOnEnd o | outputRecoverEnd o | inputRawChange i level | timeBaseTick => exact SameQueue.next rfl
    | _ => cases request

/-! ## The obligations -/

/-- Settles O1: the queue with a command at its front, then the empty queue. -/
theorem stepRunsFrontCommand : Obligations.StepRunsFrontCommand := by
  unfold Obligations.StepRunsFrontCommand
  refine ⟨fun c rest s front => ?_, fun s empty => ?_⟩
  · unfold step
    rw [front]
  · unfold step
    rw [empty]

/-- Settles O2: the requests as frames that are taken or not, then the events one by one. -/
theorem everyCommandHasNextState : Obligations.EveryCommandHasNextState := by
  unfold Obligations.EveryCommandHasNextState
  exact exec_next

end Sys2Proof.Queue
end

section
/-! SUPPORT. What one step can do, said once for every invariant of the zone and the track: SameWorld, a change of
nothing that those invariants look at; Effect, one constructor for each kind of change that they do look at, with the check that
guards it; and step_change, by which a step is one Effect between two changes of nothing. -/

namespace Sys2Proof.Effects

open Sys2Proof.Machine Sys2Proof.Safety Sys2Proof.Laws

/-! ## Changes of nothing that the invariants look at -/

/-- Track, stations, sources, zone, teach, track position and the states of the outputs are those of `s`. -/
structure SameWorld (s t : State) : Prop where
  position : t.pos.position = s.pos.position
  track : t.trk.track = s.trk.track
  nextTag : t.trk.nextTag = s.trk.nextTag
  entry : t.trk.entry = s.trk.entry
  snapshot : t.trk.snapshot = s.trk.snapshot
  stn : t.stn = s.stn
  sources : t.vrd.sources = s.vrd.sources
  outputs : ∀ o : Fin 8, t.out.outputs[o].state = s.out.outputs[o].state
  zone : t.zon.zone = s.zon.zone
  firstCause : t.zon.firstCause = s.zon.firstCause
  estopN : t.zon.estopN.accepted = s.zon.estopN.accepted
  tch : t.tch = s.tch

namespace SameWorld

theorem refl (s : State) : SameWorld s s := ⟨rfl, rfl, rfl, rfl, rfl, rfl, rfl, fun _ => rfl, rfl, rfl, rfl, rfl⟩

theorem trans {s t u : State} (h : SameWorld s t) (k : SameWorld t u) : SameWorld s u where
  position := k.position.trans h.position
  track := k.track.trans h.track
  nextTag := k.nextTag.trans h.nextTag
  entry := k.entry.trans h.entry
  snapshot := k.snapshot.trans h.snapshot
  stn := k.stn.trans h.stn
  sources := k.sources.trans h.sources
  outputs o := (k.outputs o).trans (h.outputs o)
  zone := k.zone.trans h.zone
  firstCause := k.firstCause.trans h.firstCause
  estopN := k.estopN.trans h.estopN
  tch := k.tch.trans h.tch

end SameWorld

theorem modPos_world (f : PosUnit → PosUnit) (s : State) (h : (f s.pos).position = s.pos.position := by rfl) :
    SameWorld s (s.modPos f) := ⟨h, rfl, rfl, rfl, rfl, rfl, rfl, fun _ => rfl, rfl, rfl, rfl, rfl⟩

theorem pushReply_world (r : Reply) (s : State) : SameWorld s (pushReply r s) :=
  ⟨rfl, rfl, rfl, rfl, rfl, rfl, rfl, fun _ => rfl, rfl, rfl, rfl, rfl⟩

theorem modLnk_world (f : LnkUnit → LnkUnit) (s : State) : SameWorld s (s.modLnk f) :=
  ⟨rfl, rfl, rfl, rfl, rfl, rfl, rfl, fun _ => rfl, rfl, rfl, rfl, rfl⟩

theorem modInput_world (i : Fin 8) (f : Input → Input) (s : State) : SameWorld s (s.modInput i f) :=
  ⟨rfl, rfl, rfl, rfl, rfl, rfl, rfl, fun _ => rfl, rfl, rfl, rfl, rfl⟩

/-- A change of the lines, of the line settings or of a drive. -/
theorem modZon_world (f : ZonUnit → ZonUnit) (s : State) (zone : (f s.zon).zone = s.zon.zone := by rfl)
    (cause : (f s.zon).firstCause = s.zon.firstCause := by rfl)
    (estopN : (f s.zon).estopN.accepted = s.zon.estopN.accepted := by rfl) : SameWorld s (s.modZon f) :=
  ⟨rfl, rfl, rfl, rfl, rfl, rfl, rfl, fun _ => rfl, zone, cause, estopN, rfl⟩

/-- R113: the settings of an output change, its state does not. -/
theorem modOutput_world (o : Fin 8) (f : Output → Output) (s : State) (h : ∀ x, (f x).state = x.state) :
    SameWorld s (s.modOutput o f) where
  position := rfl
  track := rfl
  nextTag := rfl
  entry := rfl
  snapshot := rfl
  stn := rfl
  sources := rfl
  outputs k := by
    simp only [modOutput_out, Fin.getElem_fin, modAt_getElem]
    split
    · exact h _
    · rfl
  zone := rfl
  firstCause := rfl
  estopN := rfl
  tch := rfl

/-! ## The changes that the invariants look at -/

/-- One constructor for each kind of change, with what has been checked before it is made. -/
inductive Effect : State → State → Prop
  /-- Nothing, as in a refused or a read request. -/
  | none (s : State) : Effect s s
  /-- R55, R149: the dump snapshot is taken or emptied. -/
  | snapshot (s : State) (shot : Snapshot) (taken : shot.records = s.trk.track ∨ shot.records = []) :
    Effect s (s.modTrk fun t => { t with snapshot := shot })
  /-- R49. -/
  | remove (s : State) (g : Tag) (tracks : s.zon.zone.tracks = true) : Effect s (leave g .removed s)
  /-- R60. -/
  | load (s : State) (p : List Byte) (n k : Nat) (config : s.zon.zone = .config) : Effect s (loadFrom p n k s).state
  /-- R62, R77. -/
  | mode (s : State) (i : Fin 8) (m : StationMode) : Effect s (changeMode i m s)
  /-- R86. -/
  | source (s : State) (v : Fin 4) (r : SourceRec) (config : s.zon.zone = .config) :
    Effect s (s.modSource v fun src => { src with record := r })
  /-- R92 to R94. -/
  | verdict (s : State) (g : Tag) (v : Fin 4) (code : Fin 16) (tracks : s.zon.zone.tracks = true) :
    Effect s (fillVerdict g v code s)
  /-- R101 to R103. -/
  | classify (s : State) (it : Item) (cls : Fin 16) (found : s.findItem it.tag = some it)
    (undecided : it.decision = Option.none) (tracks : s.zon.zone.tracks = true) : Effect s (applyClassify it cls s)
  /-- R112. -/
  | pulse (s : State) (o : Fin 8) (len : BitVec 16) (config : s.zon.zone = .config) :
    Effect s (claimOutput o len .test s).1
  /-- R107: a pulse or its gap ends; an output that is OFF stays OFF. -/
  | outputEnd (s : State) (o : Fin 8) (f : Output → Output) (off : ∀ x, x.state = .off → (f x).state = .off) :
    Effect s (s.modOutput o f)
  /-- R121, form SYNC. -/
  | arm (s : State) (config : s.zon.zone = .config) : Effect s (enterZone .armed .request (abortTeach s))
  /-- R121, form LOCAL. -/
  | start (s : State) (still : s.zon.zone = .config ∨ s.zon.zone = .armed) :
    Effect s (trackingStart .request (abortTeach s))
  /-- R122. -/
  | syncStart (s : State) (armed : s.zon.zone = .armed) : Effect s (trackingStart .sync s)
  /-- R126. -/
  | hold (s : State) (cause : ZoneCause) (tracking : s.zon.zone = .tracking) : Effect s (enterZone .hold cause s)
  /-- R128. -/
  | resume (s : State) (stopped : s.zon.zone = .hold ∨ s.zon.zone = .fault) :
    Effect s (enterZone .tracking .request s)
  /-- R129, R132. -/
  | toConfig (s : State) (released : s.zon.zone ≠ .estop ∨ s.zon.estopN.accepted = true) : Effect s (flushToConfig s)
  /-- R131. -/
  | estop (s : State) : Effect s (enterEstop .request s)
  /-- R118, R130. -/
  | estopInput (s : State) : Effect s (acceptEstop s)
  /-- R154. -/
  | teach (s : State) (run : TeachRun) (config : s.zon.zone = .config) : Effect s (setTeach (.waitEntry run) s)
  /-- R159. -/
  | abort (s : State) : Effect s (abortTeach s)
  /-- R4 to R6. -/
  | count (s : State) (c : RawCount) : Effect s (applyCount c s)
  /-- R17 to R20. -/
  | edge (s : State) (i : Fin 8) (e : EdgeKind) : Effect s (deliverEdge i e s)
  /-- R152. -/
  | reset (s : State) (p : PinLevels) : Effect s (deviceReset p s)

/-- One effect, between two changes of nothing that the invariants look at. -/
def Change (s t : State) : Prop := ∃ u v, SameWorld s u ∧ Effect u v ∧ SameWorld v t

/-- A property of states that looks at nothing else and that every effect keeps is kept by a change. -/
theorem Change.keeps {P : State → Prop} (same : ∀ s t, SameWorld s t → P s → P t)
    (effect : ∀ s t, Effect s t → P s → P t) {s t : State} (h : Change s t) (hs : P s) : P t := by
  obtain ⟨u, v, before, made, after⟩ := h
  exact same _ _ after (effect _ _ made (same _ _ before hs))

theorem SameWorld.change {s t : State} (h : SameWorld s t) : Change s t := ⟨s, s, .refl s, .none s, h⟩

theorem Change.refl (s : State) : Change s s := (SameWorld.refl s).change

theorem Effect.change {s t : State} (h : Effect s t) : Change s t := ⟨s, t, .refl s, h, .refl t⟩

theorem Change.before {s t u : State} (h : SameWorld s t) (k : Change t u) : Change s u := by
  obtain ⟨a, b, first, made, last⟩ := k
  exact ⟨a, b, h.trans first, made, last⟩

theorem Change.after {s t u : State} (h : Change s t) (k : SameWorld t u) : Change s u := by
  obtain ⟨a, b, first, made, last⟩ := h
  exact ⟨a, b, first, made, last.trans k⟩

/-- An operation that acts only when its time has come. -/
theorem Change.ite {s t : State} (h : Change s t) (c : Prop) [Decidable c] : Change s (if c then t else s) := by
  split
  · exact h
  · exact .refl s

/-! ## Requests -/

/-- R141: a request is answered, whatever it has done. -/
theorem Change.answered {s t : State} {kind tag : Byte} {st : Status} {fields : List Byte} (h : Change s t) :
    Change s (answer kind tag st fields t) := h.after (pushReply_world _ t)

theorem Effect.answered {s t : State} {kind tag : Byte} {st : Status} {fields : List Byte} (h : Effect s t) :
    Change s (answer kind tag st fields t) := h.change.answered

theorem SameWorld.answered {s t : State} {kind tag : Byte} {st : Status} {fields : List Byte} (h : SameWorld s t) :
    Change s (answer kind tag st fields t) := h.change.answered

/-- A reply to a request that changes nothing. -/
theorem refusal (kind tag : Byte) (st : Status) (fields : List Byte) (s : State) :
    Change s (answer kind tag st fields s) := (SameWorld.refl s).answered

/-- A check that refuses the request; once it has passed, what else the request does. -/
theorem refusal_or {s t : State} {c : Prop} [Decidable c] {kind tag : Byte} {st : Status} {fields : List Byte}
    (h : ¬c → Change s t) : Change s (if c then answer kind tag st fields s else t) := by
  split
  · exact refusal ..
  · exact h ‹_›

/-- An operation that is one change. -/
def OneChange (f : State → State) : Prop := ∀ s, Change s (f s)

section Requests

variable (tag : Byte) (p : List Byte)

theorem reqIdentify_change : OneChange (reqIdentify tag p) := fun _ => refusal_or fun _ => refusal ..

theorem reqStatus_change : OneChange (reqStatus tag p) := fun s => by
  have cleared : SameWorld s (clearCounters s) := (modLnk_world _ s).trans (modPos_world _ _)
  refine refusal_or fun _ => ?_
  split
  · exact refusal ..
  · exact (cleared.change.ite _).answered

theorem reqReset_change : OneChange (reqReset tag p) := fun s =>
  refusal_or fun _ => ((modLnk_world _ s).trans (pushReply_world _ _)).change

theorem reqSetNotices_change : OneChange (reqSetNotices tag p) := fun s => by
  refine refusal_or fun _ => refusal_or fun _ => ?_
  split
  · exact refusal ..
  · exact (modLnk_world _ s).answered

theorem reqSetEncoder_change : OneChange (reqSetEncoder tag p) := fun s => by
  refine refusal_or fun _ => refusal_or fun _ => refusal_or fun _ => ?_
  split
  · exact refusal ..
  · rename_i u read
    have position : u.position = s.pos.position := by
      simp only [encoderOfPayload, Option.bind_eq_bind, Option.bind_eq_some_iff, Option.some.injEq] at read
      obtain ⟨_, _, _, _, _, _, _, _, rfl⟩ := read
      rfl
    exact (modPos_world _ s position).answered

theorem reqReadPosition_change : OneChange (reqReadPosition tag p) := fun _ => refusal_or fun _ => refusal ..

theorem reqSetInput_change : OneChange (reqSetInput tag p) := fun s => by
  refine refusal_or fun _ => refusal_or fun _ => refusal_or fun _ => ?_
  split
  · exact refusal ..
  · exact refusal_or fun _ => (modInput_world _ _ s).answered

theorem reqReadInput_change : OneChange (reqReadInput tag p) := fun s => by
  refine refusal_or fun _ => ?_
  split
  · exact refusal ..
  · exact refusal ..

theorem reqArmProbe_change : OneChange (reqArmProbe tag p) := fun s => by
  refine refusal_or fun _ => ?_
  split
  · exact refusal ..
  · exact (modInput_world _ _ s).answered

theorem reqDisarmProbe_change : OneChange (reqDisarmProbe tag p) := fun s => by
  refine refusal_or fun _ => ?_
  split
  · exact refusal ..
  · exact (modInput_world _ _ s).answered

theorem reqSetZone_change : OneChange (reqSetZone tag p) := fun s => by
  have set : ∀ z, SameWorld s (s.modTrk fun t => { t with params := z }) := fun _ =>
    ⟨rfl, rfl, rfl, rfl, rfl, rfl, rfl, fun _ => rfl, rfl, rfl, rfl, rfl⟩
  refine refusal_or fun _ => refusal_or fun _ => refusal_or fun _ => ?_
  split
  · exact refusal ..
  split
  · exact (set _).answered
  · exact refusal ..

theorem reqReadItem_change : OneChange (reqReadItem tag p) := fun s => by
  refine refusal_or fun _ => refusal_or fun _ => ?_
  split
  · exact refusal ..
  · exact refusal ..

theorem reqDumpTrack_change : OneChange (reqDumpTrack tag p) := fun s =>
  refusal_or fun _ => refusal_or fun _ =>
    ((Effect.snapshot s ⟨s.trk.track, s.here, s.now⟩ (.inl rfl)).change.after (modLnk_world _ _)).after
      (pushReply_world _ _)

theorem reqRemoveItem_change : OneChange (reqRemoveItem tag p) := fun s => by
  refine refusal_or fun _ => refusal_or fun tracks => refusal_or fun _ => ?_
  split
  · exact refusal ..
  · exact (Effect.remove s _ (by simpa using tracks)).answered

theorem reqLoadStations_change : OneChange (reqLoadStations tag p) := fun s =>
  refusal_or fun _ => refusal_or fun _ => refusal_or fun config =>
    (Effect.load s p _ _ (not_not.1 config)).answered

theorem reqSetStationMode_change : OneChange (reqSetStationMode tag p) := fun s => by
  refine refusal_or fun _ => ?_
  split
  · exact refusal ..
  · exact refusal_or fun _ => (Effect.mode s _ _).answered

theorem reqReadStation_change : OneChange (reqReadStation tag p) := fun s => by
  refine refusal_or fun _ => ?_
  split
  · exact refusal ..
  · exact refusal ..

theorem reqLoadClass_change : OneChange (reqLoadClass tag p) := fun s => by
  have set : ∀ i c, SameWorld s (s.modVrd fun u => { u with classes := modAt u.classes i fun _ => c }) := fun _ _ =>
    ⟨rfl, rfl, rfl, rfl, rfl, rfl, rfl, fun _ => rfl, rfl, rfl, rfl, rfl⟩
  refine refusal_or fun _ => refusal_or fun _ => ?_
  split
  · exact refusal ..
  · exact (set _ _).answered

theorem reqSetSource_change : OneChange (reqSetSource tag p) := fun s => by
  refine refusal_or fun _ => refusal_or fun _ => refusal_or fun config => ?_
  split
  · exact refusal ..
  split
  · exact (Effect.source s _ _ (not_not.1 config)).answered
  · exact refusal ..

theorem reqVerdict_change : OneChange (reqVerdict tag p) := fun s => by
  refine refusal_or fun _ => refusal_or fun tracks => ?_
  split
  · exact refusal ..
  · exact refusal ..
  refine refusal_or fun _ => refusal_or fun _ => ?_
  split
  · exact refusal ..
  split
  · exact refusal ..
  · exact refusal ..
  · exact (Effect.verdict s _ _ _ (by simpa using tracks)).answered

theorem reqClassify_change : OneChange (reqClassify tag p) := fun s => by
  refine refusal_or fun _ => refusal_or fun tracks => ?_
  split
  · exact refusal ..
  refine refusal_or fun _ => ?_
  split
  · exact refusal ..
  · rename_i it found
    obtain ⟨-, carries⟩ := findItem_some found
    exact refusal_or fun undecided =>
      (Effect.classify s it _ (carries ▸ found) (by simpa using undecided) (by simpa using tracks)).answered

theorem reqSetOutput_change : OneChange (reqSetOutput tag p) := fun s => by
  refine refusal_or fun _ => refusal_or fun _ => refusal_or fun _ => ?_
  split
  · exact refusal ..
  · rename_i o low collision gap _
    exact (modOutput_world o (fun x => { x with activeLow := low, collision := collision, gap := gap }) s
      fun _ => rfl).answered

theorem reqPulseOutput_change : OneChange (reqPulseOutput tag p) := fun s => by
  refine refusal_or fun _ => refusal_or fun config => ?_
  split
  · exact refusal ..
  · exact refusal_or fun _ => (Effect.pulse s _ _ (not_not.1 config)).answered

theorem reqReadOutputs_change : OneChange (reqReadOutputs tag p) := fun _ => refusal_or fun _ => refusal ..

theorem reqStart_change : OneChange (reqStart tag p) := fun s => by
  refine refusal_or fun _ => refusal_or fun allowed => refusal_or fun _ => refusal_or fun _ => ?_
  have states : s.zon.zone = .config ∨ (s.zon.zone = .armed ∧ byteAt p 0 ≠ 0) := by
    simpa [startAllowed, or_iff_not_imp_left] using allowed
  split
  · rename_i sync
    exact (Effect.arm s (states.resolve_right fun h => h.2 sync)).answered
  · exact (Effect.start s (states.imp_right And.left)).answered

theorem reqSyncPulse_change : OneChange (reqSyncPulse tag p) := fun s =>
  refusal_or fun _ => refusal_or fun _ => refusal_or fun _ => (modZon_world _ s).answered

theorem reqStopLine_change : OneChange (reqStopLine tag p) := fun s =>
  refusal_or fun _ => (modZon_world _ s).answered

theorem reqHold_change : OneChange (reqHold tag p) := fun s =>
  refusal_or fun _ => refusal_or fun tracking => (Effect.hold s _ (not_not.1 tracking)).answered

theorem reqResume_change : OneChange (reqResume tag p) := fun s =>
  refusal_or fun _ => refusal_or fun stopped => refusal_or fun _ =>
    (Effect.resume s (by simpa [or_iff_not_imp_left] using stopped)).answered

theorem reqStop_change : OneChange (reqStop tag p) := fun s => by
  refine refusal_or fun _ => ?_
  split
  · exact refusal ..
  · exact refusal ..
  all_goals exact (Effect.toConfig s (.inl (by simp [*]))).answered

theorem reqEstop_change : OneChange (reqEstop tag p) := fun s =>
  refusal_or fun _ => refusal_or fun _ => (Effect.estop s).answered

theorem reqClear_change : OneChange (reqClear tag p) := fun s =>
  refusal_or fun _ => refusal_or fun _ => refusal_or fun released =>
    (Effect.toConfig s (.inr (by simpa using released))).answered

theorem reqSetLine_change : OneChange (reqSetLine tag p) := fun s => by
  refine refusal_or fun _ => refusal_or fun _ => ?_
  split
  · exact refusal ..
  · rename_i z read
    have kept : z.zone = s.zon.zone ∧ z.firstCause = s.zon.firstCause ∧ z.estopN = s.zon.estopN := by
      simp only [lineOfPayload, Option.bind_eq_bind, Option.bind_eq_some_iff, Option.ite_none_right_eq_some,
        Option.some.injEq] at read
      obtain ⟨_, _, _, _, _, _, _, _, _, rfl⟩ := read
      exact ⟨rfl, rfl, rfl⟩
    obtain ⟨zone, cause, estopN⟩ := kept
    exact (modZon_world _ s zone cause (by rw [estopN])).answered

theorem reqTeach_change : OneChange (reqTeach tag p) := fun s => by
  refine refusal_or fun _ => refusal_or fun config => ?_
  split
  · exact refusal ..
  · exact refusal_or fun _ => refusal_or fun _ => (Effect.teach s _ (not_not.1 config)).answered

theorem reqTeachAbort_change : OneChange (reqTeachAbort tag p) := fun s =>
  refusal_or fun _ => refusal_or fun _ => (Effect.abort s).answered

theorem reqUnknown_change (kind : Byte) : OneChange (reqUnknown kind tag) := fun s => (pushReply_world _ s).change

end Requests

/-- R141: whatever request is taken, it is one change. -/
theorem takeRequest_change (kind tag : Byte) (p : List Byte) : OneChange (takeRequest kind tag p) := by
  unfold takeRequest
  split
  · exact reqIdentify_change tag p
  · exact reqStatus_change tag p
  · exact reqReset_change tag p
  · exact reqSetNotices_change tag p
  · exact reqSetEncoder_change tag p
  · exact reqReadPosition_change tag p
  · exact reqSetInput_change tag p
  · exact reqReadInput_change tag p
  · exact reqArmProbe_change tag p
  · exact reqDisarmProbe_change tag p
  · exact reqSetZone_change tag p
  · exact reqReadItem_change tag p
  · exact reqDumpTrack_change tag p
  · exact reqRemoveItem_change tag p
  · exact reqLoadStations_change tag p
  · exact reqSetStationMode_change tag p
  · exact reqReadStation_change tag p
  · exact reqLoadClass_change tag p
  · exact reqSetSource_change tag p
  · exact reqVerdict_change tag p
  · exact reqClassify_change tag p
  · exact reqSetOutput_change tag p
  · exact reqPulseOutput_change tag p
  · exact reqReadOutputs_change tag p
  · exact reqStart_change tag p
  · exact reqSyncPulse_change tag p
  · exact reqStopLine_change tag p
  · exact reqHold_change tag p
  · exact reqResume_change tag p
  · exact reqStop_change tag p
  · exact reqEstop_change tag p
  · exact reqClear_change tag p
  · exact reqSetLine_change tag p
  · exact reqTeach_change tag p
  · exact reqTeachAbort_change tag p
  · exact reqUnknown_change tag _

theorem takeFrame_change {f : State → State} (hf : OneChange f) : OneChange (takeFrame f) := fun s => by
  rcases takeFrame_cases f s with ⟨-, taken⟩ | ignored | counted
  · rw [taken]
    exact hf s
  · rw [ignored]
    exact .refl s
  · rw [counted]
    exact (modLnk_world _ s).change

/-! ## Events -/

theorem receiveByte_change (b : Byte) (good : Bool) : OneChange (receiveByte b good) := fun s => by
  have received : ∀ f : LnkUnit → LnkUnit, Change s (s.modLnk f) := fun f => (modLnk_world f s).change
  have complete : ∀ len got, Change s (frameComplete len got s) := fun len got => by
    unfold frameComplete
    split
    · exact received _
    split
    · exact .before (modLnk_world _ s) (takeFrame_change (takeRequest_change _ _ _) _)
    · exact received _
  unfold receiveByte
  split
  · exact received _
  · exact (received _).ite _
  · unfold headerByte
    split
    · exact received _
    · exact received _
  · unfold bodyByte
    split
    · exact received _
    split
    · exact complete _ _
    · exact received _

theorem sendNotice_world (completed limit : Nat) (s : State) : SameWorld s (sendNotice completed limit s) := by
  unfold sendNotice
  split
  · exact modLnk_world _ s
  · exact (modLnk_world _ s).trans (modLnk_world _ _)

theorem sendDump_world (completed limit : Nat) (s : State) : SameWorld s (sendDump completed limit s) := by
  unfold sendDump
  split
  · exact modLnk_world _ s
  · exact modLnk_world _ s

theorem grantNotice_world (s : State) : SameWorld s (grantNotice s) := by
  unfold grantNotice
  split
  · exact sendNotice_world _ _ s
  · exact (modLnk_world _ s).trans (modLnk_world _ _)

theorem grant_change : OneChange grant := fun s => by
  unfold grant
  split
  · exact ((modLnk_world _ s).trans (modLnk_world _ _)).change
  split
  · exact (grantNotice_world s).change
  · exact (sendDump_world _ _ s).change.ite _

/-- R149: the end of a dump empties the snapshot. -/
theorem completeFrame_change (mark : FrameMark) : OneChange (completeFrame mark) := fun s => by
  cases mark with
  | plain | resetReply => exact .refl s
  | dumpReply =>
    exact (modLnk_world (fun l => { l with dump := l.dump.map fun d => { d with ready := true } }) s).change
  | dumpItem =>
    exact (modLnk_world (fun l => { l with dump := l.dump.map fun d => { d with next := d.next + 1 } }) s).change
  | dumpEnd => exact .before (modLnk_world _ s) (Effect.snapshot _ ⟨[], 0, 0⟩ (.inr rfl)).change

theorem continueBurst_world (b : Burst) (s : State) : SameWorld s (continueBurst b s) := by
  unfold continueBurst
  dsimp only
  split
  · exact modLnk_world _ s
  split
  · exact modLnk_world _ s
  · exact sendNotice_world _ _ s
  · exact sendDump_world _ _ s

theorem acceptEncoder_change (a b : Bool) : OneChange (acceptEncoder a b) := fun s => by
  unfold acceptEncoder
  dsimp only
  split
  · exact .before ((modPos_world _ s).trans (modPos_world _ _)) (Effect.count _ _).change
  · exact (modPos_world _ s).change

theorem acceptInput_change (i : Fin 8) : OneChange (acceptInput i) := fun s => by
  unfold acceptInput
  dsimp only
  split
  · exact (modInput_world _ _ s).change
  · exact .before (modInput_world _ _ s) (Effect.edge _ _ _).change

theorem acceptSync_change : OneChange acceptSync := fun s => by
  have accepted := modZon_world (fun z => { z with sync := { z.sync with accepted := s.zon.syncRaw, wait := none } }) s
  unfold acceptSync
  dsimp only
  split
  · refine .before accepted ?_
    unfold syncFall
    split
    · rename_i fall
      obtain ⟨armed, -⟩ := Bool.and_eq_true_iff.1 fall
      exact (Effect.syncStart _ (of_decide_eq_true armed)).change
    · exact .refl _
  · exact accepted.change

theorem acceptLineStop_change : OneChange acceptLineStop := fun s => by
  have accepted := modZon_world
    (fun z => { z with lineStop := { z.lineStop with accepted := s.zon.lineStopRaw, wait := none } }) s
  unfold acceptLineStop
  dsimp only
  split
  · refine .before accepted ?_
    unfold lineStopFall
    split
    · rename_i fall
      obtain ⟨tracking, -⟩ := Bool.and_eq_true_iff.1 fall
      exact (Effect.hold _ _ (of_decide_eq_true tracking)).change
    · exact .refl _
  · exact accepted.change

theorem endOn_off (now : Time) (x : Output) (h : x.state = .off) : (x.endOn now).state = .off := by
  simp only [Output.endOn, h]

theorem endRecover_off (now : Time) (x : Output) (h : x.state = .off) : (x.endRecover now).state = .off := by
  simp only [Output.endRecover, h]

/-- A command that answers with a state that one change leads to. -/
def Answers (s : State) (a : Answer) : Prop := ∃ t, a = .next t ∧ Change s t

theorem Change.answers {s t : State} (h : Change s t) : Answers s (.next t) := ⟨t, rfl, h⟩

theorem execGapTimerExpiry_answers (s : State) : Answers s (execGapTimerExpiry s) := by
  have discard : ∀ since, Answers s (.next (gapExpiry since s)) := fun _ => ((modLnk_world _ s).change.ite _).answers
  unfold execGapTimerExpiry
  split
  · exact (Change.refl s).answers
  · exact (Change.refl s).answers
  · exact discard _
  · exact discard _

theorem execSettlingIdleExpiry_answers (s : State) : Answers s (execSettlingIdleExpiry s) := by
  unfold execSettlingIdleExpiry
  split
  · exact ((modLnk_world _ s).change.ite _).answers
  all_goals exact (Change.refl s).answers

theorem execArbiterGrant_answers (s : State) : Answers s (execArbiterGrant s) := by
  unfold execArbiterGrant
  split
  · exact (grant_change s).answers
  · exact (Change.refl s).answers

theorem execFrameSent_answers (straps : Straps) (s : State) : Answers s (execFrameSent straps s) := by
  unfold execFrameSent
  split
  · exact (Change.refl s).answers
  refine Change.answers ?_
  split
  · exact (Effect.reset s _).change
  · exact (completeFrame_change _ s).after (continueBurst_world _ _)

theorem execLineInputAcceptance_answers (line : LinePin) (s : State) : Answers s (execLineInputAcceptance line s) := by
  cases line with
  | sync => exact ((acceptSync_change s).ite _).answers
  | lineStop => exact ((acceptLineStop_change s).ite _).answers
  | estop => exact ((Effect.estopInput s).change.ite _).answers

/-- Every command is one change. -/
theorem exec_answers (c : Instr) (s : State) : Answers s (exec c s) := by
  cases request : requestOf c with
  | some r =>
    rw [Configuration.exec_request request]
    exact (takeFrame_change (takeRequest_change _ _ _) s).answers
  | none =>
    cases c with
    | receiveByte b good => exact (receiveByte_change b good s).answers
    | gapTimerExpiry => exact execGapTimerExpiry_answers s
    | settlingIdleExpiry => exact execSettlingIdleExpiry_answers s
    | arbiterGrant => exact execArbiterGrant_answers s
    | frameSent straps => exact execFrameSent_answers straps s
    | nrst pins | powerUp pins => exact (Effect.reset s pins).change.answers
    | encoderAcceptance a b => exact ((acceptEncoder_change _ _ s).ite _).answers
    | inputAcceptance i => exact ((acceptInput_change i s).ite _).answers
    | lineInputAcceptance line => exact execLineInputAcceptance_answers line s
    | outputOnEnd o => exact (Effect.outputEnd s o _ (endOn_off _)).change.answers
    | outputRecoverEnd o => exact (Effect.outputEnd s o _ (endRecover_off _)).change.answers
    | syncDriveEnd => exact ((modZon_world _ s).change.ite _).answers
    | lineStopDriveEnd => exact ((modZon_world _ s).change.ite _).answers
    | encoderRawChange chan level =>
      cases chan with
      | a | b => exact (modPos_world _ s).change.answers
    | inputRawChange i level => exact (modInput_world i _ s).change.answers
    | lineRawChange line level =>
      cases line with
      | sync | lineStop | estop => exact (modZon_world _ s).change.answers
    | timeBaseTick => exact (modPos_world _ s).change.answers
    | _ => cases request

/-- All that a step can do. -/
theorem step_change {s t : State} (h : step s = .next t) : Change s t := by
  have popped : ∀ rest, SameWorld s { s with pending := rest } := fun _ =>
    ⟨rfl, rfl, rfl, rfl, rfl, rfl, rfl, fun _ => rfl, rfl, rfl, rfl, rfl⟩
  unfold step at h
  split at h
  · cases h
    exact .refl s
  · rename_i c rest _
    obtain ⟨u, ran, change⟩ := exec_answers c { s with pending := rest }
    rw [ran] at h
    cases h
    exact .before (popped rest) change

/-! ## The receivers of an edge, one after another (R17, R19, R20) -/

/-- The receivers there are. -/
def allReceivers : List EdgeReceiver :=
  [.probe, .entryUnit, .teachEntry, .teachTarget] ++ (List.finRange 8).map .station ++ (List.finRange 4).map .source

theorem mem_allReceivers (r : EdgeReceiver) : r ∈ allReceivers := by
  cases r <;> simp [allReceivers]

/-- What is true of the state before an edge, of whatever choice of order, and what each receiver passes on from one
state to the next, is true after at most 16 receivers. -/
theorem deliverEdge_counted {P : Nat → State → Prop} {s : State} {i : Fin 8} {e : EdgeKind}
    (choice : ∀ k t n, P k t → P k { t with choice := n })
    (receive : ∀ r, Sensing.ActsOn s i e r → ∀ k t, P k t → P (k + 1) (receiveEdge i e r t)) (hs : P 0 s) :
    ∃ k ≤ 16, P k (deliverEdge i e s) := by
  obtain ⟨order, once, acts, -, delivered⟩ := Sensing.deliverEdge_order s i e
  have few : order.length ≤ 16 := by
    have := (once.subperm fun r _ => mem_allReceivers r).length_le
    simpa [allReceivers] using this
  have passed : ∀ (l : List (EdgeReceiver × Nat)) (k : Nat) (t : State),
      (∀ r ∈ l.map Prod.fst, Sensing.ActsOn s i e r) → P k t →
        P (k + l.length) (l.foldl (fun t r => receiveEdge i e r.1 { t with choice := r.2 }) t) := by
    intro l
    induction l with
    | nil => exact fun k t _ h => h
    | cons r l ih =>
      intro k t hl h
      rw [List.length_cons, Nat.add_comm l.length, ← Nat.add_assoc]
      exact ih (k + 1) _ (fun x hx => hl x (List.mem_cons_of_mem _ hx))
        (receive r.1 (hl r.1 List.mem_cons_self) k _ (choice k t r.2 h))
  refine ⟨order.length, few, ?_⟩
  rw [delivered]
  simpa using passed order 0 s (fun r hr => (acts r).1 hr) hs

theorem deliverEdge_keeps {P : State → Prop} {s : State} {i : Fin 8} {e : EdgeKind}
    (choice : ∀ t n, P t → P { t with choice := n })
    (receive : ∀ r, Sensing.ActsOn s i e r → ∀ t, P t → P (receiveEdge i e r t)) (hs : P s) :
    P (deliverEdge i e s) := by
  obtain ⟨-, -, h⟩ := deliverEdge_counted (P := fun _ => P) (fun _ => choice) (fun r hr _ => receive r hr) hs
  exact h

end Sys2Proof.Effects
end

section
/-! SUPPORT and CERTIFICATES. The invariant of the zone: what keeps it, unit by unit, then every effect of a step. -/

namespace Sys2Proof.ZoneLaws

open Sys2Proof.Machine Sys2Proof.Safety Sys2Proof.Laws Sys2Proof.Effects

/-! ## What keeps the invariant -/

theorem SameWorld.zoneInv {s t : State} (h : SameWorld s t) (hs : ZoneInv s) : ZoneInv t := by
  unfold ZoneInv at *
  rw [h.zone, h.estopN, h.firstCause, h.track, h.entry, h.tch]
  simpa only [h.outputs] using hs

/-- A change of other units than the zone, the track, the outputs and the teach. -/
theorem zoneInv_of_units {s t : State} (hs : ZoneInv s) (zon : t.zon = s.zon := by rfl) (trk : t.trk = s.trk := by rfl)
    (out : t.out = s.out := by rfl) (tch : t.tch = s.tch := by rfl) : ZoneInv t := by
  unfold ZoneInv
  rw [zon, trk, out, tch]
  exact hs

/-- Work on items, with what it may do to a running teach. Only a fire claim changes outputs, and there is none in
ESTOP. -/
theorem zoneInv_of_event {s t : State} (w : EventWork s t) (out : s.zon.zone = .estop → t.out = s.out)
    (hs : ZoneInv s) : ZoneInv t := by
  obtain ⟨asserted, cut, empty, teach, fault⟩ := hs
  have accepted : t.zon.estopN = s.zon.estopN := by rw [w.work.zon]
  have zone : t.zon.zone = s.zon.zone ∨ ((s.zon.zone = .tracking ∨ s.zon.zone = .hold) ∧ t.zon.zone = .fault) :=
    w.work.zone
  have same : t.zon.zone ≠ .fault → t.zon.zone = s.zon.zone := fun h => zone.resolve_right fun k => h k.2
  refine ⟨fun low => ?_, fun estop => ?_, fun still => ?_, fun running => ?_, w.work.fault fault⟩
  · have estop := asserted (accepted ▸ low)
    rcases zone with zone | ⟨tracking | hold, -⟩
    · rw [zone, estop]
    · rw [estop] at tracking
      cases tracking
    · rw [estop] at hold
      cases hold
  · have before : s.zon.zone = .estop := (same (by simp [estop])) ▸ estop
    obtain ⟨off, idle⟩ := cut before
    exact ⟨fun o => by rw [out before]; exact off o, fun tag lead h => idle tag lead (w.work.entry tag lead h)⟩
  · have before : s.zon.zone = .config ∨ s.zon.zone = .armed := by
      rw [← same (by rcases still with h | h <;> simp [h])]
      exact still
    have none : tags t = [] := List.eq_nil_iff_forall_not_mem.2 fun tag h => by
      have := w.work.tagsSub tag h
      simp [tags, empty before] at this
    simpa [tags] using none
  · have before : s.zon.zone = .config := by
      refine teach fun idle => running ?_
      refine (Sensing.teachState_run_none _).1 (Option.eq_none_iff_forall_ne_some.2 fun run h => ?_)
      obtain ⟨run', h', -⟩ := w.teach run h
      simp [idle, TeachState.run] at h'
    rcases zone with zone | ⟨tracking | hold, -⟩
    · rw [zone, before]
    · rw [before] at tracking
      cases tracking
    · rw [before] at hold
      cases hold

theorem not_estop_of_tracks {s : State} (h : s.zon.zone.tracks = true) : s.zon.zone ≠ .estop := by
  intro estop
  simp [estop, ZoneState.tracks] at h

theorem zoneInv_of_tracks {s t : State} (tracks : s.zon.zone.tracks = true) (w : EventWork s t) (hs : ZoneInv s) :
    ZoneInv t := zoneInv_of_event w (fun estop => absurd estop (not_estop_of_tracks tracks)) hs

theorem offer_zoneInv (n : Notice) {s : State} (hs : ZoneInv s) : ZoneInv (offer n s) :=
  zoneInv_of_units hs (by simp) (by simp) (by simp) (by simp)

/-- R33: the Entry Unit leaves an item, or measures none. -/
theorem setEntry_zoneInv (e : EntryUnit) {s : State} (he : ∀ tag lead, e ≠ .measuring tag lead) (hs : ZoneInv s) :
    ZoneInv (setEntry e s) := by
  obtain ⟨asserted, cut, empty, teach, fault⟩ := hs
  exact ⟨asserted, fun estop => ⟨(cut estop).1, he⟩, empty, teach, fault⟩

/-- While items are tracked the track and the Entry Unit are free to change. -/
theorem modTrk_zoneInv (f : TrkUnit → TrkUnit) {s : State} (tracks : s.zon.zone.tracks = true) (hs : ZoneInv s) :
    ZoneInv (s.modTrk f) := by
  obtain ⟨asserted, cut, empty, teach, fault⟩ := hs
  refine ⟨asserted, fun estop => absurd estop (not_estop_of_tracks tracks), fun still => ?_, teach, fault⟩
  rw [modTrk_zon] at still
  rcases still with zone | zone <;> simp [zone, ZoneState.tracks] at tracks

theorem abortTeach_units (s : State) :
    (abortTeach s).zon = s.zon ∧ (abortTeach s).trk = s.trk ∧ (abortTeach s).out = s.out := by
  unfold abortTeach
  split
  · exact ⟨rfl, rfl, rfl⟩
  · simp [endTeach, setTeach]

theorem abortTeach_zoneInv {s : State} (hs : ZoneInv s) : ZoneInv (abortTeach s) := by
  obtain ⟨-, -, out⟩ := abortTeach_units s
  exact zoneInv_of_event (abortTeach_event s) (fun _ => out) hs

/-! ## Changes of zone state -/

theorem entryByLevel_idle (s : State) (tag : Tag) (lead : Pos) : entryByLevel s ≠ .measuring tag lead := by
  unfold entryByLevel
  split <;> simp

/-- R130: outside ESTOP the E-STOP input is released. -/
theorem released_of_zoneInv {s : State} (hs : ZoneInv s) (h : s.zon.zone ≠ .estop) : s.zon.estopN.accepted = true := by
  obtain ⟨asserted, -⟩ := hs
  by_contra low
  exact h (asserted (by simpa using low))

/-- R153: outside CONFIG no teach runs. -/
theorem idle_of_zoneInv {s : State} (hs : ZoneInv s) (h : s.zon.zone ≠ .config) : s.tch.state = .idle := by
  obtain ⟨-, -, -, teach, -⟩ := hs
  by_contra running
  exact h (teach running)

/-- R116: a change to TRACKING or HOLD, with no teach running. -/
theorem enterZone_zoneInv {z : ZoneState} (c : ZoneCause) {s : State} (hz : z = .tracking ∨ z = .hold)
    (released : s.zon.estopN.accepted = true) (idle : s.tch.state = .idle) : ZoneInv (enterZone z c s) := by
  have zone : (enterZone z c s).zon.zone = z := by simp
  have tch : (enterZone z c s).tch = s.tch := by simp [enterZone]
  refine ⟨fun low => ?_, fun estop => ?_, fun still => ?_, fun running => ?_, fun fault => ?_⟩
  · simp [released] at low
  · rcases hz with rfl | rfl <;> simp at estop
  · rcases hz with rfl | rfl <;> simp at still
  · exact absurd (tch ▸ idle) running
  · rcases hz with rfl | rfl <;> simp at fault

/-- R121: ARMED is entered with no item in the track. -/
theorem arm_zoneInv {s : State} (config : s.zon.zone = .config) (hs : ZoneInv s) :
    ZoneInv (enterZone .armed .request (abortTeach s)) := by
  have released := released_of_zoneInv hs (by simp [config])
  obtain ⟨-, -, empty, -⟩ := hs
  obtain ⟨zon, trk, -⟩ := abortTeach_units s
  have idle : (enterZone .armed .request (abortTeach s)).tch.state = .idle := by
    simpa [enterZone] using abortTeach_idle s
  refine ⟨fun low => ?_, fun estop => ?_, fun _ => ?_, fun running => absurd idle running, fun fault => ?_⟩
  · simp [zon, released] at low
  · simp at estop
  · rw [enterZone_trk, trk]
    exact empty (.inl config)
  · simp at fault

/-- R123. -/
theorem trackingStart_zoneInv (c : ZoneCause) {s : State} (released : s.zon.estopN.accepted = true)
    (idle : s.tch.state = .idle) : ZoneInv (trackingStart c s) :=
  enterZone_zoneInv c (.inl rfl) released idle

/-- R131: every entry to ESTOP, from whatever state. -/
theorem enterEstop_zoneInv (c : ZoneCause) (s : State) : ZoneInv (enterEstop c s) := by
  obtain ⟨zon, out, trk, idle, -⟩ := enterEstop_spec c s
  have zone : (enterEstop c s).zon.zone = .estop := by rw [zon]
  refine ⟨fun _ => zone, fun _ => ⟨fun o => ?_, fun tag lead => ?_⟩, fun still => ?_,
    fun running => absurd idle running, fun fault => ?_⟩
  · simp [out]
  · rw [trk]
    exact entryByLevel_idle s tag lead
  · simp [zone] at still
  · simp [zone] at fault

/-- R118, R130. -/
theorem acceptEstop_zoneInv {s : State} (hs : ZoneInv s) : ZoneInv (acceptEstop s) := by
  obtain ⟨-, cut, empty, teach, fault⟩ := hs
  unfold acceptEstop
  dsimp only
  split
  · rename_i high
    exact ⟨fun low => absurd high (Bool.eq_false_iff.1 low), cut, empty, teach, fault⟩
  · unfold estopAssert
    split
    · exact ⟨fun _ => ‹_›, cut, empty, teach, fault⟩
    · exact enterEstop_zoneInv _ _

/-- R51, R129, R132. -/
theorem flushToConfig_zoneInv {s : State} (released : s.zon.estopN.accepted = true) : ZoneInv (flushToConfig s) := by
  obtain ⟨empty, zon, -⟩ := flushToConfig_spec s
  have zone : (flushToConfig s).zon.zone = .config := by rw [zon]
  have accepted : (flushToConfig s).zon.estopN.accepted = true := by
    have same : (flush s).zon.estopN = s.zon.estopN := by rw [(flush_work s).zon]
    simpa [zon, same] using released
  refine ⟨fun low => ?_, fun estop => ?_, fun _ => empty, fun _ => zone, fun fault => ?_⟩
  · simp [accepted] at low
  · simp [zone] at estop
  · simp [zone] at fault

/-- R152. -/
theorem atReset_zoneInv (p : PinLevels) : ZoneInv (State.atReset p) := by
  refine ⟨fun low => ?_, fun _ => ⟨fun o => ?_, nofun⟩, fun _ => rfl, fun running => absurd rfl running,
    fun fault => ?_⟩
  · have low : p.estopN = false := low
    simp [State.atReset, zoneAtReset, low]
  · simp [State.atReset]
  · cases h : p.estopN <;> simp [State.atReset, zoneAtReset, h] at fault

/-! ## Edges (R17 to R20) -/

theorem createItem_zoneInv {s : State} (tracks : s.zon.zone.tracks = true) (hs : ZoneInv s) :
    ZoneInv (createItem s) := by
  have entered : ZoneInv (enteredState s) := offer_zoneInv _ (modTrk_zoneInv _ tracks hs)
  have zone : (enteredState s).zon.zone.tracks = true := by simpa [enteredState] using tracks
  rw [createItem_def]
  refine zoneInv_of_units (s := if _ then _ else _) ?_
  split
  · exact zoneInv_of_tracks zone (decideItem_work _ _ _).event entered
  · exact entered

theorem entryLeading_zoneInv {s : State} (hs : ZoneInv s) : ZoneInv (entryLeading s) := by
  have untracked : ZoneInv (setEntry .untracked s) := setEntry_zoneInv _ nofun hs
  have attempt : s.zon.zone.tracks = true → ZoneInv (entryAttempt s) := fun tracks => by
    unfold entryAttempt
    split
    · exact zoneInv_of_tracks (s := setEntry .untracked s) tracks (faultCause_work _ _).event untracked
    split
    · exact createItem_zoneInv tracks hs
    split
    · exact createItem_zoneInv tracks hs
    · exact offer_zoneInv _ untracked
  unfold entryLeading
  split
  · rename_i tracks
    split
    · exact attempt tracks
    · exact attempt tracks
    · exact hs
  · exact untracked

/-- R39: the length an item has been measured at. -/
theorem measure_work (g : Tag) (len : Dist) (s : State) :
    ItemWork s (s.modItem g fun it => { it with length := some len }) :=
  modItem_work' g (fun it => { it with length := some len }) s (fun _ => rfl) (fun _ => rfl)
    fun _ => ⟨rfl, rfl, fun _ h => h, FlagsKept.refl _⟩

theorem leave_out (g : Tag) (r : ExitReason) (s : State) : (leave g r s).out = s.out := by
  unfold leave
  split
  · rfl
  · simp [takeOut]

theorem entryTrailing_zoneInv {s : State} (hs : ZoneInv s) : ZoneInv (entryTrailing s) := by
  have clear : ZoneInv (setEntry .clear s) := setEntry_zoneInv _ nofun hs
  unfold entryTrailing
  split
  · exact hs
  · exact clear
  rename_i tag lead _
  dsimp only
  have measured : ∀ len : Dist, ZoneInv ((setEntry .clear s).modItem tag fun it => { it with length := some len }) :=
    fun len => zoneInv_of_event (measure_work tag len _).event (fun _ => rfl) clear
  split
  · exact zoneInv_of_event (leave_work _ _ _).event (fun _ => leave_out _ _ _) (measured _)
  · exact measured _

theorem teachEntryEdge_zoneInv {s : State} (hs : ZoneInv s) : ZoneInv (teachEntryEdge s) := by
  refine zoneInv_of_event (teachEntryEdge_event s) (fun _ => ?_) hs
  unfold teachEntryEdge
  split <;> simp [setTeach]

theorem endTeach_zoneInv (run : TeachRun) (r : TeachResult) (stats : Option TeachStats) (a : Bool) (v : Option Status)
    {s : State} (hs : ZoneInv s) : ZoneInv (endTeach run r stats a v s) :=
  zoneInv_of_event (endTeach_event run r stats a v s) (fun _ => by simp [endTeach, setTeach]) hs

theorem finishTeach_zoneInv (run : TeachRun) {s : State} (hs : ZoneInv s) : ZoneInv (finishTeach run s) := by
  unfold finishTeach
  split
  · exact hs
  split
  · exact endTeach_zoneInv _ _ _ _ _ hs
  split
  · unfold applyTeach
    dsimp only
    split
    · exact endTeach_zoneInv _ _ _ _ _ hs
    split
    · exact endTeach_zoneInv _ _ _ _ _ hs
    · exact endTeach_zoneInv _ _ _ _ _ (zoneInv_of_units hs)
  · exact endTeach_zoneInv _ _ _ _ _ hs

theorem teachTargetEdge_zoneInv {s : State} (hs : ZoneInv s) : ZoneInv (teachTargetEdge s) := by
  unfold teachTargetEdge
  split
  · exact hs
  · exact hs
  · rename_i run start span waiting
    have sampled : ∀ n r, ZoneInv (offer n (setTeach (.waitEntry r) s)) := fun n r => by
      obtain ⟨asserted, cut, empty, teach, fault⟩ := hs
      exact offer_zoneInv n ⟨asserted, cut, empty, fun _ => teach (by simp [waiting]), fault⟩
    dsimp only
    split
    · exact finishTeach_zoneInv _ (sampled _ _)
    · exact sampled _ _

theorem checkEdge_zoneInv (k : Fin 8) {s : State} (hs : ZoneInv s) : ZoneInv (checkEdge k s) := by
  by_cases tracks : Tracks s
  · exact zoneInv_of_tracks ((Position.tracks_iff s).2 tracks) (checkEdge_work k s).event hs
  · rw [Sensing.checkEdge_ignored (.inl tracks)]
    exact hs

theorem lineEdge_zoneInv (v : Fin 4) {s : State} (hs : ZoneInv s) : ZoneInv (lineEdge v s) := by
  by_cases tracks : Tracks s
  · exact zoneInv_of_tracks ((Position.tracks_iff s).2 tracks) (lineEdge_work v s).event hs
  · rw [Sensing.lineEdge_ignored tracks]
    exact hs

theorem receiveEdge_zoneInv (i : Fin 8) (e : EdgeKind) (r : EdgeReceiver) {s : State} (hs : ZoneInv s) :
    ZoneInv (receiveEdge i e r s) := by
  cases r with
  | probe => exact offer_zoneInv _ (zoneInv_of_units hs)
  | entryUnit =>
    cases e with
    | leading => exact entryLeading_zoneInv hs
    | trailing => exact entryTrailing_zoneInv hs
  | teachEntry => exact teachEntryEdge_zoneInv hs
  | teachTarget => exact teachTargetEdge_zoneInv hs
  | station k => exact checkEdge_zoneInv k hs
  | source v => exact lineEdge_zoneInv v hs

theorem deliverEdge_zoneInv (i : Fin 8) (e : EdgeKind) {s : State} (hs : ZoneInv s) : ZoneInv (deliverEdge i e s) :=
  deliverEdge_keeps (fun _ _ ht => zoneInv_of_units ht) (fun r _ _ ht => receiveEdge_zoneInv i e r ht) hs

/-! ## Counts (R4 to R10) -/

theorem modPos_zoneInv (f : PosUnit → PosUnit) {s : State} (hs : ZoneInv s) : ZoneInv (s.modPos f) :=
  zoneInv_of_units hs

/-- R8, R65: in ESTOP a count reaches nothing. -/
theorem forwardCount_zoneInv {s : State} (hs : ZoneInv s) : ZoneInv (forwardCount s) := by
  have moved := modPos_zoneInv PosUnit.forward hs
  refine zoneInv_of_event (forwardCount_event s) (fun estop => ?_) moved
  unfold forwardCount
  dsimp only
  rw [Position.settleReaches_none _ (Position.reached_estop moved estop)]

theorem applyCount_zoneInv (c : RawCount) {s : State} (hs : ZoneInv s) : ZoneInv (applyCount c s) := by
  cases c with
  | zero => exact hs
  | up => exact forwardCount_zoneInv hs
  | down => exact zoneInv_of_event (backwardCount_event s) (fun _ => Position.backwardCount_out s) (modPos_zoneInv _ hs)
  | error => exact zoneInv_of_event (encoderError_event s) (fun _ => Position.encoderError_out s) (modPos_zoneInv _ hs)

/-! ## Requests for stations and items -/

/-- R60: loading changes the station table and nothing else. -/
theorem loadFrom_units (p : List Byte) (n k : Nat) (s : State) :
    ∃ stn, (loadFrom p n k s).state = { s with stn := stn } := by
  induction n generalizing k s with
  | zero => exact ⟨s.stn, rfl⟩
  | succ n ih =>
    unfold loadFrom
    split
    · exact ⟨s.stn, rfl⟩
    split
    · exact ih _ (installStation _ _ s)
    · exact ⟨s.stn, rfl⟩

/-- R77: windows close only while items are tracked. -/
theorem changeMode_zoneInv (i : Fin 8) (m : StationMode) {s : State} (hs : ZoneInv s) : ZoneInv (changeMode i m s) := by
  unfold changeMode
  dsimp only
  have set : ZoneInv (s.modStation i fun st => { st with record := { st.record with mode := m } }) :=
    zoneInv_of_units hs
  split
  · rename_i closes
    obtain ⟨-, tracks⟩ := Bool.and_eq_true_iff.1 closes
    exact zoneInv_of_tracks (s := s.modStation i _) tracks (disableClose_work i _).event set
  · exact set

theorem tags_modItem_const {g : Tag} {jt : Item} (h : jt.tag = g) (s : State) :
    tags (s.modItem g fun _ => jt) = tags s := by
  unfold tags
  simp only [modItem_trk, List.map_map]
  refine List.map_congr_left fun x _ => ?_
  simp only [Function.comp]
  split
  · simp [*]
  · rfl

/-- An item of the track is given another record, which keeps its tag, its exit reason and its history. -/
theorem replace_work {s : State} {it jt : Item} (hm : it ∈ s.trk.track) (kept : Kept it jt) (exit : jt.exit = it.exit) :
    ItemWork s (s.modItem it.tag fun _ => jt) where
  pos := rfl
  inp := rfl
  tch := rfl
  pending := rfl
  classes := rfl
  params := rfl
  snapshot := rfl
  nextTag := rfl
  stationRecords _ := rfl
  sourceRecords _ := rfl
  lnk := rfl
  notices h := h
  zon := rfl
  zone := .inl rfl
  fault h := h
  tagsSub := by rw [tags_modItem_const kept.1]; exact fun _ h => h
  entry _ _ h := h
  itemsOk h := by
    obtain ⟨few, nodup, each, next⟩ := h
    refine ⟨by simpa using few, by rwa [tags_modItem_const kept.1], fun y hy => ?_, next⟩
    simp only [modItem_trk, List.mem_map] at hy
    obtain ⟨x, hx, rfl⟩ := hy
    split
    · rw [kept.1, exit]
      exact each it hm
    · exact each x hx
  refsOk _ h := by
    unfold RefsOk at *
    rw [tags_modItem_const kept.1]
    exact h
  items hi y hy := by
    simp only [modItem_trk, List.mem_map] at hy
    obtain ⟨x, hx, rfl⟩ := hy
    split
    · exact ⟨it, hm, kept⟩
    · exact ⟨x, hx, Kept.refl x⟩

/-- R101: the windows of sources that a class does not require go. -/
theorem dropWindows_work (g : Tag) (c : ClassRec) (s : State) : ItemWork s (dropWindows g c s) where
  pos := rfl
  inp := rfl
  tch := rfl
  pending := rfl
  classes := rfl
  params := rfl
  snapshot := rfl
  nextTag := rfl
  stationRecords _ := rfl
  sourceRecords v := by
    simp only [dropWindows, modVrd_vrd, Fin.getElem_fin, mapAll_getElem]
    split <;> rfl
  lnk := rfl
  notices h := h
  zon := rfl
  zone := .inl rfl
  fault h := h
  tagsSub _ h := h
  entry _ _ h := h
  itemsOk h := h
  refsOk _ h := by
    obtain ⟨entry, cursors, openings, checks, lines⟩ := h
    refine ⟨entry, cursors, openings, checks, fun v w hw => lines v w ?_⟩
    simp only [dropWindows, modVrd_vrd, Fin.getElem_fin, mapAll_getElem] at hw
    split at hw
    · exact hw
    · exact List.mem_of_mem_filter hw
  items _ jt h := ⟨jt, h, Kept.refl jt⟩

theorem settleClassify_work (it : Item) (s : State) : ItemWork s (settleClassify it s) := by
  unfold settleClassify
  split
  · exact decideItem_work _ _ _
  split
  · exact takeDeadline_work _ _
  split
  · exact decideItem_work _ _ _
  · exact .refl s

/-- All that a CLASSIFY that is taken can do. -/
theorem applyClassify_work {s : State} {it : Item} (cls : Fin 16) (hm : it ∈ s.trk.track) :
    ItemWork s (applyClassify it cls s) := by
  have kept : Kept it (reclassified s cls it) := ⟨rfl, rfl, fun _ h => h, id, id, id, id, fun _ => rfl, id, id⟩
  exact ((replace_work hm kept rfl).trans (dropWindows_work _ _ _)).trans (settleClassify_work _ _)

/-! ## The obligation -/

theorem effect_zoneInv {s t : State} (h : Effect s t) (hs : ZoneInv s) : ZoneInv t := by
  cases h with
  | none => exact hs
  | snapshot shot taken =>
    obtain ⟨asserted, cut, empty, teach, fault⟩ := hs
    exact ⟨asserted, cut, empty, teach, fault⟩
  | remove g tracks => exact zoneInv_of_tracks tracks (leave_work g .removed s).event hs
  | load p n k config =>
    obtain ⟨stn, loaded⟩ := loadFrom_units p n k s
    rw [loaded]
    exact zoneInv_of_units hs
  | mode i m => exact changeMode_zoneInv i m hs
  | source v r config => exact zoneInv_of_units hs
  | verdict g v code tracks => exact zoneInv_of_tracks tracks (fillVerdict_work g v code s).event hs
  | classify it cls found undecided tracks =>
    exact zoneInv_of_tracks tracks (applyClassify_work cls (findItem_some found).1).event hs
  | pulse o len config =>
    exact zoneInv_of_event (claimOutput_work o len .test s).event (fun estop => by simp [config] at estop) hs
  | outputEnd o f off =>
    obtain ⟨asserted, cut, empty, teach, fault⟩ := hs
    refine ⟨asserted, fun estop => ⟨fun k => ?_, (cut estop).2⟩, empty, teach, fault⟩
    have before := (cut estop).1 k
    simp only [modOutput_out, Fin.getElem_fin, modAt_getElem] at before ⊢
    split
    · exact off _ before
    · exact before
  | arm config => exact arm_zoneInv config hs
  | start still =>
    obtain ⟨zon, -⟩ := abortTeach_units s
    refine trackingStart_zoneInv .request ?_ (abortTeach_idle s)
    rw [zon]
    exact released_of_zoneInv hs (by rcases still with zone | zone <;> simp [zone])
  | syncStart armed =>
    refine trackingStart_zoneInv .sync (released_of_zoneInv hs (by simp [armed])) (idle_of_zoneInv hs (by simp [armed]))
  | hold cause tracking =>
    exact enterZone_zoneInv cause (.inr rfl) (released_of_zoneInv hs (by simp [tracking]))
      (idle_of_zoneInv hs (by simp [tracking]))
  | resume stopped =>
    have zone : s.zon.zone ≠ .estop ∧ s.zon.zone ≠ .config := by rcases stopped with zone | zone <;> simp [zone]
    exact enterZone_zoneInv .request (.inl rfl) (released_of_zoneInv hs zone.1) (idle_of_zoneInv hs zone.2)
  | toConfig released => exact flushToConfig_zoneInv (released.elim (released_of_zoneInv hs) id)
  | estop => exact enterEstop_zoneInv .request s
  | estopInput => exact acceptEstop_zoneInv hs
  | teach run config =>
    obtain ⟨asserted, cut, empty, -, fault⟩ := hs
    exact ⟨asserted, cut, empty, fun _ => config, fault⟩
  | abort => exact abortTeach_zoneInv hs
  | count c => exact applyCount_zoneInv c hs
  | edge i e => exact deliverEdge_zoneInv i e hs
  | reset p => exact zoneInv_of_units (atReset_zoneInv p)

/-- Settles O56: a step is one effect, and every effect keeps the invariant. -/
theorem zoneInvariant : Obligations.ZoneInvariant := by
  unfold Obligations.ZoneInvariant
  exact fun s t hs stepped => (step_change stepped).keeps (fun _ _ => SameWorld.zoneInv) (fun _ _ => effect_zoneInv) hs

end Sys2Proof.ZoneLaws
end

section
/-! SUPPORT and CERTIFICATES. The laws of the track (R30, R33, R64, R70, R96): how windows stand behind cursors; Quiet,
the work that moves no cursor and opens no window; Tracked and Punctual, the work that keeps the laws. -/

namespace Sys2Proof.TrackLaws

open Sys2Proof.Machine Sys2Proof.Safety Sys2Proof.Laws Sys2Proof.Effects

/-! ## Windows behind a cursor (R70, R96) -/

section Behind

variable {s t : State} {cursor : Option Tag} {ws vs : List Tag} {g : Tag}

theorem behind_mono (h : BehindCursor s cursor ws) (same : tags t = tags s) (sub : vs.Sublist ws) :
    BehindCursor t cursor vs := by
  obtain ⟨older, newer, split, first, stand⟩ := h
  exact ⟨older, newer, same ▸ split, first, sub.trans stand⟩

/-- With no item in the track there is no window, and no cursor holds an item. -/
theorem behind_empty (h : tags s = []) : BehindCursor s none [] := ⟨[], [], h, rfl, .slnil⟩

/-- Each item has at most one window. -/
theorem behind_nodup (items : ItemsOk s) (h : BehindCursor s cursor ws) : ws.Nodup := by
  obtain ⟨older, newer, split, -, stand⟩ := h
  obtain ⟨-, nodup, -⟩ := items
  rw [split] at nodup
  exact stand.nodup nodup.of_append_left

/-- The item at the cursor has no window. -/
theorem behind_fresh (items : ItemsOk s) (h : BehindCursor s (some g) ws) : g ∉ ws := by
  obtain ⟨older, newer, split, first, stand⟩ := h
  obtain ⟨-, nodup, -⟩ := items
  obtain ⟨rest, rfl⟩ := List.head?_eq_some_iff.1 first.symm
  rw [split] at nodup
  exact fun hg => List.disjoint_of_nodup_append nodup (stand.subset hg) List.mem_cons_self

/-- 03 section 3.1, in terms of tags: the next newer item. -/
theorem newerThan_split (items : ItemsOk s) {older rest : List Tag} (h : tags s = older ++ g :: rest) :
    newerThan g s.trk.track = rest.head? := by
  obtain ⟨before, after, place, rfl, tail⟩ := List.map_eq_append_iff.1 h
  obtain ⟨it, newer, rfl, rfl, rfl⟩ := List.map_eq_cons_iff.1 tail
  rw [Stations.newerThan_place items place, List.head?_map]

/-- R64, R70: the cursor goes on to the next newer item; the item it was on may get the newest window. -/
theorem behind_advance (items : ItemsOk s) (h : BehindCursor s (some g) ws) (same : tags t = tags s)
    (sub : vs.Sublist (ws ++ [g])) : BehindCursor t (newerThan g s.trk.track) vs := by
  obtain ⟨older, newer, split, first, stand⟩ := h
  obtain ⟨rest, rfl⟩ := List.head?_eq_some_iff.1 first.symm
  exact ⟨older ++ [g], rest, by simp [same, split], newerThan_split items split,
    sub.trans (stand.append (.refl _))⟩

/-- R46, R80, R96: an item leaves; a cursor on it goes on, and its window goes. -/
theorem behind_leave (items : ItemsOk s) (h : BehindCursor s cursor ws)
    (left : tags t = (tags s).filter (· ≠ g)) :
    BehindCursor t (if cursor = some g then newerThan g s.trk.track else cursor) (ws.filter (· ≠ g)) := by
  obtain ⟨older, newer, split, first, stand⟩ := h
  refine ⟨older.filter (· ≠ g), newer.filter (· ≠ g), by rw [left, split, List.filter_append], ?_,
    stand.filter _⟩
  cases newer with
  | nil => simp [first]
  | cons x rest =>
    obtain rfl : cursor = some x := first
    by_cases e : x = g
    · subst e
      have alone : x ∉ rest := by
        obtain ⟨-, nodup, -⟩ := items
        rw [split] at nodup
        exact (List.nodup_cons.1 nodup.of_append_right).1
      rw [if_pos rfl, newerThan_split items split, List.filter_cons_of_neg (by simp),
        List.filter_eq_self.2 fun y hy => by simpa using fun e : y = x => alone (e ▸ hy)]
    · rw [if_neg (by simpa using e), List.filter_cons_of_pos (by simpa using e), List.head?_cons]

/-- R37, R64, R70: an item is created; a cursor that held none may take it. -/
theorem behind_create (h : BehindCursor s cursor ws) (more : tags t = tags s ++ [g]) (takes : Prop)
    [Decidable takes] : BehindCursor t (if takes ∧ cursor = none then some g else cursor) ws := by
  obtain ⟨older, newer, split, first, stand⟩ := h
  cases newer with
  | nil =>
    obtain rfl : cursor = none := first
    by_cases h : takes
    · exact ⟨older, [g], by simp [more, split], by simp [h], stand⟩
    · exact ⟨older ++ [g], [], by simp [more, split], by simp [h], stand.trans (List.sublist_append_left _ _)⟩
  | cons x rest =>
    obtain rfl : cursor = some x := first
    exact ⟨older, x :: rest ++ [g], by simp [more, split], by simp, stand⟩

end Behind

/-- The windows of a LINE source by the items they are of. -/
def lineTags (s : State) (v : Fin 4) : List Tag := s.vrd.sources[v].windows.map LineWindow.tag

/-- The windows of a CHECK station by the items they are of and where they close. -/
def checkPlaces (s : State) (i : Fin 8) : List (Tag × Pos) :=
  s.stn.stations[i].windows.map fun w => (w.tag, w.closePos)

/-- The items of the track by where they entered. -/
def places (s : State) : List (Tag × Pos) := s.trk.track.map fun it => (it.tag, it.entryPos)

/-- The station that triggers a LINE source. -/
def triggerOf (s : State) (v : Fin 4) : Option (Fin 8) :=
  match s.vrd.sources[v].record with
  | .message => none
  | .line _ k _ _ _ => some k

theorem places_tags (s : State) : (places s).map Prod.fst = tags s := by
  simp [places, tags, Function.comp_def]

theorem checkPlaces_tags (s : State) (i : Fin 8) :
    (checkPlaces s i).map Prod.fst = s.stn.stations[i].windows.map CheckWindow.tag := by
  simp [checkPlaces, Function.comp_def]

theorem windowsOk_iff (s : State) :
    WindowsOk s ↔
      (∀ i : Fin 8, BehindCursor s s.stn.stations[i].opening ((checkPlaces s i).map Prod.fst)) ∧
        ∀ v : Fin 4,
          (triggerOf s v = none → lineTags s v = []) ∧
            ∀ k, triggerOf s v = some k → BehindCursor s s.stn.stations[k].cursor (lineTags s v) := by
  simp only [checkPlaces_tags]
  refine and_congr_right fun _ => forall_congr' fun v => ?_
  unfold triggerOf lineTags
  cases s.vrd.sources[v].record <;> simp

/-- With no item in the track, what is left is that nothing names an item. -/
theorem windowsOk_empty {s : State} (empty : tags s = []) (refs : RefsOk s) : WindowsOk s := by
  obtain ⟨-, cursors, openings, checks, lines⟩ := refs
  have none_of : ∀ o : Option Tag, (∀ g, o = some g → g ∈ tags s) → o = none := fun o h =>
    Option.eq_none_iff_forall_ne_some.2 fun g e => by simpa [empty] using h g e
  have noLines : ∀ v, lineTags s v = [] := fun v => List.map_eq_nil_iff.2
    (List.eq_nil_iff_forall_not_mem.2 fun w hw => by simpa [empty] using lines v w hw)
  have noChecks : ∀ i, checkPlaces s i = [] := fun i => List.map_eq_nil_iff.2
    (List.eq_nil_iff_forall_not_mem.2 fun w hw => by simpa [empty] using checks i w hw)
  refine (windowsOk_iff s).2 ⟨fun i => ?_, fun v => ⟨fun _ => noLines v, fun k _ => ?_⟩⟩
  · rw [none_of _ (openings i), noChecks]
    exact behind_empty empty
  · rw [none_of _ (cursors k), noLines]
    exact behind_empty empty

/-! ## Quiet work -/

/-- The track position, the items, the cursors and the source records are those of `s`; no checkpoint window has
opened. -/
structure Settled (s t : State) : Prop where
  position : t.pos.position = s.pos.position
  places : places t = places s
  cursors : ∀ i : Fin 8, t.stn.stations[i].cursor = s.stn.stations[i].cursor
  openings : ∀ i : Fin 8, t.stn.stations[i].opening = s.stn.stations[i].opening
  records : ∀ v : Fin 4, t.vrd.sources[v].record = s.vrd.sources[v].record
  checks : ∀ i, (checkPlaces t i).Sublist (checkPlaces s i)

/-- And no line window has opened. -/
structure Quiet (s t : State) : Prop extends Settled s t where
  lines : ∀ v, (lineTags t v).Sublist (lineTags s v)

theorem Settled.tags {s t : State} (h : Settled s t) : tags t = tags s := by
  rw [← places_tags, ← places_tags, h.places]

theorem Settled.triggers {s t : State} (h : Settled s t) (v : Fin 4) : triggerOf t v = triggerOf s v := by
  simp only [triggerOf, h.records v]

theorem Settled.refl (s : State) : Settled s s := ⟨rfl, rfl, fun _ => rfl, fun _ => rfl, fun _ => rfl, fun _ => .refl _⟩

theorem Settled.trans {s t u : State} (h : Settled s t) (k : Settled t u) : Settled s u where
  position := k.position.trans h.position
  places := k.places.trans h.places
  cursors i := (k.cursors i).trans (h.cursors i)
  openings i := (k.openings i).trans (h.openings i)
  records v := (k.records v).trans (h.records v)
  checks i := (k.checks i).trans (h.checks i)

theorem Quiet.refl (s : State) : Quiet s s := ⟨.refl s, fun _ => .refl _⟩

theorem Quiet.trans {s t u : State} (h : Quiet s t) (k : Quiet t u) : Quiet s u :=
  ⟨h.toSettled.trans k.toSettled, fun v => (k.lines v).trans (h.lines v)⟩

theorem Quiet.windowsOk {s t : State} (h : Quiet s t) (windows : WindowsOk s) : WindowsOk t := by
  obtain ⟨checks, lines⟩ := (windowsOk_iff s).1 windows
  refine (windowsOk_iff t).2 ⟨fun i => ?_, fun v => ?_⟩
  · rw [h.openings i]
    exact behind_mono (checks i) h.tags ((h.checks i).map _)
  · obtain ⟨message, line⟩ := lines v
    rw [h.triggers v]
    refine ⟨fun e => List.sublist_nil.1 (message e ▸ h.lines v), fun k e => ?_⟩
    rw [h.cursors k]
    exact behind_mono (line k e) h.tags (h.lines v)

/-- Work on other units than the track, the stations and the sources. -/
theorem quiet_of_units {s t : State} (position : t.pos.position = s.pos.position) (trk : t.trk.track = s.trk.track)
    (stn : t.stn = s.stn) (vrd : t.vrd = s.vrd) : Quiet s t where
  position := position
  places := by simp only [TrackLaws.places, trk]
  cursors _ := by rw [stn]
  openings _ := by rw [stn]
  records _ := by rw [vrd]
  checks i := by simp only [checkPlaces, stn, List.Sublist.refl]
  lines v := by simp only [lineTags, vrd, List.Sublist.refl]

theorem offer_quiet (n : Notice) (s : State) : Quiet s (offer n s) :=
  quiet_of_units (by simp) (by simp) (by simp) (by simp)

theorem faultCause_quiet (c : FaultCause) (s : State) : Quiet s (faultCause c s) :=
  quiet_of_units (by rw [(faultCause_work c s).pos]) (by rw [faultCause_trk]) (faultCause_stn c s) (faultCause_vrd c s)

theorem claimOutput_quiet (o : Fin 8) (len : BitVec 16) (w : Owner) (s : State) : Quiet s (claimOutput o len w s).1 :=
  quiet_of_units rfl rfl rfl rfl

/-- A change of an item that keeps its tag and its entry position. -/
theorem modItem_quiet (g : Tag) (f : Item → Item) (s : State) (tag : ∀ x, (f x).tag = x.tag := by exact fun _ => rfl)
    (pos : ∀ x, (f x).entryPos = x.entryPos := by exact fun _ => rfl) : Quiet s (s.modItem g f) where
  position := rfl
  places := by
    unfold TrackLaws.places
    simp only [modItem_trk, List.map_map]
    refine List.map_congr_left fun x _ => ?_
    simp only [Function.comp]
    split
    · rw [tag, pos]
    · rfl
  cursors _ := rfl
  openings _ := rfl
  records _ := rfl
  checks _ := .refl _
  lines _ := .refl _

theorem decideItem_quiet (g : Tag) (r : Reason) (s : State) : Quiet s (decideItem g r s) := by
  unfold decideItem
  split
  · exact .refl s
  split
  · exact .refl s
  · exact (modItem_quiet g _ s).trans (offer_quiet _ _)

theorem takeDeadline_quiet (g : Tag) (s : State) : Quiet s (takeDeadline g s) := by
  unfold takeDeadline
  split
  · exact .refl s
  split
  · exact .refl s
  · exact (modItem_quiet g _ s).trans (decideItem_quiet _ _ _)

theorem fillVerdict_quiet (g : Tag) (v : Fin 4) (code : Fin 16) (s : State) : Quiet s (fillVerdict g v code s) := by
  have filled : Quiet s (s.modItem g (Item.fillSlot v code)) := modItem_quiet g _ s
  unfold fillVerdict
  split
  · exact .refl s
  split
  · exact .refl s
  · exact .refl s
  · exact .refl s
  · exact filled
  · dsimp only
    split
    · exact filled.trans (decideItem_quiet _ _ _)
    · exact filled

/-- Windows of a source close, or are marked. -/
theorem modSource_quiet (v : Fin 4) (f : Source → Source) (s : State)
    (record : (f s.vrd.sources[v]).record = s.vrd.sources[v].record)
    (windows : ((f s.vrd.sources[v]).windows.map LineWindow.tag).Sublist (lineTags s v)) :
    Quiet s (s.modSource v f) where
  position := rfl
  places := rfl
  cursors _ := rfl
  openings _ := rfl
  records k := by
    simp only [modSource_vrd, Fin.getElem_fin, modAt_getElem]
    split
    · rename_i e
      obtain rfl : v = k := Fin.ext e
      exact record
    · rfl
  checks _ := .refl _
  lines k := by
    simp only [lineTags, modSource_vrd, Fin.getElem_fin, modAt_getElem]
    split
    · rename_i e
      obtain rfl : v = k := Fin.ext e
      exact windows
    · exact .refl _

/-- Checkpoint windows of a station close, or are marked. -/
theorem modStation_quiet (i : Fin 8) (f : Station → Station) (s : State)
    (cursor : (f s.stn.stations[i]).cursor = s.stn.stations[i].cursor := by rfl)
    (opening : (f s.stn.stations[i]).opening = s.stn.stations[i].opening := by rfl)
    (windows : ((f s.stn.stations[i]).windows.map fun w => (w.tag, w.closePos)).Sublist (checkPlaces s i)) :
    Quiet s (s.modStation i f) where
  position := rfl
  places := rfl
  cursors k := by
    simp only [modStation_stn, Fin.getElem_fin, modAt_getElem]
    split
    · rename_i e
      obtain rfl : i = k := Fin.ext e
      exact cursor
    · rfl
  openings k := by
    simp only [modStation_stn, Fin.getElem_fin, modAt_getElem]
    split
    · rename_i e
      obtain rfl : i = k := Fin.ext e
      exact opening
    · rfl
  records _ := rfl
  checks k := by
    simp only [checkPlaces, modStation_stn, Fin.getElem_fin, modAt_getElem]
    split
    · rename_i e
      obtain rfl : i = k := Fin.ext e
      exact windows
    · exact .refl _
  lines _ := .refl _

theorem closeLineWindow_quiet (v : Fin 4) (g : Tag) (s : State) : Quiet s (closeLineWindow v g s) := by
  have closed : Quiet s (s.modSource v fun src => { src with windows := src.windows.filter fun w => w.tag ≠ g }) :=
    modSource_quiet v _ s rfl (List.filter_sublist.map _)
  unfold closeLineWindow
  split
  · exact .refl s
  · dsimp only
    split
    · exact closed
    · exact closed.trans (fillVerdict_quiet _ _ _ _)

theorem lineEdge_quiet (v : Fin 4) (s : State) : Quiet s (lineEdge v s) := by
  unfold lineEdge
  split
  · split
    · exact offer_quiet _ s
    · rename_i w _
      have same : ∀ x : LineWindow,
          LineWindow.tag (if x.tag = w.tag then { x with edgeSeen := true } else x) = x.tag := fun x => by split <;> rfl
      exact modSource_quiet v _ s rfl (by simp [lineTags, same, Function.comp_def])
  · exact .refl s

theorem deadlineFirst_quiet (i : Fin 8) (g : Tag) (s : State) : Quiet s (deadlineFirst i g s) := by
  unfold deadlineFirst
  split
  · exact takeDeadline_quiet g s
  · exact .refl s

theorem disableClose_quiet (i : Fin 8) (s : State) : Quiet s (disableClose i s) := by
  have recorded : ∀ (l : List CheckWindow) (u : State),
      Quiet u (l.foldl (fun s w => s.modItem w.tag fun x =>
        if x.snapshot.hasMember i then x.record i (if w.confirmed then .confirmed else .disabled) else x) u) := by
    intro l
    induction l with
    | nil => exact fun u => .refl u
    | cons w l ih =>
      exact fun u => (modItem_quiet w.tag _ u (fun x => by split <;> rfl) fun x => by split <;> rfl).trans (ih _)
  exact (recorded _ s).trans (modStation_quiet i _ _ (windows := List.nil_sublist _))

theorem settleClassify_quiet (it : Item) (s : State) : Quiet s (settleClassify it s) := by
  unfold settleClassify
  split
  · exact decideItem_quiet _ _ _
  split
  · exact takeDeadline_quiet _ _
  split
  · exact decideItem_quiet _ _ _
  · exact .refl s

theorem dropWindows_quiet (g : Tag) (c : ClassRec) (s : State) : Quiet s (dropWindows g c s) where
  position := rfl
  places := rfl
  cursors _ := rfl
  openings _ := rfl
  records v := by
    simp only [dropWindows, modVrd_vrd, Fin.getElem_fin, mapAll_getElem]
    split <;> rfl
  checks _ := .refl _
  lines v := by
    simp only [lineTags, dropWindows, modVrd_vrd, Fin.getElem_fin, mapAll_getElem]
    split
    · exact .refl _
    · exact List.filter_sublist.map _

/-! ## Work that keeps the laws of the track -/

/-- No open checkpoint window has been passed. -/
def AllAhead (s : State) : Prop := ∀ i, ∀ p ∈ checkPlaces s i, ahead p.2 s.pos.position = true

/-- Work that keeps the laws of the track and moves no item; items may leave. -/
structure Tracked (s t : State) : Prop where
  inv : TrackInv s → TrackInv t
  position : t.pos.position = s.pos.position
  places : (places t).Sublist (places s)

/-- And that leaves no passed checkpoint window open. -/
structure Punctual (s t : State) : Prop extends Tracked s t where
  ahead : TrackInv s → AllAhead s → AllAhead t

theorem Tracked.trans {s t u : State} (h : Tracked s t) (k : Tracked t u) : Tracked s u :=
  ⟨fun hs => k.inv (h.inv hs), k.position.trans h.position, k.places.trans h.places⟩

theorem Punctual.refl (s : State) : Punctual s s := ⟨⟨id, rfl, .refl _⟩, fun _ => id⟩

theorem Punctual.trans {s t u : State} (h : Punctual s t) (k : Punctual t u) : Punctual s u :=
  ⟨h.toTracked.trans k.toTracked, fun hs hp => k.ahead (h.inv hs) (h.ahead hs hp)⟩

/-- Item work keeps the laws of the track when it keeps those of the windows. -/
theorem trackInv_of_work {s t : State} (w : ItemWork s t) (windows : ItemsOk s → WindowsOk s → WindowsOk t)
    (hs : TrackInv s) : TrackInv t := by
  obtain ⟨items, refs, stand, snapshot⟩ := hs
  exact ⟨w.itemsOk items, w.refsOk items refs, windows items stand, by rw [w.snapshot]; exact snapshot⟩

theorem Settled.allAhead {s t : State} (h : Settled s t) (hs : AllAhead s) : AllAhead t := fun i p hp => by
  rw [h.position]
  exact hs i p ((h.checks i).subset hp)

theorem Quiet.punctual {s t : State} (h : Quiet s t) (w : ItemWork s t) : Punctual s t where
  inv := trackInv_of_work w fun _ => h.windowsOk
  position := h.position
  places := h.places ▸ .refl _
  ahead _ := h.allAhead

/-- A change of other units than the track. -/
theorem Quiet.of_units {s t : State} (h : Quiet s t) (trk : t.trk = s.trk) : Punctual s t where
  inv := by
    rintro ⟨items, ⟨entry, cursors, openings, checks, lines⟩, windows, snapshot⟩
    refine ⟨?_, ⟨?_, fun i g e => ?_, fun i g e => ?_, fun i w hw => ?_, fun v w hw => ?_⟩, h.windowsOk windows, ?_⟩
    · simpa only [ItemsOk, h.tags, trk] using items
    · simpa only [h.tags, trk] using entry
    · exact h.tags ▸ cursors i g (h.cursors i ▸ e)
    · exact h.tags ▸ openings i g (h.openings i ▸ e)
    · obtain ⟨w', hw', e⟩ := List.mem_map.1 ((h.checks i).subset (List.mem_map_of_mem hw))
      rw [h.tags, ← (Prod.mk.inj e).1]
      exact checks i w' hw'
    · obtain ⟨w', hw', e⟩ := List.mem_map.1 ((h.lines v).subset (List.mem_map_of_mem hw))
      rw [h.tags, ← e]
      exact lines v w' hw'
    · rw [trk]
      exact snapshot
  position := h.position
  places := h.places ▸ .refl _
  ahead _ := h.allAhead

/-- A change of units that the laws do not look at. -/
theorem punctual_of_units {s t : State} (position : t.pos.position = s.pos.position) (trk : t.trk = s.trk)
    (stn : t.stn = s.stn) (vrd : t.vrd = s.vrd) : Punctual s t :=
  (quiet_of_units position (by rw [trk]) stn vrd).of_units trk

theorem offer_punctual (n : Notice) (s : State) : Punctual s (offer n s) := (offer_quiet n s).punctual (offer_work n s)

theorem faultCause_punctual (c : FaultCause) (s : State) : Punctual s (faultCause c s) :=
  (faultCause_quiet c s).punctual (faultCause_work c s)

theorem record_punctual (g : Tag) (i : Fin 8) (o : StationOutcome) (s : State) :
    Punctual s (s.modItem g fun x => x.record i o) :=
  (modItem_quiet g _ s).punctual (record_work g i o s)

/-! ## Leaving (R46) -/

section TakeOut

variable (g : Tag) (s : State)

theorem takeOut_station (i : Fin 8) :
    (takeOut g s).stn.stations[i] = s.stn.stations[i].itemLeft g (newerThan g s.trk.track) := by simp [takeOut]

theorem takeOut_source (v : Fin 4) : (takeOut g s).vrd.sources[v] = s.vrd.sources[v].itemLeft g := by simp [takeOut]

theorem takeOut_checkPlaces (i : Fin 8) : checkPlaces (takeOut g s) i = (checkPlaces s i).filter fun p => p.1 ≠ g := by
  simp only [checkPlaces, takeOut_station, Station.itemLeft, List.filter_map]
  rfl

theorem takeOut_lineTags (v : Fin 4) : lineTags (takeOut g s) v = (lineTags s v).filter (· ≠ g) := by
  simp only [lineTags, takeOut_source, Source.itemLeft, List.filter_map]
  rfl

theorem takeOut_places : places (takeOut g s) = (places s).filter fun p => p.1 ≠ g := by
  simp only [places, takeOut, modVrd_trk, modStn_trk, modTrk_trk, List.filter_map]
  rfl

variable {g s}

theorem takeOut_windowsOk (items : ItemsOk s) (windows : WindowsOk s) : WindowsOk (takeOut g s) := by
  obtain ⟨stations, sources⟩ := (windowsOk_iff s).1 windows
  refine (windowsOk_iff _).2 ⟨fun i => ?_, fun v => ?_⟩
  · have left := behind_leave items (stations i) (tags_takeOut g s)
    rw [List.filter_map] at left
    rw [takeOut_checkPlaces, takeOut_station]
    exact left
  · have trigger : triggerOf (takeOut g s) v = triggerOf s v := by
      simp only [triggerOf, takeOut_source, Source.itemLeft]
    obtain ⟨message, line⟩ := sources v
    rw [trigger, takeOut_lineTags]
    refine ⟨fun e => by rw [message e]; rfl, fun k e => ?_⟩
    have left := behind_leave items (line k e) (tags_takeOut g s)
    rw [takeOut_station]
    exact left

end TakeOut

theorem takeOut_punctual (g : Tag) (s : State) : Punctual s (takeOut g s) where
  inv := trackInv_of_work (takeOut_work g s) takeOut_windowsOk
  position := rfl
  places := takeOut_places g s ▸ List.filter_sublist
  ahead _ hs i p hp := hs i p (List.mem_of_mem_filter (takeOut_checkPlaces g s i ▸ hp))

theorem leave_punctual (g : Tag) (r : ExitReason) (s : State) : Punctual s (leave g r s) := by
  unfold leave
  split
  · exact .refl s
  · exact (takeOut_punctual g s).trans (offer_punctual _ _)

theorem retire_punctual (g : Tag) (s : State) : Punctual s (retire g s) :=
  ((decideItem_quiet g .atExit s).punctual (decideItem_work _ _ _)).trans (leave_punctual _ _ _)

/-! ## Stations that fire (R66 to R69, R97) -/

/-- An item may have got a window of each source that the station triggers. -/
structure Opens (i : Fin 8) (g : Tag) (s t : State) : Prop extends Settled s t where
  lines : ∀ v, (lineTags t v).Sublist (lineTags s v) ∨
    (triggerOf s v = some i ∧ (lineTags t v).Sublist (lineTags s v ++ [g]))

theorem Quiet.opens {s t : State} (h : Quiet s t) (i : Fin 8) (g : Tag) : Opens i g s t :=
  ⟨h.toSettled, fun v => .inl (h.lines v)⟩

theorem Quiet.then_opens {s t u : State} {i : Fin 8} {g : Tag} (h : Quiet s t) (k : Opens i g t u) : Opens i g s u where
  toSettled := h.toSettled.trans k.toSettled
  lines v := by
    refine (k.lines v).imp (fun sub => sub.trans (h.lines v)) fun ⟨trigger, sub⟩ => ⟨h.triggers v ▸ trigger, ?_⟩
    exact sub.trans ((h.lines v).append (.refl _))

theorem Opens.then_quiet {s t u : State} {i : Fin 8} {g : Tag} (h : Opens i g s t) (k : Quiet t u) : Opens i g s u where
  toSettled := h.toSettled.trans k.toSettled
  lines v := (h.lines v).imp (k.lines v).trans (And.imp_right (k.lines v).trans)

section LineWindow

variable {i : Fin 8} {v : Fin 4} {s : State} (g : Tag) (c : Pos)

theorem withLineWindow_lineTags (k : Fin 4) :
    lineTags (Verdicts.withLineWindow v g c s) k = if v = k then lineTags s k ++ [g] else lineTags s k := by
  simp only [lineTags, Verdicts.withLineWindow, modSource_vrd, Fin.getElem_fin, modAt_getElem, Fin.ext_iff]
  split <;> simp

/-- R97: a source opens the window of an item that its trigger station hands on. -/
theorem withLineWindow_opens (trigger : triggerOf s v = some i) : Opens i g s (Verdicts.withLineWindow v g c s) := by
  refine ⟨⟨rfl, rfl, fun _ => rfl, fun _ => rfl, fun k => ?_, fun _ => .refl _⟩, fun k => ?_⟩
  · simp only [Verdicts.withLineWindow, modSource_vrd, Fin.getElem_fin, modAt_getElem]
    split <;> rfl
  · rw [withLineWindow_lineTags]
    split
    · rename_i e
      exact .inr ⟨e ▸ trigger, .refl _⟩
    · exact .inl (.refl _)

end LineWindow

/-- R97: what the opening of one window does to its source and to the others. -/
theorem openLineWindow_opens (i : Fin 8) (g : Tag) (fire : Pos) (s : State) (v : Fin 4) :
    Opens i g s (openLineWindow i g fire s v) ∧
      ∀ k, k ≠ v → (lineTags (openLineWindow i g fire s v) k).Sublist (lineTags s k) := by
  have unchanged : Opens i g s s ∧ ∀ k, k ≠ v → (lineTags s k).Sublist (lineTags s k) :=
    ⟨(Quiet.refl s).opens i g, fun _ _ => .refl _⟩
  unfold openLineWindow
  split
  · exact unchanged
  rename_i _ k _ _ _ record
  split
  · exact unchanged
  split
  · rename_i triggered
    obtain ⟨trigger, -⟩ := Bool.and_eq_true_iff.1 triggered
    obtain rfl : k = i := of_decide_eq_true trigger
    have opens := fun c => withLineWindow_opens (i := k) (v := v) (s := s) g c (by simp only [triggerOf, record])
    have others : ∀ c j, j ≠ v → lineTags (Verdicts.withLineWindow v g c s) j = lineTags s j := fun c j hj => by
      rw [withLineWindow_lineTags, if_neg hj.symm]
    dsimp only
    split
    · exact ⟨opens _, fun j hj => others _ j hj ▸ .refl _⟩
    · have closed := closeLineWindow_quiet v g
      exact ⟨(opens _).then_quiet (closed _), fun j hj => others _ j hj ▸ (closed _).lines j⟩
  · exact unchanged

/-- R69, R97: each source opens at most one window. -/
theorem openLineWindows_opens (i : Fin 8) (g : Tag) (fire : Pos) (s : State) :
    Opens i g s (openLineWindows i g fire s) := by
  have opened : ∀ (l : List (Fin 4)) (u : State), l.Nodup →
      Opens i g u (l.foldl (openLineWindow i g fire) u) ∧
        ∀ v ∉ l, (lineTags (l.foldl (openLineWindow i g fire) u) v).Sublist (lineTags u v) := by
    intro l
    induction l with
    | nil => exact fun u _ => ⟨(Quiet.refl u).opens i g, fun _ _ => .refl _⟩
    | cons v l ih =>
      intro u once
      obtain ⟨fresh, once⟩ := List.nodup_cons.1 once
      obtain ⟨first, others⟩ := openLineWindow_opens i g fire u v
      obtain ⟨rest, untouched⟩ := ih (openLineWindow i g fire u v) once
      refine ⟨⟨first.toSettled.trans rest.toSettled, fun k => ?_⟩, fun k hk => ?_⟩
      · by_cases e : k = v
        · subst e
          exact (first.lines k).imp (untouched k fresh).trans (And.imp_right (untouched k fresh).trans)
        · refine (rest.lines k).imp (fun sub => sub.trans (others k e)) fun ⟨trigger, sub⟩ => ?_
          exact ⟨first.triggers k ▸ trigger, sub.trans ((others k e).append (.refl _))⟩
      · obtain ⟨other, absent⟩ := not_or.1 (mt List.mem_cons.2 hk)
        exact (untouched k absent).trans (others k other)
  exact (opened _ s (List.nodup_finRange 4)).1

theorem stationOutcome_opens (i : Fin 8) (it : Item) (late : Bool) (s : State) :
    Opens i it.tag s (stationOutcome i it late s) := by
  have recorded : ∀ o u, Quiet u (u.modItem it.tag fun x => x.record i o) := fun _ u => modItem_quiet _ _ u
  unfold stationOutcome
  split
  · unfold fireStation
    dsimp only
    split
    · exact (Quiet.refl s).opens i _
    · have claimed := fun o => (claimOutput_quiet o s.stn.stations[i].record.pulse (.station i it.tag) s)
      split
      · exact (((claimed _).trans (recorded _ _)).trans (offer_quiet _ _)).opens i _
      split
      · exact ((claimed _).trans (recorded _ _)).then_opens (openLineWindows_opens _ _ _ _)
      · exact ((claimed _).trans (recorded _ _)).opens i _
  · exact (modItem_quiet _ _ s).opens i _
  · exact (recorded _ s).opens i _

/-- R64, R97: after the windows have opened the cursor goes on. -/
theorem advanceCursor_punctual {i : Fin 8} {g : Tag} {s t : State} (h : Opens i g s t)
    (w : ItemWork s t) (cursor : s.stn.stations[i].cursor = some g) : Punctual s (advanceCursor i g t) := by
  have stations : ∀ k : Fin 8, (advanceCursor i g t).stn.stations[k] =
      if i = k then { t.stn.stations[k] with cursor := newerThan g t.trk.track } else t.stn.stations[k] := fun k => by
    simp only [advanceCursor, modStation_stn, Fin.getElem_fin, modAt_getElem, Fin.ext_iff]
  have checks : ∀ k, checkPlaces (advanceCursor i g t) k = checkPlaces t k := fun k => by
    simp only [checkPlaces, stations]
    split <;> rfl
  have openings : ∀ k : Fin 8, (advanceCursor i g t).stn.stations[k].opening = s.stn.stations[k].opening := fun k => by
    rw [stations, ← h.openings k]
    split <;> rfl
  refine ⟨⟨trackInv_of_work (w.trans (advanceCursor_work i g t)) fun items windows => ?_, h.position,
    h.places ▸ .refl _⟩, fun _ hs k p hp => h.allAhead hs k p (checks k ▸ hp)⟩
  obtain ⟨checkOk, lineOk⟩ := (windowsOk_iff s).1 windows
  refine (windowsOk_iff _).2 ⟨fun k => ?_, fun v => ?_⟩
  · rw [openings, checks]
    exact behind_mono (checkOk k) h.tags ((h.checks k).map _)
  · have trigger : triggerOf (advanceCursor i g t) v = triggerOf s v := h.triggers v
    have lines : lineTags (advanceCursor i g t) v = lineTags t v := rfl
    obtain ⟨message, line⟩ := lineOk v
    rw [trigger, lines]
    refine ⟨fun e => ?_, fun k e => ?_⟩
    · rcases h.lines v with sub | ⟨triggered, -⟩
      · exact List.sublist_nil.1 (message e ▸ sub)
      · rw [e] at triggered
        cases triggered
    · rw [stations]
      by_cases own : i = k
      · subst own
        have sub : (lineTags t v).Sublist (lineTags s v ++ [g]) := by
          rcases h.lines v with sub | ⟨-, sub⟩
          · exact sub.trans (List.sublist_append_left _ _)
          · exact sub
        have before := behind_mono (cursor ▸ line i e) h.tags (.refl _)
        rw [if_pos rfl]
        exact behind_advance (w.itemsOk items) before rfl sub
      · rw [if_neg own, h.cursors k]
        refine behind_mono (line k e) h.tags ?_
        rcases h.lines v with sub | ⟨triggered, -⟩
        · exact sub
        · rw [e] at triggered
          exact absurd (Option.some.inj triggered).symm own

/-- R66. -/
theorem processStation_punctual (i : Fin 8) (late : Bool) (s : State) : Punctual s (processStation i late s) := by
  unfold processStation
  split
  · exact .refl s
  rename_i g cursor
  split
  · exact .refl s
  rename_i it found
  split
  · have first := deadlineFirst_work i g s
    have tag : ((deadlineFirst i g s).findItem g |>.getD it).tag = g := by
      cases e : (deadlineFirst i g s).findItem g with
      | none => exact (findItem_some found).2
      | some jt => exact (findItem_some e).2
    have opens := stationOutcome_opens i ((deadlineFirst i g s).findItem g |>.getD it) late (deadlineFirst i g s)
    rw [tag] at opens
    exact advanceCursor_punctual ((deadlineFirst_quiet i g s).then_opens opens)
      (first.trans (stationOutcome_work _ _ _ _)) cursor
  · exact advanceCursor_punctual ((Quiet.refl s).opens i g) (.refl s) cursor

/-! ## Checkpoints (R70 to R79) -/

theorem missItem_punctual (i : Fin 8) (w : CheckWindow) (s : State) : Punctual s (missItem i w s) := by
  have missed : Punctual s (s.modItem w.tag fun x =>
      { x.record i .missed with flags := { x.flags with missing := true } }) := by
    refine (modItem_quiet _ _ s).punctual (modItem_work' _ _ _ (fun _ => rfl) (fun _ => rfl) fun x => ?_)
    exact ⟨rfl, rfl, fun _ h => h, id, id, id, fun _ => rfl, id, id, id⟩
  have noticed := fun n => missed.trans (offer_punctual n _)
  unfold missItem
  dsimp only
  split
  · unfold missingPolicy
    split
    · exact noticed _
    · exact (noticed _).trans (leave_punctual _ _ _)
    · exact (noticed _).trans (faultCause_punctual _ _)
  · exact noticed _

/-- R75: the close of a window, from the state on that no longer has the window. -/
theorem closeWindow_closed {i : Fin 8} {g : Tag} {s : State} {w : CheckWindow}
    (found : s.stn.stations[i].windows.find? (fun w => w.tag = g) = some w) :
    Punctual (s.modStation i fun st => { st with windows := st.windows.filter fun w => w.tag ≠ g })
      (closeWindow i g s) := by
  unfold closeWindow
  rw [found]
  dsimp only
  split
  · exact .refl _
  split
  · split
    · exact record_punctual _ _ _ _
    · exact missItem_punctual _ _ _
  · exact .refl _

/-- R75. -/
theorem closeWindow_punctual (i : Fin 8) (g : Tag) (s : State) : Punctual s (closeWindow i g s) := by
  cases found : s.stn.stations[i].windows.find? fun w => w.tag = g with
  | none =>
    simp only [closeWindow, found]
    exact .refl s
  | some w =>
    exact ((modStation_quiet i _ s (windows := List.filter_sublist.map _)).punctual (dropWindow_work i s _)).trans
      (closeWindow_closed found)

/-- R75: the close of a window that has been passed. -/
theorem closeWindow_ahead {i : Fin 8} {g : Tag} {s : State} (hs : TrackInv s)
    (others : ∀ k, ∀ p ∈ checkPlaces s k, (k = i → p.1 ≠ g) → ahead p.2 s.pos.position = true) :
    AllAhead (closeWindow i g s) := by
  cases found : s.stn.stations[i].windows.find? fun w => w.tag = g with
  | none =>
    have absent : ∀ p ∈ checkPlaces s i, p.1 ≠ g := fun p hp => by
      obtain ⟨w, hw, rfl⟩ := List.mem_map.1 hp
      simpa using List.find?_eq_none.1 found w hw
    simp only [closeWindow, found]
    exact fun k p hp => others k p hp fun e => absent p (e ▸ hp)
  | some w =>
    have dropped := (modStation_quiet i (fun st => { st with windows := st.windows.filter fun w => w.tag ≠ g }) s
      (windows := List.filter_sublist.map _)).punctual (dropWindow_work i s _)
    refine (closeWindow_closed found).ahead (dropped.inv hs) fun k p hp => others k p ?_ fun e => ?_
    · exact (modStation_quiet i _ s (windows := List.filter_sublist.map _)).checks k |>.subset hp
    · subst e
      simp only [checkPlaces, modStation_stn, Fin.getElem_fin, modAt_getElem, if_pos, List.mem_map,
        List.mem_filter] at hp
      obtain ⟨x, ⟨-, other⟩, rfl⟩ := hp
      simpa using other

/-- R71: the opening cursor of a station goes on, and checkpoint windows open. -/
def openedAt (i : Fin 8) (ws : List CheckWindow) (next : Option Tag) (s : State) : State :=
  s.modStation i fun x => { x with windows := x.windows ++ ws, opening := next }

section OpenedAt

variable (i k : Fin 8) (ws : List CheckWindow) (next : Option Tag) (s : State)

theorem openedAt_station :
    (openedAt i ws next s).stn.stations[k] =
      if i = k then { s.stn.stations[k] with windows := s.stn.stations[k].windows ++ ws, opening := next }
      else s.stn.stations[k] := by
  simp only [openedAt, modStation_stn, Fin.getElem_fin, modAt_getElem, Fin.ext_iff]

theorem openedAt_checkPlaces :
    checkPlaces (openedAt i ws next s) k =
      if i = k then checkPlaces s k ++ ws.map (fun w => (w.tag, w.closePos)) else checkPlaces s k := by
  simp only [checkPlaces, openedAt_station]
  split
  · rw [List.map_append]
  · rfl

theorem openedAt_opening :
    (openedAt i ws next s).stn.stations[k].opening = if i = k then next else s.stn.stations[k].opening := by
  rw [openedAt_station]
  split <;> rfl

theorem openedAt_cursor : (openedAt i ws next s).stn.stations[k].cursor = s.stn.stations[k].cursor := by
  rw [openedAt_station]
  split <;> rfl

variable {i k ws next s}

/-- R70: the window of the item at the opening cursor is the newest. -/
theorem openedAt_windowsOk {g : Tag} (items : ItemsOk s) (windows : WindowsOk s)
    (opening : s.stn.stations[i].opening = some g) (own : (ws.map CheckWindow.tag).Sublist [g]) :
    WindowsOk (openedAt i ws (newerThan g s.trk.track) s) := by
  obtain ⟨checks, lines⟩ := (windowsOk_iff s).1 windows
  refine (windowsOk_iff _).2 ⟨fun k => ?_, fun v => (lines v).imp id fun line k e => ?_⟩
  · rw [openedAt_checkPlaces, openedAt_opening]
    split
    · rename_i e
      subst e
      refine behind_advance items (opening ▸ checks i) rfl ?_
      rw [List.map_append, List.map_map]
      exact (List.Sublist.refl _).append own
    · exact behind_mono (checks k) rfl (.refl _)
  · rw [openedAt_cursor]
    exact behind_mono (line k e) rfl (.refl _)

end OpenedAt

/-- 03 section 3.1: the next newer item is a matter of tags. -/
theorem newerThan_congr {g : Tag} {l m : List Item} (h : l.map Item.tag = m.map Item.tag) :
    newerThan g l = newerThan g m := by
  induction l generalizing m with
  | nil => rw [List.map_eq_nil_iff.1 h.symm]
  | cons x l ih =>
    obtain ⟨y, m, rfl, tag, rest⟩ := List.map_eq_cons_iff.1 h.symm
    rw [newerThan, newerThan, tag, ih rest.symm, ← List.head?_map, ← List.head?_map, rest]

/-- R71: the item at the opening cursor gets its window, or goes by. -/
theorem openOne_eq {i : Fin 8} {s : State} {g : Tag} {it : Item} (opening : s.stn.stations[i].opening = some g)
    (found : s.findItem g = some it) :
    ∃ u ws, Quiet s u ∧ ItemWork s u ∧ (ws.map CheckWindow.tag).Sublist [g] ∧
      openOne i s = openedAt i ws (newerThan g u.trk.track) u := by
  have opens : ∀ (u : State) (next : Option Tag),
      u.modStation i (fun x => { x with opening := next }) = openedAt i [] next u := fun u next => by simp [openedAt]
  have recorded := modItem_quiet g (fun x => x.record i .disabled) s
  unfold openOne
  simp only [opening, found]
  split
  · split
    · refine ⟨_, [], recorded, record_work g i .disabled s, List.nil_sublist _, ?_⟩
      rw [opens, newerThan_congr recorded.tags]
    · exact ⟨s, [], .refl s, .refl s, List.nil_sublist _, opens _ _⟩
  · exact ⟨s, [_], .refl s, .refl s, .refl _, Stations.modStation_modStation i _ _ s⟩

/-- R71: the opening at an opening cursor item: the one window that it may open is the item's. -/
theorem openOne_tracked (i : Fin 8) (s : State) : Tracked s (openOne i s) ∧
    ∀ g, s.stn.stations[i].opening = some g → ∀ k, ∀ p ∈ checkPlaces (openOne i s) k,
      p ∈ checkPlaces s k ∨ (k = i ∧ p.1 = g) := by
  have unchanged : Tracked s s ∧ ∀ g, s.stn.stations[i].opening = some g → ∀ k, ∀ p ∈ checkPlaces s k,
      p ∈ checkPlaces s k ∨ (k = i ∧ p.1 = g) := ⟨(Punctual.refl s).toTracked, fun _ _ _ _ => .inl⟩
  cases opening : s.stn.stations[i].opening with
  | none =>
    simp only [openOne, opening] at unchanged ⊢
    exact unchanged
  | some g =>
    cases found : s.findItem g with
    | none =>
      simp only [openOne, opening, found] at unchanged ⊢
      exact unchanged
    | some it =>
      have work := openOne_work i s
      obtain ⟨u, ws, quiet, before, own, opened⟩ := openOne_eq opening found
      rw [opened] at work ⊢
      refine ⟨⟨trackInv_of_work work fun items windows => ?_, quiet.position, quiet.places ▸ .refl _⟩, ?_⟩
      · exact openedAt_windowsOk (before.itemsOk items) (quiet.windowsOk windows) (quiet.openings i ▸ opening) own
      · rintro _ ⟨⟩ k p hp
        rw [openedAt_checkPlaces] at hp
        split at hp
        · rename_i e
          refine (List.mem_append.1 hp).imp ((quiet.checks k).subset ·) fun hw => ⟨e.symm, ?_⟩
          obtain ⟨w, mem, rfl⟩ := List.mem_map.1 hw
          exact List.mem_singleton.1 (own.subset (List.mem_map_of_mem mem))
        · exact .inl ((quiet.checks k).subset hp)

/-- R79: an opening handled late, with the close of the window that has been passed. -/
theorem openLate_punctual {i : Fin 8} {s : State} {g : Tag} (opening : s.stn.stations[i].opening = some g) :
    Punctual s (closeIfLate i g (openOne i s)) := by
  obtain ⟨tracked, opened⟩ := openOne_tracked i s
  have others : AllAhead s → ∀ k, ∀ p ∈ checkPlaces (openOne i s) k, (k = i → p.1 ≠ g) →
      ahead p.2 (openOne i s).pos.position = true := fun hs k p hp other => by
    rw [tracked.position]
    exact (opened g opening k p hp).elim (hs k p) fun ⟨e, own⟩ => absurd own (other e)
  unfold closeIfLate
  cases found : (openOne i s).stn.stations[i].windows.find? fun w => w.tag = g with
  | none =>
    refine ⟨tracked, fun _ hs k p hp => others hs k p hp fun e => ?_⟩
    subst e
    obtain ⟨w, hw, rfl⟩ := List.mem_map.1 hp
    simpa using List.find?_eq_none.1 found w hw
  | some w =>
    dsimp only
    split
    · rename_i early
      refine ⟨tracked, fun inv hs k p hp => ?_⟩
      by_cases own : k = i ∧ p.1 = g
      · obtain ⟨rfl, rfl⟩ := own
        obtain ⟨items, -, windows, -⟩ := tracked.inv inv
        have once := behind_nodup items (((windowsOk_iff _).1 windows).1 k)
        have here : (w.tag, w.closePos) ∈ checkPlaces (openOne k s) k :=
          List.mem_map.2 ⟨w, List.mem_of_find?_eq_some found, rfl⟩
        have tag : w.tag = p.1 := by simpa using List.find?_some found
        rw [← List.inj_on_of_nodup_map once here hp tag]
        exact early
      · exact others hs k p hp fun e tag => own ⟨e, tag⟩
    · have closed := closeWindow_punctual i g (openOne i s)
      exact ⟨tracked.trans closed.toTracked, fun inv hs => closeWindow_ahead (tracked.inv inv) (others hs)⟩

theorem lateOpen_punctual (i : Fin 8) (n : Nat) (s : State) : Punctual s (lateOpen i n s) := by
  induction n generalizing s with
  | zero => exact .refl s
  | succ n ih =>
    unfold lateOpen
    split
    · exact .refl s
    split
    · exact .refl s
    · rename_i it next _
      obtain ⟨g, opening, found⟩ := Option.bind_eq_some_iff.1 next
      obtain ⟨-, rfl⟩ := findItem_some found
      exact (openLate_punctual opening).trans (ih _)

theorem handleOpening_tracked (i : Fin 8) (s : State) : Tracked s (handleOpening i s) :=
  (openOne_tracked i s).1.trans (lateOpen_punctual i _ _).toTracked

/-! ## Corrections (R43 to R45) -/

theorem settleDeadline_punctual (g : Tag) (s : State) : Punctual s (settleDeadline g s) := by
  unfold settleDeadline
  split
  · exact .refl s
  split
  · exact .refl s
  · exact (takeDeadline_quiet g s).punctual (takeDeadline_work g s)

theorem settleStation_punctual (g : Tag) (s : State) (i : Fin 8) : Punctual s (settleStation g s i) := by
  unfold settleStation
  dsimp only
  split
  · exact .refl s
  split
  · exact .refl s
  · split
    · exact lateOpen_punctual _ _ _
    · exact .refl s
  all_goals
    split
    · exact processStation_punctual _ _ _
    · exact .refl s

theorem settleRetirement_punctual (g : Tag) (s : State) : Punctual s (settleRetirement g s) := by
  unfold settleRetirement
  split
  · exact .refl s
  split
  · exact .refl s
  · exact retire_punctual g s

theorem settleCorrection_punctual (g : Tag) (s : State) : Punctual s (settleCorrection g s) := by
  have stations : ∀ (l : List (Fin 8)) (u : State), Punctual u (l.foldl (settleStation g) u) := by
    intro l
    induction l with
    | nil => exact fun u => .refl u
    | cons i l ih => exact fun u => (settleStation_punctual g u i).trans (ih _)
  exact ((settleDeadline_punctual g s).trans (stations _ _)).trans (settleRetirement_punctual g _)

/-- R44: a correction moves an item and keeps the laws of the track. -/
theorem correct_inv (g : Tag) (c : Int) {s : State} (hs : TrackInv s) : TrackInv (s.modItem g (Item.correct c)) :=
  trackInv_of_work (correct_work g c s) (fun _ windows => by
    obtain ⟨checkOk, lineOk⟩ := (windowsOk_iff s).1 windows
    have same := tags_modItem g (Item.correct c) (fun _ => rfl) s
    exact (windowsOk_iff _).2 ⟨fun i => behind_mono (checkOk i) same (.refl _),
      fun v => (lineOk v).imp id fun line k e => behind_mono (line k e) same (.refl _)⟩) hs

theorem refused_punctual (g : Tag) (s : State) :
    Punctual s (s.modItem g fun x => { x with flags := { x.flags with anchorRefused := true } }) := by
  refine (modItem_quiet g _ s).punctual (modItem_work' _ _ _ (fun _ => rfl) (fun _ => rfl) fun x => ?_)
  exact ⟨rfl, rfl, fun _ h => h, id, id, fun _ => rfl, id, id, id, id⟩

theorem requestCorrection_inv (g : Tag) (c : Int) {s : State} (hs : TrackInv s) :
    TrackInv (requestCorrection g c s) := by
  unfold requestCorrection
  split
  · exact hs
  split
  · exact (settleCorrection_punctual g _).inv (correct_inv g c hs)
  · exact (refused_punctual g s).inv hs

/-- R73, R74: an edge at a window, up to the correction that it may ask for. -/
theorem confirmWindow_cases (i : Fin 8) (w : CheckWindow) (s : State) :
    ∃ u, Punctual s u ∧ places u = places s ∧
      (confirmWindow i w s = u ∨
        let tol := s.stn.stations[i].record.tolerance.setWidth 32
        ahead (w.closePos - tol - tol) s.here = false ∧
          confirmWindow i w s = requestCorrection w.tag (s.here - (w.closePos - tol)).toInt u) := by
  have same : ∀ x : CheckWindow, let y := if x.tag = w.tag then { x with confirmed := true } else x
      (y.tag, y.closePos) = (x.tag, x.closePos) := fun x => by
    dsimp only
    split <;> rfl
  let marked := s.modStation i fun st =>
    { st with windows := st.windows.map fun x => if x.tag = w.tag then { x with confirmed := true } else x }
  have quiet : Quiet s marked := by
    refine modStation_quiet i _ s (windows := ?_)
    rw [List.map_map]
    exact List.map_congr_left (fun x _ => same x) ▸ .refl _
  have work : ItemWork s marked := by
    refine modStation_work i _ s rfl ⟨fun _ => .inl, fun _ => .inl, fun y hy => ?_⟩
    obtain ⟨x, hx, rfl⟩ := List.mem_map.1 hy
    exact .inl ⟨x, hx, (congrArg Prod.fst (same x)).symm⟩
  have recorded := quiet.trans (modItem_quiet w.tag (fun x => x.record i .confirmed) marked)
  have recordedWork := work.trans (record_work w.tag i .confirmed marked)
  unfold confirmWindow
  dsimp only
  split
  · exact ⟨_, quiet.punctual work, quiet.places, .inl rfl⟩
  split
  · refine ⟨_, recorded.punctual recordedWork, recorded.places, ?_⟩
    split
    · rename_i asks
      simp only [Bool.and_eq_true, Bool.not_eq_true'] at asks
      exact .inr ⟨asks.2, rfl⟩
    · exact .inl rfl
  · exact ⟨_, quiet.punctual work, quiet.places, .inl rfl⟩

theorem checkEdge_inv (i : Fin 8) {s : State} (hs : TrackInv s) : TrackInv (checkEdge i s) := by
  unfold checkEdge
  split
  · split
    · exact (offer_punctual _ s).inv hs
    · obtain ⟨u, punctual, -, e | ⟨-, e⟩⟩ := confirmWindow_cases i ‹_› s
      · exact e ▸ punctual.inv hs
      · exact e ▸ requestCorrection_inv _ _ (punctual.inv hs)
  · exact hs

/-! ## The Entry Unit (R33 to R42) -/

/-- R33: the Entry Unit leaves an item, or measures none. -/
theorem setEntry_punctual (e : EntryUnit) (s : State) (he : ∀ g lead, e ≠ .measuring g lead) :
    Punctual s (setEntry e s) where
  inv := fun ⟨items, ⟨_, refs⟩, windows, snapshot⟩ =>
    ⟨items, ⟨fun g lead h => absurd h (he g lead), refs⟩, windows, snapshot⟩
  position := rfl
  places := .refl _
  ahead _ := id

theorem overlengthReach_punctual (s : State) : Punctual s (overlengthReach s) := by
  refine Quiet.punctual ?_ (overlengthReach_work s)
  unfold overlengthReach
  split
  · exact .refl s
  · exact .refl s
  · exact (modItem_quiet _ _ s).trans (faultCause_quiet _ _)

theorem entryTrailing_punctual (s : State) : Punctual s (entryTrailing s) := by
  have clear : Punctual s (setEntry .clear s) := setEntry_punctual _ s nofun
  unfold entryTrailing
  split
  · exact .refl s
  · exact clear
  rename_i g lead _
  dsimp only
  have measured : ∀ len : Dist, Punctual s ((setEntry .clear s).modItem g fun it => { it with length := some len }) :=
    fun len => clear.trans ((modItem_quiet g _ _).punctual (ZoneLaws.measure_work g len _))
  split
  · exact (measured _).trans (leave_punctual _ _ _)
  · exact measured _

/-- R37: what a creation adds to the items, and where the windows are that were open. -/
theorem createItem_places {s : State} (hf : newTag s ∉ tags s) :
    places (createItem s) = places s ++ [(newTag s, s.pos.position)] ∧
      (∀ i, checkPlaces (createItem s) i = checkPlaces s i) ∧ ∀ v, lineTags (createItem s) v = lineTags s v := by
  obtain ⟨-, -, vrd, -⟩ := createItem_rest s hf
  refine ⟨?_, fun i => ?_, fun v => by simp only [lineTags, vrd]⟩
  · unfold places
    rw [createItem_trk s hf, List.map_append]
    rfl
  · unfold checkPlaces
    rw [createItem_stn s hf]
    simp [Station.itemCreated]

/-- R30, R33, R64, R70: a creation keeps the laws of the track. -/
theorem createItem_trackInv {s : State} (room : s.trk.track.length < 64) (hs : TrackInv s) :
    TrackInv (createItem s) := by
  obtain ⟨items, refs, windows, snapshot⟩ := hs
  obtain ⟨-, -, -, next⟩ := id items
  have fresh : newTag s ∉ tags s := newTag_fresh next room.le
  obtain ⟨itemsOk, refsOk⟩ := createItem_inv s items refs room
  obtain ⟨placed, checks, lines⟩ := createItem_places fresh
  have more : tags (createItem s) = tags s ++ [newTag s] := by
    rw [← places_tags, placed, List.map_append, places_tags]
    rfl
  have stations : ∀ i : Fin 8, (createItem s).stn.stations[i] = s.stn.stations[i].itemCreated (newTag s) := fun i => by
    rw [createItem_stn s fresh]
    simp
  obtain ⟨-, -, vrd, -⟩ := createItem_rest s fresh
  obtain ⟨checkOk, lineOk⟩ := (windowsOk_iff s).1 windows
  refine ⟨itemsOk, refsOk, (windowsOk_iff _).2 ⟨fun i => ?_, fun v => ?_⟩, ?_⟩
  · have created := behind_create (checkOk i) more (s.stn.stations[i].record.kind = .check)
    rw [checks, stations]
    simpa [Station.itemCreated] using created
  · have trigger : triggerOf (createItem s) v = triggerOf s v := by simp only [triggerOf, vrd]
    rw [trigger, lines]
    refine (lineOk v).imp id fun line k e => ?_
    have created := behind_create (line k e) more (s.stn.stations[k].record.kind.fires = true)
    rw [stations]
    simpa [Station.itemCreated] using created
  · rw [createItem_trk s fresh]
    exact snapshot

/-- R35: a leading edge creates an item, or leaves the track as it is. -/
theorem entryLeading_cases (s : State) :
    Punctual s (entryLeading s) ∨
      (s.trk.track.length < 64 ∧ entryLeading s = createItem s ∧
        ∀ newest, s.trk.track.getLast? = some newest → ahead s.here newest.entryPos = true) := by
  have untracked : Punctual s (setEntry .untracked s) := setEntry_punctual _ s nofun
  have attempt : Punctual s (entryAttempt s) ∨
      (s.trk.track.length < 64 ∧ entryAttempt s = createItem s ∧
        ∀ newest, s.trk.track.getLast? = some newest → ahead s.here newest.entryPos = true) := by
    unfold entryAttempt
    split
    · exact .inl (untracked.trans (faultCause_punctual _ _))
    rename_i room
    have room : s.trk.track.length < 64 := Nat.not_le.1 room
    split
    · rename_i empty
      exact .inr ⟨room, rfl, fun newest h => by rw [empty] at h; cases h⟩
    rename_i newest last
    split
    · rename_i front
      exact .inr ⟨room, rfl, fun x h => by rw [last] at h; cases h; exact front⟩
    · exact .inl (untracked.trans (offer_punctual _ _))
  unfold entryLeading
  split
  · split
    · exact attempt
    · exact attempt
    · exact .inl (.refl s)
  · exact .inl untracked

theorem entryLeading_inv {s : State} (hs : TrackInv s) : TrackInv (entryLeading s) := by
  rcases entryLeading_cases s with punctual | ⟨room, created, -⟩
  · exact punctual.inv hs
  · exact created ▸ createItem_trackInv room hs

end Sys2Proof.TrackLaws
end

section
/-! SUPPORT and CERTIFICATES. The laws of the track over whole steps: teaching, edges, counts, requests and changes of
zone state; then the obligation. -/

namespace Sys2Proof.TrackLaws

open Sys2Proof.Machine Sys2Proof.Safety Sys2Proof.Laws Sys2Proof.Effects

/-! ## Teaching (R153 to R159) -/

theorem setTeach_punctual (x : TeachState) (s : State) : Punctual s (setTeach x s) := punctual_of_units rfl rfl rfl rfl

theorem endTeach_punctual (run : TeachRun) (r : TeachResult) (stats : Option TeachStats) (a : Bool)
    (v : Option Status) (s : State) : Punctual s (endTeach run r stats a v s) :=
  (setTeach_punctual _ s).trans (offer_punctual _ _)

theorem abortTeach_punctual (s : State) : Punctual s (abortTeach s) := by
  unfold abortTeach
  split
  · exact .refl s
  · exact endTeach_punctual _ _ _ _ _ s

theorem teachEntryEdge_punctual (s : State) : Punctual s (teachEntryEdge s) := by
  unfold teachEntryEdge
  split
  · exact .refl s
  · exact setTeach_punctual _ s
  · exact (setTeach_punctual _ s).trans (offer_punctual _ _)

theorem teachSpanReach_punctual (s : State) : Punctual s (teachSpanReach s) := by
  have noticed := fun x n => (setTeach_punctual x s).trans (offer_punctual n _)
  unfold teachSpanReach
  split
  · exact .refl s
  · exact .refl s
  dsimp only
  split
  · exact (noticed _ _).trans (endTeach_punctual _ _ _ _ _ _)
  · exact noticed _ _

/-- R158: the record of a station changes, and nothing that names an item. -/
theorem modRecord_punctual (i : Fin 8) (f : StationRec → StationRec) (s : State) :
    Punctual s (s.modStation i fun st => { st with record := f st.record }) :=
  (modStation_quiet i _ s (windows := .refl _)).of_units rfl

theorem finishTeach_punctual (run : TeachRun) (s : State) : Punctual s (finishTeach run s) := by
  unfold finishTeach
  split
  · exact .refl s
  split
  · exact endTeach_punctual _ _ _ _ _ s
  split
  · unfold applyTeach
    dsimp only
    split
    · exact endTeach_punctual _ _ _ _ _ s
    split
    · exact endTeach_punctual _ _ _ _ _ s
    · exact (modRecord_punctual _ (fun _ => _) s).trans (endTeach_punctual _ _ _ _ _ _)
  · exact endTeach_punctual _ _ _ _ _ s

theorem teachTargetEdge_punctual (s : State) : Punctual s (teachTargetEdge s) := by
  have noticed := fun x n => (setTeach_punctual x s).trans (offer_punctual n _)
  unfold teachTargetEdge
  split
  · exact .refl s
  · exact .refl s
  dsimp only
  split
  · exact (noticed _ _).trans (finishTeach_punctual _ _)
  · exact noticed _ _

/-! ## Edges (R17 to R20) -/

theorem modInput_punctual (i : Fin 8) (f : Input → Input) (s : State) : Punctual s (s.modInput i f) :=
  punctual_of_units rfl rfl rfl rfl

theorem captureProbe_punctual (i : Fin 8) (e : EdgeKind) (s : State) : Punctual s (captureProbe i e s) :=
  (modInput_punctual i _ s).trans (offer_punctual _ _)

theorem choice_punctual (n : Nat) (s : State) : Punctual s { s with choice := n } := punctual_of_units rfl rfl rfl rfl

theorem lineEdge_punctual (v : Fin 4) (s : State) : Punctual s (lineEdge v s) :=
  (lineEdge_quiet v s).punctual (lineEdge_work v s)

/-- What a receiver does, other than the Entry Unit at a leading edge and a station. -/
theorem receiveEdge_punctual (i : Fin 8) (e : EdgeKind) (r : EdgeReceiver) (s : State)
    (entry : ¬(r = .entryUnit ∧ e = .leading)) (station : ∀ k, r ≠ .station k) : Punctual s (receiveEdge i e r s) := by
  cases r with
  | probe => exact captureProbe_punctual i e s
  | entryUnit =>
    cases e with
    | leading => exact absurd ⟨rfl, rfl⟩ entry
    | trailing => exact entryTrailing_punctual s
  | teachEntry => exact teachEntryEdge_punctual s
  | teachTarget => exact teachTargetEdge_punctual s
  | station k => exact absurd rfl (station k)
  | source v => exact lineEdge_punctual v s

theorem receiveEdge_inv (i : Fin 8) (e : EdgeKind) (r : EdgeReceiver) {s : State} (hs : TrackInv s) :
    TrackInv (receiveEdge i e r s) := by
  by_cases entry : r = .entryUnit ∧ e = .leading
  · obtain ⟨rfl, rfl⟩ := entry
    exact entryLeading_inv hs
  by_cases station : ∃ k, r = .station k
  · obtain ⟨k, rfl⟩ := station
    exact checkEdge_inv k hs
  · exact (receiveEdge_punctual i e r s entry fun k h => station ⟨k, h⟩).inv hs

theorem deliverEdge_inv (i : Fin 8) (e : EdgeKind) {s : State} (hs : TrackInv s) : TrackInv (deliverEdge i e s) :=
  deliverEdge_keeps (fun t n => (choice_punctual n t).inv) (fun r _ _ => receiveEdge_inv i e r) hs

/-! ## Counts (R4 to R10) -/

theorem handleReach_tracked (r : Reach) (s : State) : Tracked s (handleReach r s) := by
  cases r with
  | overlength => exact (overlengthReach_punctual s).toTracked
  | teachSpan => exact (teachSpanReach_punctual s).toTracked
  | fire i => exact (processStation_punctual i false s).toTracked
  | opening i => exact handleOpening_tracked i s
  | closing i g => exact (closeWindow_punctual i g s).toTracked
  | deadline g => exact ((takeDeadline_quiet g s).punctual (takeDeadline_work g s)).toTracked
  | lineClose v g => exact ((closeLineWindow_quiet v g s).punctual (closeLineWindow_work v g s)).toTracked
  | retirement g => exact (retire_punctual g s).toTracked

theorem settleReaches_tracked (n : Nat) (s : State) : Tracked s (settleReaches n s) := by
  induction n generalizing s with
  | zero => exact (Punctual.refl s).toTracked
  | succ n ih =>
    unfold settleReaches
    split
    · exact (Punctual.refl s).toTracked
    · exact (handleReach_tracked _ s).trans (ih _)
    · exact ((choice_punctual _ s).toTracked.trans (handleReach_tracked _ _)).trans (ih _)

/-- What keeps the laws of the track and moves no item; the track position may move. -/
structure Lawful (s t : State) : Prop where
  inv : TrackInv s → TrackInv t
  places : (places t).Sublist (places s)

theorem Lawful.trans {s t u : State} (h : Lawful s t) (k : Lawful t u) : Lawful s u :=
  ⟨fun hs => k.inv (h.inv hs), k.places.trans h.places⟩

theorem Tracked.lawful {s t : State} (h : Tracked s t) : Lawful s t := ⟨h.inv, h.places⟩

theorem Punctual.lawful {s t : State} (h : Punctual s t) : Lawful s t := h.toTracked.lawful

theorem modPos_lawful (f : PosUnit → PosUnit) (s : State) : Lawful s (s.modPos f) := ⟨id, .refl _⟩

theorem applyCount_lawful (c : RawCount) (s : State) : Lawful s (applyCount c s) := by
  cases c with
  | zero => exact (Punctual.refl s).lawful
  | up => exact (modPos_lawful _ s).trans (settleReaches_tracked _ _).lawful
  | down =>
    refine (modPos_lawful (fun p => { p with position := p.position - 1 }) s).trans (Punctual.lawful ?_)
    unfold applyCount backwardCount
    dsimp only
    split
    · exact faultCause_punctual _ _
    · exact .refl _
  | error => exact (modPos_lawful _ s).trans (faultCause_punctual _ _).lawful

/-! ## Changes of zone state (R116 to R132) -/

theorem modZon_punctual (f : ZonUnit → ZonUnit) (s : State) : Punctual s (s.modZon f) :=
  punctual_of_units rfl rfl rfl rfl

theorem enterZone_punctual (z : ZoneState) (c : ZoneCause) (s : State) : Punctual s (enterZone z c s) :=
  (modZon_punctual _ s).trans (offer_punctual _ _)

/-- R123, R131: the Entry Unit as the ENTRY input's level sets it; the tags may start again. -/
theorem restart_lawful (s : State) (nextTag : Tag) (next : s.trk.nextTag ≠ 0 → nextTag ≠ 0) :
    Lawful s (s.modTrk fun t => { t with nextTag := nextTag, entry := entryByLevel s }) where
  inv := fun ⟨⟨few, nodup, each, tag⟩, ⟨_, refs⟩, windows, snapshot⟩ =>
    ⟨⟨few, nodup, each, next tag⟩, ⟨fun g lead h => absurd h (ZoneLaws.entryByLevel_idle s g lead), refs⟩, windows,
      snapshot⟩
  places := .refl _

theorem trackingStart_lawful (c : ZoneCause) (s : State) : Lawful s (trackingStart c s) :=
  (((modPos_lawful (fun p => { p with position := 0, highWater := 0 }) s).trans
    (restart_lawful _ 1 fun _ => by decide)).trans (modZon_punctual _ _).lawful).trans (enterZone_punctual _ _ _).lawful

theorem enterEstop_lawful (c : ZoneCause) (s : State) : Lawful s (enterEstop c s) := by
  have cut : Punctual s (emergencyCut s) := punctual_of_units rfl rfl rfl rfl
  have left : Punctual (emergencyCut s) (setEntry (entryByLevel s) (emergencyCut s)) :=
    setEntry_punctual _ _ (ZoneLaws.entryByLevel_idle s)
  exact (((cut.trans left).trans (abortTeach_punctual _)).trans (enterZone_punctual _ _ _)).lawful

theorem acceptEstop_lawful (s : State) : Lawful s (acceptEstop s) := by
  have accepted := modZon_punctual
    (fun z => { z with estopN := { z.estopN with accepted := s.zon.estopRaw, wait := none } }) s
  unfold acceptEstop
  dsimp only
  split
  · exact accepted.lawful
  · refine accepted.lawful.trans ?_
    unfold estopAssert
    split
    · exact (Punctual.refl _).lawful
    · exact enterEstop_lawful _ _

theorem flush_punctual (s : State) : Punctual s (flush s) := by
  have left : ∀ (l : List Tag) (u : State), Punctual u (l.foldl (fun s g => leave g .flushed s) u) := by
    intro l
    induction l with
    | nil => exact fun u => .refl u
    | cons g l ih => exact fun u => (leave_punctual g .flushed u).trans (ih _)
  exact left _ s

/-! ## Requests -/

theorem changeMode_punctual (i : Fin 8) (m : StationMode) (s : State) : Punctual s (changeMode i m s) := by
  have set := modRecord_punctual i (fun r => { r with mode := m }) s
  unfold changeMode
  dsimp only
  split
  · exact set.trans ((disableClose_quiet i _).punctual (disableClose_work i _))
  · exact set

/-- R101 to R103. -/
theorem applyClassify_punctual {s : State} {it : Item} (items : ItemsOk s) (cls : Fin 16) (hm : it ∈ s.trk.track) :
    Punctual s (applyClassify it cls s) := by
  have replaced : Quiet s (s.modItem it.tag fun _ => reclassified s cls it) := by
    refine ⟨⟨rfl, ?_, fun _ => rfl, fun _ => rfl, fun _ => rfl, fun _ => .refl _⟩, fun _ => .refl _⟩
    unfold places
    simp only [modItem_trk, List.map_map]
    refine List.map_congr_left fun x hx => ?_
    simp only [Function.comp]
    split
    · rw [unique_tag items hx hm ‹_›]
      rfl
    · rfl
  exact ((replaced.trans (dropWindows_quiet _ _ _)).trans (settleClassify_quiet _ _)).punctual
    (ZoneLaws.applyClassify_work cls hm)

/-- With no item in the track the stations and the sources are free to change, as long as they name no item. -/
theorem trackInv_empty {s t : State} (hs : TrackInv s) (empty : s.trk.track = []) (trk : t.trk = s.trk)
    (refs : RefsOk s → RefsOk t) : TrackInv t := by
  obtain ⟨items, refsOk, -, snapshot⟩ := hs
  have none : tags t = [] := by simp [tags, trk, empty]
  exact ⟨by simpa only [ItemsOk, tags, trk] using items, refs refsOk, windowsOk_empty none (refs refsOk),
    by rw [trk]; exact snapshot⟩

/-- R61, R70: a new record for a station. -/
theorem installStation_inv (i : Fin 8) (r : StationRec) {s : State} (hs : TrackInv s) (empty : s.trk.track = []) :
    TrackInv (installStation i r s) := by
  refine trackInv_empty hs empty rfl fun ⟨entry, cursors, openings, checks, lines⟩ => ?_
  refine ⟨entry, fun k g h => ?_, fun k g h => ?_, fun k w h => ?_, lines⟩
  all_goals
    simp only [installStation, modStation_stn, Fin.getElem_fin, modAt_getElem] at h
    split at h
  · cases h
  · exact cursors k g h
  · cases h
  · exact openings k g h
  · cases h
  · exact checks k w h

/-- R60. -/
theorem loadFrom_inv (p : List Byte) (n k : Nat) {s : State} (hs : TrackInv s) (empty : s.trk.track = []) :
    TrackInv (loadFrom p n k s).state := by
  induction n generalizing k s with
  | zero => exact hs
  | succ n ih =>
    unfold loadFrom
    split
    · exact hs
    split
    · exact ih _ (installStation_inv _ _ hs empty) empty
    · exact hs

/-- R86: a new record for a source. -/
theorem setSource_inv (v : Fin 4) (r : SourceRec) {s : State} (hs : TrackInv s) (empty : s.trk.track = []) :
    TrackInv (s.modSource v fun src => { src with record := r }) := by
  refine trackInv_empty hs empty rfl fun ⟨entry, cursors, openings, checks, lines⟩ => ?_
  refine ⟨entry, cursors, openings, checks, fun k w h => lines k w ?_⟩
  simp only [modSource_vrd, Fin.getElem_fin, modAt_getElem] at h
  split at h <;> exact h

theorem atReset_trackInv (p : PinLevels) : TrackInv (State.atReset p) := by
  have refs : RefsOk (State.atReset p) := by simp [RefsOk, State.atReset]
  have items : ItemsOk (State.atReset p) := by simp [ItemsOk, tags, State.atReset]
  exact ⟨items, refs, windowsOk_empty rfl refs, by simp [State.atReset]⟩

/-! ## The obligation -/

theorem effect_trackInv {s t : State} (h : Effect s t) (zone : ZoneInv s) (hs : TrackInv s) : TrackInv t := by
  have empty : s.zon.zone = .config → s.trk.track = [] := fun config => by
    obtain ⟨-, -, empty, -⟩ := zone
    exact empty (.inl config)
  cases h with
  | none => exact hs
  | snapshot shot taken =>
    obtain ⟨items, refs, windows, -⟩ := hs
    refine ⟨items, refs, windows, ?_⟩
    obtain ⟨few, -⟩ := items
    rcases taken with e | e
    · exact (congrArg List.length e).trans_le few
    · exact (congrArg List.length e).trans_le (Nat.zero_le _)
  | remove g _ => exact (leave_punctual g _ s).inv hs
  | load p n k config => exact loadFrom_inv p n k hs (empty config)
  | mode i m => exact (changeMode_punctual i m s).inv hs
  | source v r config => exact setSource_inv v r hs (empty config)
  | verdict g v code _ => exact ((fillVerdict_quiet g v code s).punctual (fillVerdict_work g v code s)).inv hs
  | classify it cls found _ _ => exact (applyClassify_punctual hs.1 cls (findItem_some found).1).inv hs
  | pulse o len _ => exact ((claimOutput_quiet o len .test s).punctual (claimOutput_work o len .test s)).inv hs
  | outputEnd o f _ => exact (punctual_of_units rfl rfl rfl rfl : Punctual s (s.modOutput o f)).inv hs
  | arm _ => exact ((abortTeach_punctual s).trans (enterZone_punctual _ _ _)).inv hs
  | start _ => exact ((abortTeach_punctual s).lawful.trans (trackingStart_lawful _ _)).inv hs
  | syncStart _ => exact (trackingStart_lawful _ s).inv hs
  | hold cause _ => exact (enterZone_punctual _ _ s).inv hs
  | resume _ => exact (enterZone_punctual _ _ s).inv hs
  | toConfig _ => exact ((flush_punctual s).trans (enterZone_punctual _ _ _)).inv hs
  | estop => exact (enterEstop_lawful _ s).inv hs
  | estopInput => exact (acceptEstop_lawful s).inv hs
  | teach run _ => exact (setTeach_punctual _ s).inv hs
  | abort => exact (abortTeach_punctual s).inv hs
  | count c => exact (applyCount_lawful c s).inv hs
  | edge i e => exact deliverEdge_inv i e hs
  | reset p =>
    exact (punctual_of_units rfl rfl rfl rfl : Punctual (State.atReset p) (deviceReset p s)).inv (atReset_trackInv p)

theorem SameWorld.trackInv {s t : State} (h : SameWorld s t) (hs : TrackInv s) : TrackInv t := by
  have same : tags t = tags s := by simp only [tags, h.track]
  unfold TrackInv ItemsOk RefsOk WindowsOk BehindCursor at *
  simpa only [same, h.track, h.nextTag, h.entry, h.snapshot, h.stn, h.sources] using hs

/-- Settles O57: a step is one effect between changes of nothing that the laws look at, and every effect keeps them. -/
theorem trackInvariant : Obligations.TrackInvariant := by
  unfold Obligations.TrackInvariant
  intro s t zone hs stepped
  obtain ⟨u, v, before, made, after⟩ := step_change stepped
  have zone := ZoneLaws.SameWorld.zoneInv before zone
  exact SameWorld.trackInv after (effect_trackInv made zone (SameWorld.trackInv before hs))

end Sys2Proof.TrackLaws
end

section
/-! SUPPORT and CERTIFICATES. The order of the items of the track (R30): with the track position and the items within a
quarter of the circle of positions the serial order of R7 is the order of numbers; an edge moves the item it corrects by
less than 2^16 counts, so the 16 receivers of one edge leave that quarter by less than 2^20. -/

namespace Sys2Proof.TrackOrder

open Sys2Proof.Machine Sys2Proof.Safety Sys2Proof.Laws Sys2Proof.Effects Sys2Proof.TrackLaws

/-! ## The item at a place of the track -/

section Place

variable {s : State} {older newer : List Item} {it : Item}

theorem exists_place (hm : it ∈ s.trk.track) : ∃ older newer, s.trk.track = older ++ it :: newer :=
  List.append_of_mem hm

theorem olderThan_absent {g : Tag} {l : List Item} (h : ∀ x ∈ l.tail, x.tag ≠ g) : olderThan g l = none := by
  induction l with
  | nil => rfl
  | cons x l ih =>
    cases l with
    | nil => rfl
    | cons y l =>
      rw [olderThan, if_neg (h y List.mem_cons_self)]
      exact ih fun z hz => h z (List.mem_cons_of_mem _ hz)

theorem olderThan_append (before : ∀ x ∈ older, x.tag ≠ it.tag) (after : ∀ x ∈ newer, x.tag ≠ it.tag) :
    olderThan it.tag (older ++ it :: newer) = older.getLast? := by
  induction older with
  | nil => exact olderThan_absent after
  | cons x older ih =>
    have rest := ih fun y hy => before y (List.mem_cons_of_mem _ hy)
    cases older with
    | nil => exact if_pos rfl
    | cons y older =>
      have other := before y (List.mem_cons_of_mem _ List.mem_cons_self)
      rw [List.getLast?_cons_cons, ← rest]
      exact if_neg other

/-- 03 section 3.1: the next older item. -/
theorem olderThan_place (items : ItemsOk s) (h : s.trk.track = older ++ it :: newer) :
    olderThan it.tag s.trk.track = older.getLast? := by
  have other := Stations.tag_ne_of_place items h
  rw [h]
  exact olderThan_append (fun x hx => other x (List.mem_append_left _ hx))
    fun x hx => other x (List.mem_append_right _ hx)

/-- 03 section 3.1: the next newer item. -/
theorem nextNewer_place (items : ItemsOk s) (h : s.trk.track = older ++ it :: newer) :
    nextNewer it.tag s.trk.track = newer.head? := by
  have other : ∀ x ∈ older, x.tag ≠ it.tag := fun x hx =>
    Stations.tag_ne_of_place items h x (List.mem_append_left _ hx)
  rw [h]
  clear h
  induction older with
  | nil => exact if_pos rfl
  | cons x older ih =>
    rw [List.cons_append, nextNewer, if_neg (other x List.mem_cons_self)]
    exact ih fun y hy => other y (List.mem_cons_of_mem _ hy)

theorem modItem_place (items : ItemsOk s) (h : s.trk.track = older ++ it :: newer) (f : Item → Item) :
    (s.modItem it.tag f).trk.track = older ++ f it :: newer := by
  have other := Stations.tag_ne_of_place items h
  have kept : ∀ l : List Item, (∀ x ∈ l, x.tag ≠ it.tag) → (l.map fun x => if x.tag = it.tag then f x else x) = l :=
    fun l hl => by
      conv_rhs => rw [← List.map_id l]
      exact List.map_congr_left fun x hx => if_neg (hl x hx)
  rw [modItem_trk, h, List.map_append, List.map_cons, if_pos rfl,
    kept older fun x hx => other x (List.mem_append_left _ hx),
    kept newer fun x hx => other x (List.mem_append_right _ hx)]

/-- R43: a new entry position stands between those of the neighbours. -/
theorem betweenNeighbours_place (items : ItemsOk s) (h : s.trk.track = older ++ it :: newer) (e : Pos) :
    betweenNeighbours s.trk.track it.tag e = true ↔
      (∀ x, older.getLast? = some x → ahead e x.entryPos = true) ∧
        ∀ x, newer.head? = some x → ahead x.entryPos e = true := by
  unfold betweenNeighbours
  rw [olderThan_place items h, nextNewer_place items h, Bool.and_eq_true]
  simp only [Option.all_eq_true]

end Place

/-! ## Positions near one another -/

/-- A position as a number, counted from 2^20 counts behind `b`. -/
def coord (b e : Pos) : Nat := (e - (b - 1048576#32)).toNat

theorem coord_of_near {b e : Pos} (h : (e - b).toNat < 2 ^ 30) :
    2 ^ 20 ≤ coord b e ∧ coord b e < 2 ^ 20 + 2 ^ 30 := by
  unfold coord
  have apart : e - (b - 1048576#32) = (e - b) + 1048576#32 := by ring
  rw [apart, BitVec.toNat_add]
  have : (1048576#32).toNat = 2 ^ 20 := rfl
  omega

/-- R7: within half the circle the serial order is the order of numbers. -/
theorem ahead_iff_coord (b : Pos) {p q : Pos} (hp : coord b p < 2 ^ 31) (hq : coord b q < 2 ^ 31) :
    ahead p q = true ↔ coord b q < coord b p := by
  have apart : (p - q).toNat = (2 ^ 32 - coord b q + coord b p) % 2 ^ 32 := by
    have : p - q = (p - (b - 1048576#32)) - (q - (b - 1048576#32)) := by ring
    rw [this, BitVec.toNat_sub]
    rfl
  simp only [ahead, Bool.and_eq_true, decide_eq_true_eq]
  omega

/-- A correction moves the number as it says. -/
theorem coord_correct (b e : Pos) (c : Int) (low : 0 ≤ (coord b e : Int) + c) (high : (coord b e : Int) + c < 2 ^ 32) :
    (coord b (e + BitVec.ofInt 32 c) : Int) = coord b e + c := by
  have moved : e + BitVec.ofInt 32 c - (b - 1048576#32) = BitVec.ofInt 32 ((e - (b - 1048576#32)).toNat + c) := by
    rw [BitVec.ofInt_add, BitVec.ofInt_natCast, BitVec.ofNat_toNat, BitVec.setWidth_eq]
    ring
  unfold coord at *
  rw [moved, BitVec.toNat_ofInt]
  omega

/-- R73, R74: the correction that an edge at an open window asks for. -/
theorem correction_small {here close : Pos} (tol : BitVec 16) (ahead_ : ahead close here = true)
    (near : ahead (close - tol.setWidth 32 - tol.setWidth 32) here = false) :
    -65535 ≤ (here - (close - tol.setWidth 32)).toInt ∧ (here - (close - tol.setWidth 32)).toInt ≤ 65535 := by
  generalize wide : tol.setWidth 32 = t at *
  have small : t.toNat ≤ 65535 := by
    rw [← wide, BitVec.toNat_setWidth]
    have := tol.isLt
    omega
  have toClose : close - t - t - here = (close - here) - t - t := by ring
  have correction : here - (close - t) = t - (close - here) := by ring
  rw [correction]
  simp only [ahead, toClose, Bool.and_eq_true, decide_eq_true_eq, Bool.and_eq_false_iff, decide_eq_false_iff_not] at *
  generalize close - here = d at *
  simp only [BitVec.toNat_sub] at near
  rw [BitVec.toInt_eq_toNat_cond, BitVec.toNat_sub]
  have := d.isLt
  split <;> omega

/-! ## Order by number -/

/-- The items stand in the order of their numbers. -/
def Sorted (b : Pos) (l : List (Tag × Pos)) : Prop := l.Pairwise fun x y => coord b x.2 < coord b y.2

/-- The items are within `k` corrections of the quarter of the circle behind which `b` stands. -/
def Within (b : Pos) (k : Nat) (e : Pos) : Prop :=
  2 ^ 20 ≤ coord b e + 65536 * k ∧ coord b e < 2 ^ 20 + 2 ^ 30 + 65536 * k

theorem Within.mono {b : Pos} {k : Nat} {e : Pos} (h : Within b k e) : Within b (k + 1) e := by
  unfold Within at *
  omega

/-- Where an item entered. -/
def placeOf (it : Item) : Tag × Pos := (it.tag, it.entryPos)

theorem places_eq (s : State) : places s = s.trk.track.map placeOf := rfl

theorem orderOk_iff (s : State) : OrderOk s ↔ (places s).Pairwise fun x y => ahead y.2 x.2 = true := by
  unfold OrderOk places
  rw [List.pairwise_map]

theorem pairwise_iff_sorted {b : Pos} {l : List (Tag × Pos)} (h : ∀ p ∈ l, coord b p.2 < 2 ^ 31) :
    (l.Pairwise fun x y => ahead y.2 x.2 = true) ↔ Sorted b l :=
  ⟨.imp_of_mem fun hx hy => (ahead_iff_coord b (h _ hy) (h _ hx)).1,
    .imp_of_mem fun hx hy => (ahead_iff_coord b (h _ hy) (h _ hx)).2⟩

/-- Each item is to be looked at with its neighbours only. -/
theorem sorted_iff_isChain (b : Pos) (l : List (Tag × Pos)) :
    Sorted b l ↔ l.IsChain fun x y => coord b x.2 < coord b y.2 :=
  have : IsTrans (Tag × Pos) fun x y => coord b x.2 < coord b y.2 := ⟨fun _ _ _ => Nat.lt_trans⟩
  List.isChain_iff_pairwise.symm

/-- One item of the list moves and stays between its neighbours. -/
theorem sorted_move {b : Pos} {older newer : List (Tag × Pos)} {p q : Tag × Pos} (h : Sorted b (older ++ p :: newer))
    (before : ∀ x ∈ older.getLast?, coord b x.2 < coord b q.2) (after : ∀ x ∈ newer.head?, coord b q.2 < coord b x.2) :
    Sorted b (older ++ q :: newer) := by
  simp only [sorted_iff_isChain, List.isChain_append, List.isChain_cons, List.head?_cons] at h ⊢
  obtain ⟨olderSorted, ⟨-, newerSorted⟩, -⟩ := h
  exact ⟨olderSorted, ⟨after, newerSorted⟩, fun x hx y hy => Option.mem_some_iff.1 hy ▸ before x hx⟩

/-- One item more, in front of the newest. -/
theorem sorted_concat {b : Pos} {l : List (Tag × Pos)} {p : Tag × Pos} (h : Sorted b l)
    (front : ∀ x ∈ l.getLast?, coord b x.2 < coord b p.2) : Sorted b (l ++ [p]) := by
  simp only [sorted_iff_isChain, List.isChain_append, List.isChain_singleton, List.head?_cons] at h ⊢
  exact ⟨h, trivial, fun x hx y hy => Option.mem_some_iff.1 hy ▸ front x hx⟩

/-- What the receivers of one edge keep, from one to the next: at most one correction by each. -/
structure InOrder (b here : Pos) (k : Nat) (s : State) : Prop where
  inv : TrackInv s
  ahead : AllAhead s
  position : s.pos.position = here
  within : ∀ p ∈ places s, Within b k p.2
  sorted : Sorted b (places s)

theorem InOrder.punctual {b here : Pos} {k : Nat} {s t : State} (hs : InOrder b here k s) (h : Punctual s t) :
    InOrder b here k t where
  inv := h.inv hs.inv
  ahead := h.ahead hs.inv hs.ahead
  position := h.position.trans hs.position
  within p hp := hs.within p (h.places.subset hp)
  sorted := hs.sorted.sublist h.places

theorem InOrder.mono {b here : Pos} {k : Nat} {s : State} (hs : InOrder b here k s) : InOrder b here (k + 1) s :=
  { hs with within := fun p hp => (hs.within p hp).mono }

theorem Within.bound {b : Pos} {k : Nat} {e : Pos} (few : k ≤ 16) (h : Within b k e) : coord b e < 2 ^ 31 := by
  unfold Within at h
  omega

theorem InOrder.bound {b here : Pos} {k : Nat} {s : State} (few : k ≤ 16) (hs : InOrder b here k s) :
    ∀ p ∈ places s, coord b p.2 < 2 ^ 31 := fun p hp => (hs.within p hp).bound few

/-- R30, R35: the created item stands in front of every other. -/
theorem createItem_inOrder {b here : Pos} {k : Nat} {s : State} (few : k ≤ 16) (near : (here - b).toNat < 2 ^ 30)
    (hs : InOrder b here k s) (room : s.trk.track.length < 64)
    (front : ∀ newest, s.trk.track.getLast? = some newest → Machine.ahead s.here newest.entryPos = true) :
    InOrder b here k (createItem s) := by
  obtain ⟨⟨-, -, -, next⟩, -⟩ := id hs.inv
  have fresh : newTag s ∉ tags s := newTag_fresh next room.le
  obtain ⟨placed, checks, -⟩ := createItem_places fresh
  obtain ⟨pos, -⟩ := createItem_rest s fresh
  obtain ⟨low, high⟩ := coord_of_near near
  rw [hs.position] at placed
  refine ⟨createItem_trackInv room hs.inv, fun i p hp => ?_, by rw [pos, hs.position], fun p hp => ?_, ?_⟩
  · rw [pos]
    exact hs.ahead i p (checks i ▸ hp)
  · rw [placed] at hp
    rcases List.mem_append.1 hp with hp | hp
    · exact hs.within p hp
    · obtain rfl := List.mem_singleton.1 hp
      constructor <;> dsimp only <;> omega
  · rw [placed]
    refine sorted_concat hs.sorted fun p hp => ?_
    have mem := List.mem_of_getLast? hp
    obtain ⟨newest, last, rfl⟩ : ∃ x, s.trk.track.getLast? = some x ∧ (x.tag, x.entryPos) = p := by
      simpa [places] using hp
    have ahead := front newest last
    rw [State.here, hs.position] at ahead
    exact (ahead_iff_coord b (show coord b here < 2 ^ 31 by omega) (hs.bound few _ mem)).1 ahead

/-- R43: a small correction that stays between the neighbours. -/
theorem correct_inOrder {b here : Pos} {k : Nat} {s : State} (few : k + 1 ≤ 16) (hs : InOrder b here k s) {it : Item}
    (hm : it ∈ s.trk.track) {c : Int} (small : -65535 ≤ c ∧ c ≤ 65535)
    (between : betweenNeighbours s.trk.track it.tag (it.entryPos + BitVec.ofInt 32 c) = true) :
    InOrder b here (k + 1) (s.modItem it.tag (Item.correct c)) := by
  obtain ⟨items, -⟩ := id hs.inv
  obtain ⟨older, newer, place⟩ := exists_place hm
  obtain ⟨behind, front⟩ := (betweenNeighbours_place items place _).1 between
  have all : places s = older.map placeOf ++ placeOf it :: newer.map placeOf := by
    rw [places_eq, place, List.map_append, List.map_cons]
  have moved : places (s.modItem it.tag (Item.correct c)) =
      older.map placeOf ++ placeOf (it.correct c) :: newer.map placeOf := by
    rw [places_eq, modItem_place items place, List.map_append, List.map_cons]
  have bound := hs.bound (by omega)
  have within : Within b (k + 1) (it.correct c).entryPos := by
    obtain ⟨low, high⟩ : Within b k it.entryPos := hs.within (placeOf it) (by simp [all])
    have coords : (coord b (it.correct c).entryPos : Int) = coord b it.entryPos + c :=
      coord_correct b it.entryPos c (by omega) (by omega)
    constructor <;> omega
  have own : coord b (it.correct c).entryPos < 2 ^ 31 := within.bound few
  refine ⟨correct_inv _ c hs.inv, hs.ahead, hs.position, fun p hp => ?_, ?_⟩
  · rw [moved] at hp
    rcases List.mem_append.1 hp with hp | hp
    · exact (hs.within p (all ▸ List.mem_append_left _ hp)).mono
    rcases List.mem_cons.1 hp with rfl | hp
    · exact within
    · exact (hs.within p (all ▸ List.mem_append_right _ (List.mem_cons_of_mem _ hp))).mono
  · rw [moved]
    refine sorted_move (all ▸ hs.sorted) (fun p hp => ?_) fun p hp => ?_
    · have mem := bound p (all ▸ List.mem_append_left _ (List.mem_of_getLast? hp))
      obtain ⟨x, last, rfl⟩ : ∃ x, older.getLast? = some x ∧ placeOf x = p := by simpa using hp
      exact (ahead_iff_coord b own mem).1 (behind x last)
    · have mem := bound p (all ▸ List.mem_append_right _ (List.mem_cons_of_mem _ (List.mem_of_head? hp)))
      obtain ⟨x, first, rfl⟩ : ∃ x, newer.head? = some x ∧ placeOf x = p := by simpa using hp
      exact (ahead_iff_coord b mem own).1 (front x first)

theorem checkEdge_inOrder {b here : Pos} {k : Nat} {s : State} (few : k + 1 ≤ 16) (hs : InOrder b here k s)
    (i : Fin 8) : InOrder b here (k + 1) (checkEdge i s) := by
  unfold checkEdge
  split
  · split
    · exact (hs.punctual (offer_punctual _ s)).mono
    rename_i w found
    obtain ⟨u, punctual, -, e | ⟨near, e⟩⟩ := confirmWindow_cases i w s
    · exact e ▸ (hs.punctual punctual).mono
    have hu := hs.punctual punctual
    have ahead_ : ahead w.closePos s.here = true :=
      hs.ahead i _ (List.mem_map.2 ⟨w, List.mem_of_find?_eq_some found, rfl⟩)
    have small := correction_small _ ahead_ near
    rw [e]
    unfold requestCorrection
    split
    · exact hu.mono
    rename_i it carried
    obtain ⟨hm, tag⟩ := findItem_some carried
    rw [← tag]
    split
    · exact (correct_inOrder few hu hm small ‹_›).punctual (settleCorrection_punctual _ _)
    · exact (hu.punctual (refused_punctual _ u)).mono
  · exact hs.mono

theorem receiveEdge_inOrder {b here : Pos} {k : Nat} {s : State} (few : k + 1 ≤ 16) (near : (here - b).toNat < 2 ^ 30)
    (hs : InOrder b here k s) (i : Fin 8) (e : EdgeKind) (r : EdgeReceiver) :
    InOrder b here (k + 1) (receiveEdge i e r s) := by
  by_cases entry : r = .entryUnit ∧ e = .leading
  · obtain ⟨rfl, rfl⟩ := entry
    rcases entryLeading_cases s with punctual | ⟨room, created, front⟩
    · exact (hs.punctual punctual).mono
    · have made := createItem_inOrder (by omega) near hs room front
      rw [← created] at made
      exact made.mono
  by_cases station : ∃ j, r = .station j
  · obtain ⟨j, rfl⟩ := station
    exact checkEdge_inOrder few hs j
  · exact (hs.punctual (receiveEdge_punctual i e r s entry fun j h => station ⟨j, h⟩)).mono

theorem inOrder_of_near {s : State} {b : Pos} (inv : TrackInv s) (near : Near b s) (order : OrderOk s) :
    InOrder b s.pos.position 0 s := by
  obtain ⟨-, items, windows⟩ := near
  have within : ∀ p ∈ places s, Within b 0 p.2 := fun p hp => by
    obtain ⟨it, hm, rfl⟩ := List.mem_map.1 hp
    obtain ⟨low, high⟩ := coord_of_near (items it hm)
    exact ⟨low, high⟩
  refine ⟨inv, fun i p hp => ?_, rfl, within, (pairwise_iff_sorted fun p hp => ?_).1 ((orderOk_iff s).1 order)⟩
  · obtain ⟨w, hw, rfl⟩ := List.mem_map.1 hp
    exact windows i w hw
  · obtain ⟨-, high⟩ := within p hp
    omega

/-- R17, R30: an edge leaves the items in order. -/
theorem deliverEdge_order {s : State} {b : Pos} (inv : TrackInv s) (near : Near b s) (order : OrderOk s) (i : Fin 8)
    (e : EdgeKind) : OrderOk (deliverEdge i e s) := by
  obtain ⟨k, few, kept⟩ := deliverEdge_counted (s := s) (i := i) (e := e)
    (P := fun k t => k ≤ 16 → InOrder b s.pos.position k t)
    (fun k t n h few => (h few).punctual (choice_punctual n t))
    (fun r _ k t h few => receiveEdge_inOrder few near.1 (h (by omega)) i e r)
    (fun _ => inOrder_of_near inv near order)
  obtain ⟨-, -, -, within, sorted⟩ := kept few
  refine (orderOk_iff _).2 ((pairwise_iff_sorted fun p hp => ?_).2 sorted)
  obtain ⟨-, high⟩ := within p hp
  omega

/-! ## The obligation -/

theorem loadFrom_places (p : List Byte) (n k : Nat) (s : State) : places (loadFrom p n k s).state = places s := by
  obtain ⟨stn, loaded⟩ := ZoneLaws.loadFrom_units p n k s
  rw [loaded]
  rfl

/-- Every effect but an edge moves no item and adds none. -/
theorem effect_places {s t : State} (h : Effect s t) (items : ItemsOk s) :
    (places t).Sublist (places s) ∨ ∃ i e, t = deliverEdge i e s := by
  cases h with
  | edge i e => exact .inr ⟨i, e, rfl⟩
  | none | snapshot | outputEnd | teach => exact .inl (.refl _)
  | remove g _ => exact .inl ((leave_punctual g _ s).places)
  | load p n k _ => exact .inl (loadFrom_places p n k s ▸ .refl _)
  | mode i m => exact .inl ((changeMode_punctual i m s).places)
  | source v r _ => exact .inl (.refl _)
  | verdict g v code _ => exact .inl ((fillVerdict_quiet g v code s).places ▸ .refl _)
  | classify it cls found _ _ => exact .inl ((applyClassify_punctual items cls (findItem_some found).1).places)
  | pulse o len _ => exact .inl (.refl _)
  | arm => exact .inl (((abortTeach_punctual s).trans (enterZone_punctual _ _ _)).places)
  | start => exact .inl (((abortTeach_punctual s).lawful.trans (trackingStart_lawful _ _)).places)
  | syncStart => exact .inl ((trackingStart_lawful _ s).places)
  | hold | resume => exact .inl ((enterZone_punctual _ _ s).places)
  | toConfig => exact .inl (((flush_punctual s).trans (enterZone_punctual _ _ _)).places)
  | estop => exact .inl ((enterEstop_lawful _ s).places)
  | estopInput => exact .inl ((acceptEstop_lawful s).places)
  | abort => exact .inl ((abortTeach_punctual s).places)
  | count c => exact .inl ((applyCount_lawful c s).places)
  | reset => exact .inl (List.nil_sublist _)

theorem SameWorld.near {s t : State} {b : Pos} (h : SameWorld s t) (hs : Near b s) : Near b t := by
  unfold Near at *
  simpa only [h.position, h.track, h.stn] using hs

theorem SameWorld.orderOk {s t : State} (h : SameWorld s t) (hs : OrderOk s) : OrderOk t := by
  unfold OrderOk at *
  rwa [h.track]

/-- Settles O58: only an edge moves an item or adds one, and the corrections of an edge are small. -/
theorem trackOrder : Obligations.TrackOrder := by
  unfold Obligations.TrackOrder
  intro s t b inv near order stepped
  obtain ⟨u, v, before, made, after⟩ := step_change stepped
  have inv := TrackLaws.SameWorld.trackInv before inv
  have order := SameWorld.orderOk before order
  refine SameWorld.orderOk after ?_
  obtain ⟨items, -⟩ := id inv
  rcases effect_places made items with sub | ⟨i, e, rfl⟩
  · exact (orderOk_iff v).2 (((orderOk_iff u).1 order).sublist sub)
  · exact deliverEdge_order inv (SameWorld.near before near) order i e

end Sys2Proof.TrackOrder
end

section
/-! CERTIFICATES. What an item keeps over a step (R32, R89), and the invariants right after reset. -/

namespace Sys2Proof.History

open Sys2Proof.Machine Sys2Proof.Safety Sys2Proof.Laws Sys2Proof.Effects Sys2Proof.TrackLaws

/-! ## Items that go on -/

/-- Every item of `t` was an item of `s` and has kept what an item keeps. -/
def Continues (s t : State) : Prop := ∀ jt ∈ t.trk.track, ∃ it ∈ s.trk.track, Kept it jt

theorem continues_of_track {s t : State} (h : t.trk.track = s.trk.track) : Continues s t :=
  fun jt hj => ⟨jt, h ▸ hj, Kept.refl jt⟩

theorem continues_empty {s t : State} (h : t.trk.track = []) : Continues s t := fun jt hj => by
  rw [h] at hj
  cases hj

theorem Continues.trans {s t u : State} (h : Continues s t) (k : Continues t u) : Continues s u := fun ju hj => by
  obtain ⟨jt, hj, kept⟩ := k ju hj
  obtain ⟨it, hi, before⟩ := h jt hj
  exact ⟨it, hi, Kept.trans before kept⟩

theorem continues_of_event {s t : State} (w : EventWork s t) (items : ItemsOk s) : Continues s t := w.work.items items

theorem entryTrailing_continues {s : State} (items : ItemsOk s) : Continues s (entryTrailing s) := by
  have clear : Continues s (setEntry .clear s) := continues_of_track rfl
  unfold entryTrailing
  split
  · exact continues_of_track rfl
  · exact clear
  rename_i g lead _
  dsimp only
  have measured := fun len => ZoneLaws.measure_work g len (setEntry .clear s)
  split
  · exact clear.trans (((measured _).trans (leave_work _ _ _)).items items)
  · exact clear.trans ((measured _).items items)

theorem endTeach_trk (run : TeachRun) (r : TeachResult) (stats : Option TeachStats) (a : Bool) (v : Option Status)
    (s : State) : (endTeach run r stats a v s).trk = s.trk := by
  simp [endTeach, setTeach]

theorem finishTeach_trk (run : TeachRun) (s : State) : (finishTeach run s).trk = s.trk := by
  unfold finishTeach
  split
  · rfl
  split
  · exact endTeach_trk ..
  split
  · unfold applyTeach
    dsimp only
    split
    · exact endTeach_trk ..
    split <;> exact endTeach_trk ..
  · exact endTeach_trk ..

theorem teachTargetEdge_trk (s : State) : (teachTargetEdge s).trk = s.trk := by
  unfold teachTargetEdge
  split
  · rfl
  · rfl
  dsimp only
  split
  · simp [finishTeach_trk, setTeach]
  · simp [setTeach]

theorem teachEntryEdge_trk (s : State) : (teachEntryEdge s).trk = s.trk := by
  unfold teachEntryEdge
  split
  · rfl
  · rfl
  · simp [setTeach]

theorem captureProbe_trk (i : Fin 8) (e : EdgeKind) (s : State) : (captureProbe i e s).trk = s.trk := by
  simp [captureProbe]

/-- Every receiver of an edge but the Entry Unit at a leading one. -/
theorem receiveEdge_continues (i : Fin 8) (e : EdgeKind) (r : EdgeReceiver) {s : State} (items : ItemsOk s)
    (entry : ¬(r = .entryUnit ∧ e = .leading)) : Continues s (receiveEdge i e r s) := by
  cases r with
  | probe => exact continues_of_track (congrArg TrkUnit.track (captureProbe_trk i e s))
  | entryUnit =>
    cases e with
    | leading => exact absurd ⟨rfl, rfl⟩ entry
    | trailing => exact entryTrailing_continues items
  | teachEntry => exact continues_of_track (congrArg TrkUnit.track (teachEntryEdge_trk s))
  | teachTarget => exact continues_of_track (congrArg TrkUnit.track (teachTargetEdge_trk s))
  | station k => exact (checkEdge_work k s).items items
  | source v => exact (lineEdge_work v s).items items

/-! ## Edges that create an item -/

/-- R35: a leading edge at the Entry Unit adds an item to the track, or none. -/
theorem entryLeading_grows {s : State} (items : ItemsOk s) : s.trk.track <+: (entryLeading s).trk.track := by
  have created : s.trk.track.length < 64 → s.trk.track <+: (createItem s).trk.track := fun room => by
    obtain ⟨-, -, -, next⟩ := items
    rw [createItem_trk s (newTag_fresh next room.le)]
    exact List.prefix_append _ _
  have attempt : s.trk.track <+: (entryAttempt s).trk.track := by
    unfold entryAttempt
    split
    · rw [faultCause_trk]
      exact List.prefix_refl _
    rename_i room
    have room : s.trk.track.length < 64 := Nat.not_le.1 room
    split
    · exact created room
    split
    · exact created room
    · rw [offer_trk]
      exact List.prefix_refl _
  unfold entryLeading
  split
  · split
    · exact attempt
    · exact attempt
    · exact List.prefix_refl _
  · exact List.prefix_refl _

/-- R17: what an input of role ENTRY passes an edge on to. -/
def ForEntry (r : EdgeReceiver) : Prop := r = .probe ∨ r = .entryUnit ∨ r = .teachEntry ∨ r = .teachTarget

theorem forEntry_of_actsOn {s : State} {i : Fin 8} {e : EdgeKind} {r : EdgeReceiver}
    (role : s.inp.inputs[i].role = .entry) (acts : Sensing.ActsOn s i e r) : ForEntry r := by
  cases r with
  | probe => exact .inl rfl
  | entryUnit => exact .inr (.inl rfl)
  | teachEntry => exact .inr (.inr (.inl rfl))
  | teachTarget => exact .inr (.inr (.inr rfl))
  | station k =>
    obtain ⟨check, -⟩ := acts
    rw [role] at check
    cases check
  | source v =>
    obtain ⟨verdict, -⟩ := acts
    rw [role] at verdict
    cases verdict

theorem receiveEdge_grows (i : Fin 8) {r : EdgeReceiver} {s : State} (items : ItemsOk s) (entry : ForEntry r) :
    s.trk.track <+: (receiveEdge i .leading r s).trk.track := by
  rcases entry with rfl | rfl | rfl | rfl
  · simp only [receiveEdge, captureProbe_trk, List.prefix_refl]
  · exact entryLeading_grows items
  · simp only [receiveEdge, teachEntryEdge_trk, List.prefix_refl]
  · simp only [receiveEdge, teachTargetEdge_trk, List.prefix_refl]

/-- The items of `s` are in the track of `t` as they were. -/
def Grows (s t : State) : Prop := ItemsOk t ∧ s.trk.track <+: t.trk.track

/-- R17: an edge adds items to the track, or every item goes on. -/
theorem deliverEdge_history (i : Fin 8) (e : EdgeKind) {s : State} (inv : TrackInv s) :
    Continues s (deliverEdge i e s) ∨ Grows s (deliverEdge i e s) := by
  by_cases entry : s.inp.inputs[i].role = .entry ∧ e = .leading
  · obtain ⟨role, rfl⟩ := entry
    obtain ⟨⟨items, -⟩, grown⟩ := deliverEdge_keeps (P := fun t => TrackInv t ∧ s.trk.track <+: t.trk.track)
      (fun t n ⟨ht, grown⟩ => ⟨(choice_punctual n t).inv ht, grown⟩)
      (fun r acts t ⟨ht, grown⟩ => ⟨receiveEdge_inv i .leading r ht,
        grown.trans (receiveEdge_grows i ht.1 (forEntry_of_actsOn role acts))⟩)
      ⟨inv, List.prefix_refl _⟩
    exact .inr ⟨items, grown⟩
  · have other : ∀ r, Sensing.ActsOn s i e r → ¬(r = .entryUnit ∧ e = .leading) := by
      rintro _ acts ⟨rfl, lead⟩
      exact entry ⟨acts, lead⟩
    obtain ⟨-, going⟩ := deliverEdge_keeps (P := fun t => TrackInv t ∧ Continues s t)
      (fun t n ⟨ht, going⟩ => ⟨(choice_punctual n t).inv ht, going⟩)
      (fun r acts t ⟨ht, going⟩ => ⟨receiveEdge_inv i e r ht,
        going.trans (receiveEdge_continues i e r ht.1 (other r acts))⟩)
      ⟨inv, continues_of_track rfl⟩
    exact .inl going

/-! ## The other effects -/

theorem applyCount_continues (c : RawCount) {s : State} (items : ItemsOk s) : Continues s (applyCount c s) := by
  cases c with
  | zero => exact continues_of_track rfl
  | up => exact continues_of_event (s := s.modPos PosUnit.forward) (forwardCount_event s) items
  | down => exact continues_of_event (s := s.modPos _) (backwardCount_event s) items
  | error => exact continues_of_event (s := s.modPos _) (encoderError_event s) items

theorem changeMode_continues (i : Fin 8) (m : StationMode) {s : State} (items : ItemsOk s) :
    Continues s (changeMode i m s) := by
  have set : Continues s (s.modStation i fun st => { st with record := { st.record with mode := m } }) :=
    continues_of_track rfl
  unfold changeMode
  dsimp only
  split
  · exact set.trans ((disableClose_work i _).items items)
  · exact set

theorem abortTeach_track (s : State) : (abortTeach s).trk.track = s.trk.track := by
  obtain ⟨-, trk, -⟩ := ZoneLaws.abortTeach_units s
  rw [trk]

theorem trackingStart_track (c : ZoneCause) (s : State) : (trackingStart c s).trk.track = s.trk.track := by
  obtain ⟨-, trk, -⟩ := trackingStart_spec c s
  rw [trk]

theorem enterEstop_track (c : ZoneCause) (s : State) : (enterEstop c s).trk.track = s.trk.track := by
  obtain ⟨-, -, trk, -⟩ := enterEstop_spec c s
  rw [trk]

theorem acceptEstop_track (s : State) : (acceptEstop s).trk.track = s.trk.track := by
  unfold acceptEstop estopAssert
  dsimp only
  split
  · rfl
  split
  · rfl
  · exact enterEstop_track _ _

/-- Every effect but an edge leaves no item that was not there before. -/
theorem effect_history {s t : State} (h : Effect s t) (inv : TrackInv s) : Continues s t ∨ Grows s t := by
  obtain ⟨items, -⟩ := id inv
  cases h with
  | edge i e => exact deliverEdge_history i e inv
  | none | snapshot | outputEnd | teach | source | pulse => exact .inl (continues_of_track rfl)
  | remove g _ => exact .inl ((leave_work g _ s).items items)
  | load p n k _ =>
    obtain ⟨stn, loaded⟩ := ZoneLaws.loadFrom_units p n k s
    exact .inl (continues_of_track (by rw [loaded]))
  | mode i m => exact .inl (changeMode_continues i m items)
  | verdict g v code _ => exact .inl ((fillVerdict_work g v code s).items items)
  | classify it cls found _ _ => exact .inl ((ZoneLaws.applyClassify_work cls (findItem_some found).1).items items)
  | arm => exact .inl (continues_of_track (by rw [enterZone_trk, abortTeach_track]))
  | start => exact .inl (continues_of_track (by rw [trackingStart_track, abortTeach_track]))
  | syncStart => exact .inl (continues_of_track (trackingStart_track _ s))
  | hold | resume => exact .inl (continues_of_track (by rw [enterZone_trk]))
  | toConfig =>
    obtain ⟨empty, -⟩ := flushToConfig_spec s
    exact .inl (continues_empty empty)
  | estop => exact .inl (continues_of_track (enterEstop_track _ s))
  | estopInput => exact .inl (continues_of_track (acceptEstop_track s))
  | abort => exact .inl (continues_of_track (abortTeach_track s))
  | count c => exact .inl (applyCount_continues c items)
  | reset => exact .inl (continues_empty rfl)

/-! ## The obligations -/

/-- Settles O54: each invariant holds in the state right after reset. -/
theorem invariantsAtReset : Obligations.InvariantsAtReset := by
  unfold Obligations.InvariantsAtReset State.reset
  exact ⟨HostLink.deviceReset_link quietPins (State.atReset quietPins), ZoneLaws.atReset_zoneInv _, atReset_trackInv _,
    .nil, Configuration.atReset_config _⟩

/-- Settles O60: a step adds items to the track or leaves items that go on; a tag names one item. -/
theorem itemHistory : Obligations.ItemHistory := by
  unfold Obligations.ItemHistory
  intro s t inv stepped it hi jt hj tag
  obtain ⟨u, v, before, made, after⟩ := step_change stepped
  have invU := TrackLaws.SameWorld.trackInv before inv
  rw [← before.track] at hi
  rw [after.track] at hj
  rcases effect_history made invU with going | ⟨items, grown⟩
  · obtain ⟨items, -⟩ := invU
    obtain ⟨x, hx, kept⟩ := going jt hj
    obtain rfl := unique_tag items hi hx (tag.symm.trans kept.1)
    exact kept
  · obtain rfl := unique_tag items hj (grown.subset hi) tag
    exact Kept.refl jt

end Sys2Proof.History
end

section
/-! CERTIFICATES. The requests of the Track Unit: SET_ZONE (R52), READ_ITEM (R53), REMOVE_ITEM (R49), DUMP_TRACK
(R55). -/

namespace Sys2Proof.TrackRequests

open Sys2Proof.Machine Sys2Proof.Safety Sys2Proof.Laws

/-! ## SET_ZONE (R52) -/

/-- R52: what zone validation asks of a station. -/
theorem zoneFits_iff (z : ZoneParams) (r : StationRec) :
    zoneFits z r = true ↔
      (r.kind ≠ .none → r.offset.toNat < z.trackEnd.toNat ∧ z.minLength.toNat < r.offset.toNat) ∧
        (r.kind = .eject ∨ r.kind = .mark → z.decisionLead.toNat + z.minLength.toNat < r.offset.toNat) ∧
        (r.kind = .check →
          r.offset.toNat + r.tolerance.toNat < z.trackEnd.toNat ∧
            2 * r.tolerance.toNat + z.minLength.toNat < r.offset.toNat) := by
  unfold zoneFits
  cases r.kind <;> simp [and_assoc]

/-- R52: what zone validation asks of a source. -/
theorem sourceFits_iff (s : State) (z : ZoneParams) (r : SourceRec) :
    sourceFits s z r = true ↔
      ∀ (i k : Fin 8) (w : BitVec 16) (a b : Fin 16), r = .line i k w a b →
        s.stn.stations[k].record.offset.toNat + w.toNat < z.trackEnd.toNat := by
  unfold sourceFits
  cases r with
  | message => simp
  | line i k w a b =>
    simp only [windowFits, decide_eq_true_eq, SourceRec.line.injEq]
    exact ⟨fun fits => by rintro _ _ _ _ _ ⟨rfl, rfl, rfl, rfl, rfl⟩; exact fits,
      fun fits => fits i k w a b ⟨rfl, rfl, rfl, rfl, rfl⟩⟩

/-- R52: a payload with a field out of range. -/
theorem zoneOfBytes_none {p : List Byte}
    (range : u16 p 0 = 0 ∨ (u32 p 2).toNat < (u16 p 0).toNat ∨ 1000000 < (u32 p 2).toNat ∨ u32 p 6 = 0 ∨
      4000000 < (u32 p 6).toNat ∨ u16 p 12 = 0 ∨ 16 ≤ (byteAt p 14).toNat) : zoneOfBytes p = none := by
  refine Option.eq_none_iff_forall_ne_some.2 fun z read => ?_
  simp only [zoneOfBytes, Option.bind_eq_bind, Option.bind_eq_some_iff, Option.ite_none_right_eq_some,
    Option.some.injEq, Bool.and_eq_true, decide_eq_true_eq, and_assoc] at read
  obtain ⟨cls, inRange, minOne, minMax, maxTop, endOne, endTop, limitOne, -⟩ := read
  have maxTop : (u32 p 2).toNat ≤ 1000000 := maxTop
  have endTop : (u32 p 6).toNat ≤ 4000000 := endTop
  rcases range with h | h | h | h | h | h | h
  · simp [h] at minOne
  · omega
  · omega
  · simp [h] at endOne
  · omega
  · simp [h] at limitOne
  · rw [asFin_none h] at inRange
    cases inRange

theorem exec_setZone_taken {s : State} (tag : Byte) (p : List Byte) (h : Taken s) :
    exec (.setZone tag p) s = .next (reqSetZone tag p s) := congrArg _ (takeFrame_taken h)

/-- Settles O19: the query form, the refusals in the order of the checks, then the full form. -/
theorem setZoneResult : Obligations.SetZoneResult := by
  unfold Obligations.SetZoneResult
  intro tag p s taken refused fits
  have request := exec_setZone_taken tag p taken
  have refuses : ∀ st, reqSetZone tag p s = answer 0x10 tag st s.trk.params.bytes s → refused st := fun st answers =>
    request.trans (congrArg _ answers)
  refine ⟨fun query => refuses _ (if_pos query), fun more short => refuses _ ?_, fun full zone => refuses _ ?_,
    fun full zone range => refuses _ ?_, fun z sent ok zone => ?_⟩
  · exact (if_neg more).trans (if_pos short)
  · have more : p ≠ [] := by rintro rfl; cases full
    exact (if_neg more).trans ((if_neg (not_not.2 full)).trans (if_pos zone))
  · have more : p ≠ [] := by rintro rfl; cases full
    simp only [reqSetZone, if_neg more, if_neg (not_not.2 full), if_neg (not_not.2 zone), zoneOfBytes_none range]
  · have full : p.length = 15 := by simp [sent, ZoneParams.bytes]
    have more : p ≠ [] := by rintro rfl; cases full
    have read : zoneOfBytes p = some z := sent ▸ Records.zoneOfBytes_bytes ok
    have valid : zoneValid s z = true ↔ fits z := by
      rw [Configuration.zoneValid_iff]
      simp only [zoneFits_iff, sourceFits_iff]
      rfl
    have result : reqSetZone tag p s =
        if zoneValid s z then answer 0x10 tag .ok z.bytes (s.modTrk fun t => { t with params := z })
        else answer 0x10 tag .conflict s.trk.params.bytes s := by
      simp only [reqSetZone, if_neg more, if_neg (not_not.2 full), if_neg (not_not.2 zone), read]
      rfl
    refine ⟨fun fit => request.trans (congrArg _ ?_), fun misfit => refuses _ ?_⟩
    · rw [result, if_pos (valid.2 fit), sent]
      rfl
    · rw [result, if_neg (mt valid.1 misfit)]

/-! ## READ_ITEM (R53) and REMOVE_ITEM (R49) -/

section Items

variable {s : State} (tag : Byte) {p : List Byte} {g : Tag}

theorem exec_readItem_taken (p : List Byte) (h : Taken s) : exec (.readItem tag p) s = .next (reqReadItem tag p s) :=
  congrArg _ (takeFrame_taken h)

theorem exec_removeItem_taken (p : List Byte) (h : Taken s) :
    exec (.removeItem tag p) s = .next (reqRemoveItem tag p s) := congrArg _ (takeFrame_taken h)

theorem u16_le (g : Tag) : u16 (le 2 g) 0 = g := u16_head g []

/-- R53: past the checks of the payload, READ_ITEM looks for the item. -/
theorem reqReadItem_lookup (nonzero : g ≠ 0) :
    reqReadItem tag (le 2 g) s =
      (s.findItem g).elim (answer 0x11 tag .unknownItem [] s) fun it => answer 0x11 tag .ok it.bytes s := by
  unfold reqReadItem
  rw [u16_le, if_neg (by simp), if_neg nonzero]
  cases s.findItem g <;> rfl

/-- R49: past the other checks, REMOVE_ITEM looks for the item. -/
theorem reqRemoveItem_lookup (tracks : Tracks s) (nonzero : g ≠ 0) :
    reqRemoveItem tag (le 2 g) s =
      (s.findItem g).elim (answer 0x13 tag .unknownItem [] s) fun _ =>
        answer 0x13 tag .ok (le 2 g ++ le 4 s.here) (leave g .removed s) := by
  unfold reqRemoveItem
  rw [u16_le, if_neg (by simp), if_neg (by simp [(Position.tracks_iff s).2 tracks]), if_neg nonzero]
  cases s.findItem g <;> rfl

theorem findItem_none (h : g ∉ tags s) : s.findItem g = none :=
  List.find?_eq_none.2 fun x hx e => h ((by simpa using e : x.tag = g) ▸ List.mem_map_of_mem hx)

/-- The first item of the track that carries the tag. -/
theorem findItem_first {older newer : List Item} {it : Item} (h : s.trk.track = older ++ it :: newer)
    (carries : it.tag = g) (before : ∀ x ∈ older, x.tag ≠ g) : s.findItem g = some it := by
  have absent : older.find? (fun x => x.tag = g) = none := List.find?_eq_none.2 fun x hx => by simpa using before x hx
  simp [State.findItem, h, List.find?_append, absent, carries]

end Items

/-- Settles O20: the refusals in the order of the checks, then the look-up. -/
theorem itemRequestsResult : Obligations.ItemRequestsResult := by
  unfold Obligations.ItemRequestsResult
  intro tag p s taken read refused
  have reads := exec_readItem_taken tag p taken
  have removes := exec_removeItem_taken tag p taken
  have noTracks : ¬Tracks s → (!s.zon.zone.tracks) = true := fun still => by
    simpa using mt (Position.tracks_iff s).1 still
  have allowed : Tracks s → ¬(!s.zon.zone.tracks) = true := fun tracks => by simp [(Position.tracks_iff s).2 tracks]
  refine ⟨fun short => ⟨reads.trans (congrArg _ (if_pos short)), removes.trans (congrArg _ (if_pos short))⟩, ?_,
    fun full still => ?_, ?_, fun g nonzero sent => ⟨fun absent => ⟨?_, fun tracks => ?_⟩, ?_, fun there tracks => ?_⟩⟩
  · rintro rfl
    exact reads.trans (congrArg _ ((if_neg (by simp)).trans (if_pos rfl)))
  · exact removes.trans (congrArg _ ((if_neg (not_not.2 full)).trans (if_pos (noTracks still))))
  · rintro rfl tracks
    exact removes.trans (congrArg _ ((if_neg (by simp)).trans ((if_neg (allowed tracks)).trans (if_pos rfl))))
  all_goals subst sent
  · rw [reqReadItem_lookup tag nonzero, findItem_none absent] at reads
    exact reads
  · rw [reqRemoveItem_lookup tag tracks nonzero, findItem_none absent] at removes
    exact removes
  · intro older it newer place carries before
    rw [reqReadItem_lookup tag nonzero, findItem_first place carries before] at reads
    exact reads
  · obtain ⟨it, hm, carries⟩ := List.mem_map.1 there
    obtain ⟨x, found⟩ := Option.isSome_iff_exists.1 (List.find?_isSome (p := fun x : Item => x.tag = g).2
      ⟨it, hm, by simpa using carries⟩)
    rw [reqRemoveItem_lookup tag tracks nonzero, show s.findItem g = some x from found] at removes
    exact removes

/-! ## DUMP_TRACK (R55) -/

theorem exec_dumpTrack_taken {s : State} (tag : Byte) (p : List Byte) (h : Taken s) :
    exec (.dumpTrack tag p) s = .next (reqDumpTrack tag p s) := congrArg _ (takeFrame_taken h)

/-- Settles O25: the refusals in the order of the checks, then the snapshot, the stream and the reply that marks it. -/
theorem dumpTrackResult : Obligations.DumpTrackResult := by
  unfold Obligations.DumpTrackResult
  intro tag p s taken
  have request := exec_dumpTrack_taken tag p taken
  refine ⟨fun more => request.trans (congrArg _ (if_pos more)), ?_, ?_⟩
  · rintro rfl streaming
    exact request.trans (congrArg _ ((if_neg (by simp)).trans (if_pos (Option.isSome_iff_ne_none.2 streaming))))
  · rintro rfl idle
    exact request.trans (congrArg _ ((if_neg (by simp)).trans (if_neg (by simp [idle]))))

end Sys2Proof.TrackRequests
end

section
/-! CERTIFICATES. The Entry Unit at an edge (R33 to R40): what a creation writes, and the measuring of an item. -/

namespace Sys2Proof.EntryEdges

open Sys2Proof.Machine Sys2Proof.Safety Sys2Proof.Laws

/-! ## Offers and the link -/

/-- The link after a notice has been offered. -/
def offered (n : Notice) (l : LnkUnit) : LnkUnit :=
  if l.settings[n.kind.index].enabled then l.enqueue ⟨l.settings[n.kind.index].level, n⟩ else l

/-- R143: an offer looks at the link and changes the link. -/
theorem offer_eq_offered (n : Notice) (s : State) : offer n s = { s with lnk := offered n s.lnk } := by
  unfold offer offered
  dsimp only
  split <;> rfl

/-! ## The tag of a created item (R36) -/

theorem freeTag_iterate (l : List Item) (n : Nat) (t : Tag) :
    ∃ k, freeTag l n t = advanceTag^[k] t ∧ ∀ j < k, advanceTag^[j] t ∈ l.map Item.tag := by
  induction n generalizing t with
  | zero => exact ⟨0, rfl, nofun⟩
  | succ n ih =>
    unfold freeTag
    split
    · rename_i taken
      obtain ⟨it, hm, carries⟩ := List.any_eq_true.1 taken
      obtain ⟨k, found, skipped⟩ := ih (advanceTag t)
      refine ⟨k + 1, found, fun j hj => ?_⟩
      cases j with
      | zero => exact (of_decide_eq_true carries) ▸ List.mem_map_of_mem hm
      | succ j => exact skipped j (by omega)
    · exact ⟨0, rfl, nofun⟩

/-! ## What a creation writes (R37) -/

/-- R37: the outcomes of a created item. -/
theorem freshOutcomes_eq (stations : Vector Station 8) (c : ClassRec) :
    freshOutcomes stations c =
      ((List.finRange 8).filter fun k => c.hasMember k && stations[k].record.kind != .none).map fun k =>
        ⟨k, .pending⟩ := by
  simp only [freshOutcomes, Stations.defined_eq]

/-- R37, R64, R70: a cursor that held no item takes the created one, according to the kind of its station. -/
theorem itemCreated_eq (g : Tag) (st : Station) :
    st.itemCreated g =
      { st with
        cursor := if st.record.kind ≠ .none ∧ st.record.kind ≠ .check ∧ st.cursor = none then some g else st.cursor
        opening := if st.record.kind = .check ∧ st.opening = none then some g else st.opening } := by
  have fires : (st.record.kind.fires && st.cursor.isNone) = true ↔
      st.record.kind ≠ .none ∧ st.record.kind ≠ .check ∧ st.cursor = none := by
    cases st.record.kind <;> simp [StationKind.fires]
  simp only [Station.itemCreated, fires, Bool.and_eq_true, decide_eq_true_eq, Option.isNone_iff_eq_none]

/-- R37: a creation, with the item as it is entered and the DECISION that a class without sources brings about. -/
theorem createItem_eq {s : State} (fresh : newTag s ∉ tags s) :
    let it := newItem s (newTag s)
    let created : State :=
      { s with
        trk :=
          { s.trk with
            track := s.trk.track ++ [if it.snapshot.required = 0 then decidedItem it .noneRequired s.now else it]
            nextTag := advanceTag (newTag s), entry := .measuring (newTag s) s.here }
        stn := { s.stn with stations := mapAll s.stn.stations fun _ st => st.itemCreated (newTag s) } }
    let announced := offer (.entry s.now (newTag s) it.cls s.here) created
    createItem s = if it.snapshot.required = 0 then announceDecision it .noneRequired announced else announced := by
  intro it created announced
  obtain ⟨u, form, made⟩ := createItem_cases s fresh
  rw [made]
  rcases form with ⟨rfl, verdicts⟩ | ⟨unrequired, rfl⟩
  · simp only [announced, created, it, if_neg verdicts, enteredState, offer_eq_offered]
    rfl
  · have undecided : (newItem s (newTag s)).decision = none := rfl
    simp only [announced, created, it, if_pos unrequired, enteredState, offer_eq_offered, announceDecision, decidedItem,
      if_pos undecided, State.modItem, State.modTrk, State.modStn]
    rw [modItem_new s fresh (newItem s (newTag s)) rfl]
    rfl

/-! ## The tests of a leading edge (R34, R35) -/

theorem entryLeading_idle {s : State} (still : ¬Tracks s) : entryLeading s = setEntry .untracked s :=
  if_neg (mt (Position.tracks_iff s).1 still)

theorem entryLeading_attempt {s : State} (tracks : Tracks s) (free : s.trk.entry = .clear ∨ s.trk.entry = .untracked) :
    entryLeading s = entryAttempt s := by
  refine (if_pos ((Position.tracks_iff s).2 tracks)).trans ?_
  rcases free with h | h <;> rw [h]

theorem entryAttempt_full {s : State} (full : 64 ≤ s.trk.track.length) :
    entryAttempt s = faultCause .trackFull (setEntry .untracked s) := if_pos full

theorem entryAttempt_stray {s : State} (room : s.trk.track.length < 64) {newest : Item}
    (last : s.trk.track.getLast? = some newest) (behind : ahead s.here newest.entryPos = false) :
    entryAttempt s = offer (.stray s.now .entry s.here) (setEntry .untracked s) := by
  refine (if_neg (Nat.not_le.2 room)).trans ?_
  rw [last]
  exact if_neg (by simp [behind])

theorem entryAttempt_creates {s : State} (room : s.trk.track.length < 64)
    (front : ∀ newest, s.trk.track.getLast? = some newest → ahead s.here newest.entryPos = true) :
    entryAttempt s = createItem s := by
  refine (if_neg (Nat.not_le.2 room)).trans ?_
  cases last : s.trk.track.getLast? with
  | none => rfl
  | some newest => exact if_pos (front newest last)

/-! ## The obligation -/

/-- Settles O17: the cases of R35 one by one; a creation by what it writes; the trailing edge by the state of the
Entry Unit. -/
theorem entryEdgeResult : Obligations.EntryEdgeResult := by
  unfold Obligations.EntryEdgeResult
  intro s tagged untracked clear next
  refine ⟨fun free => ⟨entryLeading_idle, fun tracks full => ?_, fun tracks room newest last behind => ?_,
    fun tracks room front => ?_⟩, fun h => ?_, fun h => ?_, fun tag lead h => ?_⟩
  · exact (entryLeading_attempt tracks free).trans (entryAttempt_full full)
  · exact (entryLeading_attempt tracks free).trans (entryAttempt_stray room last behind)
  · obtain ⟨k, found, skipped⟩ := freeTag_iterate s.trk.track (Config.trackCapacity + 1) s.trk.nextTag
    have fresh : newTag s ∉ tags s := newTag_fresh tagged room.le
    refine ⟨newTag s, k, found, skipped, fresh, ?_⟩
    rw [entryLeading_attempt tracks free, entryAttempt_creates room front, createItem_eq fresh]
    have item : newItem s (newTag s) = { newItem s (newTag s) with
        outcomes := ((List.finRange 8).filter fun k =>
          s.vrd.classes[s.trk.params.defaultClass].hasMember k && s.stn.stations[k].record.kind != .none).map fun k =>
            ⟨k, .pending⟩ } := by
      rw [← freshOutcomes_eq]
      rfl
    simp only [itemCreated_eq]
    rw [item]
    rfl
  · simp only [entryTrailing, h]
  · simp only [entryTrailing, h]
    rfl
  · intro len measured
    have result : entryTrailing s = if len.toNat < s.trk.params.minLength.toNat then leave tag .short measured
        else measured := by
      simp only [entryTrailing, h]
      rfl
    exact ⟨fun long => result.trans (if_neg (by omega)), fun short => result.trans (if_pos short)⟩

end Sys2Proof.EntryEdges
end

section
/-! CERTIFICATES. Slots, the dispositions that the reasons of a decision give (R87 to R91), and the deadline (R38). -/

namespace Sys2Proof.Decisions

open Sys2Proof.Machine Sys2Proof.Safety Sys2Proof.Laws

/-! ## Slots (R87, R93, R94) -/

/-- R93, R94: what a code makes of the slot of its source. -/
theorem fill_eq (v : Fin 4) (code : Fin 16) (sl : Slot) :
    (if sl.source = v then sl.fill code else sl) =
      if sl.source = v ∧ sl.state = .pending then ⟨v, .set code⟩
      else if sl.source = v ∧ sl.state = .timedOut then ⟨v, .late code⟩ else sl := by
  obtain ⟨source, state⟩ := sl
  by_cases own : source = v
  · subst own
    cases state <;> simp [Slot.fill]
  · simp [own]

theorem isSet_iff (sl : Slot) : sl.isSet = true ↔ ∃ c, sl.state = .set c := by
  unfold Slot.isSet
  cases sl.state <;> simp

theorem allSet_iff (it : Item) : it.allSet = true ↔ ∀ sl ∈ it.slots, ∃ c, sl.state = .set c := by
  simp only [Item.allSet, List.all_eq_true, isSet_iff]

/-- R88: the mapped dispositions of the SET slots. -/
theorem mem_mapped (it : Item) (d : Disposition) :
    d ∈ it.slots.filterMap it.mapped ↔ ∃ sl ∈ it.slots, ∃ c, sl.state = .set c ∧ it.snapshot.codeMap[c] = d := by
  have mapped : ∀ sl, it.mapped sl = some d ↔ ∃ c, sl.state = .set c ∧ it.snapshot.codeMap[c] = d := fun sl => by
    unfold Item.mapped
    cases sl.state <;> simp
  simp only [List.mem_filterMap, mapped]

/-! ## The most severe disposition (R88, Table 5-2) -/

theorem foldl_worse_reject (ds : List Disposition) (d : Disposition) :
    ds.foldl Disposition.worse d = .reject ↔ d = .reject ∨ .reject ∈ ds := by
  induction ds generalizing d with
  | nil => simp
  | cons e ds ih =>
    rw [List.foldl_cons, ih]
    cases d <;> cases e <;> simp [Disposition.worse, Disposition.severity]

theorem foldl_worse_accept (ds : List Disposition) (d : Disposition) :
    ds.foldl Disposition.worse d = .accept ↔ d = .accept ∧ ∀ e ∈ ds, e = .accept := by
  induction ds generalizing d with
  | nil => simp
  | cons e ds ih =>
    rw [List.foldl_cons, ih]
    cases d <;> cases e <;> simp [Disposition.worse, Disposition.severity]

theorem mostSevere_reject {ds : List Disposition} (h : .reject ∈ ds) : mostSevere ds = .reject :=
  (foldl_worse_reject ds .accept).2 (.inr h)

theorem mostSevere_rework {ds : List Disposition} (none : .reject ∉ ds) (h : .rework ∈ ds) :
    mostSevere ds = .rework := by
  have notReject : mostSevere ds ≠ .reject := fun e => none (((foldl_worse_reject ds .accept).1 e).resolve_left nofun)
  have notAccept : mostSevere ds ≠ .accept := fun e => by
    obtain ⟨-, all⟩ := (foldl_worse_accept ds .accept).1 e
    cases all _ h
  cases e : mostSevere ds with
  | accept => exact absurd e notAccept
  | rework => rfl
  | reject => exact absurd e notReject

theorem mostSevere_accept {ds : List Disposition} (noReject : .reject ∉ ds) (noRework : .rework ∉ ds) :
    mostSevere ds = .accept := by
  refine (foldl_worse_accept ds .accept).2 ⟨rfl, fun e he => ?_⟩
  cases e with
  | accept => rfl
  | rework => exact absurd he noRework
  | reject => exact absurd he noReject

/-- Table 5-2: the dispositions that a reason takes into account. -/
def considered (it : Item) (r : Reason) : List Disposition :=
  match r with
  | .complete => it.slots.filterMap it.mapped
  | .deadline | .atExit => it.snapshot.fallback :: it.slots.filterMap it.mapped
  | .noneRequired => [it.snapshot.fallback]

/-- R88, Table 5-2: a reason gives the most severe disposition that it takes into account. -/
theorem combine_eq (it : Item) (r : Reason) : it.combine r = mostSevere (considered it r) := by
  cases r with
  | noneRequired =>
    unfold Item.combine considered mostSevere
    cases it.snapshot.fallback <;> rfl
  | complete | deadline | atExit => rfl

/-! ## The deadline (R38) -/

/-- R38: an EJECT or MARK station of the class. -/
def Sorts (s : State) (c : ClassRec) (i : Fin 8) : Prop :=
  c.hasMember i = true ∧ (s.stn.stations[i].record.kind = .eject ∨ s.stn.stations[i].record.kind = .mark)

theorem mem_sortOffsets (s : State) (c : ClassRec) (n : Nat) :
    n ∈ sortOffsets s.stn.stations c ↔ ∃ i, Sorts s c i ∧ s.stn.stations[i].record.offset.toNat = n := by
  simp only [sortOffsets, List.mem_filterMap, List.mem_finRange, true_and, Option.ite_none_right_eq_some,
    Option.some.injEq, Sorts, StationKind.sorts, Bool.and_eq_true, Bool.or_eq_true, decide_eq_true_eq]

theorem deadlineOf_none {s : State} {c : ClassRec} (h : ∀ i, ¬Sorts s c i) (e : Pos) : deadlineOf s e c = none := by
  have empty : sortOffsets s.stn.stations c = [] := List.eq_nil_iff_forall_not_mem.2 fun n hn => by
    obtain ⟨i, sorts, -⟩ := (mem_sortOffsets s c n).1 hn
    exact h i sorts
  rw [deadlineOf, empty]
  rfl

theorem deadlineOf_least {s : State} {c : ClassRec} {i : Fin 8} (sorts : Sorts s c i)
    (least : ∀ j, Sorts s c j → s.stn.stations[i].record.offset.toNat ≤ s.stn.stations[j].record.offset.toNat)
    (e : Pos) :
    deadlineOf s e c = some (e + s.stn.stations[i].record.offset - s.trk.params.decisionLead.setWidth 32) := by
  have first : (sortOffsets s.stn.stations c).min? = some s.stn.stations[i].record.offset.toNat := by
    refine List.min?_eq_some_iff.2 ⟨(mem_sortOffsets s c _).2 ⟨i, sorts, rfl⟩, fun n hn => ?_⟩
    obtain ⟨j, other, rfl⟩ := (mem_sortOffsets s c n).1 hn
    exact least j other
  rw [deadlineOf, first, Option.map_some, BitVec.ofNat_toNat, BitVec.setWidth_eq]

/-! ## The obligation -/

/-- Settles O34: slots one by one; a reason by the dispositions it takes into account; the deadline by the least
offset. -/
theorem slotsAndDecisions : Obligations.SlotsAndDecisions := by
  unfold Obligations.SlotsAndDecisions
  refine ⟨fun it v code => ⟨?_, rfl, rfl, allSet_iff _⟩,
    ⟨fun it r => ?_, fun s it r hm items => Stations.decideItem_eq items hm r,
      fun s it hm items => ⟨fun undecided => ?_, Stations.takeDeadline_decided items hm⟩⟩,
    fun s e c => ⟨fun none => deadlineOf_none none e, fun i sorts least => deadlineOf_least sorts least e⟩⟩
  · exact List.map_congr_left fun sl _ => fill_eq v code sl
  · intro mapped among
    have mem : ∀ d, d ∈ considered it r ↔ among d := fun d => by
      cases r with
      | complete => exact mem_mapped it d
      | deadline | atExit => exact List.mem_cons.trans (or_comm.trans (or_congr (mem_mapped it d) eq_comm))
      | noneRequired => exact List.mem_singleton.trans eq_comm
    rw [combine_eq]
    simp only [← mem]
    exact ⟨mostSevere_reject, mostSevere_rework, mostSevere_accept⟩
  · rw [← Stations.timeOutSlots_eq]
    exact Stations.takeDeadline_undecided items hm undecided

end Sys2Proof.Decisions
end

section
/-! CERTIFICATES. A correction request and what it sets in motion (R43 to R45, R79). -/

namespace Sys2Proof.Corrections

open Sys2Proof.Machine Sys2Proof.Safety Sys2Proof.Laws

/-! ## What follows a correction, step by step (R45) -/

section Absent

variable {s : State} {g : Tag}

theorem settleDeadline_absent (h : g ∉ tags s) : settleDeadline g s = s := by
  simp only [settleDeadline, TrackRequests.findItem_none h, Option.bind_none]

theorem settleRetirement_absent (h : g ∉ tags s) : settleRetirement g s = s := by
  simp only [settleRetirement, TrackRequests.findItem_none h]

theorem settleStation_absent (h : g ∉ tags s) (i : Fin 8) : settleStation g s i = s := by
  simp only [settleStation, TrackRequests.findItem_none h]

theorem requestCorrection_absent (h : g ∉ tags s) (c : Int) : requestCorrection g c s = s := by
  simp only [requestCorrection, TrackRequests.findItem_none h]

end Absent

section Present

variable {s : State} {it : Item} (items : ItemsOk s) (hm : it ∈ s.trk.track)

include items hm

/-- R45 step 1. -/
theorem settleDeadline_eq :
    settleDeadline it.tag s =
      it.deadline.elim s fun d => if ahead d s.pos.position then s else takeDeadline it.tag s := by
  unfold settleDeadline
  rw [findItem_eq items hm, Option.bind_some]
  cases it.deadline <;> rfl

/-- R45 step 3. -/
theorem settleRetirement_eq :
    settleRetirement it.tag s =
      if ahead (it.entryPos + s.trk.params.trackEnd) s.pos.position then s else retire it.tag s := by
  unfold settleRetirement
  rw [findItem_eq items hm]
  rfl

/-- R45 step 2, at a station that fires. -/
theorem settleStation_fires {i : Fin 8} (fires : s.stn.stations[i].record.kind = .eject ∨
    s.stn.stations[i].record.kind = .mark ∨ s.stn.stations[i].record.kind = .trigger) :
    settleStation it.tag s i =
      if s.stn.stations[i].cursor = some it.tag ∧
          ahead (it.entryPos + s.stn.stations[i].record.offset) s.pos.position = false then
        processStation i true s
      else s := by
  unfold settleStation
  dsimp only
  rw [findItem_eq items hm]
  rcases fires with h | h | h
  all_goals
    simp only [h, Bool.and_eq_true, decide_eq_true_eq, Bool.not_eq_true']
    rfl

/-- R45 step 2, at a CHECK station. -/
theorem settleStation_check {i : Fin 8} (check : s.stn.stations[i].record.kind = .check) :
    (OpeningDue i it s → settleStation it.tag s i = lateOpen i s.trk.track.length s) ∧
      (¬OpeningDue i it s → settleStation it.tag s i = s) := by
  have due : OpeningDue i it s ↔ s.stn.stations[i].opening = some it.tag ∧
      ahead (it.openPos s.stn.stations[i].record) s.here = false := and_iff_right hm
  have result : settleStation it.tag s i =
      if s.stn.stations[i].opening = some it.tag ∧ ahead (it.openPos s.stn.stations[i].record) s.here = false then
        lateOpen i s.trk.track.length s
      else s := by
    unfold settleStation
    dsimp only
    rw [findItem_eq items hm]
    simp only [check, Bool.and_eq_true, decide_eq_true_eq, Bool.not_eq_true']
  rw [due, result]
  exact ⟨fun h => if_pos h, fun h => if_neg h⟩

/-- R45 step 2: a station of kind NONE acts on nothing. -/
theorem settleStation_none {i : Fin 8} (none : s.stn.stations[i].record.kind = .none) :
    settleStation it.tag s i = s := by
  unfold settleStation
  dsimp only
  rw [findItem_eq items hm]
  simp only [none]

/-- R45: an item none of whose positions has been reached. -/
theorem settleCorrection_early (deadline : ∀ d, it.deadline = some d → ahead d s.pos.position = true)
    (cursors : ∀ k : Fin 8, s.stn.stations[k].cursor = some it.tag →
      ahead (it.entryPos + s.stn.stations[k].record.offset) s.pos.position = true)
    (openings : ∀ k : Fin 8, s.stn.stations[k].opening = some it.tag →
      ahead (it.openPos s.stn.stations[k].record) s.pos.position = true)
    (retirement : ahead (it.entryPos + s.trk.params.trackEnd) s.pos.position = true) :
    settleCorrection it.tag s = s := by
  have first : settleDeadline it.tag s = s := by
    rw [settleDeadline_eq items hm]
    cases e : it.deadline with
    | none => rfl
    | some d => exact if_pos (deadline d e)
  have station : ∀ i, settleStation it.tag s i = s := fun i => by
    have fires : ∀ h, settleStation it.tag s i = s := fun h =>
      (settleStation_fires items hm (i := i) h).trans (if_neg fun ⟨cursor, due⟩ => by
        rw [cursors i cursor] at due
        cases due)
    cases kind : s.stn.stations[i].record.kind with
    | none => exact settleStation_none items hm kind
    | eject => exact fires (.inl kind)
    | mark => exact fires (.inr (.inl kind))
    | trigger => exact fires (.inr (.inr kind))
    | check =>
      refine (settleStation_check items hm kind).2 fun ⟨_, opening, due⟩ => ?_
      have early := openings i opening
      rw [Item.openPos, due] at early
      cases early
  have stations : ∀ l : List (Fin 8), l.foldl (settleStation it.tag) s = s := by
    intro l
    induction l with
    | nil => rfl
    | cons i l ih => rw [List.foldl_cons, station, ih]
  rw [settleCorrection, first, stations, settleRetirement_eq items hm, if_pos retirement]

end Present

/-! ## The request (R43, R44) -/

section Request

variable {s : State} {older newer : List Item} {it : Item} (items : ItemsOk s)
  (place : s.trk.track = older ++ it :: newer) (c : Int)

include items place

/-- R43: what a correction request does, by the two neighbours of the item. -/
theorem requestCorrection_eq :
    requestCorrection it.tag c s =
      if betweenNeighbours s.trk.track it.tag (it.entryPos + BitVec.ofInt 32 c) then
        settleCorrection it.tag (replaceItem (it.correct c) s)
      else replaceItem { it with flags := { it.flags with anchorRefused := true } } s := by
  have hm := Stations.mem_of_place place
  have moved := Position.modItem_eq_replaceItem items hm (Item.correct c) rfl
  have refused := Position.modItem_eq_replaceItem items hm
    (fun x => { x with flags := { x.flags with anchorRefused := true } }) rfl
  rw [← moved, ← refused]
  unfold requestCorrection
  rw [findItem_eq items hm]

end Request

/-! ## The obligation -/

/-- Settles O22: the request by the item's neighbours; the settling step by step. -/
theorem correctionRule : Obligations.CorrectionRule := by
  unfold Obligations.CorrectionRule
  refine ⟨fun s g c items => ⟨fun absent => requestCorrection_absent absent c, ?_⟩, fun s g => rfl,
    fun s g absent => ⟨settleDeadline_absent absent, settleRetirement_absent absent, settleStation_absent absent⟩,
    fun s it items hm => ?_⟩
  · rintro older newer it place rfl e allowed moved
    have hm := Stations.mem_of_place place
    have between := TrackOrder.betweenNeighbours_place items place e
    have request := requestCorrection_eq items place c
    have corrected : allowed → requestCorrection it.tag c s = settleCorrection it.tag (replaceItem moved s) := fun h =>
      request.trans (if_pos (between.2 h))
    refine ⟨fun h => request.trans (if_neg (mt between.1 h)), corrected,
      fun h deadline cursors openings retirement => (corrected h).trans ?_⟩
    exact settleCorrection_early (it := moved) (Stations.itemsOk_replaceItem items hm rfl rfl)
      (Stations.mem_replaceItem hm rfl) deadline cursors openings retirement
  · intro due
    refine ⟨fun ⟨d, has, reached⟩ => ?_, fun early => ?_, fun reached => ?_, fun early => ?_, fun i => ?_⟩
    · rw [settleDeadline_eq items hm, has]
      exact if_neg (Bool.eq_false_iff.1 reached)
    · rw [settleDeadline_eq items hm]
      cases has : it.deadline with
      | none => rfl
      | some d => exact if_pos (by simpa [due] using early d has)
    · exact (settleRetirement_eq items hm).trans (if_neg (Bool.eq_false_iff.1 reached))
    · exact (settleRetirement_eq items hm).trans (if_pos (by simpa [due] using early))
    · refine ⟨fun fires cursor reached => ?_, fun fires early => ?_, fun check opens => ?_, fun check early => ?_,
        settleStation_none items hm⟩
      · exact (settleStation_fires items hm fires).trans (if_pos ⟨cursor, reached⟩)
      · exact (settleStation_fires items hm fires).trans (if_neg early)
      · rw [(settleStation_check items hm check).1 opens]
        exact ⟨lateOpen_many i _ items, lateOpen_done i _ items (rank_le _ _)⟩
      · exact (settleStation_check items hm check).2 early

end Sys2Proof.Corrections
end

section
/-! CERTIFICATES. Leaving the track (R46 to R48, R51), and STOP and CLEAR, which flush it (R129, R132). -/

namespace Sys2Proof.Leaving

open Sys2Proof.Machine Sys2Proof.Safety Sys2Proof.Laws Sys2Proof.EntryEdges

/-! ## One item leaves (R46) -/

section Place

variable {s : State} {older newer : List Item} {it : Item} (items : ItemsOk s)
  (place : s.trk.track = older ++ it :: newer)

include items place

/-- R46: the blocks after an item has been taken out of its place. -/
theorem takeOut_place :
    takeOut it.tag s =
      { s with
        trk := { s.trk with track := older ++ newer, entry := s.trk.entry.itemLeft it.tag }
        stn :=
          { s.stn with
            stations := mapAll s.stn.stations fun _ st => st.itemLeft it.tag (newer.head?.map Item.tag) }
        vrd := { s.vrd with sources := mapAll s.vrd.sources fun _ src => src.itemLeft it.tag } } := by
  have other := Stations.tag_ne_of_place items place
  have rest : (s.trk.track.filter fun x => x.tag ≠ it.tag) = older ++ newer := by
    rw [place, List.filter_append, List.filter_cons_of_neg (by simp),
      List.filter_eq_self.2 fun x hx => decide_eq_true (other x (List.mem_append_left _ hx)),
      List.filter_eq_self.2 fun x hx => decide_eq_true (other x (List.mem_append_right _ hx))]
  rw [← rest, ← Stations.newerThan_place items place]
  rfl

/-- R46, R47: a leaving, with its ITEM_DONE notice. -/
theorem leave_place (reason : ExitReason) :
    leave it.tag reason s = offer (.itemDone s.now s.here { it with exit := reason }) (takeOut it.tag s) := by
  unfold leave
  rw [findItem_eq items (Stations.mem_of_place place)]

end Place

theorem leave_absent {s : State} {g : Tag} (h : g ∉ tags s) (reason : ExitReason) : leave g reason s = s := by
  simp only [leave, TrackRequests.findItem_none h]

/-- R46: what a leaving leaves of the Entry Unit. -/
theorem itemLeft_eq (g : Tag) (e : EntryUnit) :
    e.itemLeft g = e ∨ ((∃ h lead, e = .measuring h lead) ∧ e.itemLeft g = .untracked) := by
  unfold EntryUnit.itemLeft
  cases e with
  | clear | untracked => exact .inl rfl
  | measuring h lead =>
    dsimp only
    split
    · exact .inr ⟨⟨h, lead, rfl⟩, rfl⟩
    · exact .inl rfl

/-! ## Every item leaves (R51) -/

theorem flush_foldl (s : State) : flush s = s.trk.track.foldl (fun t it => leave it.tag .flushed t) s := by
  rw [flush, List.foldl_map]

/-- What every leaving keeps, a flush keeps. -/
theorem flush_keeps {P : State → Prop} {s : State} (step : ∀ g t, P t → P (leave g .flushed t)) (hs : P s) :
    P (flush s) := by
  have left : ∀ (l : List Tag) (t : State), P t → P (l.foldl (fun t g => leave g .flushed t) t) := by
    intro l
    induction l with
    | nil => exact fun t h => h
    | cons g l ih => exact fun t h => ih _ (step g t h)
  exact left _ s hs

theorem leave_zon (g : Tag) (r : ExitReason) (s : State) : (leave g r s).zon = s.zon := by
  unfold leave
  split
  · rfl
  · rw [offer_zon]
    rfl

theorem flush_zon (s : State) : (flush s).zon = s.zon :=
  flush_keeps (P := fun t => t.zon = s.zon) (fun g t h => (leave_zon g _ t).trans h) rfl

theorem flush_out (s : State) : (flush s).out = s.out :=
  flush_keeps (P := fun t => t.out = s.out) (fun g t h => (ZoneLaws.leave_out g _ t).trans h) rfl

/-- R46: what leavings leave of the Entry Unit. -/
theorem flush_entry (s : State) :
    (flush s).trk.entry = s.trk.entry ∨
      ((∃ g lead, s.trk.entry = .measuring g lead) ∧ (flush s).trk.entry = .untracked) := by
  refine flush_keeps (P := fun t => t.trk.entry = s.trk.entry ∨
    ((∃ g lead, s.trk.entry = .measuring g lead) ∧ t.trk.entry = .untracked)) (fun g t h => ?_) (.inl rfl)
  have left : (leave g .flushed t).trk.entry = t.trk.entry ∨
      (leave g .flushed t).trk.entry = t.trk.entry.itemLeft g := by
    unfold leave
    split
    · exact .inl rfl
    · rw [offer_trk]
      exact .inr rfl
  rcases left with e | e
  · rwa [e]
  rw [e]
  rcases itemLeft_eq g t.trk.entry with same | ⟨⟨x, lead, measuring⟩, gone⟩
  · rwa [same]
  · rcases h with h | ⟨-, untracked⟩
    · exact .inr ⟨⟨x, lead, h ▸ measuring⟩, gone⟩
    · rw [measuring] at untracked
      cases untracked

/-- R47: the link after a flush: one ITEM_DONE notice for each item, oldest first. -/
theorem flush_lnk {s : State} (items : ItemsOk s) :
    (flush s).lnk =
      s.trk.track.foldl (fun l it => offered (.itemDone s.now s.here { it with exit := .flushed }) l) s.lnk := by
  have left : ∀ (l : List Item) (t : State), ItemsOk t → t.trk.track = l → t.pos = s.pos →
      (l.foldl (fun t it => leave it.tag .flushed t) t).lnk =
        l.foldl (fun l it => offered (.itemDone s.now s.here { it with exit := .flushed }) l) t.lnk := by
    intro l
    induction l with
    | nil => exact fun t _ _ _ => rfl
    | cons it rest ih =>
      intro t items track pos
      have place : t.trk.track = [] ++ it :: rest := track
      have first := leave_place items place .flushed
      have rests : (leave it.tag .flushed t).trk.track = rest := by
        rw [first, offer_trk, takeOut_place items place]
        rfl
      have link : (leave it.tag .flushed t).lnk =
          offered (.itemDone s.now s.here { it with exit := .flushed }) t.lnk := by
        rw [first, offer_eq_offered, State.now, State.here, pos]
        rfl
      have work := leave_work it.tag .flushed t
      rw [List.foldl_cons, List.foldl_cons, ih _ (work.itemsOk items) rests (work.pos.trans pos), link]
  rw [flush_foldl]
  exact left _ s items rfl rfl

/-- R143: offers one after another look at the link and change the link. -/
theorem foldl_offer {α : Type} (n : α → Notice) (l : List α) (s : State) :
    l.foldl (fun t a => offer (n a) t) s = { s with lnk := l.foldl (fun k a => offered (n a) k) s.lnk } := by
  induction l generalizing s with
  | nil => rfl
  | cons a l ih => rw [List.foldl_cons, ih, offer_eq_offered, List.foldl_cons]

/-! ## The flush to CONFIG (R129, R132) -/

/-- R46, R51: nothing names an item once the track has been flushed. -/
theorem flush_stations {s : State} (inv : TrackInv s) (i : Fin 8) :
    (flush s).stn.stations[i] = ⟨s.stn.stations[i].record, none, none, []⟩ := by
  obtain ⟨items, refs, -⟩ := inv
  have work := flush_work s
  obtain ⟨-, cursors, openings, windows, -⟩ := work.refsOk items refs
  have noTag : ∀ g, g ∉ tags (flush s) := by simp [tags, flush_empty]
  have cursor : (flush s).stn.stations[i].cursor = none :=
    Option.eq_none_iff_forall_ne_some.2 fun g h => noTag g (cursors i g h)
  have opening : (flush s).stn.stations[i].opening = none :=
    Option.eq_none_iff_forall_ne_some.2 fun g h => noTag g (openings i g h)
  have closed : (flush s).stn.stations[i].windows = [] :=
    List.eq_nil_iff_forall_not_mem.2 fun w h => noTag _ (windows i w h)
  calc (flush s).stn.stations[i]
      = ⟨(flush s).stn.stations[i].record, (flush s).stn.stations[i].cursor, (flush s).stn.stations[i].opening,
          (flush s).stn.stations[i].windows⟩ := rfl
    _ = ⟨s.stn.stations[i].record, none, none, []⟩ := by rw [work.stationRecords i, cursor, opening, closed]

theorem flush_sources {s : State} (inv : TrackInv s) (v : Fin 4) :
    (flush s).vrd.sources[v] = ⟨s.vrd.sources[v].record, []⟩ := by
  obtain ⟨items, refs, -⟩ := inv
  have work := flush_work s
  obtain ⟨-, -, -, -, windows⟩ := work.refsOk items refs
  have closed : (flush s).vrd.sources[v].windows = [] :=
    List.eq_nil_iff_forall_not_mem.2 fun w h => by simpa [tags, flush_empty] using windows v w h
  calc (flush s).vrd.sources[v]
      = ⟨(flush s).vrd.sources[v].record, (flush s).vrd.sources[v].windows⟩ := rfl
    _ = ⟨s.vrd.sources[v].record, []⟩ := by rw [work.sourceRecords v, closed]

/-- R46, R51: the item being measured has gone with the others. -/
theorem flush_entry_eq {s : State} (inv : TrackInv s) :
    (flush s).trk.entry =
      (match s.trk.entry with | .clear => .clear | .measuring _ _ => .untracked | .untracked => .untracked) := by
  obtain ⟨items, refs, -⟩ := inv
  obtain ⟨measured, -⟩ := (flush_work s).refsOk items refs
  have idle : ∀ g lead, (flush s).trk.entry ≠ .measuring g lead := fun g lead h => by
    simpa [tags, flush_empty] using measured g lead h
  rcases flush_entry s with same | ⟨⟨g, lead, measuring⟩, gone⟩
  · rw [same] at idle ⊢
    cases e : s.trk.entry with
    | clear | untracked => rfl
    | measuring g lead => exact absurd e (idle g lead)
  · rw [gone, measuring]

/-! ## The obligations -/

/-- Settles O21: one leaving by its place in the track; a flush as leavings one after another. -/
theorem leavingRule : Obligations.LeavingRule := by
  unfold Obligations.LeavingRule
  refine ⟨fun s items => ⟨fun older newer it reason place => ?_, fun g reason absent => leave_absent absent reason,
    flush_foldl s, flush_empty s, ?_⟩, fun s it hm items => ?_⟩
  · intro moved
    rw [leave_place items place, takeOut_place items place]
    cases s.trk.entry <;> rfl
  · rw [flush_lnk items, foldl_offer]
    rfl
  · exact congrArg (leave it.tag .endOfTrack) (Stations.decideItem_eq items hm .atExit)

section Requests

variable {s : State} (tag : Byte)

theorem exec_stop_taken (p : List Byte) (h : Taken s) : exec (.stop tag p) s = .next (reqStop tag p s) :=
  congrArg _ (takeFrame_taken h)

theorem exec_clear_taken (p : List Byte) (h : Taken s) : exec (.clear tag p) s = .next (reqClear tag p s) :=
  congrArg _ (takeFrame_taken h)

/-- R129: a STOP outside CONFIG and ESTOP flushes the track. -/
theorem reqStop_flushes (estop : s.zon.zone ≠ .estop) (config : s.zon.zone ≠ .config) :
    reqStop tag [] s =
      answer 0x29 tag .ok [BitVec.ofNat 8 s.trk.track.length, ZoneState.config.code] (flushToConfig s) := by
  obtain ⟨-, zon, -⟩ := flushToConfig_spec s
  have zone : (flushToConfig s).zon.zone = .config := by rw [zon]
  unfold reqStop
  dsimp only
  rw [if_neg (not_not.2 rfl), zone]
  cases z : s.zon.zone with
  | estop => exact absurd z estop
  | config => exact absurd z config
  | armed | tracking | hold | fault => rfl

/-- R132: a CLEAR outside ESTOP. -/
theorem reqClear_wrongState (estop : s.zon.zone ≠ .estop) :
    reqClear tag [] s = answer 0x2B tag .wrongState [BitVec.ofNat 8 0, s.zon.zone.code] s := by
  unfold reqClear
  dsimp only
  rw [if_neg (not_not.2 rfl), if_pos estop]

/-- R132: a CLEAR with the E-STOP input asserted. -/
theorem reqClear_asserted (estop : s.zon.zone = .estop) (asserted : s.zon.estopN.accepted = false) :
    reqClear tag [] s = answer 0x2B tag .causePresent [BitVec.ofNat 8 0, s.zon.zone.code] s := by
  unfold reqClear
  dsimp only
  rw [if_neg (not_not.2 rfl), if_neg (not_not.2 estop), if_pos (by simp [asserted])]

/-- R132: a CLEAR with the E-STOP input released flushes the track. -/
theorem reqClear_flushes (estop : s.zon.zone = .estop) (released : s.zon.estopN.accepted = true) :
    reqClear tag [] s =
      answer 0x2B tag .ok [BitVec.ofNat 8 s.trk.track.length, ZoneState.config.code] (flushToConfig s) := by
  obtain ⟨-, zon, -⟩ := flushToConfig_spec s
  have zone : (flushToConfig s).zon.zone = .config := by rw [zon]
  unfold reqClear
  dsimp only
  rw [if_neg (not_not.2 rfl), if_neg (not_not.2 estop), if_neg (by simp [released]), zone]

end Requests

/-- Settles O44: the refusals in the order of the checks; then the flush, unit by unit. -/
theorem stopClearResult : Obligations.StopClearResult := by
  unfold Obligations.StopClearResult
  intro tag p s taken inv stopped cleared flushed
  have stops := exec_stop_taken tag p taken
  have clears := exec_clear_taken tag p taken
  have done : flushed (flushToConfig s) := by
    obtain ⟨items, -⟩ := id inv
    have work := flush_work s
    obtain ⟨empty, -, pos, inp, tch, -⟩ := flushToConfig_spec s
    refine ⟨empty, ?_, ?_, ?_, ?_, ?_, pos, inp, ?_, tch, ?_, fun i => ?_, fun v => ?_, ?_⟩
    · rw [flushToConfig, enterZone_trk, work.nextTag]
    · rw [flushToConfig, enterZone_trk, work.params]
    · rw [flushToConfig, enterZone_trk, work.snapshot]
    · rw [flushToConfig, enterZone_trk]
      exact flush_entry_eq inv
    · rw [flushToConfig, enterZone_zon, flush_zon]
    · rw [flushToConfig, enterZone_eq, offer_out]
      exact flush_out s
    · rw [flushToConfig, enterZone_eq, offer_vrd]
      exact work.classes
    · rw [flushToConfig, enterZone_eq, offer_stn]
      exact flush_stations inv i
    · rw [flushToConfig, enterZone_eq, offer_vrd]
      exact flush_sources inv v
    · rw [flushToConfig, enterZone_eq, foldl_offer, offer_eq_offered, offer_eq_offered, flush_zon, State.now,
        State.here, work.pos]
      exact congrArg (offered _) (flush_lnk items)
  refine ⟨fun more => ⟨stops.trans (congrArg _ (if_pos more)), clears.trans (congrArg _ (if_pos more))⟩, ?_, ?_, ?_, ?_,
    ?_, ?_⟩
  all_goals rintro rfl
  · intro estop
    simp only [reqStop, estop] at stops
    exact stops
  · intro config
    simp only [reqStop, config] at stops
    exact stops
  · exact fun estop config => ⟨_, done, stops.trans (congrArg _ (reqStop_flushes tag estop config))⟩
  · intro estop
    rw [reqClear_wrongState tag estop] at clears
    exact clears
  · intro estop asserted
    rw [reqClear_asserted tag estop asserted, estop] at clears
    exact clears
  · exact fun estop released => ⟨_, done, clears.trans (congrArg _ (reqClear_flushes tag estop released))⟩

end Sys2Proof.Leaving
end
